-- ==== Sys2Proof/Word.lean ====
section
/-! DEFINITION. The word types of the block: 8-bit bytes of the backing stores, 16-bit frame lengths
(LEN_W, spec/00_scope.md R7) and 32-bit registers and positions (PTR_W, R7). -/

namespace Sys2Proof

/-- One byte of a backing store or of a payload (spec/10_state.md R40). -/
abbrev Byte := BitVec 8

/-- A frame length or the 16-bit argument `n` of a command word (spec/00_scope.md R7, LEN_W). -/
abbrev Half := BitVec 16

/-- A register of the block or a position (spec/00_scope.md R7, PTR_W). -/
abbrev Word := BitVec 32

end Sys2Proof
end

