-- ==== Sys2Proof/Config.lean ====
section
/-! DEFINITION. What is fixed before reset (the parameters of spec/00_scope.md R7) and the free values:
constants without a body, for the results the spec leaves undefined (spec/93_implementation_defined.md U11). -/

namespace Sys2Proof

/-- TX_DRAIN_MODE (spec/00_scope.md R7): whether PROCESS_TX drains one frame or drains to exhaustion. -/
inductive DrainMode where
  | one
  | exhaust
  deriving DecidableEq, Repr

/-- HEADER_SIZE, the bytes of the length prefix, "fixed" (spec/00_scope.md R7). -/
def headerSize : Nat := 2

/-- The parameters of the block (spec/00_scope.md R7), "fixed before reset and never changed afterwards".
The defaults are those of R7; R7 gives no default for MAX_PAYLOAD, and the largest value it allows,
`min(65535, C - 3)`, stands here (DESIGN CHOICE, log 1). -/
structure Config where
  /-- C_TX, the capacity of the TX ring in bytes -/
  capTx : Nat := 4096
  /-- C_RX, the capacity of the RX ring in bytes -/
  capRx : Nat := 4096
  /-- MAX_PAYLOAD_TX, the largest payload the integrating system will pass to ENQUEUE on the TX ring -/
  maxPayloadTx : Nat := min 65535 (capTx - 3)
  /-- MAX_PAYLOAD_RX, the same for the RX ring -/
  maxPayloadRx : Nat := min 65535 (capRx - 3)
  /-- TX_LOW_WATERMARK, default `floor(C_TX / 4)` -/
  txLowWatermark : Nat := capTx / 4
  /-- RX_HIGH_WATERMARK, default `floor(C_RX / 4)` -/
  rxHighWatermark : Nat := capRx / 4
  /-- TX_DRAIN_MODE, default `one`, the source's behaviour -/
  txDrainMode : DrainMode := .one
  /-- SYNC_LATENCY (92_eei_decisions.md D9): a natural number, or none for "unbounded", the default; what it
  bounds is said at `State.settle` (log 12) -/
  syncLatency : Option Nat := none
  deriving DecidableEq, Repr

/-- The constraints one ring's capacity and largest payload must meet (spec/00_scope.md R7,
spec/70_reset_and_hazards.md R233). -/
def ringParamsValid (cap maxPayload : Nat) : Bool :=
  decide (3 ≤ cap) && decide (cap ≤ 2 ^ 32) && decide (headerSize + maxPayload + 1 ≤ cap) &&
    decide (maxPayload ≤ 65535)

/-- The range of a watermark, `0 .. 2^32 - 1` (92_eei_decisions.md, "Open parameters, gathered"; D16). -/
def watermarkValid (watermark : Nat) : Bool := decide (watermark ≤ 2 ^ 32 - 1)

/-- The constraints of spec/00_scope.md R7, spec/70_reset_and_hazards.md R233 and 92_eei_decisions.md, "Open
parameters, gathered"; both values of TX_DRAIN_MODE and every SYNC_LATENCY are legal. "The block does not
check them": the meanings do not read this, it is a premise of claims. -/
def Config.valid (c : Config) : Bool :=
  ringParamsValid c.capTx c.maxPayloadTx && ringParamsValid c.capRx c.maxPayloadRx &&
    watermarkValid c.txLowWatermark && watermarkValid c.rxHighWatermark

/-- Free value: RES of a side from the issue of an operation until its end (spec/10_state.md R25). -/
opaque Config.freeRes : Nat → Word

/-- Free value: VOFF after an operation that does not produce it (spec/30_encoding.md R104, U11). -/
opaque Config.freeVoff : Nat → Word

/-- Free value: VLEN after an operation that does not produce it (spec/30_encoding.md R104, U11). -/
opaque Config.freeVlen : Nat → Half

/-- Free value: RDATA after an operation that does not produce it (spec/30_encoding.md R104, U11). -/
opaque Config.freeRdata : Nat → Word

/-- Free value: RBYTE after an operation that does not produce it (spec/30_encoding.md R104, U11). -/
opaque Config.freeRbyte : Nat → Byte

end Sys2Proof
end

