-- ==== Sys2Proof/Syntax.lean ====
section
/-! DEFINITION. The names of the block (rings, sides, pointer registers, status bits, registers), the
transactions a port accepts, and `Instr`: one constructor per row of spec/opcode_table.json. -/

namespace Sys2Proof

/-- The two rings (spec/00_scope.md R12). -/
inductive Ring where
  | tx
  | rx
  deriving DecidableEq, Repr

/-- The two sides, fixed by the port they use (spec/60_exceptions.md R219). -/
inductive Side where
  | host
  | device
  deriving DecidableEq, Repr

/-- The four published pointer registers (spec/10_state.md R30). -/
inductive Ptr where
  /-- TX_TAIL_PTR, offset 0x00: `PUB_CONS[TX]`, owned by the device -/
  | txTail
  /-- RX_HEAD_PTR, offset 0x04: `PUB_PROD[RX]`, owned by the device -/
  | rxHead
  /-- HOST_TX_HEAD_PUB, offset 0x08: `PUB_PROD[TX]`, owned by the host -/
  | txHeadPub
  /-- HOST_RX_TAIL_PUB, offset 0x0C: `PUB_CONS[RX]`, owned by the host -/
  | rxTailPub
  deriving DecidableEq, Repr

/-- The three named bits of the interrupt latch (spec/10_state.md R36). -/
inductive IntBit where
  | rxReady
  | txSpace
  | error
  deriving DecidableEq, Repr

/-- The seven registers of the register block (spec/10_state.md R30). -/
inductive Reg where
  | ptr (p : Ptr)
  | intStatus
  | intEnable
  | intClear
  deriving DecidableEq, Repr

/-- What a port accepts (spec/70_reset_and_hazards.md R257): a command word (spec/30_encoding.md R100),
a register transaction (R105) or a memory transaction (R106). -/
inductive Txn where
  | cmd (w : BitVec 32)
  | rt (w : BitVec 9)
  | mt (w : BitVec 34)
  deriving DecidableEq, Repr

/-- The operations of the block, one constructor per row of spec/opcode_table.json. The side operands
WDATA, WBYTE and PBUF are not part of the word: they are held at the port (spec/10_state.md R25). -/
inductive Instr where
  /-- ENQUEUE (spec/40_ring_ops.md R120) -/
  | enqueue (g : Ring) (len : Half)
  /-- DRAIN (R123) -/
  | drain (g : Ring)
  /-- COMMIT (R125) -/
  | commit (g : Ring)
  /-- PTR_WRITE (spec/41_pointer_ops.md R140) -/
  | ptrWrite (p : Ptr)
  /-- PTR_READ (R141) -/
  | ptrRead (p : Ptr)
  /-- RAISE (spec/42_latch_ops.md R150) -/
  | raiseInt (b : IntBit)
  /-- ACK (R151) -/
  | ack (b : IntBit)
  /-- DISPATCH (R152) -/
  | dispatch
  /-- SEND (spec/43_agent_ops.md R160) -/
  | send (len : Half)
  /-- PROCESS_TX (R161, R162) -/
  | processTx
  /-- GENERATE_RX (R165) -/
  | generateRx (len : Half)
  /-- REG_RD.TX_TAIL_PTR (spec/44_port_access.md R185) -/
  | regRdTxTailPtr
  /-- REG_WR.TX_TAIL_PTR (R184) -/
  | regWrTxTailPtr
  /-- REG_RD.RX_HEAD_PTR (R185) -/
  | regRdRxHeadPtr
  /-- REG_WR.RX_HEAD_PTR (R184) -/
  | regWrRxHeadPtr
  /-- REG_RD.HOST_TX_HEAD_PUB (R185) -/
  | regRdHostTxHeadPub
  /-- REG_WR.HOST_TX_HEAD_PUB (R184) -/
  | regWrHostTxHeadPub
  /-- REG_RD.HOST_RX_TAIL_PUB (R185) -/
  | regRdHostRxTailPub
  /-- REG_WR.HOST_RX_TAIL_PUB (R184) -/
  | regWrHostRxTailPub
  /-- REG_RD.INT_STATUS (R189) -/
  | regRdIntStatus
  /-- REG_WR.INT_STATUS (R186) -/
  | regWrIntStatus
  /-- REG_RD.INT_ENABLE (R189) -/
  | regRdIntEnable
  /-- REG_WR.INT_ENABLE (R187) -/
  | regWrIntEnable
  /-- REG_RD.INT_CLEAR (R189) -/
  | regRdIntClear
  /-- REG_WR.INT_CLEAR (R188) -/
  | regWrIntClear
  /-- MEM_RD (R181) -/
  | memRd (g : Ring) (idx : Word)
  /-- MEM_WR (R182) -/
  | memWr (g : Ring) (idx : Word)
  deriving DecidableEq, Repr

end Sys2Proof
end

