-- ==== Sys2Proof/WellFormed.lean ====
section
/-! DEFINITION. When an operation with its side operands is a request of the interface: the byte index of a
memory transaction lies in its store (spec/30_encoding.md R106), and PBUF has the `n` bytes of the
command word (R102). -/

namespace Sys2Proof

/-- `C_g`, the capacity of ring `g` (spec/00_scope.md R12). -/
def Config.cap (c : Config) : Ring → Nat
  | .tx => c.capTx
  | .rx => c.capRx

/-- The operand of the instruction is one the interface has: `idx < C_g` for MEM_RD and MEM_WR
(spec/30_encoding.md R106); every other operand is legal by its type (R97 for the lengths). -/
def Instr.wellFormed (c : Config) : Instr → Bool
  | .memRd g idx => decide (idx.toNat < c.cap g)
  | .memWr g idx => decide (idx.toNat < c.cap g)
  | _ => true

/-- How many bytes of PBUF the instruction reads: the `len` of ENQUEUE, SEND and GENERATE_RX
(spec/30_encoding.md R101, R102), 0 for every other operation. -/
def Instr.payloadLength : Instr → Nat
  | .enqueue _ len => len.toNat
  | .send len => len.toNat
  | .generateRx len => len.toNat
  | _ => 0

/-- PBUF is "a buffer of `n` bytes" for the operations that take one (spec/30_encoding.md R102). -/
def Instr.payloadFits (pbuf : List Byte) : Instr → Bool
  | .enqueue _ len => decide (pbuf.length = len.toNat)
  | .send len => decide (pbuf.length = len.toNat)
  | .generateRx len => decide (pbuf.length = len.toNat)
  | _ => true

end Sys2Proof
end

