-- ==== Sys2Proof/Decode.lean ====
section
/-! DEFINITION. The decoder of the three word formats (spec/30_encoding.md R100, R101, R105, R106), total and
rejecting by name (R108), and the encoder written from the same tables. -/

namespace Sys2Proof

/-- Why a word is no operation of the block (spec/30_encoding.md R108 a, b, d). -/
inductive DecodeError where
  /-- a reserved `op` (R108 a) -/
  | reservedOp
  /-- a non-zero reserved field 23:17 (R108 b) -/
  | reservedField
  /-- `g = 1` on an operation that takes no ring (R108 b) -/
  | ringNotTaken
  /-- `n != 0` where R101 says 0 (R108 b) -/
  | argumentNotZero
  /-- `n` not one of the four pointer offsets on PTR_WRITE or PTR_READ (R108 b) -/
  | badPointerOffset
  /-- `n > 2` on RAISE or ACK (R108 b) -/
  | badBitIndex
  /-- an RT with an offset that is not one of the seven registers (R108 d, R190) -/
  | badRegisterOffset
  deriving DecidableEq, Repr

/-! ### Fields -/

/-- `op`, bits 31:24 of a command word (R100). -/
def cmdOp (w : BitVec 32) : BitVec 8 := w.extractLsb' 24 8

/-- The reserved field, bits 23:17 of a command word (R100). -/
def cmdReserved (w : BitVec 32) : BitVec 7 := w.extractLsb' 17 7

/-- `g`, bit 16 of a command word (R100). -/
def cmdRingBit (w : BitVec 32) : BitVec 1 := w.extractLsb' 16 1

/-- `n`, bits 15:0 of a command word (R100). -/
def cmdArg (w : BitVec 32) : Half := w.extractLsb' 0 16

/-- `w`, bit 8 of a register transaction (R105). -/
def rtWrite (w : BitVec 9) : BitVec 1 := w.extractLsb' 8 1

/-- `off`, bits 7:0 of a register transaction (R105). -/
def rtOffset (w : BitVec 9) : BitVec 8 := w.extractLsb' 0 8

/-- `w`, bit 33 of a memory transaction (R106). -/
def mtWrite (w : BitVec 34) : BitVec 1 := w.extractLsb' 33 1

/-- `g`, bit 32 of a memory transaction (R106). -/
def mtRingBit (w : BitVec 34) : BitVec 1 := w.extractLsb' 32 1

/-- `idx`, bits 31:0 of a memory transaction (R106). -/
def mtIndex (w : BitVec 34) : Word := w.extractLsb' 0 32

/-- Ring select: 0 = TX, 1 = RX (R100, R106). -/
def ringOfBit (b : BitVec 1) : Ring := if b = 0 then .tx else .rx

/-- Ring select: 0 = TX, 1 = RX (R100, R106). -/
def ringBit : Ring → BitVec 1
  | .tx => 0
  | .rx => 1

/-! ### Register offsets and bit indices -/

/-- The byte offset of a pointer register (spec/10_state.md R30). -/
def ptrOffset : Ptr → BitVec 8
  | .txTail => 0x00
  | .rxHead => 0x04
  | .txHeadPub => 0x08
  | .rxTailPub => 0x0C

/-- The byte offset of a register (spec/10_state.md R30). -/
def regOffset : Reg → BitVec 8
  | .ptr p => ptrOffset p
  | .intStatus => 0x10
  | .intEnable => 0x14
  | .intClear => 0x18

/-- The register at a byte offset (spec/10_state.md R30), none where there is none. -/
def regOfOffset (off : BitVec 8) : Option Reg :=
  if off = 0x00 then some (.ptr .txTail)
  else if off = 0x04 then some (.ptr .rxHead)
  else if off = 0x08 then some (.ptr .txHeadPub)
  else if off = 0x0C then some (.ptr .rxTailPub)
  else if off = 0x10 then some .intStatus
  else if off = 0x14 then some .intEnable
  else if off = 0x18 then some .intClear
  else none

/-- The pointer register named by the argument `n` of PTR_WRITE and PTR_READ (R101). -/
def ptrOfArg (n : Half) : Option Ptr :=
  if n = 0x00 then some .txTail
  else if n = 0x04 then some .rxHead
  else if n = 0x08 then some .txHeadPub
  else if n = 0x0C then some .rxTailPub
  else none

/-- The index of a latch bit (spec/10_state.md R36). -/
def bitIndex : IntBit → Half
  | .rxReady => 0
  | .txSpace => 1
  | .error => 2

/-- The latch bit named by the argument `n` of RAISE and ACK (R101). -/
def bitOfArg (n : Half) : Option IntBit :=
  if n = 0 then some .rxReady
  else if n = 1 then some .txSpace
  else if n = 2 then some .error
  else none

/-! ### The decoder -/

/-- An operation that takes neither ring nor argument: both fields must be 0 (R101, R108 b). -/
def decodeBare (w : BitVec 32) (i : Instr) : Except DecodeError Instr :=
  if cmdRingBit w ≠ 0 then .error .ringNotTaken
  else if cmdArg w ≠ 0 then .error .argumentNotZero
  else .ok i

/-- An operation that takes a ring and no argument (R101, R108 b). -/
def decodeRingOnly (w : BitVec 32) (i : Ring → Instr) : Except DecodeError Instr :=
  if cmdArg w ≠ 0 then .error .argumentNotZero else .ok (i (ringOfBit (cmdRingBit w)))

/-- An operation that takes a length and no ring (R101, R108 b). -/
def decodeLength (w : BitVec 32) (i : Half → Instr) : Except DecodeError Instr :=
  if cmdRingBit w ≠ 0 then .error .ringNotTaken else .ok (i (cmdArg w))

/-- An operation that takes a pointer offset and no ring (R101, R108 b). -/
def decodePointer (w : BitVec 32) (i : Ptr → Instr) : Except DecodeError Instr :=
  if cmdRingBit w ≠ 0 then .error .ringNotTaken
  else match ptrOfArg (cmdArg w) with
    | some p => .ok (i p)
    | none => .error .badPointerOffset

/-- An operation that takes a bit index and no ring (R101, R108 b). -/
def decodeBit (w : BitVec 32) (i : IntBit → Instr) : Except DecodeError Instr :=
  if cmdRingBit w ≠ 0 then .error .ringNotTaken
  else match bitOfArg (cmdArg w) with
    | some b => .ok (i b)
    | none => .error .badBitIndex

/-- The command words: the operation codes of R101; every other value of `op` is reserved (R108 a). -/
def decodeCmd (w : BitVec 32) : Except DecodeError Instr :=
  if cmdReserved w ≠ 0 then .error .reservedField
  else if cmdOp w = 0x01 then .ok (.enqueue (ringOfBit (cmdRingBit w)) (cmdArg w))
  else if cmdOp w = 0x02 then decodeRingOnly w .drain
  else if cmdOp w = 0x03 then decodeRingOnly w .commit
  else if cmdOp w = 0x04 then decodePointer w .ptrWrite
  else if cmdOp w = 0x05 then decodePointer w .ptrRead
  else if cmdOp w = 0x08 then decodeBit w .raiseInt
  else if cmdOp w = 0x09 then decodeBit w .ack
  else if cmdOp w = 0x0A then decodeBare w .dispatch
  else if cmdOp w = 0x10 then decodeLength w .send
  else if cmdOp w = 0x11 then decodeBare w .processTx
  else if cmdOp w = 0x12 then decodeLength w .generateRx
  else .error .reservedOp

/-- REG_RD of a register, by its row `REG_RD.<REGISTER>` (R105). -/
def regRead : Reg → Instr
  | .ptr .txTail => .regRdTxTailPtr
  | .ptr .rxHead => .regRdRxHeadPtr
  | .ptr .txHeadPub => .regRdHostTxHeadPub
  | .ptr .rxTailPub => .regRdHostRxTailPub
  | .intStatus => .regRdIntStatus
  | .intEnable => .regRdIntEnable
  | .intClear => .regRdIntClear

/-- REG_WR of a register, by its row `REG_WR.<REGISTER>` (R105). -/
def regWrite : Reg → Instr
  | .ptr .txTail => .regWrTxTailPtr
  | .ptr .rxHead => .regWrRxHeadPtr
  | .ptr .txHeadPub => .regWrHostTxHeadPub
  | .ptr .rxTailPub => .regWrHostRxTailPub
  | .intStatus => .regWrIntStatus
  | .intEnable => .regWrIntEnable
  | .intClear => .regWrIntClear

/-- The register transactions (R105); an offset that is none of the seven is refused (R108 d, R190). -/
def decodeRt (w : BitVec 9) : Except DecodeError Instr :=
  match regOfOffset (rtOffset w) with
  | some r => .ok (if rtWrite w = 0 then regRead r else regWrite r)
  | none => .error .badRegisterOffset

/-- The memory transactions (R106). Whether `idx < C_g` depends on the parameters and is checked where
the access is performed. -/
def decodeMt (w : BitVec 34) : Instr :=
  if mtWrite w = 0 then .memRd (ringOfBit (mtRingBit w)) (mtIndex w)
  else .memWr (ringOfBit (mtRingBit w)) (mtIndex w)

/-- The decoder: every transaction gives an operation or is rejected by name. -/
def decode : Txn → Except DecodeError Instr
  | .cmd w => decodeCmd w
  | .rt w => decodeRt w
  | .mt w => .ok (decodeMt w)

/-! ### The encoder -/

/-- A command word from its fields (R100). -/
def cmdWord (op : BitVec 8) (g : BitVec 1) (n : Half) : BitVec 32 :=
  ((op ++ (0 : BitVec 7)) ++ g) ++ n

/-- A register transaction from its fields (R105). -/
def rtWord (wr : BitVec 1) (r : Reg) : BitVec 9 := wr ++ regOffset r

/-- A memory transaction from its fields (R106). -/
def mtWord (wr : BitVec 1) (g : Ring) (idx : Word) : BitVec 34 := (wr ++ ringBit g) ++ idx

/-- The word of an instruction, from the tables of R101, R105 and R106. -/
def encode : Instr → Txn
  | .enqueue g len => .cmd (cmdWord 0x01 (ringBit g) len)
  | .drain g => .cmd (cmdWord 0x02 (ringBit g) 0)
  | .commit g => .cmd (cmdWord 0x03 (ringBit g) 0)
  | .ptrWrite p => .cmd (cmdWord 0x04 0 ((ptrOffset p).setWidth 16))
  | .ptrRead p => .cmd (cmdWord 0x05 0 ((ptrOffset p).setWidth 16))
  | .raiseInt b => .cmd (cmdWord 0x08 0 (bitIndex b))
  | .ack b => .cmd (cmdWord 0x09 0 (bitIndex b))
  | .dispatch => .cmd (cmdWord 0x0A 0 0)
  | .send len => .cmd (cmdWord 0x10 0 len)
  | .processTx => .cmd (cmdWord 0x11 0 0)
  | .generateRx len => .cmd (cmdWord 0x12 0 len)
  | .regRdTxTailPtr => .rt (rtWord 0 (.ptr .txTail))
  | .regWrTxTailPtr => .rt (rtWord 1 (.ptr .txTail))
  | .regRdRxHeadPtr => .rt (rtWord 0 (.ptr .rxHead))
  | .regWrRxHeadPtr => .rt (rtWord 1 (.ptr .rxHead))
  | .regRdHostTxHeadPub => .rt (rtWord 0 (.ptr .txHeadPub))
  | .regWrHostTxHeadPub => .rt (rtWord 1 (.ptr .txHeadPub))
  | .regRdHostRxTailPub => .rt (rtWord 0 (.ptr .rxTailPub))
  | .regWrHostRxTailPub => .rt (rtWord 1 (.ptr .rxTailPub))
  | .regRdIntStatus => .rt (rtWord 0 .intStatus)
  | .regWrIntStatus => .rt (rtWord 1 .intStatus)
  | .regRdIntEnable => .rt (rtWord 0 .intEnable)
  | .regWrIntEnable => .rt (rtWord 1 .intEnable)
  | .regRdIntClear => .rt (rtWord 0 .intClear)
  | .regWrIntClear => .rt (rtWord 1 .intClear)
  | .memRd g idx => .mt (mtWord 0 g idx)
  | .memWr g idx => .mt (mtWord 1 g idx)

/-! ### The numbering of spec/opcode_table.json -/

/-- The transaction whose bits are `w`, by the width the table gives the row, in bits or in whole bytes:
32 for CMD, 9 (16) for RT, 34 (40) for MT. A word with a bit set beyond its format is none. -/
def txnOfTable (nbits w : Nat) : Option Txn :=
  if nbits = 32 then (if w < 2 ^ 32 then some (.cmd (BitVec.ofNat 32 w)) else none)
  else if nbits = 9 || nbits = 16 then (if w < 2 ^ 9 then some (.rt (BitVec.ofNat 9 w)) else none)
  else if nbits = 34 || nbits = 40 then (if w < 2 ^ 34 then some (.mt (BitVec.ofNat 34 w)) else none)
  else none

/-- The instruction the decoder reads from a word numbered as spec/opcode_table.json numbers its rows. -/
def decodeTableWord (nbits w : Nat) : Option Instr :=
  match txnOfTable nbits w with
  | some t => (decode t).toOption
  | none => none

end Sys2Proof
end

