-- ==== Sys2Proof/Machine/State.lean ====
section
/-! DEFINITION. The state of the block as plain data (spec/10_state.md): positions, pointer registers and their
reader-side copies, the latch, the two backing stores, the ports with the operation in progress, the output
events; and, as the model's own fields, the inputs that say which agent acts next. -/

namespace Sys2Proof.Machine

/-- Nothing in the block faults (spec/60_exceptions.md R202): this type has no constructor, so no step
can answer a fault. -/
inductive Fault where
  deriving DecidableEq, Repr

/-- The requests that are no operation of the block: "a model refuses the request" (spec/30_encoding.md
R108). Each is safe: the hardware's "no effect" is not modelled, so nothing can be proved from it. -/
inductive Refusal where
  /-- raised by an arm of `exec` whose instruction has no meaning yet; safe -/
  | notModelled (mnemonic : String)
  /-- raised by `step` on a word the decoder rejects (R108 a, b, d; the log's entry 9); safe -/
  | badEncoding (e : DecodeError)
  /-- raised by a meaning when a side has no right to issue the operation (R107, R108 c; log 8); safe -/
  | notIssuer
  /-- raised by a meaning when an operation of that side is in progress (U18; log 11); safe -/
  | portBusy
  /-- raised by ENQUEUE, SEND and GENERATE_RX when PBUF has not `len` bytes (R102; log 10); safe -/
  | payloadSize
  /-- raised by MEM_RD and MEM_WR when `idx >= C_g` (R108 d, R190; log 9); safe -/
  | badIndex
  /-- raised by PTR_WRITE and REG_WR of a pointer when the value is `>= C_g` (R108 e; log 9); safe -/
  | badPointer
  deriving DecidableEq, Repr

/-! ### Families of like registers -/

/-- One thing per ring. -/
structure PerRing (α : Type) where
  tx : α
  rx : α
  deriving DecidableEq, Repr

/-- One thing per side. -/
structure PerSide (α : Type) where
  host : α
  device : α
  deriving DecidableEq, Repr

/-- One thing per published pointer. -/
structure PerPtr (α : Type) where
  txTail : α
  rxHead : α
  txHeadPub : α
  rxTailPub : α
  deriving DecidableEq, Repr

def PerRing.get {α : Type} (f : PerRing α) : Ring → α
  | .tx => f.tx
  | .rx => f.rx

def PerRing.set {α : Type} (f : PerRing α) (g : Ring) (v : α) : PerRing α :=
  match g with
  | .tx => { f with tx := v }
  | .rx => { f with rx := v }

def PerSide.get {α : Type} (f : PerSide α) : Side → α
  | .host => f.host
  | .device => f.device

def PerSide.set {α : Type} (f : PerSide α) (sd : Side) (v : α) : PerSide α :=
  match sd with
  | .host => { f with host := v }
  | .device => { f with device := v }

def PerPtr.get {α : Type} (f : PerPtr α) : Ptr → α
  | .txTail => f.txTail
  | .rxHead => f.rxHead
  | .txHeadPub => f.txHeadPub
  | .rxTailPub => f.rxTailPub

/-- The family whose entry at each pointer is `f` of it. -/
def PerPtr.ofFn {α : Type} (f : Ptr → α) : PerPtr α := ⟨f .txTail, f .rxHead, f .txHeadPub, f .rxTailPub⟩

def PerPtr.set {α : Type} (f : PerPtr α) (p : Ptr) (v : α) : PerPtr α :=
  match p with
  | .txTail => { f with txTail := v }
  | .rxHead => { f with rxHead := v }
  | .txHeadPub => { f with txHeadPub := v }
  | .rxTailPub => { f with rxTailPub := v }

/-! ### The operation in progress -/

/-- Why a frame is being written: ENQUEUE (and SEND), or GENERATE_RX, which ends with the RX_READY
watermark test (spec/43_agent_ops.md R165 step 5). -/
inductive EnqJob where
  | plain
  | generate
  deriving DecidableEq, Repr

/-- Why a frame is being drained, with what the operation around the DRAIN holds. -/
inductive DrainJob where
  /-- the operation DRAIN itself (spec/40_ring_ops.md R123) -/
  | plain (g : Ring)
  /-- PROCESS_TX (spec/43_agent_ops.md R161, R162): `c0`, and the number `k` of frames drained so far -/
  | process (c0 : Word) (k : Nat)
  /-- the RX_READY handler of DISPATCH (R168): the bits of the status snapshot not yet acknowledged
  (spec/42_latch_ops.md R152), and the number `k` of frames drained so far -/
  | dispatch (todo : List IntBit) (k : Nat)
  deriving DecidableEq, Repr

/-- "Which operation is in progress and which of its atomic actions comes next" (spec/10_state.md R24),
with the snapshots of R41. Each constructor names the NEXT atomic action. -/
inductive Phase where
  /-- ENQUEUE step 2, GENERATE_RX step 1: PtrRead of `PUB_CONS[g]` -/
  | frameRead (g : Ring) (job : EnqJob) (len : Half)
  /-- ENQUEUE steps 4 to 8: write the first of the frame bytes left, at `pos`; when none is left,
  advance and PtrWrite `PUB_PROD[g]`. `cp` is the pointer snapshot. -/
  | frameWrite (g : Ring) (job : EnqJob) (len : Half) (cp : Word) (pos : Nat) (rest : List Byte)
  /-- the RAISE that ends PROCESS_TX or GENERATE_RX -/
  | raiseLast (b : IntBit)
  /-- DRAIN step 1: PtrRead of `PUB_PROD[g]` -/
  | drainRead (job : DrainJob)
  /-- DRAIN step 4: read the low length byte; `pp` is the pointer snapshot -/
  | headerLow (job : DrainJob) (pp : Word)
  /-- DRAIN steps 4 to 8: read the high length byte, decide, advance -/
  | headerHigh (job : DrainJob) (pp : Word) (b0 : Byte)
  /-- the copy-out of a view, `left` bytes from `pos` still to read, `acc` read so far; when none is
  left, emit the payload -/
  | copyOut (job : DrainJob) (pp : Word) (pos : Nat) (left : Nat) (acc : List Byte)
  /-- the COMMIT inside PROCESS_TX or DISPATCH -/
  | giveBack (job : DrainJob) (pp : Word)
  /-- DISPATCH step 1: read INT_STATUS -/
  | readStatus
  /-- the ERROR handler: emit ErrorReport() -/
  | report (todo : List IntBit)
  /-- DISPATCH step 2: ACK the first bit of `todo` -/
  | ackBit (todo : List IntBit)
  deriving DecidableEq, Repr

/-- An output event (spec/10_state.md R48). -/
inductive Event where
  | sinkHost (bytes : List Byte)
  | sinkDevice (bytes : List Byte)
  | errorReport
  deriving DecidableEq, Repr

/-- The port of one side (spec/70_reset_and_hazards.md R257): operand registers, result registers
(spec/10_state.md R25) and the operation in progress (R24). That the operand registers `txn`, `wdata`, `wbyte`
and `pbuf` keep their values after the operation, until the side's next request, is a DESIGN CHOICE (log 21). -/
structure Port where
  /-- the word presented: CMD, RT or MT -/
  txn : Txn
  /-- WDATA -/
  wdata : Word
  /-- WBYTE -/
  wbyte : Byte
  /-- PBUF -/
  pbuf : List Byte
  /-- the operation in progress, none when the side is idle -/
  busy : Option Phase
  /-- RES -/
  res : Word
  /-- VOFF -/
  voff : Word
  /-- VLEN -/
  vlen : Half
  /-- RDATA -/
  rdata : Word
  /-- RBYTE -/
  rbyte : Byte
  deriving DecidableEq, Repr

/-! ### What the agents do next (the model's own) -/

/-- A request at a port with its side operands (spec/30_encoding.md R100 to R106). -/
structure Request where
  txn : Txn
  wdata : Word
  wbyte : Byte
  pbuf : List Byte
  deriving DecidableEq, Repr

/-- What happens next (log 2): the interleaving of the agents and the requests they make come from
outside the block (spec/00_scope.md R6). -/
inductive Input where
  /-- the synchroniser channel of `p` performs SYNC (spec/41_pointer_ops.md R142) -/
  | sync (p : Ptr)
  /-- a side presents a request and performs up to `quantum` atomic actions of it -/
  | issue (side : Side) (req : Request) (quantum : Nat)
  /-- a side goes on with its operation in progress for up to `quantum` atomic actions -/
  | resume (side : Side) (quantum : Nat)
  deriving DecidableEq, Repr

/-- A backing store (spec/10_state.md R40): the bytes that are not 0, at strictly rising indices. An
index that is not listed reads 0, the reset content (R46, log 5). -/
abbrev Memory := List Host.Cell

/-- The whole block. -/
structure State where
  /-- the parameters (spec/00_scope.md R7) -/
  cfg : Config
  /-- `loc.prod_pos[g]` (spec/10_state.md R20) -/
  prodPos : PerRing Word
  /-- `loc.cons_pos[g]` (R21) -/
  consPos : PerRing Word
  /-- `mem[g]` (R40) -/
  store : PerRing Memory
  /-- `reg[P]` (R31, R32) -/
  reg : PerPtr Word
  /-- `seen[P]` (R33) -/
  seen : PerPtr Word
  /-- INT_STATUS (R35) -/
  intStatus : Word
  /-- INT_ENABLE (R37) -/
  intEnable : Word
  /-- the two ports (spec/70_reset_and_hazards.md R257) -/
  port : PerSide Port
  /-- the output events of each agent, oldest first (R48) -/
  events : PerSide (List Event)
  /-- model's own: what happens next (log 2) -/
  inputs : List Input
  /-- model's own: the side whose request is executed (log 2) -/
  side : Side
  /-- model's own: how many atomic actions the executed operation performs in this turn (log 3) -/
  quantum : Nat
  /-- model's own: for each pointer, how many atomic actions its newest value has waited to cross; read only
  where SYNC_LATENCY is bounded (log 12) -/
  waited : PerPtr Nat
  /-- model's own: the counter the free values are drawn with (log 7) -/
  draws : Nat
  deriving DecidableEq, Repr

/-- A port after reset: no operation in progress; operand and result registers, which the spec leaves
unspecified (R46), at 0 (DESIGN CHOICE, log 6). -/
def Port.reset : Port where
  txn := .cmd 0
  wdata := 0
  wbyte := 0
  pbuf := []
  busy := none
  res := 0
  voff := 0
  vlen := 0
  rdata := 0
  rbyte := 0

/-- The block right after reset for given parameters: "every piece of state of the block is zero"
(spec/10_state.md R46, spec/70_reset_and_hazards.md R230, R231). -/
def State.resetWith (c : Config) : State where
  cfg := c
  prodPos := ⟨0, 0⟩
  consPos := ⟨0, 0⟩
  store := ⟨[], []⟩
  reg := ⟨0, 0, 0, 0⟩
  seen := ⟨0, 0, 0, 0⟩
  intStatus := 0
  intEnable := 0
  port := ⟨Port.reset, Port.reset⟩
  events := ⟨[], []⟩
  inputs := []
  side := .host
  quantum := 0
  waited := ⟨0, 0, 0, 0⟩
  draws := 0

/-- The block right after reset, with the default parameters (log 1). -/
def State.reset : State := State.resetWith {}

end Sys2Proof.Machine
end

