-- ==== Sys2Proof/Machine/Flags.lean ====
section
/-! DEFINITION. The interrupt latch: the computations on the status word, the enable mask and the `irq` output
(spec/10_state.md R35 to R39). The block has no condition codes (R26). -/

namespace Sys2Proof.Machine

/-- `INT_MASK = 0x7`, the implemented bits (R36). -/
def intMask : Word := 0x7

/-- The bit of the latch words (R36): RX_READY 0x1, TX_SPACE 0x2, ERROR 0x4. -/
def bitMask : IntBit → Word
  | .rxReady => 0x1
  | .txSpace => 0x2
  | .error => 0x4

/-- The OR of RAISE and of a write to INT_STATUS: write-1-to-set, bits 31:3 ignored
(spec/42_latch_ops.md R150, spec/44_port_access.md R186). -/
def setStatus (status v : Word) : Word := status ||| (v &&& intMask)

/-- The AND-NOT of ACK and of a write to INT_CLEAR: write-1-to-clear, bits 31:3 ignored
(spec/42_latch_ops.md R151, spec/44_port_access.md R188). -/
def clearStatus (status v : Word) : Word := status &&& ~~~(v &&& intMask)

/-- The plain store of the three implemented bits of INT_ENABLE (spec/44_port_access.md R187). -/
def enableValue (v : Word) : Word := v &&& intMask

/-- A status bit is 1. -/
def bitIsSet (status : Word) (b : IntBit) : Bool := decide (status &&& bitMask b ≠ 0)

/-- The bits set in the status word, in the order DISPATCH serves them: RX_READY, TX_SPACE, ERROR
(spec/42_latch_ops.md R152, R154). -/
def pendingBits (status : Word) : List IntBit :=
  [IntBit.rxReady, .txSpace, .error].filter (bitIsSet status)

/-- The `irq` output (spec/10_state.md R39, spec/60_exceptions.md R205):
`(INT_STATUS & INT_ENABLE & 0x7) != 0`. -/
def State.irq (s : State) : Bool := decide (s.intStatus &&& s.intEnable &&& intMask ≠ 0)

end Sys2Proof.Machine
end

