-- ==== Sys2Proof/Machine/Operands.lean ====
section
/-! DEFINITION. Operands and results: which register belongs to which ring and side, who may issue what, the
position arithmetic, the frame format, and the result words. -/

namespace Sys2Proof.Machine

/-! ### Roles (spec/00_scope.md R12, R13; spec/10_state.md R30) -/

/-- The other side. -/
def otherSide : Side → Side
  | .host => .device
  | .device => .host

/-- `producer(g)`: host for TX, device for RX (spec/00_scope.md R12). -/
def producer : Ring → Side
  | .tx => .host
  | .rx => .device

/-- `consumer(g)`: device for TX, host for RX (spec/00_scope.md R12). -/
def consumer : Ring → Side
  | .tx => .device
  | .rx => .host

/-- `PUB_PROD[g]` (spec/10_state.md R30). -/
def pubProd : Ring → Ptr
  | .tx => .txHeadPub
  | .rx => .rxHead

/-- `PUB_CONS[g]` (spec/10_state.md R30). -/
def pubCons : Ring → Ptr
  | .tx => .txTail
  | .rx => .rxTailPub

/-- `owner(P)`, the "owner (writer)" column of spec/10_state.md R30. -/
def owner : Ptr → Side
  | .txTail => .device
  | .rxHead => .device
  | .txHeadPub => .host
  | .rxTailPub => .host

/-- The ring a pointer register belongs to (spec/10_state.md R30). -/
def ptrRing : Ptr → Ring
  | .txTail => .tx
  | .txHeadPub => .tx
  | .rxHead => .rx
  | .rxTailPub => .rx

/-- The issue rights of spec/30_encoding.md R107. -/
def mayIssue (sd : Side) : Instr → Bool
  | .enqueue g _ => decide (sd = producer g)
  | .drain g => decide (sd = consumer g)
  | .commit g => decide (sd = consumer g)
  | .ptrWrite p => decide (sd = owner p)
  | .ptrRead _ => true
  | .raiseInt _ => true
  | .ack _ => decide (sd = .host)
  | .dispatch => decide (sd = .host)
  | .send _ => decide (sd = .host)
  | .processTx => decide (sd = .device)
  | .generateRx _ => decide (sd = .device)
  | .regRdTxTailPtr => true
  | .regWrTxTailPtr => decide (sd = owner .txTail)
  | .regRdRxHeadPtr => true
  | .regWrRxHeadPtr => decide (sd = owner .rxHead)
  | .regRdHostTxHeadPub => true
  | .regWrHostTxHeadPub => decide (sd = owner .txHeadPub)
  | .regRdHostRxTailPub => true
  | .regWrHostRxTailPub => decide (sd = owner .rxTailPub)
  | .regRdIntStatus => true
  | .regWrIntStatus => true
  | .regRdIntEnable => true
  | .regWrIntEnable => decide (sd = .host)
  | .regRdIntClear => true
  | .regWrIntClear => decide (sd = .host)
  | .memRd g _ => decide (sd = consumer g)
  | .memWr g _ => decide (sd = producer g)

/-! ### Position arithmetic (spec/00_scope.md R10, spec/40_ring_ops.md R128) -/

/-- `dist(a, b, C) = (a - b) mod C` (spec/00_scope.md R10): the mathematical remainder, in `[0, C)`
for every `a` and `b` when `C > 0`. -/
def dist (a b : Word) (c : Nat) : Nat := (a.toNat + (c - b.toNat % c)) % c

/-- `(pos + n) mod C` held in a 32-bit position register; the sum does not wrap before it is reduced
(spec/30_encoding.md R96 c, spec/40_ring_ops.md R128 a, 90_conflicts.md C5). -/
def advance (pos : Word) (n c : Nat) : Word := BitVec.ofNat 32 ((pos.toNat + n) % c)

/-- `free = C - 1 - used` (spec/40_ring_ops.md R120 step 3), `used = (prod - cons) mod C`. -/
def freeSpace (prod cons : Word) (c : Nat) : Nat := c - 1 - dist prod cons c

/-- The bytes a frame of payload length `len` takes: `len + 2`, which does not wrap
(spec/30_encoding.md R91, R96 b). -/
def frameSize (len : Half) : Nat := len.toNat + headerSize

/-- A quantity crosses a watermark upward within one call (spec/43_agent_ops.md R163, R166;
90_conflicts.md C4): `before < WM <= after`. -/
def crosses (before wm after : Nat) : Bool := decide (before < wm) && decide (wm ≤ after)

/-! ### The frame (spec/30_encoding.md R91) -/

/-- The bytes of a frame in logical order: the length, low byte first, then the payload
(spec/30_encoding.md R91, spec/20_memory.md R60, R61). -/
def frameBytes (len : Half) (payload : List Byte) : List Byte :=
  len.extractLsb' 0 8 :: len.extractLsb' 8 8 :: payload

/-- `L = b0 | (b1 << 8)` (spec/30_encoding.md R96 a). -/
def lengthOf (b0 b1 : Byte) : Half := b1 ++ b0

/-! ### Results (spec/30_encoding.md R103) -/

/-- The two causes of WouldBlock (spec/60_exceptions.md R200). -/
inductive BlockCause where
  | header
  | partialFrame
  deriving DecidableEq, Repr

/-- The typed results (spec/60_exceptions.md R200). -/
inductive Result where
  | ok
  | frameTooLarge
  | insufficientSpace
  | wouldBlock (cause : BlockCause)
  deriving DecidableEq, Repr

/-- The result word RES: `kind` in bits 7:0, `wb_cause` in bit 8 (spec/30_encoding.md R103). -/
def resultWord : Result → Word
  | .ok => 0x000
  | .frameTooLarge => 0x001
  | .insufficientSpace => 0x002
  | .wouldBlock .header => 0x003
  | .wouldBlock .partialFrame => 0x103

end Sys2Proof.Machine
end

