-- ==== Sys2Proof/Machine/Ops.lean ====
section
/-! DEFINITION. The named operations over the state: backing stores, positions, pointers, the latch, ports and
results; then the atomic actions of the operations (spec/10_state.md R45), one definition each, and `run`,
which performs them one after another. The block takes no exception and returns from none
(spec/60_exceptions.md R202, R215): `finish`, which presents a typed result, stands in that place. -/

namespace Sys2Proof.Machine

open Host (Outcome)

/-! ### Backing stores (spec/10_state.md R40) -/

/-- What an index that is not listed reads as: the reset content 0x00 (spec/10_state.md R46, log 5). -/
def Memory.blank : Byte := 0

/-- The byte at an index. -/
def Memory.read : Memory → Nat → Byte
  | [], _ => Memory.blank
  | (j, c) :: m, i => if i = j then c else Memory.read m i

/-- Put a byte in front, unless it is what an unlisted index reads as. -/
def Memory.cons (i : Nat) (b : Byte) (m : Memory) : Memory :=
  if b = Memory.blank then m else (i, b) :: m

/-- Store a byte, keeping the canonical form. -/
def Memory.write : Memory → Nat → Byte → Memory
  | [], i, b => Memory.cons i b []
  | (j, c) :: m, i, b =>
    if i < j then Memory.cons i b ((j, c) :: m)
    else if i = j then Memory.cons i b m
    else (j, c) :: Memory.write m i b

/-- The canonical form: indices strictly rising, no entry equal to what an unlisted index reads as. -/
abbrev Memory.wf (m : Memory) : Prop :=
  (m.map Prod.fst).Pairwise (· < ·) ∧ ∀ e ∈ m, e.2 ≠ Memory.blank

/-! ### Reading and updating the state -/

/-- `C_g`. -/
def State.cap (s : State) (g : Ring) : Nat := s.cfg.cap g

/-- `mem[g][i]`, the index reduced mod C (spec/20_memory.md R63). -/
def State.byteAt (s : State) (g : Ring) (i : Nat) : Byte := (s.store.get g).read (i % s.cap g)

/-- `mem[g][i] <- b`, the index reduced mod C. -/
def State.setByte (s : State) (g : Ring) (i : Nat) (b : Byte) : State :=
  { s with store := s.store.set g ((s.store.get g).write (i % s.cap g) b) }

/-- `loc.prod_pos[g] <- v`. -/
def State.setProd (s : State) (g : Ring) (v : Word) : State := { s with prodPos := s.prodPos.set g v }

/-- `loc.cons_pos[g] <- v`. -/
def State.setCons (s : State) (g : Ring) (v : Word) : State := { s with consPos := s.consPos.set g v }

/-- `reg[P] <- v`, all 32 bits at once (spec/41_pointer_ops.md R140, spec/20_memory.md R66 a). In the
reference model the release ordering is program order (spec/20_memory.md R79). -/
def State.setReg (s : State) (p : Ptr) (v : Word) : State := { s with reg := s.reg.set p v }

/-- SYNC: `seen[P] <- reg[P]` (spec/41_pointer_ops.md R142). Nothing else writes `seen`. -/
def State.syncPtr (s : State) (p : Ptr) : State := { s with seen := s.seen.set p (s.reg.get p) }

/-- `PtrRead(side, P)` (spec/41_pointer_ops.md R141): the owner reads `reg[P]`, the other side the
synchronised copy. In the reference model the acquire ordering is program order (spec/20_memory.md R79). -/
def State.ptrRead (s : State) (sd : Side) (p : Ptr) : Word :=
  if sd = owner p then s.reg.get p else s.seen.get p

/-- INT_STATUS takes a value. -/
def State.setIntStatus (s : State) (v : Word) : State := { s with intStatus := v }

/-- INT_ENABLE takes a value. -/
def State.setIntEnable (s : State) (v : Word) : State := { s with intEnable := v }

/-- RAISE of one bit (spec/42_latch_ops.md R150). -/
def State.raiseBit (s : State) (b : IntBit) : State := s.setIntStatus (setStatus s.intStatus (bitMask b))

/-- ACK of one bit (spec/42_latch_ops.md R151). -/
def State.clearBit (s : State) (b : IntBit) : State := s.setIntStatus (clearStatus s.intStatus (bitMask b))

/-- `emit` an event of one agent (spec/10_state.md R48, spec/00_scope.md R11). -/
def State.emit (s : State) (sd : Side) (e : Event) : State :=
  { s with events := s.events.set sd (s.events.get sd ++ [e]) }

/-- A port takes a value. -/
def State.setPort (s : State) (sd : Side) (pt : Port) : State := { s with port := s.port.set sd pt }

/-- The inputs still to come. -/
def State.setInputs (s : State) (l : List Input) : State := { s with inputs := l }

/-! ### Operations at a port -/

/-- The next atomic action of the operation in progress is `ph` (spec/10_state.md R24). -/
def State.goOn (s : State) (sd : Side) (ph : Phase) : State :=
  s.setPort sd { s.port.get sd with busy := some ph }

/-- The operation of a side ends and presents its result (spec/30_encoding.md R103). The operand registers keep
what they hold: spec/10_state.md R25 holds them "for the length of the operation only" and does not say what
they hold afterwards (DESIGN CHOICE, log 21). -/
def State.finish (s : State) (sd : Side) (r : Result) : State :=
  s.setPort sd { s.port.get sd with busy := none, res := resultWord r }

/-- The side results VOFF and VLEN of a DRAIN that succeeded (spec/30_encoding.md R104). -/
def State.setView (s : State) (sd : Side) (off : Word) (len : Half) : State :=
  s.setPort sd { s.port.get sd with voff := off, vlen := len }

/-- The side result RDATA (spec/30_encoding.md R104). -/
def State.setRdata (s : State) (sd : Side) (v : Word) : State :=
  s.setPort sd { s.port.get sd with rdata := v }

/-- The side result RBYTE (spec/30_encoding.md R104). -/
def State.setRbyte (s : State) (sd : Side) (b : Byte) : State :=
  s.setPort sd { s.port.get sd with rbyte := b }

/-- A request reaches the port: its word and side operands are held there (spec/10_state.md R25), until the next
request of the side (DESIGN CHOICE past the end of the operation, log 21). -/
def State.present (s : State) (sd : Side) (rq : Request) (quantum : Nat) : State :=
  { s with
    side := sd
    quantum := quantum
    port := s.port.set sd
      { s.port.get sd with txn := rq.txn, wdata := rq.wdata, wbyte := rq.wbyte, pbuf := rq.pbuf } }

/-- When a side issues an operation its earlier results are no longer valid (spec/30_encoding.md R104):
each is a free value until the operation produces it (U11, log 7). -/
def State.dropResults (s : State) : State :=
  { s with
    draws := s.draws + 1
    port := s.port.set s.side
      { s.port.get s.side with
        res := Config.freeRes s.draws
        voff := Config.freeVoff s.draws
        vlen := Config.freeVlen s.draws
        rdata := Config.freeRdata s.draws
        rbyte := Config.freeRbyte s.draws } }

/-- A side issues an operation: refused while one is in progress on its port (U18, log 11) and where
spec/30_encoding.md R107 gives it no right (R108 c, log 8). -/
def accept (i : Instr) (s : State) (go : State → Outcome State Fault Refusal) :
    Outcome State Fault Refusal :=
  if (s.port.get s.side).busy.isSome then .refused .portBusy
  else if mayIssue s.side i then go s.dropResults
  else .refused .notIssuer

/-! ### Atomic actions (spec/10_state.md R45)

Each performs ONE atomic action of the operation in progress on side `sd` and the local computation up to
the next one (log 13). -/

/-- PtrRead of `PUB_CONS[g]`, then the free-space test: ENQUEUE steps 2 and 3 (spec/40_ring_ops.md
R120, R121), GENERATE_RX steps 1 to 3 (spec/43_agent_ops.md R165). -/
def actFrameRead (sd : Side) (g : Ring) (job : EnqJob) (len : Half) (s : State) : State :=
  if freeSpace (s.prodPos.get g) (s.ptrRead sd (pubCons g)) (s.cap g) < frameSize len then
    s.finish sd .insufficientSpace
  else
    s.goOn sd (.frameWrite g job len (s.ptrRead sd (pubCons g)) ((s.prodPos.get g).toNat % s.cap g)
      (frameBytes len (s.port.get sd).pbuf))

/-- ENQUEUE steps 6 to 9 (spec/40_ring_ops.md R120): advance the local position, publish it; GENERATE_RX
goes on with its watermark test (spec/43_agent_ops.md R165 step 5, R166). -/
def actPublish (sd : Side) (g : Ring) (job : EnqJob) (len : Half) (cp : Word) (s : State) : State :=
  let before := dist (s.prodPos.get g) cp (s.cap g)
  let new := advance (s.prodPos.get g) (frameSize len) (s.cap g)
  let s' := (s.setProd g new).setReg (pubProd g) new
  match job with
  | .plain => s'.finish sd .ok
  | .generate =>
    if crosses before s.cfg.rxHighWatermark (dist new cp (s.cap g)) then s'.goOn sd (.raiseLast .rxReady)
    else s'.finish sd .ok

/-- ENQUEUE steps 4 to 9: one byte of the frame, in order; then the publication. -/
def actFrameWrite (sd : Side) (g : Ring) (job : EnqJob) (len : Half) (cp : Word) (pos : Nat)
    (rest : List Byte) (s : State) : State :=
  match rest with
  | b :: rest' => (s.setByte g pos b).goOn sd (.frameWrite g job len cp ((pos + 1) % s.cap g) rest')
  | [] => actPublish sd g job len cp s

/-- The RAISE that ends PROCESS_TX (spec/43_agent_ops.md R161 step 5) or GENERATE_RX (R165 step 5). -/
def actRaiseLast (sd : Side) (b : IntBit) (s : State) : State := (s.raiseBit b).finish sd .ok

/-- The ring a drain works on: DRAIN the ring it names, PROCESS_TX the TX ring, DISPATCH the RX ring. -/
def drainRing : DrainJob → Ring
  | .plain g => g
  | .process _ _ => .tx
  | .dispatch _ _ => .rx

/-- What a drain that got WouldBlock means to the operation around it: the result of DRAIN and of a
PROCESS_TX that drained nothing; else the end of the loop and its COMMIT (spec/43_agent_ops.md R161,
R162, R168). A DISPATCH that drained nothing goes on to the ACK. -/
def drainBlocked (sd : Side) (job : DrainJob) (cause : BlockCause) (pp : Word) (s : State) : State :=
  match job with
  | .plain _ => s.finish sd (.wouldBlock cause)
  | .process _ k => if k = 0 then s.finish sd (.wouldBlock cause) else s.goOn sd (.giveBack job pp)
  | .dispatch todo k => if k = 0 then s.goOn sd (.ackBit todo) else s.goOn sd (.giveBack job pp)

/-- PtrRead of `PUB_PROD[g]`, then the header test: DRAIN steps 1 to 3 (spec/40_ring_ops.md R123). -/
def actDrainRead (sd : Side) (job : DrainJob) (s : State) : State :=
  let g := drainRing job
  let pp := s.ptrRead sd (pubProd g)
  if dist pp (s.consPos.get g) (s.cap g) < 2 then drainBlocked sd job .header pp s
  else s.goOn sd (.headerLow job pp)

/-- DRAIN step 4, the low length byte (spec/40_ring_ops.md R123). -/
def actHeaderLow (sd : Side) (job : DrainJob) (pp : Word) (s : State) : State :=
  let g := drainRing job
  s.goOn sd (.headerHigh job pp (s.byteAt g (s.consPos.get g).toNat))

/-- DRAIN steps 4 to 8, the high length byte, the decision and the advance (spec/40_ring_ops.md R123):
DRAIN presents the view, PROCESS_TX and DISPATCH go on to copy it out. -/
def actHeaderHigh (sd : Side) (job : DrainJob) (pp : Word) (b0 : Byte) (s : State) : State :=
  let g := drainRing job
  let c := s.consPos.get g
  let len := lengthOf b0 (s.byteAt g (c.toNat + 1))
  if dist pp c (s.cap g) < frameSize len then drainBlocked sd job .partialFrame pp s
  else
    let off := advance c 2 (s.cap g)
    let s' := s.setCons g (advance c (frameSize len) (s.cap g))
    match job with
    | .plain _ => (s'.setView sd off len).finish sd .ok
    | _ => s'.goOn sd (.copyOut job pp off.toNat len.toNat [])

/-- The payload goes to the outside: SinkDevice (spec/43_agent_ops.md R164) or SinkHost (R168); then
PROCESS_TX in mode `one` commits, and a loop goes on with the next DRAIN (R161, R162, R168). -/
def actDeliver (sd : Side) (job : DrainJob) (pp : Word) (bytes : List Byte) (s : State) : State :=
  match job with
  | .plain _ => s.finish sd .ok
  | .process c0 k =>
    match s.cfg.txDrainMode with
    | .one => (s.emit sd (.sinkDevice bytes)).goOn sd (.giveBack (.process c0 (k + 1)) pp)
    | .exhaust => (s.emit sd (.sinkDevice bytes)).goOn sd (.drainRead (.process c0 (k + 1)))
  | .dispatch todo k => (s.emit sd (.sinkHost bytes)).goOn sd (.drainRead (.dispatch todo (k + 1)))

/-- The copy-out of a view, one byte (`MemRead`, spec/00_scope.md R11, spec/40_ring_ops.md R124); when
all are read, `emit`. -/
def actCopyOut (sd : Side) (job : DrainJob) (pp : Word) (pos left : Nat) (acc : List Byte) (s : State) :
    State :=
  match left with
  | n + 1 =>
    s.goOn sd (.copyOut job pp ((pos + 1) % s.cap (drainRing job)) n (acc ++ [s.byteAt (drainRing job) pos]))
  | 0 => actDeliver sd job pp acc s

/-- `PtrWrite` of `PUB_CONS[g]` with the local position: COMMIT step 2 (spec/40_ring_ops.md R125). -/
def commitCons (g : Ring) (s : State) : State := s.setReg (pubCons g) (s.consPos.get g)

/-- The COMMIT inside PROCESS_TX, then its watermark test (spec/43_agent_ops.md R161 steps 4 and 5, R162,
R163), and the COMMIT of the RX_READY handler (R168), then the ACK. -/
def actGiveBack (sd : Side) (job : DrainJob) (pp : Word) (s : State) : State :=
  let s' := commitCons (drainRing job) s
  match job with
  | .plain _ => s'.finish sd .ok
  | .process c0 _ =>
    if crosses (freeSpace pp c0 (s.cap .tx)) s.cfg.txLowWatermark
        (freeSpace pp (s.consPos.get .tx) (s.cap .tx)) then
      s'.goOn sd (.raiseLast .txSpace)
    else s'.finish sd .ok
  | .dispatch todo _ => s'.goOn sd (.ackBit todo)

/-- The walk of DISPATCH over the bits of its snapshot (spec/42_latch_ops.md R152, R155): the handler of
the next bit, or the end. TX_SPACE has a handler that does nothing (spec/43_agent_ops.md R169). -/
def serveBits (sd : Side) (todo : List IntBit) (s : State) : State :=
  match todo with
  | [] => s.finish sd .ok
  | .rxReady :: _ => s.goOn sd (.drainRead (.dispatch todo 0))
  | .txSpace :: _ => s.goOn sd (.ackBit todo)
  | .error :: _ => s.goOn sd (.report todo)

/-- DISPATCH step 1, the snapshot (spec/42_latch_ops.md R152, R154). -/
def actReadStatus (sd : Side) (s : State) : State := serveBits sd (pendingBits s.intStatus) s

/-- The ERROR handler (spec/42_latch_ops.md R156). -/
def actReport (sd : Side) (todo : List IntBit) (s : State) : State :=
  (s.emit sd .errorReport).goOn sd (.ackBit todo)

/-- The ACK of the bit just served (spec/42_latch_ops.md R152 step 2). -/
def actAckBit (sd : Side) (todo : List IntBit) (s : State) : State :=
  match todo with
  | [] => s.finish sd .ok
  | b :: rest => serveBits sd rest (s.clearBit b)

/-- The atomic action a phase names. -/
def act (sd : Side) (ph : Phase) (s : State) : State :=
  match ph with
  | .frameRead g job len => actFrameRead sd g job len s
  | .frameWrite g job len cp pos rest => actFrameWrite sd g job len cp pos rest s
  | .raiseLast b => actRaiseLast sd b s
  | .drainRead job => actDrainRead sd job s
  | .headerLow job pp => actHeaderLow sd job pp s
  | .headerHigh job pp b0 => actHeaderHigh sd job pp b0 s
  | .copyOut job pp pos left acc => actCopyOut sd job pp pos left acc s
  | .giveBack job pp => actGiveBack sd job pp s
  | .readStatus => actReadStatus sd s
  | .report todo => actReport sd todo s
  | .ackBit todo => actAckBit sd todo s

/-- Up to `n` atomic actions of the operation in progress on side `sd`; a side with no operation in
progress takes none. -/
def run : Nat → Side → State → State
  | 0, _, s => s
  | n + 1, sd, s =>
    match (s.port.get sd).busy with
    | none => s
    | some ph => run n sd (act sd ph s)

/-- Begin an operation whose next atomic action is `ph` and perform up to `quantum` of its actions. -/
def perform (ph : Phase) (s : State) : Outcome State Fault Refusal :=
  .next (run s.quantum s.side (s.goOn s.side ph))

/-- An operation of one atomic action ends with Ok. -/
def complete (s : State) : Outcome State Fault Refusal := .next (s.finish s.side .ok)

/-- As many atomic actions as any operation needs when no other agent acts in between: a loop over
frames takes at most two actions for each byte it drains (spec/43_agent_ops.md R171). -/
def fullQuantum (c : Config) : Nat := 2 * (c.capTx + c.capRx) + 8

/-! ### The operations several instructions share -/

/-- ENQUEUE and SEND from step 1 (spec/40_ring_ops.md R120): FrameTooLarge when `len + 2 > C`, before any
atomic action; otherwise the actions from the pointer read on. -/
def enqueueFrame (g : Ring) (len : Half) (s : State) : Outcome State Fault Refusal :=
  if (s.port.get s.side).pbuf.length ≠ len.toNat then .refused .payloadSize
  else if s.cap g < frameSize len then .next (s.finish s.side .frameTooLarge)
  else perform (.frameRead g .plain len) s

/-- PTR_WRITE and REG_WR of a pointer register (spec/41_pointer_ops.md R140, spec/44_port_access.md R184):
`reg[P] <- v`; a value `>= C` is refused (spec/30_encoding.md R108 e). -/
def writePointer (p : Ptr) (s : State) : Outcome State Fault Refusal :=
  let v := (s.port.get s.side).wdata
  if v.toNat < s.cap (ptrRing p) then complete (s.setReg p v) else .refused .badPointer

/-- PTR_READ and REG_RD of a pointer register (spec/41_pointer_ops.md R141, spec/44_port_access.md R185). -/
def readPointer (p : Ptr) (s : State) : Outcome State Fault Refusal :=
  complete (s.setRdata s.side (s.ptrRead s.side p))

/-- A read of a latch register returns its value in RDATA and changes nothing else
(spec/44_port_access.md R189). -/
def readLatch (v : Word) (s : State) : Outcome State Fault Refusal := complete (s.setRdata s.side v)

end Sys2Proof.Machine
end

