-- ==== Sys2Proof/Machine/AgentOps.lean ====
section
/-! DEFINITION. SEND, PROCESS_TX, GENERATE_RX (spec/43_agent_ops.md). -/

namespace Sys2Proof.Machine

open Host (Outcome)

/-- SEND (spec/43_agent_ops.md R160): ENQUEUE on the TX ring. -/
def execSend (len : Half) (s : State) : Outcome State Fault Refusal :=
  accept (.send len) s (enqueueFrame .tx len)

/-- PROCESS_TX in both modes (spec/43_agent_ops.md R161, R162); step 1 takes `c0`. -/
def execProcessTx (s : State) : Outcome State Fault Refusal :=
  accept .processTx s fun s => perform (.drainRead (.process (s.consPos.get .tx) 0)) s

/-- GENERATE_RX (spec/43_agent_ops.md R165): its own space test comes first, so it never answers
FrameTooLarge (spec/60_exceptions.md R211). -/
def execGenerateRx (len : Half) (s : State) : Outcome State Fault Refusal :=
  accept (.generateRx len) s fun s =>
    if (s.port.get s.side).pbuf.length ≠ len.toNat then .refused .payloadSize
    else perform (.frameRead .rx .generate len) s

end Sys2Proof.Machine
end

