-- ==== Sys2Proof/Machine/LatchOps.lean ====
section
/-! DEFINITION. RAISE, ACK, DISPATCH (spec/42_latch_ops.md). -/

namespace Sys2Proof.Machine

open Host (Outcome)

/-- RAISE (spec/42_latch_ops.md R150). -/
def execRaise (b : IntBit) (s : State) : Outcome State Fault Refusal :=
  accept (.raiseInt b) s fun s => complete (s.raiseBit b)

/-- ACK (spec/42_latch_ops.md R151). -/
def execAck (b : IntBit) (s : State) : Outcome State Fault Refusal :=
  accept (.ack b) s fun s => complete (s.clearBit b)

/-- DISPATCH (spec/42_latch_ops.md R152 to R156; its handlers spec/43_agent_ops.md R168, R169). It does
not read INT_ENABLE (R153). -/
def execDispatch (s : State) : Outcome State Fault Refusal :=
  accept .dispatch s (perform .readStatus)

end Sys2Proof.Machine
end

