-- ==== Sys2Proof/Machine/PointerOps.lean ====
section
/-! DEFINITION. PTR_WRITE and PTR_READ (spec/41_pointer_ops.md). SYNC is no instruction: `State.syncPtr`. -/

namespace Sys2Proof.Machine

open Host (Outcome)

/-- PTR_WRITE (spec/41_pointer_ops.md R140). -/
def execPtrWrite (p : Ptr) (s : State) : Outcome State Fault Refusal :=
  accept (.ptrWrite p) s (writePointer p)

/-- PTR_READ (spec/41_pointer_ops.md R141). -/
def execPtrRead (p : Ptr) (s : State) : Outcome State Fault Refusal :=
  accept (.ptrRead p) s (readPointer p)

end Sys2Proof.Machine
end

