-- ==== Sys2Proof/Machine/PortAccess.lean ====
section
/-! DEFINITION. REG_RD and REG_WR of the seven registers, MEM_RD, MEM_WR (spec/44_port_access.md). -/

namespace Sys2Proof.Machine

open Host (Outcome)

/-- REG_RD TX_TAIL_PTR (spec/44_port_access.md R185). -/
def execRegRdTxTailPtr (s : State) : Outcome State Fault Refusal :=
  accept .regRdTxTailPtr s (readPointer .txTail)

/-- REG_WR TX_TAIL_PTR (spec/44_port_access.md R184). -/
def execRegWrTxTailPtr (s : State) : Outcome State Fault Refusal :=
  accept .regWrTxTailPtr s (writePointer .txTail)

/-- REG_RD RX_HEAD_PTR (spec/44_port_access.md R185). -/
def execRegRdRxHeadPtr (s : State) : Outcome State Fault Refusal :=
  accept .regRdRxHeadPtr s (readPointer .rxHead)

/-- REG_WR RX_HEAD_PTR (spec/44_port_access.md R184). -/
def execRegWrRxHeadPtr (s : State) : Outcome State Fault Refusal :=
  accept .regWrRxHeadPtr s (writePointer .rxHead)

/-- REG_RD HOST_TX_HEAD_PUB (spec/44_port_access.md R185). -/
def execRegRdHostTxHeadPub (s : State) : Outcome State Fault Refusal :=
  accept .regRdHostTxHeadPub s (readPointer .txHeadPub)

/-- REG_WR HOST_TX_HEAD_PUB (spec/44_port_access.md R184). -/
def execRegWrHostTxHeadPub (s : State) : Outcome State Fault Refusal :=
  accept .regWrHostTxHeadPub s (writePointer .txHeadPub)

/-- REG_RD HOST_RX_TAIL_PUB (spec/44_port_access.md R185). -/
def execRegRdHostRxTailPub (s : State) : Outcome State Fault Refusal :=
  accept .regRdHostRxTailPub s (readPointer .rxTailPub)

/-- REG_WR HOST_RX_TAIL_PUB (spec/44_port_access.md R184). -/
def execRegWrHostRxTailPub (s : State) : Outcome State Fault Refusal :=
  accept .regWrHostRxTailPub s (writePointer .rxTailPub)

/-- REG_RD INT_STATUS (spec/44_port_access.md R189): bits 31:3 read as 0 (spec/10_state.md R35). -/
def execRegRdIntStatus (s : State) : Outcome State Fault Refusal :=
  accept .regRdIntStatus s fun s => readLatch (s.intStatus &&& intMask) s

/-- REG_WR INT_STATUS (spec/44_port_access.md R186): write-1-to-set. -/
def execRegWrIntStatus (s : State) : Outcome State Fault Refusal :=
  accept .regWrIntStatus s fun s =>
    complete (s.setIntStatus (setStatus s.intStatus (s.port.get s.side).wdata))

/-- REG_RD INT_ENABLE (spec/44_port_access.md R189): bits 31:3 read as 0 (spec/10_state.md R37). -/
def execRegRdIntEnable (s : State) : Outcome State Fault Refusal :=
  accept .regRdIntEnable s fun s => readLatch (s.intEnable &&& intMask) s

/-- REG_WR INT_ENABLE (spec/44_port_access.md R187): plain store of the three implemented bits. -/
def execRegWrIntEnable (s : State) : Outcome State Fault Refusal :=
  accept .regWrIntEnable s fun s =>
    complete (s.setIntEnable (enableValue (s.port.get s.side).wdata))

/-- REG_RD INT_CLEAR (spec/44_port_access.md R189): returns 0. -/
def execRegRdIntClear (s : State) : Outcome State Fault Refusal :=
  accept .regRdIntClear s (readLatch 0)

/-- REG_WR INT_CLEAR (spec/44_port_access.md R188): write-1-to-clear. -/
def execRegWrIntClear (s : State) : Outcome State Fault Refusal :=
  accept .regWrIntClear s fun s =>
    complete (s.setIntStatus (clearStatus s.intStatus (s.port.get s.side).wdata))

/-- MEM_RD (spec/44_port_access.md R181): the stored byte, as in the reference model (log 4). -/
def execMemRd (g : Ring) (idx : Word) (s : State) : Outcome State Fault Refusal :=
  accept (.memRd g idx) s fun s =>
    if idx.toNat < s.cap g then complete (s.setRbyte s.side (s.byteAt g idx.toNat))
    else .refused .badIndex

/-- MEM_WR (spec/44_port_access.md R182). -/
def execMemWr (g : Ring) (idx : Word) (s : State) : Outcome State Fault Refusal :=
  accept (.memWr g idx) s fun s =>
    if idx.toNat < s.cap g then complete (s.setByte g idx.toNat (s.port.get s.side).wbyte)
    else .refused .badIndex

end Sys2Proof.Machine
end

