-- ==== Sys2Proof/Machine/RingOps.lean ====
section
/-! DEFINITION. ENQUEUE, DRAIN, COMMIT (spec/40_ring_ops.md). -/

namespace Sys2Proof.Machine

open Host (Outcome)

/-- ENQUEUE (spec/40_ring_ops.md R120). -/
def execEnqueue (g : Ring) (len : Half) (s : State) : Outcome State Fault Refusal :=
  accept (.enqueue g len) s (enqueueFrame g len)

/-- DRAIN (spec/40_ring_ops.md R123). -/
def execDrain (g : Ring) (s : State) : Outcome State Fault Refusal :=
  accept (.drain g) s (perform (.drainRead (.plain g)))

/-- COMMIT (spec/40_ring_ops.md R125). -/
def execCommit (g : Ring) (s : State) : Outcome State Fault Refusal :=
  accept (.commit g) s fun s => complete (commitCons g s)

end Sys2Proof.Machine
end

