-- ==== Sys2Proof/Machine/Dispatch.lean ====
section
/-! DEFINITION. One arm per instruction of spec/opcode_table.json, each a direct call of its meaning. -/

namespace Sys2Proof.Machine

def exec (i : Instr) (s : State) : Host.Outcome State Fault Refusal :=
  match i with
  | .enqueue g len => Sys2Proof.Machine.execEnqueue g len s
  | .drain g => Sys2Proof.Machine.execDrain g s
  | .commit g => Sys2Proof.Machine.execCommit g s
  | .ptrWrite p => Sys2Proof.Machine.execPtrWrite p s
  | .ptrRead p => Sys2Proof.Machine.execPtrRead p s
  | .raiseInt b => Sys2Proof.Machine.execRaise b s
  | .ack b => Sys2Proof.Machine.execAck b s
  | .dispatch => Sys2Proof.Machine.execDispatch s
  | .send len => Sys2Proof.Machine.execSend len s
  | .processTx => Sys2Proof.Machine.execProcessTx s
  | .generateRx len => Sys2Proof.Machine.execGenerateRx len s
  | .regRdTxTailPtr => Sys2Proof.Machine.execRegRdTxTailPtr s
  | .regWrTxTailPtr => Sys2Proof.Machine.execRegWrTxTailPtr s
  | .regRdRxHeadPtr => Sys2Proof.Machine.execRegRdRxHeadPtr s
  | .regWrRxHeadPtr => Sys2Proof.Machine.execRegWrRxHeadPtr s
  | .regRdHostTxHeadPub => Sys2Proof.Machine.execRegRdHostTxHeadPub s
  | .regWrHostTxHeadPub => Sys2Proof.Machine.execRegWrHostTxHeadPub s
  | .regRdHostRxTailPub => Sys2Proof.Machine.execRegRdHostRxTailPub s
  | .regWrHostRxTailPub => Sys2Proof.Machine.execRegWrHostRxTailPub s
  | .regRdIntStatus => Sys2Proof.Machine.execRegRdIntStatus s
  | .regWrIntStatus => Sys2Proof.Machine.execRegWrIntStatus s
  | .regRdIntEnable => Sys2Proof.Machine.execRegRdIntEnable s
  | .regWrIntEnable => Sys2Proof.Machine.execRegWrIntEnable s
  | .regRdIntClear => Sys2Proof.Machine.execRegRdIntClear s
  | .regWrIntClear => Sys2Proof.Machine.execRegWrIntClear s
  | .memRd g idx => Sys2Proof.Machine.execMemRd g idx s
  | .memWr g idx => Sys2Proof.Machine.execMemWr g idx s

end Sys2Proof.Machine
end

