-- ==== Sys2Proof/Machine/Turns.lean ====
section
/-! DEFINITION. One turn: what the next input does, how many atomic actions it performs, and the SYNC steps that a
bounded SYNC_LATENCY makes due (spec/00_scope.md R7, 92_eei_decisions.md D9; log 12). -/

namespace Sys2Proof.Machine

open Host (Outcome)

/-- The copy of `p` is stale: it is not the value its owner stored last (spec/10_state.md R33). -/
def State.stale (s : State) (p : Ptr) : Bool := decide (s.seen.get p ≠ s.reg.get p)

/-- How many atomic actions a side performs in a turn of `n`: all of them; one at the most where SYNC_LATENCY is
bounded, so that no SYNC comes due within a turn (log 3, log 12). -/
def State.turn (s : State) (n : Nat) : Nat :=
  match s.cfg.syncLatency with
  | none => n
  | some _ => min n 1

/-- The atomic actions an issued instruction performs in a turn of at most one: none when the turn is empty or
the frame is too large (spec/40_ring_ops.md R120 step 1); the operations of one atomic action perform it
in any turn (log 3). -/
def State.issueActions (s : State) (i : Instr) (n : Nat) : Nat :=
  match i with
  | .enqueue g len => if s.cap g < frameSize len then 0 else min n 1
  | .send len => if s.cap .tx < frameSize len then 0 else min n 1
  | .drain _ | .dispatch | .processTx | .generateRx _ => min n 1
  | .commit _ | .ptrWrite _ | .ptrRead _ | .raiseInt _ | .ack _ => 1
  | .regRdTxTailPtr | .regWrTxTailPtr | .regRdRxHeadPtr | .regWrRxHeadPtr => 1
  | .regRdHostTxHeadPub | .regWrHostTxHeadPub | .regRdHostRxTailPub | .regWrHostRxTailPub => 1
  | .regRdIntStatus | .regWrIntStatus | .regRdIntEnable | .regWrIntEnable => 1
  | .regRdIntClear | .regWrIntClear => 1
  | .memRd _ _ | .memWr _ _ => 1

/-- The atomic actions (spec/10_state.md R45) an input performs in a turn of at most one. -/
def State.inputActions (s : State) (x : Input) : Nat :=
  match x with
  | .sync _ => 1
  | .resume sd n => if (s.port.get sd).busy.isSome then min n 1 else 0
  | .issue _ rq n =>
    match decode rq.txn with
    | .ok i => s.issueActions i n
    | .error _ => 0

/-- What the input does: a SYNC copies a pointer (spec/41_pointer_ops.md R142); `resume` performs further atomic
actions of a side's operation in progress; `issue` presents a request at a port, decodes its word and
executes it (spec/70_reset_and_hazards.md R257). A word that is no operation is refused
(spec/30_encoding.md R108). -/
def takeInput (x : Input) (s : State) : Outcome State Fault Refusal :=
  match x with
  | .sync p => .next (s.syncPtr p)
  | .resume sd n => .next (run (s.turn n) sd s)
  | .issue sd rq n =>
    match decode rq.txn with
    | .ok i => exec i (s.present sd rq (s.turn n))
    | .error e => .refused (.badEncoding e)

/-- How many atomic actions the value of `p` has waited to cross after a turn of `k` actions from `s` to `t`: 0
when nothing waits or the turn itself stored it. -/
def State.waitAfter (s t : State) (k : Nat) (p : Ptr) : Nat :=
  if t.stale p && s.stale p then s.waited.get p + k else 0

/-- What SYNC_LATENCY adds to a turn of `k` atomic actions from `s` to `t`. Unbounded, nothing. With the bound `L`
every channel whose pointer has waited `L` atomic actions performs SYNC (spec/41_pointer_ops.md R142): between
the store that a SYNC carries across and that SYNC there are at most `L` other atomic actions. With 0 it
follows every owner write, "the source's own simulation" (92_eei_decisions.md D9). -/
def State.settle (s : State) (k : Nat) (t : State) : State :=
  match s.cfg.syncLatency with
  | none => t
  | some l =>
    { t with
      seen := PerPtr.ofFn fun p => if l ≤ s.waitAfter t k p then t.reg.get p else t.seen.get p
      waited := PerPtr.ofFn fun p => if l ≤ s.waitAfter t k p then 0 else s.waitAfter t k p }

/-- The due SYNC steps after a turn that answered a next state. -/
def settleNext (s : State) (k : Nat) : Outcome State Fault Refusal → Outcome State Fault Refusal
  | .next t => .next (s.settle k t)
  | .fault r => .fault r
  | .refused r => .refused r

end Sys2Proof.Machine
end

