-- ==== Sys2Proof/Machine/Step.lean ====
section
/-! DEFINITION. One step of the block: the next input is taken and performed (log 2). The block "runs nothing
by itself" (spec/10_state.md R46): with no input nothing happens. -/

namespace Sys2Proof.Machine

/-- One step: the next input is taken (`takeInput`), then the SYNC steps that a bounded SYNC_LATENCY makes due are
performed (`settleNext`). -/
def step (s : State) : Host.Outcome State Fault Refusal :=
  match s.inputs with
  | [] => .next s
  | x :: rest => settleNext s (s.inputActions x) (takeInput x (s.setInputs rest))

/-- A side that may issue the instruction: the host where it may, else the device (spec/30_encoding.md
R107). -/
def someIssuer (i : Instr) : Side := if mayIssue .host i then .host else .device

/-- The request that presents the instruction with side operands of zeros (log 18). -/
def zeroRequest (t : Txn) (i : Instr) : Request where
  txn := t
  wdata := 0
  wbyte := 0
  pbuf := List.replicate i.payloadLength 0

/-- The state in which the very next step presents the word at a port that may issue it and executes it
whole: the request stands before the inputs still to come, and that side has no operation in progress
(log 18). A word that is no operation is presented at the host's port and refused. -/
def State.withFetchWord (s : State) (nbits w : Nat) : State :=
  match txnOfTable nbits w with
  | none => s
  | some t =>
    match decode t with
    | .ok i =>
      { s with
        inputs := .issue (someIssuer i) (zeroRequest t i) (fullQuantum s.cfg) :: s.inputs
        port := s.port.set (someIssuer i) { s.port.get (someIssuer i) with busy := none } }
    | .error _ =>
      { s with inputs := .issue .host ⟨t, 0, 0, []⟩ (fullQuantum s.cfg) :: s.inputs }

end Sys2Proof.Machine
end

