-- ==== Sys2Proof/Safety.lean ====
section
/-! DEFINITION. The terms claims are made in: what a request leaves unchanged, what a side is answered, the frames
lying in a ring, the inputs that keep to the protocol, and the invariants of a safe run. -/

namespace Sys2Proof.Machine

open Host (Outcome)

/-! ### Frames of a statement: what changes and what does not -/

/-- A piece of the block's state outside the ports. -/
inductive Part where
  | prod (g : Ring)
  | cons (g : Ring)
  | reg (p : Ptr)
  | seen (p : Ptr)
  | mem (g : Ring)
  | status
  | enable
  | events (sd : Side)
  deriving DecidableEq, Repr

/-- A piece is the same in two states; a backing store when every byte reads the same. -/
def samePart (s t : State) : Part → Prop
  | .prod g => t.prodPos.get g = s.prodPos.get g
  | .cons g => t.consPos.get g = s.consPos.get g
  | .reg p => t.reg.get p = s.reg.get p
  | .seen p => t.seen.get p = s.seen.get p
  | .mem g => ∀ i, (t.store.get g).read i = (s.store.get g).read i
  | .status => t.intStatus = s.intStatus
  | .enable => t.intEnable = s.intEnable
  | .events sd => t.events.get sd = s.events.get sd

/-- The operand registers of a port (spec/10_state.md R25) are the same. -/
def sameOperands (p q : Port) : Prop :=
  q.txn = p.txn ∧ q.wdata = p.wdata ∧ q.wbyte = p.wbyte ∧ q.pbuf = p.pbuf

/-- Of the whole state only the named pieces and the result registers of the issuing port differ: every other piece,
the parameters, the inputs to come, how long a pointer has waited to cross, the whole port of the other side and the
operand registers of the issuing port are unchanged. The clause `operands` says, of a state after the operation has
ended, what the model chose (DESIGN CHOICE, log 21) and no rule of the spec. -/
structure UnchangedBut (parts : List Part) (s t : State) : Prop where
  same : ∀ p, p ∉ parts → samePart s t p
  cfg : t.cfg = s.cfg
  inputs : t.inputs = s.inputs
  side : t.side = s.side
  quantum : t.quantum = s.quantum
  waited : t.waited = s.waited
  otherPort : t.port.get (otherSide s.side) = s.port.get (otherSide s.side)
  operands : sameOperands (s.port.get s.side) (t.port.get s.side)

/-- The operation ended and presented the result `r` at the issuing port (spec/30_encoding.md R103). -/
def Answered (s t : State) (r : Result) : Prop :=
  (t.port.get s.side).busy = none ∧ (t.port.get s.side).res = resultWord r

/-- The issuing side has no operation in progress and the right to issue the instruction
(spec/10_state.md R24, spec/30_encoding.md R107). -/
def Ready (i : Instr) (s : State) : Prop :=
  (s.port.get s.side).busy = none ∧ mayIssue s.side i = true

/-! ### Frames lying in a ring -/

/-- The payload of a view (spec/40_ring_ops.md R124): byte `i` is `mem[g][(off + i) mod C]`. -/
def payloadAt (s : State) (g : Ring) (off len : Nat) : List Byte :=
  (List.range len).map fun i => s.byteAt g (off + i)

/-- The length in the header at a position (spec/30_encoding.md R91, R94). -/
def lengthAt (s : State) (g : Ring) (pos : Nat) : Half := lengthOf (s.byteAt g pos) (s.byteAt g (pos + 1))

/-- The whole frames among the `avail` bytes from `pos` on, as a drain loop meets them
(spec/30_encoding.md R94, spec/43_agent_ops.md R168), and how many bytes they take. -/
def takeFrames (s : State) (g : Ring) : Nat → Nat → Nat → List (List Byte) × Nat
  | 0, _, _ => ([], 0)
  | fuel + 1, pos, avail =>
    if avail < 2 then ([], 0)
    else if avail < frameSize (lengthAt s g pos) then ([], 0)
    else
      let r := takeFrames s g fuel (pos + frameSize (lengthAt s g pos)) (avail - frameSize (lengthAt s g pos))
      (payloadAt s g (pos + 2) (lengthAt s g pos).toNat :: r.1, frameSize (lengthAt s g pos) + r.2)

/-- `avail`, the bytes between the consumer's position and a producer position (spec/40_ring_ops.md R123). -/
def availTo (s : State) (g : Ring) (pp : Word) : Nat := dist pp (s.consPos.get g) (s.cap g)

/-- The whole frames the consumer of `g` can drain when it sees the producer position `pp`. -/
def framesTo (s : State) (g : Ring) (pp : Word) : List (List Byte) × Nat :=
  takeFrames s g (availTo s g pp) (s.consPos.get g).toNat (availTo s g pp)

/-- The payloads enqueued on ring `g` and not yet drained, oldest first (spec/30_encoding.md R95). -/
def queued (s : State) (g : Ring) : List (List Byte) := (framesTo s g (s.prodPos.get g)).1

/-- "The logical span from `loc.cons_pos[g]` up to but not including `loc.prod_pos[g]` is a concatenation
of zero or more whole frames" (spec/30_encoding.md R95). -/
def StreamWhole (s : State) (g : Ring) : Prop :=
  (framesTo s g (s.prodPos.get g)).2 = availTo s g (s.prodPos.get g)

/-- The cause a drain gives when it finds no whole frame (spec/60_exceptions.md R200, R210). -/
def blockCause (s : State) (g : Ring) (pp : Word) : BlockCause :=
  if availTo s g pp < 2 then .header else .partialFrame

/-! ### Invariants -/

/-- Every register and position is in its range, reserved bits of the latch words are 0, the stores keep
their canonical form and list no index beyond the capacity (spec/10_state.md R20, R21, R31, R35, R37, R40;
spec/00_scope.md R7). -/
structure Ranged (s : State) : Prop where
  cfg : s.cfg.valid = true
  prod : ∀ g, (s.prodPos.get g).toNat < s.cap g
  cons : ∀ g, (s.consPos.get g).toNat < s.cap g
  reg : ∀ p, (s.reg.get p).toNat < s.cap (ptrRing p)
  seen : ∀ p, (s.seen.get p).toNat < s.cap (ptrRing p)
  status : s.intStatus &&& ~~~intMask = 0
  enable : s.intEnable &&& ~~~intMask = 0
  canonical : ∀ g, (s.store.get g).wf
  inStore : ∀ g, ∀ e ∈ s.store.get g, e.1 < s.cap g

/-- A drain is run by the side whose operation it belongs to (spec/30_encoding.md R107). -/
def jobOfSide (sd : Side) : DrainJob → Bool
  | .plain g => decide (sd = consumer g)
  | .process _ _ => decide (sd = .device)
  | .dispatch _ _ => decide (sd = .host)

/-- A phase belongs to an operation its side may issue (spec/30_encoding.md R107). -/
def phaseOfSide (sd : Side) : Phase → Bool
  | .frameRead g job _ => decide (sd = producer g) && (decide (job = .plain) || decide (g = .rx))
  | .frameWrite g job _ _ _ _ => decide (sd = producer g) && (decide (job = .plain) || decide (g = .rx))
  | .raiseLast b => decide (sd = .device) && decide (b ≠ .error)
  | .drainRead job => jobOfSide sd job
  | .headerLow job _ => jobOfSide sd job
  | .headerHigh job _ _ => jobOfSide sd job
  | .copyOut job _ _ _ _ => jobOfSide sd job
  | .giveBack job _ => jobOfSide sd job
  | .readStatus => decide (sd = .host)
  | .report _ => decide (sd = .host)
  | .ackBit _ => decide (sd = .host)

/-- Each side's operation in progress is one it may issue. -/
def RolesKept (s : State) : Prop := ∀ sd ph, (s.port.get sd).busy = some ph → phaseOfSide sd ph = true

/-- What an action of side `sd` leaves alone (spec/10_state.md R42, spec/60_exceptions.md R219): the positions, stores
and pointers the other side writes, its port and its events; and, where the device acts, INT_ENABLE and every
status bit that is set. -/
structure OwnWritesOnly (sd : Side) (s t : State) : Prop where
  prod : ∀ g, sd ≠ producer g → t.prodPos.get g = s.prodPos.get g
  mem : ∀ g, sd ≠ producer g → ∀ j, (t.store.get g).read j = (s.store.get g).read j
  cons : ∀ g, sd ≠ consumer g → t.consPos.get g = s.consPos.get g
  reg : ∀ p, sd ≠ owner p → t.reg.get p = s.reg.get p
  port : t.port.get (otherSide sd) = s.port.get (otherSide sd)
  events : t.events.get (otherSide sd) = s.events.get (otherSide sd)
  enable : sd = .device → t.intEnable = s.intEnable
  status : sd = .device → ∀ k, s.intStatus.getLsbD k = true → t.intStatus.getLsbD k = true

/-- The producer position snapshot a running drain on ring `g` holds, if one does (spec/10_state.md R41). -/
def drainSnapshot (g : Ring) : Option Phase → Option Word
  | some (.headerLow job pp) => if drainRing job = g then some pp else none
  | some (.headerHigh job pp _) => if drainRing job = g then some pp else none
  | some (.copyOut job pp _ _ _) => if drainRing job = g then some pp else none
  | some (.giveBack job pp) => if drainRing job = g then some pp else none
  | _ => none

/-- The producer position the consumer of `g` works with: the snapshot of its running drain, else what it
would read now. -/
def seenProd (s : State) (g : Ring) : Word :=
  (drainSnapshot g (s.port.get (consumer g)).busy).getD (s.seen.get (pubProd g))

/-- The frame a producer is writing on ring `g`: the consumer position it read (spec/10_state.md R41), the
bytes the frame takes, the next position and how many bytes are left. -/
def writingFrame (g : Ring) : Option Phase → Option (Word × Nat × Nat × Nat)
  | some (.frameWrite g' _ len cp pos rest) =>
    if g' = g then some (cp, frameSize len, pos, rest.length) else none
  | _ => none

/-- The consumer position the producer of `g` works with: the snapshot of its running frame write, else
what it would read now. -/
def seenCons (s : State) (g : Ring) : Word :=
  match writingFrame g (s.port.get (producer g)).busy with
  | some (cp, _, _, _) => cp
  | none => s.seen.get (pubCons g)

/-- The bytes the producer of `g` has claimed and not yet published. -/
def claimed (s : State) (g : Ring) : Nat :=
  match writingFrame g (s.port.get (producer g)).busy with
  | some (_, size, _, _) => size
  | none => 0

/-- A running frame write goes through its frame byte by byte from the producer's position. -/
def FrameOnCourse (s : State) (g : Ring) : Prop :=
  ∀ cp size pos left, writingFrame g (s.port.get (producer g)).busy = some (cp, size, pos, left) →
    left ≤ size ∧ pos = ((s.prodPos.get g).toNat + (size - left)) % s.cap g

/-- How far behind `x` the consumer position lies that the producer works with. -/
def beyond (s : State) (g : Ring) (x : Word) : Nat := dist x (seenCons s g) (s.cap g)

/-- The order of the positions of one ring, around the ring from the consumer position the producer works
with (spec/10_state.md R22, R32, R34; spec/20_memory.md R76, R78): the synchronised copy of the consumer
pointer, the consumer pointer, the consumer's own position, the producer position the consumer works with,
the synchronised copy of the producer pointer, the producer's own position, which the producer pointer
always equals; and what the producer has claimed beyond it leaves one slot free. -/
structure RingOrdered (s : State) (g : Ring) : Prop where
  seenCons_regCons : beyond s g (s.seen.get (pubCons g)) ≤ beyond s g (s.reg.get (pubCons g))
  regCons_cons : beyond s g (s.reg.get (pubCons g)) ≤ beyond s g (s.consPos.get g)
  cons_seenProd : beyond s g (s.consPos.get g) ≤ beyond s g (seenProd s g)
  seenProd_copy : beyond s g (seenProd s g) ≤ beyond s g (s.seen.get (pubProd g))
  copy_prod : beyond s g (s.seen.get (pubProd g)) ≤ beyond s g (s.prodPos.get g)
  published : s.reg.get (pubProd g) = s.prodPos.get g
  slotFree : beyond s g (s.prodPos.get g) + claimed s g ≤ s.cap g - 1
  onCourse : FrameOnCourse s g

/-- A running operation holds snapshots that are positions. -/
def SnapshotsInRange (s : State) : Prop :=
  ∀ g, (seenProd s g).toNat < s.cap g ∧ (seenCons s g).toNat < s.cap g

/-- A side that begins to write a frame holds at its port a payload of the frame's length
(spec/30_encoding.md R102, spec/10_state.md R25). -/
def PayloadsHeld (s : State) : Prop :=
  ∀ sd g job len, (s.port.get sd).busy = some (.frameRead g job len) →
    (s.port.get sd).pbuf.length = len.toNat

/-- The invariant of a run that keeps to the protocol. -/
structure Safe (s : State) : Prop where
  ranged : Ranged s
  roles : RolesKept s
  payloads : PayloadsHeld s
  snapshots : SnapshotsInRange s
  ordered : ∀ g, RingOrdered s g

/-! ### What is on its way through a ring -/

/-- The stream of ring `g` is whole, and the operations running on it read and write it faithfully
(spec/30_encoding.md R95, spec/20_memory.md R78): what a producer has written so far and what it has left
make up its frame; a drain that reads a header sees its two bytes, and the low one it holds is the one in
the store; the bytes a copy-out has still to read are the end of a frame drained and not yet given back. -/
structure StreamFaithful (s : State) (g : Ring) : Prop where
  whole : StreamWhole s g
  writing : ∀ job len cp pos rest,
    (s.port.get (producer g)).busy = some (.frameWrite g job len cp pos rest) →
      (s.port.get (producer g)).pbuf.length = len.toNat ∧
      ((List.range (frameSize len - rest.length)).map fun i => s.byteAt g ((s.prodPos.get g).toNat + i)) ++
        rest = frameBytes len (s.port.get (producer g)).pbuf
  header : ∀ job pp, (s.port.get (consumer g)).busy = some (.headerLow job pp) →
    drainRing job = g → 2 ≤ availTo s g pp
  reading : ∀ job pp b0, (s.port.get (consumer g)).busy = some (.headerHigh job pp b0) →
    drainRing job = g → 2 ≤ availTo s g pp ∧ b0 = s.byteAt g (s.consPos.get g).toNat
  copying : ∀ job pp pos left acc, (s.port.get (consumer g)).busy = some (.copyOut job pp pos left acc) →
    drainRing job = g →
      left ≤ dist (s.consPos.get g) (s.reg.get (pubCons g)) (s.cap g) ∧
      pos = ((s.consPos.get g).toNat + (s.cap g - left)) % s.cap g

/-- The payloads that left ring `g` through a sink, oldest first (spec/10_state.md R48). -/
def delivered (s : State) : Ring → List (List Byte)
  | .tx => s.events.device.filterMap fun e => match e with
    | .sinkDevice bytes => some bytes
    | _ => none
  | .rx => s.events.host.filterMap fun e => match e with
    | .sinkHost bytes => some bytes
    | _ => none

/-- The payload PROCESS_TX or DISPATCH has drained from ring `g` and is copying out; the operation DRAIN presents a
view and copies nothing out (spec/40_ring_ops.md R124). -/
def inFlight (s : State) (g : Ring) : List (List Byte) :=
  match (s.port.get (consumer g)).busy with
  | some (.copyOut job _ pos left acc) =>
    if drainRing job = g ∧ job ≠ .plain g then [acc ++ payloadAt s g pos left] else []
  | _ => []

/-- The payloads of ring `g` on their way through a sink, oldest first: delivered, being copied out, still in the
ring. A payload that DRAIN hands over leaves this list at the front of `queued`. -/
def pipeline (s : State) (g : Ring) : List (List Byte) := delivered s g ++ inFlight s g ++ queued s g

/-- The operation DRAIN of ring `g` in progress: its atomic actions are the pointer read and the reads of the two
header bytes (spec/40_ring_ops.md R123). -/
def plainDrain (g : Ring) : Phase → Bool
  | .drainRead job => decide (job = .plain g)
  | .headerLow job _ => decide (job = .plain g)
  | .headerHigh job _ _ => decide (job = .plain g)
  | _ => false

/-- In the step from `s` to `t` the operation DRAIN of ring `g`, issued by the step's input or already in progress
and gone on with, ends with Ok (spec/40_ring_ops.md R123 step 8). -/
def DrainHandsOver (s t : State) (g : Ring) : Prop :=
  ((∃ rq n rest, s.inputs = .issue (consumer g) rq n :: rest ∧ decode rq.txn = .ok (.drain g)) ∨
   (∃ n rest ph, s.inputs = .resume (consumer g) n :: rest ∧ (s.port.get (consumer g)).busy = some ph ∧
      plainDrain g ph = true)) ∧
  (t.port.get (consumer g)).busy = none ∧ (t.port.get (consumer g)).res = resultWord .ok

/-- The frames a drain loop has taken so far; a plain DRAIN is no loop. -/
def DrainJob.frames : DrainJob → Nat
  | .plain _ => 0
  | .process _ k => k
  | .dispatch _ k => k

/-- How many frames PROCESS_TX or DISPATCH has drained from ring `g` in its batch so far. -/
def batchCount (g : Ring) : Option Phase → Nat
  | some (.drainRead job) => if drainRing job = g then job.frames else 0
  | some (.headerLow job _) => if drainRing job = g then job.frames else 0
  | some (.headerHigh job _ _) => if drainRing job = g then job.frames else 0
  | some (.copyOut job _ _ _ _) => if drainRing job = g then job.frames + 1 else 0
  | some (.giveBack job _) => if drainRing job = g then job.frames else 0
  | _ => 0

/-- The frames of a batch, of at least two bytes each, are what lies drained and not yet given back
(spec/43_agent_ops.md R171). -/
def BatchesBounded (s : State) : Prop :=
  ∀ g, 2 * batchCount g (s.port.get (consumer g)).busy ≤ dist (s.consPos.get g) (s.reg.get (pubCons g)) (s.cap g)

/-! ### Inputs -/

/-- The instructions that write a pointer or a byte directly: "no raw PTR_WRITE, REG_WR to a pointer, or
MEM_WR" is the premise of claims about data (spec/41_pointer_ops.md R145, spec/70_reset_and_hazards.md
R249). -/
def isRaw : Instr → Bool
  | .ptrWrite _ => true
  | .regWrTxTailPtr => true
  | .regWrRxHeadPtr => true
  | .regWrHostTxHeadPub => true
  | .regWrHostRxTailPub => true
  | .memWr _ _ => true
  | _ => false

/-- The next input presents no raw write (spec/41_pointer_ops.md R145). -/
def NextKeepsProtocol (s : State) : Prop :=
  ∀ sd rq n rest i, s.inputs = .issue sd rq n :: rest → decode rq.txn = .ok i → isRaw i = false

/-- The side an input makes act; a SYNC is no side's. -/
def Input.actor : Input → Option Side
  | .sync _ => none
  | .issue sd _ _ => some sd
  | .resume sd _ => some sd

/-- The first atomic action of an operation of several (spec/10_state.md R45); none for the operations of one. -/
def firstAction (s : State) : Instr → Option Phase
  | .enqueue g len => some (.frameRead g .plain len)
  | .send len => some (.frameRead .tx .plain len)
  | .generateRx len => some (.frameRead .rx .generate len)
  | .drain g => some (.drainRead (.plain g))
  | .processTx => some (.drainRead (.process (s.consPos.get .tx) 0))
  | .dispatch => some .readStatus
  | .commit _ | .ptrWrite _ | .ptrRead _ | .raiseInt _ | .ack _ => none
  | .regRdTxTailPtr | .regWrTxTailPtr | .regRdRxHeadPtr | .regWrRxHeadPtr => none
  | .regRdHostTxHeadPub | .regWrHostTxHeadPub | .regRdHostRxTailPub | .regWrHostRxTailPub => none
  | .regRdIntStatus | .regWrIntStatus | .regRdIntEnable | .regWrIntEnable => none
  | .regRdIntClear | .regWrIntClear => none
  | .memRd _ _ | .memWr _ _ => none

/-- ENQUEUE and SEND of a frame larger than the store, which step 1 answers with FrameTooLarge before any atomic
action (spec/40_ring_ops.md R120). -/
def frameTooLargeFor (s : State) : Instr → Bool
  | .enqueue g len => decide (s.cap g < len.toNat + 2)
  | .send len => decide (s.cap .tx < len.toNat + 2)
  | _ => false

/-- How many atomic actions the next step performs in a turn of at most one (spec/10_state.md R45). -/
def State.stepActions (s : State) : Nat :=
  match s.inputs with
  | [] => 0
  | x :: _ => s.inputActions x

end Sys2Proof.Machine
end

