-- ==== Sys2Proof/Certificates/Slice0/Obligations.lean ====
section
/-! DEFINITION. What is claimed of the model, for the provers. Each docstring names the rules of spec/ it formalises. -/

open Sys2Proof Sys2Proof.Machine
open Host (Outcome)

/-! ### Reset -/

/-- "After reset every piece of state of the block is zero" (spec/10_state.md R46), for every choice of the
parameters; no operation is in progress, no event was emitted, INT_CLEAR reads 0 from either side. -/
def Obligations.ResetClearsTheBlock : Prop :=
  ∀ c : Config,
    (∀ g, ((State.resetWith c).prodPos.get g) = 0 ∧ ((State.resetWith c).consPos.get g) = 0) ∧
    (∀ p, ((State.resetWith c).reg.get p) = 0 ∧ ((State.resetWith c).seen.get p) = 0) ∧
    (State.resetWith c).intStatus = 0 ∧ (State.resetWith c).intEnable = 0 ∧
    (State.resetWith c).irq = false ∧
    (∀ g i, ((State.resetWith c).store.get g).read i = 0) ∧
    (∀ sd, ((State.resetWith c).port.get sd).busy = none ∧ (State.resetWith c).events.get sd = []) ∧
    (∀ sd, ∃ t, exec .regRdIntClear { State.resetWith c with side := sd } = .next t ∧
      (t.port.get sd).rdata = 0)

/-- The state right after reset in the terms of the protocol (spec/70_reset_and_hazards.md R231). -/
def Obligations.FreshRingsAreEmpty : Prop :=
  ∀ c : Config, c.valid = true → ∀ g : Ring, ∀ q : Nat,
    dist ((State.resetWith c).prodPos.get g) ((State.resetWith c).seen.get (pubCons g)) (c.cap g) = 0 ∧
    freeSpace ((State.resetWith c).prodPos.get g) ((State.resetWith c).seen.get (pubCons g)) (c.cap g) =
      c.cap g - 1 ∧
    dist ((State.resetWith c).seen.get (pubProd g)) ((State.resetWith c).consPos.get g) (c.cap g) = 0 ∧
    (State.resetWith c).prodPos.get g = 0 ∧
    (∃ t, exec (.drain g) { State.resetWith c with side := consumer g, quantum := q + 1 } = .next t ∧
      (t.port.get (consumer g)).busy = none ∧
      (t.port.get (consumer g)).res = resultWord (.wouldBlock .header)) ∧
    (State.resetWith c).intStatus = 0 ∧ (State.resetWith c).intEnable = 0 ∧
    (State.resetWith c).irq = false ∧
    (State.resetWith c).seen = (State.resetWith c).reg ∧
    (State.resetWith c).events = ⟨[], []⟩

/-! ### Steps -/

/-- A step performs the next input: a SYNC copies its pointer, `resume` goes on with the operation in progress,
`issue` presents the request and runs exactly the instruction its word decodes to, in a turn as long as
SYNC_LATENCY lets it be, and the SYNC steps that are due follow; a word that is no operation is refused; with
no input nothing happens. The inputs and the turns are the model's own (log 2, log 3, log 12). -/
def Obligations.StepRunsTheDecodedInstruction : Prop :=
  ∀ s : State,
    (s.inputs = [] → step s = .next s) ∧
    (∀ p rest, s.inputs = .sync p :: rest → step s = .next (s.settle 1 ((s.setInputs rest).syncPtr p))) ∧
    (∀ sd n rest, s.inputs = .resume sd n :: rest →
      step s = .next (s.settle (s.inputActions (.resume sd n)) (run (s.turn n) sd (s.setInputs rest)))) ∧
    (∀ sd rq n rest i, s.inputs = .issue sd rq n :: rest → decode rq.txn = .ok i →
      step s = settleNext s (s.issueActions i n) (exec i ((s.setInputs rest).present sd rq (s.turn n)))) ∧
    (∀ sd rq n rest e, s.inputs = .issue sd rq n :: rest → decode rq.txn = .error e →
      step s = .refused (.badEncoding e))

/-- With SYNC_LATENCY unbounded, its default (spec/00_scope.md R7, 92_eei_decisions.md D9), a step is the input and
nothing more: a turn is as long as the input says, and no SYNC but the inputs' own takes place. The inputs and the
turns are the model's own (log 2, log 3). -/
def Obligations.UnboundedLatencyAddsNothing : Prop :=
  ∀ s : State, s.cfg.syncLatency = none →
    (∀ p rest, s.inputs = .sync p :: rest → step s = .next ((s.setInputs rest).syncPtr p)) ∧
    (∀ sd n rest, s.inputs = .resume sd n :: rest → step s = .next (run n sd (s.setInputs rest))) ∧
    (∀ sd rq n rest i, s.inputs = .issue sd rq n :: rest → decode rq.txn = .ok i →
      step s = exec i ((s.setInputs rest).present sd rq n))

/-- SYNC_LATENCY = `l` (spec/00_scope.md R7, 92_eei_decisions.md D9, U2; read as in log 12): after every step that takes
an input, a pointer whose copy is stale has waited fewer than `l` atomic actions, counted from the store that
made it stale; and every atomic action of the step counts, which `CountedActionsArePerformed` ties to the actions
performed. With `l = 0` no copy is ever stale. -/
def Obligations.LatencyBoundsTheWait : Prop :=
  ∀ (s t : State) (p : Ptr) (l : Nat), s.cfg.syncLatency = some l → s.inputs ≠ [] → step s = .next t →
    t.seen.get p ≠ t.reg.get p →
      t.waited.get p < l ∧
      (s.seen.get p = s.reg.get p → t.waited.get p = 0) ∧
      (s.seen.get p ≠ s.reg.get p → t.waited.get p = s.waited.get p + s.stepActions)

/-- The same along a run: from a state in which the copy of `p` is its register's value, a copy that goes stale in
the first step and stays stale for the `n` steps that follow has seen fewer than SYNC_LATENCY atomic actions of
any agent go by in them (92_eei_decisions.md D9, U2; log 12). What a step's count is, is said by
`CountedActionsArePerformed`. -/
def Obligations.StalePointerCrossesInTime : Prop :=
  ∀ (f : Nat → State) (n : Nat) (p : Ptr) (l : Nat), (f 0).cfg.syncLatency = some l →
    (∀ k, k ≤ n → step (f k) = .next (f (k + 1))) →
    (f 0).seen.get p = (f 0).reg.get p →
    (∀ k, k ≤ n → (f (k + 1)).seen.get p ≠ (f (k + 1)).reg.get p) →
    ((List.range n).map fun k => (f (k + 1)).stepActions).sum < l

/-- The parameters are "fixed before reset and never changed afterwards" (spec/00_scope.md R7). -/
def Obligations.ParametersNeverChange : Prop :=
  ∀ s t : State, step s = .next t → t.cfg = s.cfg

/-- A word of the opcode table placed by `withFetchWord` is executed by the very next step, at a port that
may issue it and with the block otherwise as it was (log 18); whole where SYNC_LATENCY is unbounded, its first
atomic action where it is bounded (log 12). -/
def Obligations.PlacedWordRunsNext : Prop :=
  ∀ (s : State) (nbits w : Nat) (i : Instr), decodeTableWord nbits w = some i →
    ∃ s', step (s.withFetchWord nbits w) =
        settleNext s (s.issueActions i (fullQuantum s.cfg)) (exec i s') ∧ Ready i s' ∧
      (s'.port.get s'.side).pbuf.length = i.payloadLength ∧ s'.quantum = s.turn (fullQuantum s.cfg) ∧
      s'.cfg = s.cfg ∧ s'.prodPos = s.prodPos ∧ s'.consPos = s.consPos ∧ s'.store = s.store ∧
      s'.reg = s.reg ∧ s'.seen = s.seen ∧ s'.intStatus = s.intStatus ∧ s'.intEnable = s.intEnable ∧
      s'.events = s.events ∧ s'.inputs = s.inputs ∧ s'.waited = s.waited ∧ s'.draws = s.draws ∧
      s'.port.get (otherSide s'.side) = s.port.get (otherSide s'.side)

/-- An operation cut into two turns does what it does in one: the atomic actions left over are performed
when the side goes on (spec/10_state.md R24, R45). -/
def Obligations.TurnsComposeForEveryInstruction : Prop :=
  ∀ (i : Instr) (s t : State) (m n : Nat), exec i { s with quantum := m } = .next t →
    exec i { s with quantum := m + n } = .next { run n s.side t with quantum := m + n }

/-! ### Encoding -/

/-- Words written out from the tables of spec/30_encoding.md R100, R101, R105, R106, one or more of each
family of operations. -/
def Obligations.WordsOfTheSpecDecode : Prop :=
  decode (.cmd 0x01010005) = .ok (.enqueue .rx 5) ∧
  decode (.cmd 0x02000000) = .ok (.drain .tx) ∧
  decode (.cmd 0x0400000C) = .ok (.ptrWrite .rxTailPub) ∧
  decode (.cmd 0x09000002) = .ok (.ack .error) ∧
  decode (.cmd 0x1200012C) = .ok (.generateRx 300) ∧
  decode (.rt 0x118) = .ok .regWrIntClear ∧
  decode (.rt 0x008) = .ok .regRdHostTxHeadPub ∧
  decode (.mt 0x300000007) = .ok (.memWr .rx 7) ∧
  decode (.cmd 0x08000003) = .error .badBitIndex ∧
  decode (.rt 0x01C) = .error .badRegisterOffset

/-- Decode and encode agree on every instruction with every operand. -/
def Obligations.DecodeOfEncodeIsTheInstruction : Prop :=
  ∀ i : Instr, decode (encode i) = .ok i

/-- A word that decodes is the word of the instruction it decodes to: no bit of a word is dropped, and "no
encoding executes as another" (spec/30_encoding.md R109). Every other word is rejected (R108 a, b, d). -/
def Obligations.DecodedWordIsTheEncodedOne : Prop :=
  ∀ (t : Txn) (i : Instr), decode t = .ok i → encode i = t

/-! ### Who may issue what -/

/-- The issue rights of spec/30_encoding.md R107: a side that is not listed is refused, and a side that is
listed is never refused for that reason. -/
def Obligations.IssueRightsAreKept : Prop :=
  ∀ (i : Instr) (s : State), (s.port.get s.side).busy = none →
    (exec i s = .refused .notIssuer ↔
      match i with
      | .enqueue .tx _ | .memWr .tx _ | .drain .rx | .commit .rx | .memRd .rx _ => s.side ≠ .host
      | .enqueue .rx _ | .memWr .rx _ | .drain .tx | .commit .tx | .memRd .tx _ => s.side ≠ .device
      | .ptrWrite .txTail | .ptrWrite .rxHead | .regWrTxTailPtr | .regWrRxHeadPtr => s.side ≠ .device
      | .ptrWrite .txHeadPub | .ptrWrite .rxTailPub | .regWrHostTxHeadPub | .regWrHostRxTailPub =>
        s.side ≠ .host
      | .ack _ | .dispatch | .send _ | .regWrIntEnable | .regWrIntClear => s.side ≠ .host
      | .processTx | .generateRx _ => s.side ≠ .device
      | .raiseInt _ | .regWrIntStatus | .ptrRead _ => False
      | .regRdTxTailPtr | .regRdRxHeadPtr | .regRdHostTxHeadPub | .regRdHostRxTailPub => False
      | .regRdIntStatus | .regRdIntEnable | .regRdIntClear => False)

/-- The requests that are not operations of the block (spec/30_encoding.md R108 a to e): a reserved `op`, a
non-zero reserved field, a ring or an argument where there is none, a bad pointer offset or bit index; a side
without the right; a register offset that is none of the seven, an index beyond its store; a pointer value
that is no position. Each is refused, so that no state follows it. -/
def Obligations.RequestsOutsideTheInterfaceAreRefused : Prop :=
  ∀ (s : State) (sd : Side) (rq : Request) (n : Nat) (rest : List Input),
    s.inputs = .issue sd rq n :: rest →
    (∀ w, rq.txn = .cmd w →
      let op := w.toNat / 2 ^ 24
      let reserved := w.toNat / 2 ^ 17 % 128
      let g := w.toNat / 2 ^ 16 % 2
      let arg := w.toNat % 2 ^ 16
      op ∉ [0x01, 0x02, 0x03, 0x04, 0x05, 0x08, 0x09, 0x0A, 0x10, 0x11, 0x12] ∨ reserved ≠ 0 ∨
        (op ∉ [0x01, 0x02, 0x03] ∧ g = 1) ∨ (op ∈ [0x02, 0x03, 0x0A, 0x11] ∧ arg ≠ 0) ∨
        (op ∈ [0x04, 0x05] ∧ arg ∉ [0x00, 0x04, 0x08, 0x0C]) ∨ (op ∈ [0x08, 0x09] ∧ 2 < arg) →
      ∃ r, step s = .refused r) ∧
    (∀ i, decode rq.txn = .ok i → mayIssue sd i = false → ∃ r, step s = .refused r) ∧
    (∀ w, rq.txn = .rt w → w.toNat % 2 ^ 8 ∉ [0x00, 0x04, 0x08, 0x0C, 0x10, 0x14, 0x18] →
      ∃ r, step s = .refused r) ∧
    (∀ w, rq.txn = .mt w →
      s.cap (if w.toNat / 2 ^ 32 % 2 = 0 then .tx else .rx) ≤ w.toNat % 2 ^ 32 → ∃ r, step s = .refused r) ∧
    (∀ p i, decode rq.txn = .ok i → i = .ptrWrite p ∨ i = regWrite (.ptr p) →
      s.cap (ptrRing p) ≤ rq.wdata.toNat → ∃ r, step s = .refused r)

/-- A side with an operation in progress cannot issue another one (spec/10_state.md R24, U18). -/
def Obligations.BusyPortIsRefused : Prop :=
  ∀ (i : Instr) (s : State), (s.port.get s.side).busy ≠ none → exec i s = .refused .portBusy

/-! ### The latch -/

/-- `irq = ((reg[INT_STATUS] & reg[INT_ENABLE] & 0x7) != 0)` (spec/10_state.md R39): asserted exactly when
one of the three bits is both recorded and enabled. -/
def Obligations.IrqIsRecordedAndEnabled : Prop :=
  ∀ s : State, s.irq = true ↔
    ∃ k, k < 3 ∧ s.intStatus.getLsbD k = true ∧ s.intEnable.getLsbD k = true

/-- RAISE (spec/42_latch_ops.md R150): completes for either side, sets the one bit, changes nothing else,
whatever INT_ENABLE holds; `irq` follows at once. Its word is `op` 0x08 with the bit index. That the operand
registers keep their values after the operation is the model's choice (log 21). -/
def Obligations.RaiseSetsItsBitOnly : Prop :=
  ∀ (b : IntBit) (s : State), (s.port.get s.side).busy = none →
    ∃ t, exec (.raiseInt b) s = .next t ∧ Answered s t .ok ∧
      (∀ k, k < 32 → t.intStatus.getLsbD k = (s.intStatus.getLsbD k || decide (k = (bitIndex b).toNat))) ∧
      t.irq = decide (t.intStatus &&& s.intEnable &&& 0x7 ≠ 0) ∧
      UnchangedBut [.status] s t ∧
      decode (.cmd (BitVec.ofNat 32 (0x08000000 + (bitIndex b).toNat))) = .ok (.raiseInt b)

/-- ACK (spec/42_latch_ops.md R151): completes for the host, clears the one bit, changes nothing else. Its word
is `op` 0x09 with the bit index. That the operand registers keep their values after the operation is the model's
choice (log 21). -/
def Obligations.AckClearsItsBitOnly : Prop :=
  ∀ (b : IntBit) (s : State), (s.port.get s.side).busy = none → s.side = .host →
    ∃ t, exec (.ack b) s = .next t ∧ Answered s t .ok ∧
      (∀ k, k < 32 → t.intStatus.getLsbD k = (s.intStatus.getLsbD k && !decide (k = (bitIndex b).toNat))) ∧
      UnchangedBut [.status] s t ∧
      decode (.cmd (BitVec.ofNat 32 (0x09000000 + (bitIndex b).toNat))) = .ok (.ack b)

/-- REG_WR INT_STATUS (spec/44_port_access.md R186): completes for either side; each of the three bits is set
where the written value has a 1 and kept where it has a 0; the other bits are kept. Two such writes give the
same value in either order, and RAISE is this write of its one bit. That the operand registers keep their values
after the operation is the model's choice (log 21). -/
def Obligations.StatusWriteOrs : Prop :=
  ∀ s : State, (s.port.get s.side).busy = none →
    ∃ t, exec .regWrIntStatus s = .next t ∧ Answered s t .ok ∧
      (∀ k, k < 32 → t.intStatus.getLsbD k =
        (s.intStatus.getLsbD k || (decide (k < 3) && (s.port.get s.side).wdata.getLsbD k))) ∧
      UnchangedBut [.status] s t ∧
      (∀ v w, setStatus (setStatus s.intStatus v) w = setStatus (setStatus s.intStatus w) v) ∧
      (∀ b, (s.port.get s.side).wdata = 1 <<< (bitIndex b).toNat →
        exec (.raiseInt b) s = exec .regWrIntStatus s)

/-- REG_WR INT_CLEAR (spec/44_port_access.md R188): completes for the host; each of the three bits is cleared
where the written value has a 1 and kept where it has a 0; the other bits are kept; ACK is this write of its one
bit, and INT_CLEAR goes on to read 0. That the operand registers keep their values after the operation is the
model's choice (log 21). -/
def Obligations.ClearWriteClears : Prop :=
  ∀ s : State, (s.port.get s.side).busy = none → s.side = .host →
    ∃ t, exec .regWrIntClear s = .next t ∧ Answered s t .ok ∧
      (∀ k, k < 32 → t.intStatus.getLsbD k =
        (s.intStatus.getLsbD k && !(decide (k < 3) && (s.port.get s.side).wdata.getLsbD k))) ∧
      UnchangedBut [.status] s t ∧
      (∃ u, exec .regRdIntClear t = .next u ∧ (u.port.get s.side).rdata = 0) ∧
      (∀ b, (s.port.get s.side).wdata = 1 <<< (bitIndex b).toNat →
        exec (.ack b) s = exec .regWrIntClear s)

/-- REG_WR INT_ENABLE (spec/44_port_access.md R187): completes for the host; the three implemented bits are
stored, the others are 0; no status bit changes; `irq` follows at once. That the operand registers keep their
values after the operation is the model's choice (log 21). -/
def Obligations.EnableWriteStores : Prop :=
  ∀ s : State, (s.port.get s.side).busy = none → s.side = .host →
    ∃ t, exec .regWrIntEnable s = .next t ∧ Answered s t .ok ∧
      (∀ k, k < 32 → t.intEnable.getLsbD k = (decide (k < 3) && (s.port.get s.side).wdata.getLsbD k)) ∧
      t.irq = decide (s.intStatus &&& (s.port.get s.side).wdata &&& 0x7 ≠ 0) ∧
      UnchangedBut [.enable] s t

/-- REG_RD of INT_STATUS, INT_ENABLE and INT_CLEAR (spec/44_port_access.md R189): completes for either side,
returns the current value with bits 31:3 zero (INT_CLEAR: 0) and changes nothing. That the operand registers
keep their values after the operation is the model's choice (log 21). -/
def Obligations.LatchReadsReturnTheBits : Prop :=
  ∀ s : State, (s.port.get s.side).busy = none →
    (∃ t, exec .regRdIntStatus s = .next t ∧ Answered s t .ok ∧
      (∀ k, k < 32 → (t.port.get s.side).rdata.getLsbD k = (decide (k < 3) && s.intStatus.getLsbD k)) ∧
      UnchangedBut [] s t) ∧
    (∃ t, exec .regRdIntEnable s = .next t ∧ Answered s t .ok ∧
      (∀ k, k < 32 → (t.port.get s.side).rdata.getLsbD k = (decide (k < 3) && s.intEnable.getLsbD k)) ∧
      UnchangedBut [] s t) ∧
    (∃ t, exec .regRdIntClear s = .next t ∧ Answered s t .ok ∧ (t.port.get s.side).rdata = 0 ∧
      UnchangedBut [] s t)

/-- The handlers and the walk of DISPATCH (spec/42_latch_ops.md R152, R155, R156; spec/43_agent_ops.md R168,
R169), with no other agent acting in between. With RX_READY set the whole frames the host can see leave the RX
ring for the host's sink in order, the consumer position moves past them and, if there was one, is published;
with ERROR set an error report follows; every bit is cleared. That the operand registers keep their values after
the operation is the model's choice (log 21). -/
def Obligations.DispatchServesEverySetBit : Prop :=
  ∀ s : State, (s.port.get s.side).busy = none → s.side = .host → s.cfg.valid = true →
    fullQuantum s.cfg ≤ s.quantum →
    let frames := if s.intStatus.getLsbD 0 then framesTo s .rx (s.seen.get .rxHead) else ([], 0)
    ∃ t, exec .dispatch s = .next t ∧ Answered s t .ok ∧
      (∀ k, k < 32 → t.intStatus.getLsbD k = (s.intStatus.getLsbD k && decide (3 ≤ k))) ∧
      t.events.host = s.events.host ++ frames.1.map Event.sinkHost ++
        (if s.intStatus.getLsbD 2 then [Event.errorReport] else []) ∧
      (frames.1 = [] → t.consPos.get .rx = s.consPos.get .rx ∧
        t.reg.get .rxTailPub = s.reg.get .rxTailPub) ∧
      (frames.1 ≠ [] →
        (t.consPos.get .rx).toNat = ((s.consPos.get .rx).toNat + frames.2) % s.cap .rx ∧
        t.reg.get .rxTailPub = t.consPos.get .rx) ∧
      UnchangedBut [.cons .rx, .reg .rxTailPub, .events .host, .status] s t

/-- Past its snapshot a DISPATCH clears no bit that the snapshot did not hold: a bit raised meanwhile stays
pending (spec/42_latch_ops.md R154, spec/60_exceptions.md R218). -/
def Obligations.LaterRaiseOutlivesDispatch : Prop :=
  ∀ (s : State) (n : Nat) (ph : Phase) (todo : List IntBit) (b : IntBit),
    (s.port.get .host).busy = some ph → (ph = .ackBit todo ∨ ph = .report todo ∨
      (∃ k, ph = .drainRead (.dispatch todo k)) ∨ (∃ k pp, ph = .headerLow (.dispatch todo k) pp) ∨
      (∃ k pp b0, ph = .headerHigh (.dispatch todo k) pp b0) ∨
      (∃ k pp pos left acc, ph = .copyOut (.dispatch todo k) pp pos left acc) ∨
      (∃ k pp, ph = .giveBack (.dispatch todo k) pp)) →
    b ∉ todo → s.intStatus.getLsbD (bitIndex b).toNat = true →
    (run n .host s).intStatus.getLsbD (bitIndex b).toNat = true

/-- "DISPATCH does not read INT_ENABLE" (spec/42_latch_ops.md R153): another mask gives the same next state
but for the mask. -/
def Obligations.DispatchIgnoresTheMask : Prop :=
  ∀ (s t : State) (v : Word), exec .dispatch s = .next t →
    exec .dispatch { s with intEnable := v } = .next { t with intEnable := v }

/-- "No operation of the block raises ERROR by itself" (spec/42_latch_ops.md R157): a step sets ERROR only when its
input presents an explicit RAISE ERROR, or a write to INT_STATUS with a 1 in bit 2. Each side's operation in
progress is one it may issue (`EveryStepKeepsRoles`). -/
def Obligations.OnlyExplicitRaiseSetsError : Prop :=
  ∀ s t : State, RolesKept s → step s = .next t →
    (∀ sd rq n rest i, s.inputs = .issue sd rq n :: rest → decode rq.txn = .ok i →
      i ≠ .raiseInt .error ∧ (i = .regWrIntStatus → rq.wdata.getLsbD 2 = false)) →
    t.intStatus.getLsbD 2 = true → s.intStatus.getLsbD 2 = true

/-! ### Published pointers -/

/-- PTR_WRITE and REG_WR of a pointer register (spec/41_pointer_ops.md R140, spec/44_port_access.md R184:
`ptrWrite`, `regWrTxTailPtr`, `regWrRxHeadPtr`, `regWrHostTxHeadPub`, `regWrHostRxTailPub`): for its owner a
legal position is stored whole, `seen` and the local position are unchanged; a value that is no position is
refused (spec/30_encoding.md R108 e). The word of PTR_WRITE is `op` 0x04 with the register's offset. That the
operand registers keep their values after the operation is the model's choice (log 21). -/
def Obligations.PointerWriteStoresWhole : Prop :=
  ∀ (p : Ptr) (i : Instr) (s : State), i = .ptrWrite p ∨ i = regWrite (.ptr p) →
    (s.port.get s.side).busy = none → s.side = owner p →
    ((s.port.get s.side).wdata.toNat < s.cap (ptrRing p) →
      ∃ t, exec i s = .next t ∧ Answered s t .ok ∧ t.reg.get p = (s.port.get s.side).wdata ∧
        UnchangedBut [.reg p] s t) ∧
    (s.cap (ptrRing p) ≤ (s.port.get s.side).wdata.toNat → exec i s = .refused .badPointer) ∧
    decode (.cmd (BitVec.ofNat 32 (0x04000000 + (ptrOffset p).toNat))) = .ok (.ptrWrite p)

/-- PTR_READ and REG_RD of a pointer register (spec/41_pointer_ops.md R141, spec/44_port_access.md R185:
`ptrRead`, `regRdTxTailPtr`, `regRdRxHeadPtr`, `regRdHostTxHeadPub`, `regRdHostRxTailPub`): the owner reads
`reg[P]`, the other side `seen[P]`; nothing changes. The word of PTR_READ is `op` 0x05 with the register's
offset. That the operand registers keep their values after the operation is the model's choice (log 21). -/
def Obligations.PointerReadBySide : Prop :=
  ∀ (p : Ptr) (i : Instr) (s : State), i = .ptrRead p ∨ i = regRead (.ptr p) →
    (s.port.get s.side).busy = none →
    ∃ t, exec i s = .next t ∧ Answered s t .ok ∧
      (s.side = owner p → (t.port.get s.side).rdata = s.reg.get p) ∧
      (s.side ≠ owner p → (t.port.get s.side).rdata = s.seen.get p) ∧
      UnchangedBut [] s t ∧
      decode (.cmd (BitVec.ofNat 32 (0x05000000 + (ptrOffset p).toNat))) = .ok (.ptrRead p)

/-- SYNC (spec/41_pointer_ops.md R142): it copies the whole of `reg[P]` into `seen[P]` and changes nothing
else; nothing else writes `seen[P]`. Where SYNC_LATENCY is unbounded the SYNC steps are those of the inputs;
where it is bounded, those that come due after a turn of one atomic action join them (log 12), and a copy that
changes takes the value its register then has. -/
def Obligations.OnlySyncMovesTheCopy : Prop :=
  (∀ (s : State) (p : Ptr) (rest : List Input), s.inputs = .sync p :: rest →
    ∃ t, step s = .next t ∧ t.seen.get p = s.reg.get p ∧
      (s.cfg.syncLatency = none → ∀ p', p' ≠ p → t.seen.get p' = s.seen.get p') ∧
      (∀ p', t.seen.get p' = s.seen.get p' ∨ t.seen.get p' = s.reg.get p') ∧
      t = { s with inputs := rest, seen := t.seen, waited := t.waited }) ∧
  (∀ (s t : State) (p : Ptr), step s = .next t → (∀ rest, s.inputs ≠ .sync p :: rest) →
    (s.cfg.syncLatency = none → t.seen.get p = s.seen.get p) ∧
    (t.seen.get p = s.seen.get p ∨ t.seen.get p = t.reg.get p))

/-- Along any run that begins with the copy of `P` equal to its register, as reset leaves it, `seen[P]` holds at
every moment a value `reg[P]` held at that moment or earlier, and the values it takes follow the order of
the register's (spec/10_state.md R34). -/
def Obligations.ReaderNeverGoesBack : Prop :=
  ∀ (f : Nat → State) (n : Nat) (p : Ptr), (∀ k, k < n → step (f k) = .next (f (k + 1))) →
    (f 0).seen.get p = (f 0).reg.get p →
    ∃ j : Nat → Nat, (∀ k, k ≤ n → j k ≤ k) ∧ (∀ k, k < n → j k ≤ j (k + 1)) ∧
      ∀ k, k ≤ n → (f k).seen.get p = (f (j k)).reg.get p

/-- The pseudo-operations of spec/30_encoding.md R111: each is exactly the other operation. -/
def Obligations.PseudoOperationsAreTheSame : Prop :=
  ∀ s : State,
    (∀ len, exec (.send len) s = exec (.enqueue .tx len) s) ∧
    (∀ b, (s.port.get s.side).wdata = 1 <<< (bitIndex b).toNat →
      exec (.raiseInt b) s = exec .regWrIntStatus s ∧ exec (.ack b) s = exec .regWrIntClear s) ∧
    (∀ p, exec (.ptrWrite p) s = exec (regWrite (.ptr p)) s ∧
      exec (.ptrRead p) s = exec (regRead (.ptr p)) s)

/-! ### Backing stores -/

/-- MEM_RD (spec/44_port_access.md R181): for the consumer, the byte at an index of the store, and nothing
changes; an index beyond the store is refused (spec/30_encoding.md R108 d). That the byte is the stored one also
where the contract leaves it open is the reference model's answer (log 4). That the operand registers keep their
values after the operation is the model's choice (log 21). -/
def Obligations.MemReadReturnsTheByte : Prop :=
  ∀ (g : Ring) (idx : Word) (s : State), (s.port.get s.side).busy = none → s.side = consumer g →
    (idx.toNat < s.cap g →
      ∃ t, exec (.memRd g idx) s = .next t ∧ Answered s t .ok ∧
        (t.port.get s.side).rbyte = (s.store.get g).read idx.toNat ∧ UnchangedBut [] s t) ∧
    (s.cap g ≤ idx.toNat → exec (.memRd g idx) s = .refused .badIndex)

/-- MEM_WR (spec/44_port_access.md R182): for the producer, the one byte is stored and every other byte of both
stores is unchanged; an index beyond the store is refused (spec/30_encoding.md R108 d). That the operand
registers keep their values after the operation is the model's choice (log 21). -/
def Obligations.MemWriteStoresTheByte : Prop :=
  ∀ (g : Ring) (idx : Word) (s : State), (s.port.get s.side).busy = none → s.side = producer g →
    (s.store.get g).wf →
    (idx.toNat < s.cap g →
      ∃ t, exec (.memWr g idx) s = .next t ∧ Answered s t .ok ∧
        (t.store.get g).read idx.toNat = (s.port.get s.side).wbyte ∧
        (∀ j, j ≠ idx.toNat → (t.store.get g).read j = (s.store.get g).read j) ∧
        UnchangedBut [.mem g] s t) ∧
    (s.cap g ≤ idx.toNat → exec (.memWr g idx) s = .refused .badIndex)

/-! ### Ring operations -/

/-- `dist` is the mathematical remainder of spec/00_scope.md R10, in `[0, C)`, for every capacity above 0. -/
def Obligations.DistIsTheRemainder : Prop :=
  ∀ (a b : Word) (c : Nat), 0 < c →
    (dist a b c : Int) = ((a.toNat : Int) - (b.toNat : Int)) % (c : Int) ∧ dist a b c < c

/-- ENQUEUE, and SEND which is ENQUEUE on the TX ring (spec/40_ring_ops.md R120, R126, R127;
spec/43_agent_ops.md R160), with no other agent acting in between, in its three outcomes: FrameTooLarge and
InsufficientSpace change nothing; otherwise the header, low byte first, and the payload lie from the producer
position on, around the end, no other byte changes, and the new position is held and published. That the operand
registers keep their values after the operation is the model's choice (log 21). -/
def Obligations.EnqueueFollowsItsSteps : Prop :=
  ∀ (g : Ring) (len : Half) (i : Instr) (s : State), i = .enqueue g len ∨ (g = .tx ∧ i = .send len) →
    (s.port.get s.side).busy = none → s.side = producer g → s.cfg.valid = true → (s.store.get g).wf →
    (s.port.get s.side).pbuf.length = len.toNat → len.toNat + 4 ≤ s.quantum →
    ∃ t, exec i s = .next t ∧
      if s.cap g < len.toNat + 2 then Answered s t .frameTooLarge ∧ UnchangedBut [] s t
      else if s.cap g - 1 - dist (s.prodPos.get g) (s.seen.get (pubCons g)) (s.cap g) < len.toNat + 2 then
        Answered s t .insufficientSpace ∧ UnchangedBut [] s t
      else
        Answered s t .ok ∧
        (t.store.get g).read ((s.prodPos.get g).toNat % s.cap g) = len.extractLsb' 0 8 ∧
        (t.store.get g).read (((s.prodPos.get g).toNat + 1) % s.cap g) = len.extractLsb' 8 8 ∧
        (∀ k, ∀ hk : k < (s.port.get s.side).pbuf.length,
          (t.store.get g).read (((s.prodPos.get g).toNat + 2 + k) % s.cap g) = (s.port.get s.side).pbuf[k]) ∧
        (∀ j, (∀ k, k < len.toNat + 2 → j ≠ ((s.prodPos.get g).toNat + k) % s.cap g) →
          (t.store.get g).read j = (s.store.get g).read j) ∧
        (t.prodPos.get g).toNat = ((s.prodPos.get g).toNat + len.toNat + 2) % s.cap g ∧
        t.reg.get (pubProd g) = t.prodPos.get g ∧
        UnchangedBut [.mem g, .prod g, .reg (pubProd g)] s t

/-- A frame is not written atomically: cut short before its last action, an ENQUEUE that passed its checks is
still in progress, has moved neither the position nor the pointer, and has touched no byte outside the frame's
range (spec/20_memory.md R66 c, R74; spec/40_ring_ops.md R126). That the operand registers keep their values
after the operation is the model's choice (log 21). -/
def Obligations.FrameStaysHiddenUntilPublished : Prop :=
  ∀ (g : Ring) (len : Half) (s : State),
    (s.port.get s.side).busy = none → s.side = producer g → s.cfg.valid = true →
    (s.port.get s.side).pbuf.length = len.toNat → s.quantum < len.toNat + 4 →
    len.toNat + 2 ≤ freeSpace (s.prodPos.get g) (s.seen.get (pubCons g)) (s.cap g) →
    ∃ t, exec (.enqueue g len) s = .next t ∧ (t.port.get s.side).busy ≠ none ∧
      (∀ j, (∀ k, k < len.toNat + 2 → j ≠ ((s.prodPos.get g).toNat + k) % s.cap g) →
        (t.store.get g).read j = (s.store.get g).read j) ∧
      UnchangedBut [.mem g] s t

/-- "A payload of exactly `C - 2` bytes can never be sent: it is not FrameTooLarge, and it gets
InsufficientSpace on every attempt" (spec/70_reset_and_hazards.md R247, spec/40_ring_ops.md R122); in a safe
state the largest payload that is enqueued has `C - 3` bytes, and only into an empty ring whose consumer has
published everything it drained; and GENERATE_RX gives InsufficientSpace for every larger one too
(spec/60_exceptions.md R211). That the operand registers keep their values after the operation is the model's
choice (log 21). -/
def Obligations.FullStoreFrameNeverFits : Prop :=
  ∀ (g : Ring) (len : Half) (s : State),
    (s.port.get s.side).busy = none → s.side = producer g → s.cfg.valid = true →
    (s.port.get s.side).pbuf.length = len.toNat → 1 ≤ s.quantum →
    (len.toNat + 2 = s.cap g →
      ∃ t, exec (.enqueue g len) s = .next t ∧ Answered s t .insufficientSpace ∧ UnchangedBut [] s t) ∧
    (Safe s → ∀ t, exec (.enqueue g len) s = .next t → Answered s t .ok →
      len.toNat + 3 ≤ s.cap g ∧
      (len.toNat + 3 = s.cap g →
        s.prodPos.get g = s.consPos.get g ∧ s.reg.get (pubCons g) = s.consPos.get g)) ∧
    (g = .rx → s.cap g ≤ len.toNat + 2 →
      ∃ t, exec (.generateRx len) s = .next t ∧ Answered s t .insufficientSpace ∧ UnchangedBut [] s t)

/-- Full and empty (spec/40_ring_ops.md R131): a frame of size exactly the free space is enqueued and leaves the
ring full, one byte more fails InsufficientSpace and changes nothing, and what is occupied never exceeds `C -
1`, with no other agent acting in between. That the operand registers keep their values after the operation is
the model's choice (log 21). -/
def Obligations.ExactFitSucceedsOneByteMoreFails : Prop :=
  ∀ (g : Ring) (len : Half) (s : State),
    (s.port.get s.side).busy = none → s.side = producer g → s.cfg.valid = true →
    (s.port.get s.side).pbuf.length = len.toNat → len.toNat + 4 ≤ s.quantum →
    (len.toNat + 2 = freeSpace (s.prodPos.get g) (s.seen.get (pubCons g)) (s.cap g) →
      ∃ t, exec (.enqueue g len) s = .next t ∧ Answered s t .ok ∧
        dist (t.prodPos.get g) (t.seen.get (pubCons g)) (t.cap g) = t.cap g - 1) ∧
    (len.toNat + 2 = freeSpace (s.prodPos.get g) (s.seen.get (pubCons g)) (s.cap g) + 1 →
      ∃ t, exec (.enqueue g len) s = .next t ∧ Answered s t .insufficientSpace ∧ UnchangedBut [] s t) ∧
    (∀ t, exec (.enqueue g len) s = .next t →
      dist (t.prodPos.get g) (t.seen.get (pubCons g)) (t.cap g) ≤ t.cap g - 1)

/-- ENQUEUE does not read `loc.cons_pos[g]`, INT_STATUS or INT_ENABLE, nor the consumer's own register
(spec/40_ring_ops.md R121, R127): with other values there, the next state is the same but for them. -/
def Obligations.EnqueueIgnoresTheConsumerSide : Prop :=
  ∀ (g : Ring) (len : Half) (s t : State) (c p st en : Word), exec (.enqueue g len) s = .next t →
    exec (.enqueue g len) { s with
      consPos := s.consPos.set g c, reg := s.reg.set (pubCons g) p, intStatus := st, intEnable := en } =
    .next { t with
      consPos := t.consPos.set g c, reg := t.reg.set (pubCons g) p, intStatus := st, intEnable := en }

/-- DRAIN (spec/40_ring_ops.md R123, R129), with no other agent acting in between, in its three outcomes: both
WouldBlock change nothing; otherwise the view is presented and the local position moves past the frame, nothing
else. The two bytes at the position are the length, whatever they are. That the operand registers keep their
values after the operation is the model's choice (log 21). -/
def Obligations.DrainFollowsItsSteps : Prop :=
  ∀ (g : Ring) (s : State), (s.port.get s.side).busy = none → s.side = consumer g → s.cfg.valid = true →
    3 ≤ s.quantum →
    let avail := dist (s.seen.get (pubProd g)) (s.consPos.get g) (s.cap g)
    let b0 := (s.store.get g).read ((s.consPos.get g).toNat % s.cap g)
    let b1 := (s.store.get g).read (((s.consPos.get g).toNat + 1) % s.cap g)
    let len := b0.toNat + 256 * b1.toNat
    ∃ t, exec (.drain g) s = .next t ∧
      if avail < 2 then Answered s t (.wouldBlock .header) ∧ UnchangedBut [] s t
      else if avail < len + 2 then Answered s t (.wouldBlock .partialFrame) ∧ UnchangedBut [] s t
      else
        Answered s t .ok ∧
        (t.port.get s.side).voff.toNat = ((s.consPos.get g).toNat + 2) % s.cap g ∧
        (t.port.get s.side).vlen.toNat = len ∧
        (t.consPos.get g).toNat = ((s.consPos.get g).toNat + len + 2) % s.cap g ∧
        UnchangedBut [.cons g] s t

/-- COMMIT (spec/40_ring_ops.md R125): always Ok; the consumer position is published and nothing else changes.
Its word is `op` 0x03 with the ring. That the operand registers keep their values after the operation is the
model's choice (log 21). -/
def Obligations.CommitPublishesThePosition : Prop :=
  ∀ (g : Ring) (s : State), (s.port.get s.side).busy = none → s.side = consumer g →
    ∃ t, exec (.commit g) s = .next t ∧ Answered s t .ok ∧ t.reg.get (pubCons g) = s.consPos.get g ∧
      UnchangedBut [.reg (pubCons g)] s t ∧
      decode (.cmd (BitVec.ofNat 32 (0x03000000 + 0x10000 * (ringBit g).toNat))) = .ok (.commit g)

/-! ### Composite operations -/

/-- GENERATE_RX (spec/43_agent_ops.md R165), with no other agent acting in between: InsufficientSpace changes
nothing; otherwise the frame is enqueued on the RX ring and RX_READY is raised exactly when occupancy, measured
against the consumer position read, crosses the watermark. That the operand registers keep their values after
the operation is the model's choice (log 21). -/
def Obligations.GenerateRxFollowsItsSteps : Prop :=
  ∀ (len : Half) (s : State), (s.port.get s.side).busy = none → s.side = .device → s.cfg.valid = true →
    (s.store.get .rx).wf → (s.port.get s.side).pbuf.length = len.toNat → len.toNat + 5 ≤ s.quantum →
    let before := dist (s.prodPos.get .rx) (s.seen.get .rxTailPub) (s.cap .rx)
    ∃ t, exec (.generateRx len) s = .next t ∧
      if s.cap .rx - 1 - before < len.toNat + 2 then
        Answered s t .insufficientSpace ∧ UnchangedBut [] s t
      else
        Answered s t .ok ∧
        (t.store.get .rx).read ((s.prodPos.get .rx).toNat % s.cap .rx) = len.extractLsb' 0 8 ∧
        (t.store.get .rx).read (((s.prodPos.get .rx).toNat + 1) % s.cap .rx) = len.extractLsb' 8 8 ∧
        (∀ k, ∀ hk : k < (s.port.get s.side).pbuf.length,
          (t.store.get .rx).read (((s.prodPos.get .rx).toNat + 2 + k) % s.cap .rx) =
            (s.port.get s.side).pbuf[k]) ∧
        (∀ j, (∀ k, k < len.toNat + 2 → j ≠ ((s.prodPos.get .rx).toNat + k) % s.cap .rx) →
          (t.store.get .rx).read j = (s.store.get .rx).read j) ∧
        (t.prodPos.get .rx).toNat = ((s.prodPos.get .rx).toNat + len.toNat + 2) % s.cap .rx ∧
        t.reg.get .rxHead = t.prodPos.get .rx ∧
        t.intStatus = (if before < s.cfg.rxHighWatermark ∧ s.cfg.rxHighWatermark ≤ before + len.toNat + 2
          then s.intStatus ||| 0x1 else s.intStatus) ∧
        UnchangedBut [.mem .rx, .prod .rx, .reg .rxHead, .status] s t

/-- PROCESS_TX with TX_DRAIN_MODE = one (spec/43_agent_ops.md R161, R163, R164), with no other agent acting in
between: both WouldBlock change nothing; otherwise one frame's payload goes to the device's sink, the position
moves past it and is published, and TX_SPACE is raised exactly when free space, measured against the producer
position read, crosses the watermark. That the operand registers keep their values after the operation is the
model's choice (log 21). -/
def Obligations.ProcessTxDrainsOneFrame : Prop :=
  ∀ s : State, (s.port.get s.side).busy = none → s.side = .device → s.cfg.valid = true →
    s.cfg.txDrainMode = .one → fullQuantum s.cfg ≤ s.quantum →
    let avail := dist (s.seen.get .txHeadPub) (s.consPos.get .tx) (s.cap .tx)
    let len := (lengthAt s .tx (s.consPos.get .tx).toNat).toNat
    let before := s.cap .tx - 1 - avail
    let after := s.cap .tx - 1 - (avail - (len + 2))
    ∃ t, exec .processTx s = .next t ∧
      if avail < 2 then Answered s t (.wouldBlock .header) ∧ UnchangedBut [] s t
      else if avail < len + 2 then Answered s t (.wouldBlock .partialFrame) ∧ UnchangedBut [] s t
      else
        Answered s t .ok ∧
        t.events.device =
          s.events.device ++ [.sinkDevice (payloadAt s .tx ((s.consPos.get .tx).toNat + 2) len)] ∧
        (t.consPos.get .tx).toNat = ((s.consPos.get .tx).toNat + len + 2) % s.cap .tx ∧
        t.reg.get .txTail = t.consPos.get .tx ∧
        t.intStatus = (if before < s.cfg.txLowWatermark ∧ s.cfg.txLowWatermark ≤ after
          then s.intStatus ||| 0x2 else s.intStatus) ∧
        UnchangedBut [.cons .tx, .reg .txTail, .events .device, .status] s t

/-- PROCESS_TX with TX_DRAIN_MODE = exhaust (spec/43_agent_ops.md R162), with no other agent acting in between:
every whole frame the device can see is drained in order, one publication, TX_SPACE at most once; with none
visible WouldBlock with the drain's cause, and nothing changes. That the operand registers keep their values
after the operation is the model's choice (log 21). -/
def Obligations.ProcessTxDrainsToExhaustion : Prop :=
  ∀ s : State, (s.port.get s.side).busy = none → s.side = .device → s.cfg.valid = true →
    s.cfg.txDrainMode = .exhaust → fullQuantum s.cfg ≤ s.quantum →
    let avail := availTo s .tx (s.seen.get .txHeadPub)
    let frames := framesTo s .tx (s.seen.get .txHeadPub)
    let before := s.cap .tx - 1 - avail
    let after := s.cap .tx - 1 - (avail - frames.2)
    ∃ t, exec .processTx s = .next t ∧
      if frames.1 = [] then
        Answered s t (.wouldBlock (blockCause s .tx (s.seen.get .txHeadPub))) ∧ UnchangedBut [] s t
      else
        Answered s t .ok ∧
        t.events.device = s.events.device ++ frames.1.map Event.sinkDevice ∧
        (t.consPos.get .tx).toNat = ((s.consPos.get .tx).toNat + frames.2) % s.cap .tx ∧
        t.reg.get .txTail = t.consPos.get .tx ∧
        t.intStatus = (if before < s.cfg.txLowWatermark ∧ s.cfg.txLowWatermark ≤ after
          then s.intStatus ||| 0x2 else s.intStatus) ∧
        UnchangedBut [.cons .tx, .reg .txTail, .events .device, .status] s t

/-- The three operations that take a payload are refused when PBUF has not `len` bytes (log 10: the spec
makes PBUF a buffer of exactly `n` bytes, spec/30_encoding.md R102). -/
def Obligations.PayloadOfAnotherLengthIsRefused : Prop :=
  ∀ (i : Instr) (s : State), Ready i s → i.payloadFits (s.port.get s.side).pbuf = false →
    exec i s = .refused .payloadSize

/-! ### Invariants and whole-machine rules -/

/-- Every step, raw writes included and however operations are cut into turns, keeps every register and
position in its range, the reserved bits at 0 and the stores in their canonical form. -/
def Obligations.EveryStepKeepsRanges : Prop :=
  ∀ s t : State, Ranged s → step s = .next t → Ranged t

/-- Every step, raw writes included, keeps it so that each side's operation in progress is one it may issue
(spec/30_encoding.md R107). -/
def Obligations.EveryStepKeepsRoles : Prop :=
  ∀ s t : State, RolesKept s → step s = .next t → RolesKept t

/-- The state after reset is in range, for all legal parameters. -/
def Obligations.ResetIsRanged : Prop :=
  ∀ c : Config, c.valid = true → Ranged (State.resetWith c)

/-- Write ownership (spec/10_state.md R42, spec/60_exceptions.md R219): whatever a side issues, in a turn of any
length, and whatever it goes on with, from any state the others have left meanwhile, it changes nothing the other
side owns and nothing at the other port or among the other side's events; the device clears no status bit and does
not change INT_ENABLE; and no side writes a reader-side copy: in a step a copy moves only by a SYNC that a bounded
SYNC_LATENCY makes due (log 12). Each side's operation in progress is one it may issue (`EveryStepKeepsRoles`). -/
def Obligations.NoSideWritesWhatTheOtherOwns : Prop :=
  (∀ (i : Instr) (s t : State), exec i s = .next t → OwnWritesOnly s.side s t ∧ t.seen = s.seen) ∧
  (∀ (s t : State) (sd : Side) (x : Input) (rest : List Input), RolesKept s → s.inputs = x :: rest →
    x.actor = some sd → step s = .next t →
    OwnWritesOnly sd s t ∧
    ∀ p, t.seen.get p = s.seen.get p ∨ (s.cfg.syncLatency ≠ none ∧ t.seen.get p = t.reg.get p))

/-- With no raw write, every step of any interleaving keeps the order of the positions around both rings: no
position passes another, the producer pointer always equals the producer's position, and what the producer
claims leaves one slot free (spec/10_state.md R22, R32; spec/20_memory.md R76, R78). -/
def Obligations.ProtocolStepsKeepSafe : Prop :=
  ∀ s t : State, Safe s → NextKeepsProtocol s → step s = .next t → Safe t

/-- The state after reset is safe and both streams are whole and empty, for all legal parameters. -/
def Obligations.ResetIsSafe : Prop :=
  ∀ c : Config, c.valid = true →
    Safe (State.resetWith c) ∧ BatchesBounded (State.resetWith c) ∧
      ∀ g, StreamFaithful (State.resetWith c) g ∧ queued (State.resetWith c) g = []

/-- "No byte of the backing store is written by the producer while the consumer may read it"
(spec/20_memory.md R78): with no raw write, a step of any interleaving leaves every byte from the published
consumer position up to the producer position as it was. -/
def Obligations.LiveBytesAreNeverOverwritten : Prop :=
  ∀ s t : State, Safe s → NextKeepsProtocol s → step s = .next t →
    ∀ g k, k < dist (s.prodPos.get g) (s.reg.get (pubCons g)) (s.cap g) →
      t.byteAt g ((s.reg.get (pubCons g)).toNat + k) = s.byteAt g ((s.reg.get (pubCons g)).toNat + k)

/-- A stale consumer pointer never makes the producer accept a frame that would not fit (spec/40_ring_ops.md
R121): in a safe state the free space computed from the copy the producer reads is at most that computed
from the consumer's register, and that at most the true free space. -/
def Obligations.StalePointerUnderstatesSpace : Prop :=
  ∀ (s : State) (g : Ring), Safe s →
    freeSpace (s.prodPos.get g) (s.seen.get (pubCons g)) (s.cap g) ≤
      freeSpace (s.prodPos.get g) (s.reg.get (pubCons g)) (s.cap g) ∧
    freeSpace (s.prodPos.get g) (s.reg.get (pubCons g)) (s.cap g) ≤
      freeSpace (s.prodPos.get g) (s.consPos.get g) (s.cap g)

/-- "A batch has at most `floor((C - 1) / 2)` frames, however fast the producer runs beside it"
(spec/43_agent_ops.md R171): with no raw write, every step of any interleaving keeps the count of a running
batch within half of what is drained and not given back, which is at most `C - 1`. -/
def Obligations.DrainLoopsAreBounded : Prop :=
  ∀ s t : State, Safe s → BatchesBounded s → NextKeepsProtocol s → step s = .next t →
    BatchesBounded t ∧ ∀ g, batchCount g (t.port.get (consumer g)).busy ≤ (t.cap g - 1) / 2

/-- With no raw write, every step of any interleaving keeps both streams whole: what lies between the consumer
position and the producer position is a concatenation of whole frames (spec/30_encoding.md R95). -/
def Obligations.ProtocolStepsKeepStreamsWhole : Prop :=
  ∀ s t : State, Safe s → (∀ g, StreamFaithful s g) → NextKeepsProtocol s → step s = .next t →
    ∀ g, StreamFaithful t g

/-- "Drain yields frames in exact FIFO order, byte-identical to what was enqueued" (spec/40_ring_ops.md R130), in
any interleaving and however DRAIN, PROCESS_TX and DISPATCH follow one another. A step in which the operation DRAIN
of ring `g` answers Ok takes the oldest payload off the ring, and the view it presents (R124: `VLEN` bytes from
`VOFF`) is that payload; nothing is being copied out before or after it, and the producer position and what was
delivered stay. In every other step the payloads delivered, being copied out and still in the ring, in this order,
stay the same list, but that a step in which the producer position moves adds the payload presented at the
producer's port at the end. The port still holds that payload when the step is over (the model's choice, log 21). -/
def Obligations.FramesArriveInOrderUnchanged : Prop :=
  ∀ (s t : State) (g : Ring), Safe s → (∀ h, StreamFaithful s h) → NextKeepsProtocol s → step s = .next t →
    (DrainHandsOver s t g →
      queued s g = payloadAt t g (t.port.get (consumer g)).voff.toNat (t.port.get (consumer g)).vlen.toNat ::
        queued t g ∧
      t.prodPos.get g = s.prodPos.get g ∧ delivered t g = delivered s g ∧
      inFlight s g = [] ∧ inFlight t g = []) ∧
    (¬ DrainHandsOver s t g →
      pipeline t g =
        if t.prodPos.get g = s.prodPos.get g then pipeline s g
        else pipeline s g ++ [(t.port.get (producer g)).pbuf])

/-- Round trip (spec/40_ring_ops.md R130, spec/30_encoding.md R93): from an empty ring, at every start
position, a payload of any length that fits is enqueued, the producer pointer crosses, and DRAIN presents a
view of that length whose bytes are the payload, however the frame lies around the end. SYNC_LATENCY is unbounded,
its default, so that each operation takes one step; what a bound leaves of this is said for every interleaving
by `FramesArriveInOrderUnchanged`. -/
def Obligations.EnqueueSyncDrainRoundTrip : Prop :=
  ∀ (s : State) (g : Ring) (len : Half) (p : Word) (rq rq' : Request) (q q' : Nat),
    Ranged s → s.cfg.syncLatency = none → (∀ sd, (s.port.get sd).busy = none) →
    s.prodPos.get g = p → s.consPos.get g = p → s.seen.get (pubCons g) = p →
    len.toNat + 2 ≤ s.cap g - 1 → rq.pbuf.length = len.toNat → len.toNat + 4 ≤ q → 3 ≤ q' →
    decode rq.txn = .ok (.enqueue g len) → decode rq'.txn = .ok (.drain g) →
    s.inputs = [.issue (producer g) rq q, .sync (pubProd g), .issue (consumer g) rq' q'] →
    ∃ t₁ t₂ t₃, step s = .next t₁ ∧ step t₁ = .next t₂ ∧ step t₂ = .next t₃ ∧
      (t₃.port.get (consumer g)).busy = none ∧
      (t₃.port.get (consumer g)).res = resultWord .ok ∧
      (t₃.port.get (consumer g)).vlen = len ∧
      payloadAt t₃ g (t₃.port.get (consumer g)).voff.toNat len.toNat = rq.pbuf ∧
      t₃.consPos.get g = t₃.prodPos.get g

/-! ### The atomic actions a bounded SYNC_LATENCY counts -/

/-- Where SYNC_LATENCY is bounded, the count of a step is the number of atomic actions (spec/10_state.md R45) it
performs, one or none, and the step performs nothing more: 1 for a SYNC; 1 for a side that goes on, which performs
the next action of its operation; 0 for an empty turn and for a side with nothing in progress, where nothing
happens. An operation issued that takes several actions performs its first one and counts 1; in an empty turn it
only begins, and ENQUEUE and SEND answer FrameTooLarge before any action (spec/40_ring_ops.md R120 step 1), and
both count 0. An operation of one action counts 1 and ends. That a turn is one atomic action, and that the actions
counted are those of both sides and the SYNC steps of the inputs, is the model's choice (log 3, log 12). -/
def Obligations.CountedActionsArePerformed : Prop :=
  ∀ (s : State) (l : Nat), s.cfg.syncLatency = some l →
    (∀ p rest, s.inputs = .sync p :: rest →
      s.stepActions = 1 ∧ step s = .next (s.settle 1 ((s.setInputs rest).syncPtr p))) ∧
    (∀ sd n rest, s.inputs = .resume sd n :: rest →
      (n = 0 ∨ (s.port.get sd).busy = none →
        s.stepActions = 0 ∧ step s = .next (s.settle 0 (s.setInputs rest))) ∧
      (∀ ph, n ≠ 0 → (s.port.get sd).busy = some ph →
        s.stepActions = 1 ∧ step s = .next (s.settle 1 (act sd ph (s.setInputs rest))))) ∧
    (∀ sd rq n rest i t, s.inputs = .issue sd rq n :: rest → decode rq.txn = .ok i → step s = .next t →
      let begun := ((s.setInputs rest).present sd rq (min n 1)).dropResults
      match firstAction s i with
      | some ph =>
        (frameTooLargeFor s i = true →
          s.stepActions = 0 ∧ t = s.settle 0 (begun.finish sd .frameTooLarge)) ∧
        (frameTooLargeFor s i = false → n = 0 → s.stepActions = 0 ∧ t = s.settle 0 (begun.goOn sd ph)) ∧
        (frameTooLargeFor s i = false → n ≠ 0 →
          s.stepActions = 1 ∧ t = s.settle 1 (act sd ph (begun.goOn sd ph)))
      | none => s.stepActions = 1 ∧ (t.port.get sd).busy = none)
end

