-- ==== Sys2Proof/Laws/Decode.lean ====
section
/-! SUPPORT. The fields of an assembled word are the fields it was assembled from, and a word is assembled from its
fields, as numbers and bit by bit. -/

namespace Sys2Proof

theorem append_toNat {m n : Nat} (a : BitVec m) (b : BitVec n) :
    (a ++ b).toNat = a.toNat * 2 ^ n + b.toNat := by
  rw [BitVec.toNat_append, ← Nat.shiftLeft_add_eq_or_of_lt b.isLt, Nat.shiftLeft_eq]

/-! ### The command word -/

theorem cmdWord_toNat (op : BitVec 8) (g : BitVec 1) (n : Half) :
    (cmdWord op g n).toNat = op.toNat * 2 ^ 24 + g.toNat * 2 ^ 16 + n.toNat := by
  unfold cmdWord
  rw [append_toNat, append_toNat, append_toNat]
  simp
  omega

theorem cmdOp_toNat (w : BitVec 32) : (cmdOp w).toNat = w.toNat / 2 ^ 24 := by
  have := w.isLt
  simp [cmdOp, BitVec.extractLsb'_toNat, Nat.shiftRight_eq_div_pow]
  omega

theorem cmdReserved_toNat (w : BitVec 32) : (cmdReserved w).toNat = w.toNat / 2 ^ 17 % 2 ^ 7 := by
  simp [cmdReserved, BitVec.extractLsb'_toNat, Nat.shiftRight_eq_div_pow]

theorem cmdRingBit_toNat (w : BitVec 32) : (cmdRingBit w).toNat = w.toNat / 2 ^ 16 % 2 := by
  simp [cmdRingBit, BitVec.extractLsb'_toNat, Nat.shiftRight_eq_div_pow]

theorem cmdArg_toNat (w : BitVec 32) : (cmdArg w).toNat = w.toNat % 2 ^ 16 := by
  simp [cmdArg, BitVec.extractLsb'_toNat]

@[simp] theorem cmdOp_cmdWord (op : BitVec 8) (g : BitVec 1) (n : Half) : cmdOp (cmdWord op g n) = op := by
  apply BitVec.eq_of_toNat_eq
  rw [cmdOp_toNat, cmdWord_toNat]
  omega

@[simp] theorem cmdReserved_cmdWord (op : BitVec 8) (g : BitVec 1) (n : Half) :
    cmdReserved (cmdWord op g n) = 0 := by
  apply BitVec.eq_of_toNat_eq
  rw [cmdReserved_toNat, cmdWord_toNat]
  simp
  omega

@[simp] theorem cmdRingBit_cmdWord (op : BitVec 8) (g : BitVec 1) (n : Half) :
    cmdRingBit (cmdWord op g n) = g := by
  apply BitVec.eq_of_toNat_eq
  rw [cmdRingBit_toNat, cmdWord_toNat]
  omega

@[simp] theorem cmdArg_cmdWord (op : BitVec 8) (g : BitVec 1) (n : Half) : cmdArg (cmdWord op g n) = n := by
  apply BitVec.eq_of_toNat_eq
  rw [cmdArg_toNat, cmdWord_toNat]
  omega

/-- A command word whose reserved field is 0 is assembled from its fields. -/
theorem cmdWord_fields (w : BitVec 32) (h : cmdReserved w = 0) :
    cmdWord (cmdOp w) (cmdRingBit w) (cmdArg w) = w := by
  apply BitVec.eq_of_toNat_eq
  have hr := congrArg BitVec.toNat h
  rw [cmdReserved_toNat] at hr
  simp only [BitVec.ofNat_eq_ofNat, BitVec.toNat_ofNat] at hr
  rw [cmdWord_toNat, cmdOp_toNat, cmdRingBit_toNat, cmdArg_toNat]
  omega

theorem cmdWord_getLsbD (op : BitVec 8) (g : BitVec 1) (n : Half) (i : Nat) :
    (cmdWord op g n).getLsbD i =
      if i < 16 then n.getLsbD i
      else if i < 17 then g.getLsbD (i - 16)
      else if i < 24 then false
      else op.getLsbD (i - 24) := by
  unfold cmdWord
  rw [BitVec.getLsbD_append, BitVec.getLsbD_append, BitVec.getLsbD_append]
  by_cases h1 : i < 16
  · simp [h1]
  · by_cases h2 : i < 17
    · have : i - 16 < 1 := by omega
      simp [h1, h2, this]
    · have h3 : ¬i - 16 < 1 := by omega
      by_cases h4 : i < 24
      · have : i - 17 < 7 := by omega
        simp [h1, h2, h3, h4, Nat.sub_sub, this]
      · have : ¬i - 17 < 7 := by omega
        simp [h1, h2, h3, h4, Nat.sub_sub, this]

/-! ### The register transaction -/

theorem rtWord_toNat (wr : BitVec 1) (r : Reg) :
    (rtWord wr r).toNat = wr.toNat * 2 ^ 8 + (regOffset r).toNat := by
  unfold rtWord
  rw [append_toNat]

theorem rtWrite_toNat (w : BitVec 9) : (rtWrite w).toNat = w.toNat / 2 ^ 8 := by
  have := w.isLt
  simp [rtWrite, BitVec.extractLsb'_toNat, Nat.shiftRight_eq_div_pow]
  omega

theorem rtOffset_toNat (w : BitVec 9) : (rtOffset w).toNat = w.toNat % 2 ^ 8 := by
  simp [rtOffset, BitVec.extractLsb'_toNat]

@[simp] theorem rtWrite_rtWord (wr : BitVec 1) (r : Reg) : rtWrite (rtWord wr r) = wr := by
  apply BitVec.eq_of_toNat_eq
  have := (regOffset r).isLt
  rw [rtWrite_toNat, rtWord_toNat]
  omega

@[simp] theorem rtOffset_rtWord (wr : BitVec 1) (r : Reg) : rtOffset (rtWord wr r) = regOffset r := by
  apply BitVec.eq_of_toNat_eq
  rw [rtOffset_toNat, rtWord_toNat]
  omega

/-- The seven offsets name the seven registers and nothing else does. -/
theorem regOfOffset_eq_some (off : BitVec 8) (r : Reg) : regOfOffset off = some r ↔ off = regOffset r := by
  constructor
  · intro h
    unfold regOfOffset at h
    split at h
    · cases h; assumption
    · split at h
      · cases h; assumption
      · split at h
        · cases h; assumption
        · split at h
          · cases h; assumption
          · split at h
            · cases h; assumption
            · split at h
              · cases h; assumption
              · split at h
                · cases h; assumption
                · cases h
  · rintro rfl
    cases r with
    | ptr p => cases p <;> decide
    | _ => decide

/-! ### The memory transaction -/

theorem ringOfBit_ringBit (g : Ring) : ringOfBit (ringBit g) = g := by cases g <;> decide

theorem ringBit_ringOfBit (b : BitVec 1) : ringBit (ringOfBit b) = b := by
  rcases Nat.lt_or_ge b.toNat 1 with h | h
  · have : b = 0 := BitVec.eq_of_toNat_eq (by simpa using h)
    subst this; decide
  · have hb := b.isLt
    have : b = 1 := BitVec.eq_of_toNat_eq (by simp; omega)
    subst this; decide

theorem mtWord_toNat (wr : BitVec 1) (g : Ring) (idx : Word) :
    (mtWord wr g idx).toNat = wr.toNat * 2 ^ 33 + (ringBit g).toNat * 2 ^ 32 + idx.toNat := by
  unfold mtWord
  rw [append_toNat, append_toNat]
  omega

theorem mtWrite_toNat (w : BitVec 34) : (mtWrite w).toNat = w.toNat / 2 ^ 33 := by
  have := w.isLt
  simp [mtWrite, BitVec.extractLsb'_toNat, Nat.shiftRight_eq_div_pow]
  omega

theorem mtRingBit_toNat (w : BitVec 34) : (mtRingBit w).toNat = w.toNat / 2 ^ 32 % 2 := by
  simp [mtRingBit, BitVec.extractLsb'_toNat, Nat.shiftRight_eq_div_pow]

theorem mtIndex_toNat (w : BitVec 34) : (mtIndex w).toNat = w.toNat % 2 ^ 32 := by
  simp [mtIndex, BitVec.extractLsb'_toNat]

@[simp] theorem mtWrite_mtWord (wr : BitVec 1) (g : Ring) (idx : Word) : mtWrite (mtWord wr g idx) = wr := by
  apply BitVec.eq_of_toNat_eq
  have := (ringBit g).isLt
  have := idx.isLt
  rw [mtWrite_toNat, mtWord_toNat]
  omega

@[simp] theorem mtRingBit_mtWord (wr : BitVec 1) (g : Ring) (idx : Word) :
    mtRingBit (mtWord wr g idx) = ringBit g := by
  apply BitVec.eq_of_toNat_eq
  have := (ringBit g).isLt
  have := idx.isLt
  rw [mtRingBit_toNat, mtWord_toNat]
  omega

@[simp] theorem mtIndex_mtWord (wr : BitVec 1) (g : Ring) (idx : Word) : mtIndex (mtWord wr g idx) = idx := by
  apply BitVec.eq_of_toNat_eq
  have := idx.isLt
  rw [mtIndex_toNat, mtWord_toNat]
  omega

/-! ### Arguments -/

/-- The four pointer offsets are the legal arguments of PTR_WRITE and PTR_READ. -/
theorem ptrOfArg_eq_some (n : Half) (p : Ptr) : ptrOfArg n = some p ↔ n = (ptrOffset p).setWidth 16 := by
  constructor
  · intro h
    unfold ptrOfArg at h
    split at h
    · cases h; simpa [ptrOffset] using ‹_›
    · split at h
      · cases h; simpa [ptrOffset] using ‹_›
      · split at h
        · cases h; simpa [ptrOffset] using ‹_›
        · split at h
          · cases h; simpa [ptrOffset] using ‹_›
          · cases h
  · rintro rfl
    cases p <;> decide

/-- The three bit indices are the legal arguments of RAISE and ACK. -/
theorem bitOfArg_eq_some (n : Half) (b : IntBit) : bitOfArg n = some b ↔ n = bitIndex b := by
  constructor
  · intro h
    unfold bitOfArg at h
    split at h
    · cases h; simpa [bitIndex] using ‹_›
    · split at h
      · cases h; simpa [bitIndex] using ‹_›
      · split at h
        · cases h; simpa [bitIndex] using ‹_›
        · cases h
  · rintro rfl
    cases b <;> decide

end Sys2Proof
end

