-- ==== Sys2Proof/Laws/State.lean ====
section
/-! SUPPORT. One lemma per field per update of the state, and reading after writing in the families of like
registers, so that no proof unfolds an update. -/

namespace Sys2Proof.Machine

/-! ### Families of like registers -/

@[simp] theorem PerRing.get_set_same {α : Type} (f : PerRing α) (g : Ring) (x : α) : (f.set g x).get g = x := by
  cases g <;> rfl

@[simp] theorem PerRing.get_set_other {α : Type} (f : PerRing α) (g g' : Ring) (x : α) (h : g' ≠ g) :
    (f.set g x).get g' = f.get g' := by
  cases g <;> cases g' <;> first | rfl | exact absurd rfl h

theorem PerRing.get_set {α : Type} (f : PerRing α) (g g' : Ring) (x : α) :
    (f.set g x).get g' = if g' = g then x else f.get g' := by
  cases g <;> cases g' <;> rfl

@[simp] theorem PerRing.set_set {α : Type} (f : PerRing α) (g : Ring) (x y : α) : (f.set g x).set g y = f.set g y := by
  cases g <;> rfl

theorem PerRing.ext_get {α : Type} {f h : PerRing α} (hg : ∀ g, f.get g = h.get g) : f = h := by
  cases f; cases h
  simp only [PerRing.mk.injEq]
  exact ⟨hg .tx, hg .rx⟩

@[simp] theorem PerSide.get_set_same {α : Type} (f : PerSide α) (sd : Side) (x : α) : (f.set sd x).get sd = x := by
  cases sd <;> rfl

@[simp] theorem PerSide.get_set_other {α : Type} (f : PerSide α) (sd sd' : Side) (x : α) (h : sd' ≠ sd) :
    (f.set sd x).get sd' = f.get sd' := by
  cases sd <;> cases sd' <;> first | rfl | exact absurd rfl h

theorem PerSide.get_set {α : Type} (f : PerSide α) (sd sd' : Side) (x : α) :
    (f.set sd x).get sd' = if sd' = sd then x else f.get sd' := by
  cases sd <;> cases sd' <;> rfl

@[simp] theorem PerSide.set_set {α : Type} (f : PerSide α) (sd : Side) (x y : α) : (f.set sd x).set sd y = f.set sd y := by
  cases sd <;> rfl

theorem PerSide.ext_get {α : Type} {f h : PerSide α} (hg : ∀ sd, f.get sd = h.get sd) : f = h := by
  cases f; cases h
  simp only [PerSide.mk.injEq]
  exact ⟨hg .host, hg .device⟩

@[simp] theorem PerPtr.get_set_same {α : Type} (f : PerPtr α) (p : Ptr) (x : α) : (f.set p x).get p = x := by
  cases p <;> rfl

@[simp] theorem PerPtr.get_set_other {α : Type} (f : PerPtr α) (p p' : Ptr) (x : α) (h : p' ≠ p) :
    (f.set p x).get p' = f.get p' := by
  cases p <;> cases p' <;> first | rfl | exact absurd rfl h

theorem PerPtr.get_set {α : Type} (f : PerPtr α) (p p' : Ptr) (x : α) :
    (f.set p x).get p' = if p' = p then x else f.get p' := by
  cases p <;> cases p' <;> rfl

@[simp] theorem PerPtr.set_set {α : Type} (f : PerPtr α) (p : Ptr) (x y : α) : (f.set p x).set p y = f.set p y := by
  cases p <;> rfl

theorem PerPtr.ext_get {α : Type} {f h : PerPtr α} (hg : ∀ p, f.get p = h.get p) : f = h := by
  cases f; cases h
  simp only [PerPtr.mk.injEq]
  exact ⟨hg .txTail, hg .rxHead, hg .txHeadPub, hg .rxTailPub⟩

@[simp] theorem PerPtr.get_ofFn {α : Type} (f : Ptr → α) (p : Ptr) : (PerPtr.ofFn f).get p = f p := by
  cases p <;> rfl

@[simp] theorem otherSide_ne (sd : Side) : otherSide sd ≠ sd := by cases sd <;> decide

@[simp] theorem otherSide_otherSide (sd : Side) : otherSide (otherSide sd) = sd := by cases sd <;> rfl

theorem producer_ne_consumer (g : Ring) : producer g ≠ consumer g := by cases g <;> decide

theorem pubProd_ne_pubCons (g h : Ring) : pubProd g ≠ pubCons h := by cases g <;> cases h <;> decide

@[simp] theorem owner_pubProd (g : Ring) : owner (pubProd g) = producer g := by cases g <;> rfl

@[simp] theorem owner_pubCons (g : Ring) : owner (pubCons g) = consumer g := by cases g <;> rfl

@[simp] theorem ptrRing_pubProd (g : Ring) : ptrRing (pubProd g) = g := by cases g <;> rfl

@[simp] theorem ptrRing_pubCons (g : Ring) : ptrRing (pubCons g) = g := by cases g <;> rfl

/-! ### `setByte` -/

@[simp] theorem State.setByte_cfg (s : State) (g : Ring) (i : Nat) (b : Byte) : (s.setByte g i b).cfg = s.cfg := rfl
@[simp] theorem State.setByte_prodPos (s : State) (g : Ring) (i : Nat) (b : Byte) : (s.setByte g i b).prodPos =
    s.prodPos := rfl
@[simp] theorem State.setByte_consPos (s : State) (g : Ring) (i : Nat) (b : Byte) : (s.setByte g i b).consPos =
    s.consPos := rfl
@[simp] theorem State.setByte_store (s : State) (g : Ring) (i : Nat) (b : Byte) : (s.setByte g i b).store =
    s.store.set g ((s.store.get g).write (i % s.cap g) b) := rfl
@[simp] theorem State.setByte_reg (s : State) (g : Ring) (i : Nat) (b : Byte) : (s.setByte g i b).reg = s.reg := rfl
@[simp] theorem State.setByte_seen (s : State) (g : Ring) (i : Nat) (b : Byte) : (s.setByte g i b).seen = s.seen := rfl
@[simp] theorem State.setByte_intStatus (s : State) (g : Ring) (i : Nat) (b : Byte) : (s.setByte g i b).intStatus =
    s.intStatus := rfl
@[simp] theorem State.setByte_intEnable (s : State) (g : Ring) (i : Nat) (b : Byte) : (s.setByte g i b).intEnable =
    s.intEnable := rfl
@[simp] theorem State.setByte_port (s : State) (g : Ring) (i : Nat) (b : Byte) : (s.setByte g i b).port = s.port := rfl
@[simp] theorem State.setByte_events (s : State) (g : Ring) (i : Nat) (b : Byte) : (s.setByte g i b).events =
    s.events := rfl
@[simp] theorem State.setByte_inputs (s : State) (g : Ring) (i : Nat) (b : Byte) : (s.setByte g i b).inputs =
    s.inputs := rfl
@[simp] theorem State.setByte_side (s : State) (g : Ring) (i : Nat) (b : Byte) : (s.setByte g i b).side = s.side := rfl
@[simp] theorem State.setByte_quantum (s : State) (g : Ring) (i : Nat) (b : Byte) : (s.setByte g i b).quantum =
    s.quantum := rfl
@[simp] theorem State.setByte_waited (s : State) (g : Ring) (i : Nat) (b : Byte) : (s.setByte g i b).waited =
    s.waited := rfl
@[simp] theorem State.setByte_draws (s : State) (g : Ring) (i : Nat) (b : Byte) : (s.setByte g i b).draws =
    s.draws := rfl
@[simp] theorem State.setByte_cap (s : State) (g : Ring) (i : Nat) (b : Byte) (g0 : Ring) : (s.setByte g i b).cap g0 = s.cap g0 := rfl
@[simp] theorem State.setByte_ptrRead (s : State) (g : Ring) (i : Nat) (b : Byte) (sd' : Side) (q : Ptr) :
    (s.setByte g i b).ptrRead sd' q = s.ptrRead sd' q := rfl

/-! ### `setProd` -/

@[simp] theorem State.setProd_cfg (s : State) (g : Ring) (v : Word) : (s.setProd g v).cfg = s.cfg := rfl
@[simp] theorem State.setProd_prodPos (s : State) (g : Ring) (v : Word) : (s.setProd g v).prodPos =
    s.prodPos.set g v := rfl
@[simp] theorem State.setProd_consPos (s : State) (g : Ring) (v : Word) : (s.setProd g v).consPos = s.consPos := rfl
@[simp] theorem State.setProd_store (s : State) (g : Ring) (v : Word) : (s.setProd g v).store = s.store := rfl
@[simp] theorem State.setProd_reg (s : State) (g : Ring) (v : Word) : (s.setProd g v).reg = s.reg := rfl
@[simp] theorem State.setProd_seen (s : State) (g : Ring) (v : Word) : (s.setProd g v).seen = s.seen := rfl
@[simp] theorem State.setProd_intStatus (s : State) (g : Ring) (v : Word) : (s.setProd g v).intStatus =
    s.intStatus := rfl
@[simp] theorem State.setProd_intEnable (s : State) (g : Ring) (v : Word) : (s.setProd g v).intEnable =
    s.intEnable := rfl
@[simp] theorem State.setProd_port (s : State) (g : Ring) (v : Word) : (s.setProd g v).port = s.port := rfl
@[simp] theorem State.setProd_events (s : State) (g : Ring) (v : Word) : (s.setProd g v).events = s.events := rfl
@[simp] theorem State.setProd_inputs (s : State) (g : Ring) (v : Word) : (s.setProd g v).inputs = s.inputs := rfl
@[simp] theorem State.setProd_side (s : State) (g : Ring) (v : Word) : (s.setProd g v).side = s.side := rfl
@[simp] theorem State.setProd_quantum (s : State) (g : Ring) (v : Word) : (s.setProd g v).quantum = s.quantum := rfl
@[simp] theorem State.setProd_waited (s : State) (g : Ring) (v : Word) : (s.setProd g v).waited = s.waited := rfl
@[simp] theorem State.setProd_draws (s : State) (g : Ring) (v : Word) : (s.setProd g v).draws = s.draws := rfl
@[simp] theorem State.setProd_cap (s : State) (g : Ring) (v : Word) (g0 : Ring) : (s.setProd g v).cap g0 = s.cap g0 := rfl
@[simp] theorem State.setProd_byteAt (s : State) (g : Ring) (v : Word) (g0 : Ring) (k : Nat) :
    (s.setProd g v).byteAt g0 k = s.byteAt g0 k := rfl
@[simp] theorem State.setProd_ptrRead (s : State) (g : Ring) (v : Word) (sd' : Side) (q : Ptr) :
    (s.setProd g v).ptrRead sd' q = s.ptrRead sd' q := rfl

/-! ### `setCons` -/

@[simp] theorem State.setCons_cfg (s : State) (g : Ring) (v : Word) : (s.setCons g v).cfg = s.cfg := rfl
@[simp] theorem State.setCons_prodPos (s : State) (g : Ring) (v : Word) : (s.setCons g v).prodPos = s.prodPos := rfl
@[simp] theorem State.setCons_consPos (s : State) (g : Ring) (v : Word) : (s.setCons g v).consPos =
    s.consPos.set g v := rfl
@[simp] theorem State.setCons_store (s : State) (g : Ring) (v : Word) : (s.setCons g v).store = s.store := rfl
@[simp] theorem State.setCons_reg (s : State) (g : Ring) (v : Word) : (s.setCons g v).reg = s.reg := rfl
@[simp] theorem State.setCons_seen (s : State) (g : Ring) (v : Word) : (s.setCons g v).seen = s.seen := rfl
@[simp] theorem State.setCons_intStatus (s : State) (g : Ring) (v : Word) : (s.setCons g v).intStatus =
    s.intStatus := rfl
@[simp] theorem State.setCons_intEnable (s : State) (g : Ring) (v : Word) : (s.setCons g v).intEnable =
    s.intEnable := rfl
@[simp] theorem State.setCons_port (s : State) (g : Ring) (v : Word) : (s.setCons g v).port = s.port := rfl
@[simp] theorem State.setCons_events (s : State) (g : Ring) (v : Word) : (s.setCons g v).events = s.events := rfl
@[simp] theorem State.setCons_inputs (s : State) (g : Ring) (v : Word) : (s.setCons g v).inputs = s.inputs := rfl
@[simp] theorem State.setCons_side (s : State) (g : Ring) (v : Word) : (s.setCons g v).side = s.side := rfl
@[simp] theorem State.setCons_quantum (s : State) (g : Ring) (v : Word) : (s.setCons g v).quantum = s.quantum := rfl
@[simp] theorem State.setCons_waited (s : State) (g : Ring) (v : Word) : (s.setCons g v).waited = s.waited := rfl
@[simp] theorem State.setCons_draws (s : State) (g : Ring) (v : Word) : (s.setCons g v).draws = s.draws := rfl
@[simp] theorem State.setCons_cap (s : State) (g : Ring) (v : Word) (g0 : Ring) : (s.setCons g v).cap g0 = s.cap g0 := rfl
@[simp] theorem State.setCons_byteAt (s : State) (g : Ring) (v : Word) (g0 : Ring) (k : Nat) :
    (s.setCons g v).byteAt g0 k = s.byteAt g0 k := rfl
@[simp] theorem State.setCons_ptrRead (s : State) (g : Ring) (v : Word) (sd' : Side) (q : Ptr) :
    (s.setCons g v).ptrRead sd' q = s.ptrRead sd' q := rfl

/-! ### `setReg` -/

@[simp] theorem State.setReg_cfg (s : State) (p : Ptr) (v : Word) : (s.setReg p v).cfg = s.cfg := rfl
@[simp] theorem State.setReg_prodPos (s : State) (p : Ptr) (v : Word) : (s.setReg p v).prodPos = s.prodPos := rfl
@[simp] theorem State.setReg_consPos (s : State) (p : Ptr) (v : Word) : (s.setReg p v).consPos = s.consPos := rfl
@[simp] theorem State.setReg_store (s : State) (p : Ptr) (v : Word) : (s.setReg p v).store = s.store := rfl
@[simp] theorem State.setReg_reg (s : State) (p : Ptr) (v : Word) : (s.setReg p v).reg = s.reg.set p v := rfl
@[simp] theorem State.setReg_seen (s : State) (p : Ptr) (v : Word) : (s.setReg p v).seen = s.seen := rfl
@[simp] theorem State.setReg_intStatus (s : State) (p : Ptr) (v : Word) : (s.setReg p v).intStatus = s.intStatus := rfl
@[simp] theorem State.setReg_intEnable (s : State) (p : Ptr) (v : Word) : (s.setReg p v).intEnable = s.intEnable := rfl
@[simp] theorem State.setReg_port (s : State) (p : Ptr) (v : Word) : (s.setReg p v).port = s.port := rfl
@[simp] theorem State.setReg_events (s : State) (p : Ptr) (v : Word) : (s.setReg p v).events = s.events := rfl
@[simp] theorem State.setReg_inputs (s : State) (p : Ptr) (v : Word) : (s.setReg p v).inputs = s.inputs := rfl
@[simp] theorem State.setReg_side (s : State) (p : Ptr) (v : Word) : (s.setReg p v).side = s.side := rfl
@[simp] theorem State.setReg_quantum (s : State) (p : Ptr) (v : Word) : (s.setReg p v).quantum = s.quantum := rfl
@[simp] theorem State.setReg_waited (s : State) (p : Ptr) (v : Word) : (s.setReg p v).waited = s.waited := rfl
@[simp] theorem State.setReg_draws (s : State) (p : Ptr) (v : Word) : (s.setReg p v).draws = s.draws := rfl
@[simp] theorem State.setReg_cap (s : State) (p : Ptr) (v : Word) (g0 : Ring) : (s.setReg p v).cap g0 = s.cap g0 := rfl
@[simp] theorem State.setReg_byteAt (s : State) (p : Ptr) (v : Word) (g0 : Ring) (k : Nat) :
    (s.setReg p v).byteAt g0 k = s.byteAt g0 k := rfl

/-! ### `syncPtr` -/

@[simp] theorem State.syncPtr_cfg (s : State) (p : Ptr) : (s.syncPtr p).cfg = s.cfg := rfl
@[simp] theorem State.syncPtr_prodPos (s : State) (p : Ptr) : (s.syncPtr p).prodPos = s.prodPos := rfl
@[simp] theorem State.syncPtr_consPos (s : State) (p : Ptr) : (s.syncPtr p).consPos = s.consPos := rfl
@[simp] theorem State.syncPtr_store (s : State) (p : Ptr) : (s.syncPtr p).store = s.store := rfl
@[simp] theorem State.syncPtr_reg (s : State) (p : Ptr) : (s.syncPtr p).reg = s.reg := rfl
@[simp] theorem State.syncPtr_seen (s : State) (p : Ptr) : (s.syncPtr p).seen = s.seen.set p (s.reg.get p) := rfl
@[simp] theorem State.syncPtr_intStatus (s : State) (p : Ptr) : (s.syncPtr p).intStatus = s.intStatus := rfl
@[simp] theorem State.syncPtr_intEnable (s : State) (p : Ptr) : (s.syncPtr p).intEnable = s.intEnable := rfl
@[simp] theorem State.syncPtr_port (s : State) (p : Ptr) : (s.syncPtr p).port = s.port := rfl
@[simp] theorem State.syncPtr_events (s : State) (p : Ptr) : (s.syncPtr p).events = s.events := rfl
@[simp] theorem State.syncPtr_inputs (s : State) (p : Ptr) : (s.syncPtr p).inputs = s.inputs := rfl
@[simp] theorem State.syncPtr_side (s : State) (p : Ptr) : (s.syncPtr p).side = s.side := rfl
@[simp] theorem State.syncPtr_quantum (s : State) (p : Ptr) : (s.syncPtr p).quantum = s.quantum := rfl
@[simp] theorem State.syncPtr_waited (s : State) (p : Ptr) : (s.syncPtr p).waited = s.waited := rfl
@[simp] theorem State.syncPtr_draws (s : State) (p : Ptr) : (s.syncPtr p).draws = s.draws := rfl
@[simp] theorem State.syncPtr_cap (s : State) (p : Ptr) (g0 : Ring) : (s.syncPtr p).cap g0 = s.cap g0 := rfl
@[simp] theorem State.syncPtr_byteAt (s : State) (p : Ptr) (g0 : Ring) (k : Nat) :
    (s.syncPtr p).byteAt g0 k = s.byteAt g0 k := rfl

/-! ### `setIntStatus` -/

@[simp] theorem State.setIntStatus_cfg (s : State) (v : Word) : (s.setIntStatus v).cfg = s.cfg := rfl
@[simp] theorem State.setIntStatus_prodPos (s : State) (v : Word) : (s.setIntStatus v).prodPos = s.prodPos := rfl
@[simp] theorem State.setIntStatus_consPos (s : State) (v : Word) : (s.setIntStatus v).consPos = s.consPos := rfl
@[simp] theorem State.setIntStatus_store (s : State) (v : Word) : (s.setIntStatus v).store = s.store := rfl
@[simp] theorem State.setIntStatus_reg (s : State) (v : Word) : (s.setIntStatus v).reg = s.reg := rfl
@[simp] theorem State.setIntStatus_seen (s : State) (v : Word) : (s.setIntStatus v).seen = s.seen := rfl
@[simp] theorem State.setIntStatus_intStatus (s : State) (v : Word) : (s.setIntStatus v).intStatus = v := rfl
@[simp] theorem State.setIntStatus_intEnable (s : State) (v : Word) : (s.setIntStatus v).intEnable = s.intEnable := rfl
@[simp] theorem State.setIntStatus_port (s : State) (v : Word) : (s.setIntStatus v).port = s.port := rfl
@[simp] theorem State.setIntStatus_events (s : State) (v : Word) : (s.setIntStatus v).events = s.events := rfl
@[simp] theorem State.setIntStatus_inputs (s : State) (v : Word) : (s.setIntStatus v).inputs = s.inputs := rfl
@[simp] theorem State.setIntStatus_side (s : State) (v : Word) : (s.setIntStatus v).side = s.side := rfl
@[simp] theorem State.setIntStatus_quantum (s : State) (v : Word) : (s.setIntStatus v).quantum = s.quantum := rfl
@[simp] theorem State.setIntStatus_waited (s : State) (v : Word) : (s.setIntStatus v).waited = s.waited := rfl
@[simp] theorem State.setIntStatus_draws (s : State) (v : Word) : (s.setIntStatus v).draws = s.draws := rfl
@[simp] theorem State.setIntStatus_cap (s : State) (v : Word) (g0 : Ring) : (s.setIntStatus v).cap g0 = s.cap g0 := rfl
@[simp] theorem State.setIntStatus_byteAt (s : State) (v : Word) (g0 : Ring) (k : Nat) :
    (s.setIntStatus v).byteAt g0 k = s.byteAt g0 k := rfl
@[simp] theorem State.setIntStatus_ptrRead (s : State) (v : Word) (sd' : Side) (q : Ptr) :
    (s.setIntStatus v).ptrRead sd' q = s.ptrRead sd' q := rfl

/-! ### `setIntEnable` -/

@[simp] theorem State.setIntEnable_cfg (s : State) (v : Word) : (s.setIntEnable v).cfg = s.cfg := rfl
@[simp] theorem State.setIntEnable_prodPos (s : State) (v : Word) : (s.setIntEnable v).prodPos = s.prodPos := rfl
@[simp] theorem State.setIntEnable_consPos (s : State) (v : Word) : (s.setIntEnable v).consPos = s.consPos := rfl
@[simp] theorem State.setIntEnable_store (s : State) (v : Word) : (s.setIntEnable v).store = s.store := rfl
@[simp] theorem State.setIntEnable_reg (s : State) (v : Word) : (s.setIntEnable v).reg = s.reg := rfl
@[simp] theorem State.setIntEnable_seen (s : State) (v : Word) : (s.setIntEnable v).seen = s.seen := rfl
@[simp] theorem State.setIntEnable_intStatus (s : State) (v : Word) : (s.setIntEnable v).intStatus = s.intStatus := rfl
@[simp] theorem State.setIntEnable_intEnable (s : State) (v : Word) : (s.setIntEnable v).intEnable = v := rfl
@[simp] theorem State.setIntEnable_port (s : State) (v : Word) : (s.setIntEnable v).port = s.port := rfl
@[simp] theorem State.setIntEnable_events (s : State) (v : Word) : (s.setIntEnable v).events = s.events := rfl
@[simp] theorem State.setIntEnable_inputs (s : State) (v : Word) : (s.setIntEnable v).inputs = s.inputs := rfl
@[simp] theorem State.setIntEnable_side (s : State) (v : Word) : (s.setIntEnable v).side = s.side := rfl
@[simp] theorem State.setIntEnable_quantum (s : State) (v : Word) : (s.setIntEnable v).quantum = s.quantum := rfl
@[simp] theorem State.setIntEnable_waited (s : State) (v : Word) : (s.setIntEnable v).waited = s.waited := rfl
@[simp] theorem State.setIntEnable_draws (s : State) (v : Word) : (s.setIntEnable v).draws = s.draws := rfl
@[simp] theorem State.setIntEnable_cap (s : State) (v : Word) (g0 : Ring) : (s.setIntEnable v).cap g0 = s.cap g0 := rfl
@[simp] theorem State.setIntEnable_byteAt (s : State) (v : Word) (g0 : Ring) (k : Nat) :
    (s.setIntEnable v).byteAt g0 k = s.byteAt g0 k := rfl
@[simp] theorem State.setIntEnable_ptrRead (s : State) (v : Word) (sd' : Side) (q : Ptr) :
    (s.setIntEnable v).ptrRead sd' q = s.ptrRead sd' q := rfl

/-! ### `raiseBit` -/

@[simp] theorem State.raiseBit_cfg (s : State) (b : IntBit) : (s.raiseBit b).cfg = s.cfg := rfl
@[simp] theorem State.raiseBit_prodPos (s : State) (b : IntBit) : (s.raiseBit b).prodPos = s.prodPos := rfl
@[simp] theorem State.raiseBit_consPos (s : State) (b : IntBit) : (s.raiseBit b).consPos = s.consPos := rfl
@[simp] theorem State.raiseBit_store (s : State) (b : IntBit) : (s.raiseBit b).store = s.store := rfl
@[simp] theorem State.raiseBit_reg (s : State) (b : IntBit) : (s.raiseBit b).reg = s.reg := rfl
@[simp] theorem State.raiseBit_seen (s : State) (b : IntBit) : (s.raiseBit b).seen = s.seen := rfl
@[simp] theorem State.raiseBit_intStatus (s : State) (b : IntBit) : (s.raiseBit b).intStatus =
    setStatus s.intStatus (bitMask b) := rfl
@[simp] theorem State.raiseBit_intEnable (s : State) (b : IntBit) : (s.raiseBit b).intEnable = s.intEnable := rfl
@[simp] theorem State.raiseBit_port (s : State) (b : IntBit) : (s.raiseBit b).port = s.port := rfl
@[simp] theorem State.raiseBit_events (s : State) (b : IntBit) : (s.raiseBit b).events = s.events := rfl
@[simp] theorem State.raiseBit_inputs (s : State) (b : IntBit) : (s.raiseBit b).inputs = s.inputs := rfl
@[simp] theorem State.raiseBit_side (s : State) (b : IntBit) : (s.raiseBit b).side = s.side := rfl
@[simp] theorem State.raiseBit_quantum (s : State) (b : IntBit) : (s.raiseBit b).quantum = s.quantum := rfl
@[simp] theorem State.raiseBit_waited (s : State) (b : IntBit) : (s.raiseBit b).waited = s.waited := rfl
@[simp] theorem State.raiseBit_draws (s : State) (b : IntBit) : (s.raiseBit b).draws = s.draws := rfl
@[simp] theorem State.raiseBit_cap (s : State) (b : IntBit) (g0 : Ring) : (s.raiseBit b).cap g0 = s.cap g0 := rfl
@[simp] theorem State.raiseBit_byteAt (s : State) (b : IntBit) (g0 : Ring) (k : Nat) :
    (s.raiseBit b).byteAt g0 k = s.byteAt g0 k := rfl
@[simp] theorem State.raiseBit_ptrRead (s : State) (b : IntBit) (sd' : Side) (q : Ptr) :
    (s.raiseBit b).ptrRead sd' q = s.ptrRead sd' q := rfl

/-! ### `clearBit` -/

@[simp] theorem State.clearBit_cfg (s : State) (b : IntBit) : (s.clearBit b).cfg = s.cfg := rfl
@[simp] theorem State.clearBit_prodPos (s : State) (b : IntBit) : (s.clearBit b).prodPos = s.prodPos := rfl
@[simp] theorem State.clearBit_consPos (s : State) (b : IntBit) : (s.clearBit b).consPos = s.consPos := rfl
@[simp] theorem State.clearBit_store (s : State) (b : IntBit) : (s.clearBit b).store = s.store := rfl
@[simp] theorem State.clearBit_reg (s : State) (b : IntBit) : (s.clearBit b).reg = s.reg := rfl
@[simp] theorem State.clearBit_seen (s : State) (b : IntBit) : (s.clearBit b).seen = s.seen := rfl
@[simp] theorem State.clearBit_intStatus (s : State) (b : IntBit) : (s.clearBit b).intStatus =
    clearStatus s.intStatus (bitMask b) := rfl
@[simp] theorem State.clearBit_intEnable (s : State) (b : IntBit) : (s.clearBit b).intEnable = s.intEnable := rfl
@[simp] theorem State.clearBit_port (s : State) (b : IntBit) : (s.clearBit b).port = s.port := rfl
@[simp] theorem State.clearBit_events (s : State) (b : IntBit) : (s.clearBit b).events = s.events := rfl
@[simp] theorem State.clearBit_inputs (s : State) (b : IntBit) : (s.clearBit b).inputs = s.inputs := rfl
@[simp] theorem State.clearBit_side (s : State) (b : IntBit) : (s.clearBit b).side = s.side := rfl
@[simp] theorem State.clearBit_quantum (s : State) (b : IntBit) : (s.clearBit b).quantum = s.quantum := rfl
@[simp] theorem State.clearBit_waited (s : State) (b : IntBit) : (s.clearBit b).waited = s.waited := rfl
@[simp] theorem State.clearBit_draws (s : State) (b : IntBit) : (s.clearBit b).draws = s.draws := rfl
@[simp] theorem State.clearBit_cap (s : State) (b : IntBit) (g0 : Ring) : (s.clearBit b).cap g0 = s.cap g0 := rfl
@[simp] theorem State.clearBit_byteAt (s : State) (b : IntBit) (g0 : Ring) (k : Nat) :
    (s.clearBit b).byteAt g0 k = s.byteAt g0 k := rfl
@[simp] theorem State.clearBit_ptrRead (s : State) (b : IntBit) (sd' : Side) (q : Ptr) :
    (s.clearBit b).ptrRead sd' q = s.ptrRead sd' q := rfl

/-! ### `emit` -/

@[simp] theorem State.emit_cfg (s : State) (sd : Side) (e : Event) : (s.emit sd e).cfg = s.cfg := rfl
@[simp] theorem State.emit_prodPos (s : State) (sd : Side) (e : Event) : (s.emit sd e).prodPos = s.prodPos := rfl
@[simp] theorem State.emit_consPos (s : State) (sd : Side) (e : Event) : (s.emit sd e).consPos = s.consPos := rfl
@[simp] theorem State.emit_store (s : State) (sd : Side) (e : Event) : (s.emit sd e).store = s.store := rfl
@[simp] theorem State.emit_reg (s : State) (sd : Side) (e : Event) : (s.emit sd e).reg = s.reg := rfl
@[simp] theorem State.emit_seen (s : State) (sd : Side) (e : Event) : (s.emit sd e).seen = s.seen := rfl
@[simp] theorem State.emit_intStatus (s : State) (sd : Side) (e : Event) : (s.emit sd e).intStatus = s.intStatus := rfl
@[simp] theorem State.emit_intEnable (s : State) (sd : Side) (e : Event) : (s.emit sd e).intEnable = s.intEnable := rfl
@[simp] theorem State.emit_port (s : State) (sd : Side) (e : Event) : (s.emit sd e).port = s.port := rfl
@[simp] theorem State.emit_events (s : State) (sd : Side) (e : Event) : (s.emit sd e).events =
    s.events.set sd (s.events.get sd ++ [e]) := rfl
@[simp] theorem State.emit_inputs (s : State) (sd : Side) (e : Event) : (s.emit sd e).inputs = s.inputs := rfl
@[simp] theorem State.emit_side (s : State) (sd : Side) (e : Event) : (s.emit sd e).side = s.side := rfl
@[simp] theorem State.emit_quantum (s : State) (sd : Side) (e : Event) : (s.emit sd e).quantum = s.quantum := rfl
@[simp] theorem State.emit_waited (s : State) (sd : Side) (e : Event) : (s.emit sd e).waited = s.waited := rfl
@[simp] theorem State.emit_draws (s : State) (sd : Side) (e : Event) : (s.emit sd e).draws = s.draws := rfl
@[simp] theorem State.emit_cap (s : State) (sd : Side) (e : Event) (g0 : Ring) : (s.emit sd e).cap g0 = s.cap g0 := rfl
@[simp] theorem State.emit_byteAt (s : State) (sd : Side) (e : Event) (g0 : Ring) (k : Nat) :
    (s.emit sd e).byteAt g0 k = s.byteAt g0 k := rfl
@[simp] theorem State.emit_ptrRead (s : State) (sd : Side) (e : Event) (sd' : Side) (q : Ptr) :
    (s.emit sd e).ptrRead sd' q = s.ptrRead sd' q := rfl

/-! ### `setPort` -/

@[simp] theorem State.setPort_cfg (s : State) (sd : Side) (pt : Port) : (s.setPort sd pt).cfg = s.cfg := rfl
@[simp] theorem State.setPort_prodPos (s : State) (sd : Side) (pt : Port) : (s.setPort sd pt).prodPos = s.prodPos := rfl
@[simp] theorem State.setPort_consPos (s : State) (sd : Side) (pt : Port) : (s.setPort sd pt).consPos = s.consPos := rfl
@[simp] theorem State.setPort_store (s : State) (sd : Side) (pt : Port) : (s.setPort sd pt).store = s.store := rfl
@[simp] theorem State.setPort_reg (s : State) (sd : Side) (pt : Port) : (s.setPort sd pt).reg = s.reg := rfl
@[simp] theorem State.setPort_seen (s : State) (sd : Side) (pt : Port) : (s.setPort sd pt).seen = s.seen := rfl
@[simp] theorem State.setPort_intStatus (s : State) (sd : Side) (pt : Port) : (s.setPort sd pt).intStatus =
    s.intStatus := rfl
@[simp] theorem State.setPort_intEnable (s : State) (sd : Side) (pt : Port) : (s.setPort sd pt).intEnable =
    s.intEnable := rfl
@[simp] theorem State.setPort_port (s : State) (sd : Side) (pt : Port) : (s.setPort sd pt).port =
    s.port.set sd pt := rfl
@[simp] theorem State.setPort_events (s : State) (sd : Side) (pt : Port) : (s.setPort sd pt).events = s.events := rfl
@[simp] theorem State.setPort_inputs (s : State) (sd : Side) (pt : Port) : (s.setPort sd pt).inputs = s.inputs := rfl
@[simp] theorem State.setPort_side (s : State) (sd : Side) (pt : Port) : (s.setPort sd pt).side = s.side := rfl
@[simp] theorem State.setPort_quantum (s : State) (sd : Side) (pt : Port) : (s.setPort sd pt).quantum = s.quantum := rfl
@[simp] theorem State.setPort_waited (s : State) (sd : Side) (pt : Port) : (s.setPort sd pt).waited = s.waited := rfl
@[simp] theorem State.setPort_draws (s : State) (sd : Side) (pt : Port) : (s.setPort sd pt).draws = s.draws := rfl
@[simp] theorem State.setPort_cap (s : State) (sd : Side) (pt : Port) (g0 : Ring) : (s.setPort sd pt).cap g0 = s.cap g0 := rfl
@[simp] theorem State.setPort_byteAt (s : State) (sd : Side) (pt : Port) (g0 : Ring) (k : Nat) :
    (s.setPort sd pt).byteAt g0 k = s.byteAt g0 k := rfl
@[simp] theorem State.setPort_ptrRead (s : State) (sd : Side) (pt : Port) (sd' : Side) (q : Ptr) :
    (s.setPort sd pt).ptrRead sd' q = s.ptrRead sd' q := rfl

/-! ### `setInputs` -/

@[simp] theorem State.setInputs_cfg (s : State) (l : List Input) : (s.setInputs l).cfg = s.cfg := rfl
@[simp] theorem State.setInputs_prodPos (s : State) (l : List Input) : (s.setInputs l).prodPos = s.prodPos := rfl
@[simp] theorem State.setInputs_consPos (s : State) (l : List Input) : (s.setInputs l).consPos = s.consPos := rfl
@[simp] theorem State.setInputs_store (s : State) (l : List Input) : (s.setInputs l).store = s.store := rfl
@[simp] theorem State.setInputs_reg (s : State) (l : List Input) : (s.setInputs l).reg = s.reg := rfl
@[simp] theorem State.setInputs_seen (s : State) (l : List Input) : (s.setInputs l).seen = s.seen := rfl
@[simp] theorem State.setInputs_intStatus (s : State) (l : List Input) : (s.setInputs l).intStatus = s.intStatus := rfl
@[simp] theorem State.setInputs_intEnable (s : State) (l : List Input) : (s.setInputs l).intEnable = s.intEnable := rfl
@[simp] theorem State.setInputs_port (s : State) (l : List Input) : (s.setInputs l).port = s.port := rfl
@[simp] theorem State.setInputs_events (s : State) (l : List Input) : (s.setInputs l).events = s.events := rfl
@[simp] theorem State.setInputs_inputs (s : State) (l : List Input) : (s.setInputs l).inputs = l := rfl
@[simp] theorem State.setInputs_side (s : State) (l : List Input) : (s.setInputs l).side = s.side := rfl
@[simp] theorem State.setInputs_quantum (s : State) (l : List Input) : (s.setInputs l).quantum = s.quantum := rfl
@[simp] theorem State.setInputs_waited (s : State) (l : List Input) : (s.setInputs l).waited = s.waited := rfl
@[simp] theorem State.setInputs_draws (s : State) (l : List Input) : (s.setInputs l).draws = s.draws := rfl
@[simp] theorem State.setInputs_cap (s : State) (l : List Input) (g0 : Ring) : (s.setInputs l).cap g0 = s.cap g0 := rfl
@[simp] theorem State.setInputs_byteAt (s : State) (l : List Input) (g0 : Ring) (k : Nat) :
    (s.setInputs l).byteAt g0 k = s.byteAt g0 k := rfl
@[simp] theorem State.setInputs_ptrRead (s : State) (l : List Input) (sd' : Side) (q : Ptr) :
    (s.setInputs l).ptrRead sd' q = s.ptrRead sd' q := rfl

/-! ### `goOn` -/

@[simp] theorem State.goOn_cfg (s : State) (sd : Side) (ph : Phase) : (s.goOn sd ph).cfg = s.cfg := rfl
@[simp] theorem State.goOn_prodPos (s : State) (sd : Side) (ph : Phase) : (s.goOn sd ph).prodPos = s.prodPos := rfl
@[simp] theorem State.goOn_consPos (s : State) (sd : Side) (ph : Phase) : (s.goOn sd ph).consPos = s.consPos := rfl
@[simp] theorem State.goOn_store (s : State) (sd : Side) (ph : Phase) : (s.goOn sd ph).store = s.store := rfl
@[simp] theorem State.goOn_reg (s : State) (sd : Side) (ph : Phase) : (s.goOn sd ph).reg = s.reg := rfl
@[simp] theorem State.goOn_seen (s : State) (sd : Side) (ph : Phase) : (s.goOn sd ph).seen = s.seen := rfl
@[simp] theorem State.goOn_intStatus (s : State) (sd : Side) (ph : Phase) : (s.goOn sd ph).intStatus =
    s.intStatus := rfl
@[simp] theorem State.goOn_intEnable (s : State) (sd : Side) (ph : Phase) : (s.goOn sd ph).intEnable =
    s.intEnable := rfl
@[simp] theorem State.goOn_port (s : State) (sd : Side) (ph : Phase) : (s.goOn sd ph).port =
    s.port.set sd { s.port.get sd with busy := some ph } := rfl
@[simp] theorem State.goOn_events (s : State) (sd : Side) (ph : Phase) : (s.goOn sd ph).events = s.events := rfl
@[simp] theorem State.goOn_inputs (s : State) (sd : Side) (ph : Phase) : (s.goOn sd ph).inputs = s.inputs := rfl
@[simp] theorem State.goOn_side (s : State) (sd : Side) (ph : Phase) : (s.goOn sd ph).side = s.side := rfl
@[simp] theorem State.goOn_quantum (s : State) (sd : Side) (ph : Phase) : (s.goOn sd ph).quantum = s.quantum := rfl
@[simp] theorem State.goOn_waited (s : State) (sd : Side) (ph : Phase) : (s.goOn sd ph).waited = s.waited := rfl
@[simp] theorem State.goOn_draws (s : State) (sd : Side) (ph : Phase) : (s.goOn sd ph).draws = s.draws := rfl
@[simp] theorem State.goOn_cap (s : State) (sd : Side) (ph : Phase) (g0 : Ring) : (s.goOn sd ph).cap g0 = s.cap g0 := rfl
@[simp] theorem State.goOn_byteAt (s : State) (sd : Side) (ph : Phase) (g0 : Ring) (k : Nat) :
    (s.goOn sd ph).byteAt g0 k = s.byteAt g0 k := rfl
@[simp] theorem State.goOn_ptrRead (s : State) (sd : Side) (ph : Phase) (sd' : Side) (q : Ptr) :
    (s.goOn sd ph).ptrRead sd' q = s.ptrRead sd' q := rfl

/-! ### `finish` -/

@[simp] theorem State.finish_cfg (s : State) (sd : Side) (r : Result) : (s.finish sd r).cfg = s.cfg := rfl
@[simp] theorem State.finish_prodPos (s : State) (sd : Side) (r : Result) : (s.finish sd r).prodPos = s.prodPos := rfl
@[simp] theorem State.finish_consPos (s : State) (sd : Side) (r : Result) : (s.finish sd r).consPos = s.consPos := rfl
@[simp] theorem State.finish_store (s : State) (sd : Side) (r : Result) : (s.finish sd r).store = s.store := rfl
@[simp] theorem State.finish_reg (s : State) (sd : Side) (r : Result) : (s.finish sd r).reg = s.reg := rfl
@[simp] theorem State.finish_seen (s : State) (sd : Side) (r : Result) : (s.finish sd r).seen = s.seen := rfl
@[simp] theorem State.finish_intStatus (s : State) (sd : Side) (r : Result) : (s.finish sd r).intStatus =
    s.intStatus := rfl
@[simp] theorem State.finish_intEnable (s : State) (sd : Side) (r : Result) : (s.finish sd r).intEnable =
    s.intEnable := rfl
@[simp] theorem State.finish_port (s : State) (sd : Side) (r : Result) : (s.finish sd r).port =
    s.port.set sd { s.port.get sd with busy := none, res := resultWord r } := rfl
@[simp] theorem State.finish_events (s : State) (sd : Side) (r : Result) : (s.finish sd r).events = s.events := rfl
@[simp] theorem State.finish_inputs (s : State) (sd : Side) (r : Result) : (s.finish sd r).inputs = s.inputs := rfl
@[simp] theorem State.finish_side (s : State) (sd : Side) (r : Result) : (s.finish sd r).side = s.side := rfl
@[simp] theorem State.finish_quantum (s : State) (sd : Side) (r : Result) : (s.finish sd r).quantum = s.quantum := rfl
@[simp] theorem State.finish_waited (s : State) (sd : Side) (r : Result) : (s.finish sd r).waited = s.waited := rfl
@[simp] theorem State.finish_draws (s : State) (sd : Side) (r : Result) : (s.finish sd r).draws = s.draws := rfl
@[simp] theorem State.finish_cap (s : State) (sd : Side) (r : Result) (g0 : Ring) : (s.finish sd r).cap g0 = s.cap g0 := rfl
@[simp] theorem State.finish_byteAt (s : State) (sd : Side) (r : Result) (g0 : Ring) (k : Nat) :
    (s.finish sd r).byteAt g0 k = s.byteAt g0 k := rfl
@[simp] theorem State.finish_ptrRead (s : State) (sd : Side) (r : Result) (sd' : Side) (q : Ptr) :
    (s.finish sd r).ptrRead sd' q = s.ptrRead sd' q := rfl

/-! ### `setView` -/

@[simp] theorem State.setView_cfg (s : State) (sd : Side) (off : Word) (len : Half) : (s.setView sd off len).cfg =
    s.cfg := rfl
@[simp] theorem State.setView_prodPos (s : State) (sd : Side) (off : Word) (len : Half) : (s.setView sd off len).prodPos =
    s.prodPos := rfl
@[simp] theorem State.setView_consPos (s : State) (sd : Side) (off : Word) (len : Half) : (s.setView sd off len).consPos =
    s.consPos := rfl
@[simp] theorem State.setView_store (s : State) (sd : Side) (off : Word) (len : Half) : (s.setView sd off len).store =
    s.store := rfl
@[simp] theorem State.setView_reg (s : State) (sd : Side) (off : Word) (len : Half) : (s.setView sd off len).reg =
    s.reg := rfl
@[simp] theorem State.setView_seen (s : State) (sd : Side) (off : Word) (len : Half) : (s.setView sd off len).seen =
    s.seen := rfl
@[simp] theorem State.setView_intStatus (s : State) (sd : Side) (off : Word) (len : Half) : (s.setView sd off len).intStatus =
    s.intStatus := rfl
@[simp] theorem State.setView_intEnable (s : State) (sd : Side) (off : Word) (len : Half) : (s.setView sd off len).intEnable =
    s.intEnable := rfl
@[simp] theorem State.setView_port (s : State) (sd : Side) (off : Word) (len : Half) : (s.setView sd off len).port =
    s.port.set sd { s.port.get sd with voff := off, vlen := len } := rfl
@[simp] theorem State.setView_events (s : State) (sd : Side) (off : Word) (len : Half) : (s.setView sd off len).events =
    s.events := rfl
@[simp] theorem State.setView_inputs (s : State) (sd : Side) (off : Word) (len : Half) : (s.setView sd off len).inputs =
    s.inputs := rfl
@[simp] theorem State.setView_side (s : State) (sd : Side) (off : Word) (len : Half) : (s.setView sd off len).side =
    s.side := rfl
@[simp] theorem State.setView_quantum (s : State) (sd : Side) (off : Word) (len : Half) : (s.setView sd off len).quantum =
    s.quantum := rfl
@[simp] theorem State.setView_waited (s : State) (sd : Side) (off : Word) (len : Half) : (s.setView sd off len).waited =
    s.waited := rfl
@[simp] theorem State.setView_draws (s : State) (sd : Side) (off : Word) (len : Half) : (s.setView sd off len).draws =
    s.draws := rfl
@[simp] theorem State.setView_cap (s : State) (sd : Side) (off : Word) (len : Half) (g0 : Ring) : (s.setView sd off len).cap g0 = s.cap g0 := rfl
@[simp] theorem State.setView_byteAt (s : State) (sd : Side) (off : Word) (len : Half) (g0 : Ring) (k : Nat) :
    (s.setView sd off len).byteAt g0 k = s.byteAt g0 k := rfl
@[simp] theorem State.setView_ptrRead (s : State) (sd : Side) (off : Word) (len : Half) (sd' : Side) (q : Ptr) :
    (s.setView sd off len).ptrRead sd' q = s.ptrRead sd' q := rfl

/-! ### `setRdata` -/

@[simp] theorem State.setRdata_cfg (s : State) (sd : Side) (v : Word) : (s.setRdata sd v).cfg = s.cfg := rfl
@[simp] theorem State.setRdata_prodPos (s : State) (sd : Side) (v : Word) : (s.setRdata sd v).prodPos = s.prodPos := rfl
@[simp] theorem State.setRdata_consPos (s : State) (sd : Side) (v : Word) : (s.setRdata sd v).consPos = s.consPos := rfl
@[simp] theorem State.setRdata_store (s : State) (sd : Side) (v : Word) : (s.setRdata sd v).store = s.store := rfl
@[simp] theorem State.setRdata_reg (s : State) (sd : Side) (v : Word) : (s.setRdata sd v).reg = s.reg := rfl
@[simp] theorem State.setRdata_seen (s : State) (sd : Side) (v : Word) : (s.setRdata sd v).seen = s.seen := rfl
@[simp] theorem State.setRdata_intStatus (s : State) (sd : Side) (v : Word) : (s.setRdata sd v).intStatus =
    s.intStatus := rfl
@[simp] theorem State.setRdata_intEnable (s : State) (sd : Side) (v : Word) : (s.setRdata sd v).intEnable =
    s.intEnable := rfl
@[simp] theorem State.setRdata_port (s : State) (sd : Side) (v : Word) : (s.setRdata sd v).port =
    s.port.set sd { s.port.get sd with rdata := v } := rfl
@[simp] theorem State.setRdata_events (s : State) (sd : Side) (v : Word) : (s.setRdata sd v).events = s.events := rfl
@[simp] theorem State.setRdata_inputs (s : State) (sd : Side) (v : Word) : (s.setRdata sd v).inputs = s.inputs := rfl
@[simp] theorem State.setRdata_side (s : State) (sd : Side) (v : Word) : (s.setRdata sd v).side = s.side := rfl
@[simp] theorem State.setRdata_quantum (s : State) (sd : Side) (v : Word) : (s.setRdata sd v).quantum = s.quantum := rfl
@[simp] theorem State.setRdata_waited (s : State) (sd : Side) (v : Word) : (s.setRdata sd v).waited = s.waited := rfl
@[simp] theorem State.setRdata_draws (s : State) (sd : Side) (v : Word) : (s.setRdata sd v).draws = s.draws := rfl
@[simp] theorem State.setRdata_cap (s : State) (sd : Side) (v : Word) (g0 : Ring) : (s.setRdata sd v).cap g0 = s.cap g0 := rfl
@[simp] theorem State.setRdata_byteAt (s : State) (sd : Side) (v : Word) (g0 : Ring) (k : Nat) :
    (s.setRdata sd v).byteAt g0 k = s.byteAt g0 k := rfl
@[simp] theorem State.setRdata_ptrRead (s : State) (sd : Side) (v : Word) (sd' : Side) (q : Ptr) :
    (s.setRdata sd v).ptrRead sd' q = s.ptrRead sd' q := rfl

/-! ### `setRbyte` -/

@[simp] theorem State.setRbyte_cfg (s : State) (sd : Side) (b : Byte) : (s.setRbyte sd b).cfg = s.cfg := rfl
@[simp] theorem State.setRbyte_prodPos (s : State) (sd : Side) (b : Byte) : (s.setRbyte sd b).prodPos = s.prodPos := rfl
@[simp] theorem State.setRbyte_consPos (s : State) (sd : Side) (b : Byte) : (s.setRbyte sd b).consPos = s.consPos := rfl
@[simp] theorem State.setRbyte_store (s : State) (sd : Side) (b : Byte) : (s.setRbyte sd b).store = s.store := rfl
@[simp] theorem State.setRbyte_reg (s : State) (sd : Side) (b : Byte) : (s.setRbyte sd b).reg = s.reg := rfl
@[simp] theorem State.setRbyte_seen (s : State) (sd : Side) (b : Byte) : (s.setRbyte sd b).seen = s.seen := rfl
@[simp] theorem State.setRbyte_intStatus (s : State) (sd : Side) (b : Byte) : (s.setRbyte sd b).intStatus =
    s.intStatus := rfl
@[simp] theorem State.setRbyte_intEnable (s : State) (sd : Side) (b : Byte) : (s.setRbyte sd b).intEnable =
    s.intEnable := rfl
@[simp] theorem State.setRbyte_port (s : State) (sd : Side) (b : Byte) : (s.setRbyte sd b).port =
    s.port.set sd { s.port.get sd with rbyte := b } := rfl
@[simp] theorem State.setRbyte_events (s : State) (sd : Side) (b : Byte) : (s.setRbyte sd b).events = s.events := rfl
@[simp] theorem State.setRbyte_inputs (s : State) (sd : Side) (b : Byte) : (s.setRbyte sd b).inputs = s.inputs := rfl
@[simp] theorem State.setRbyte_side (s : State) (sd : Side) (b : Byte) : (s.setRbyte sd b).side = s.side := rfl
@[simp] theorem State.setRbyte_quantum (s : State) (sd : Side) (b : Byte) : (s.setRbyte sd b).quantum = s.quantum := rfl
@[simp] theorem State.setRbyte_waited (s : State) (sd : Side) (b : Byte) : (s.setRbyte sd b).waited = s.waited := rfl
@[simp] theorem State.setRbyte_draws (s : State) (sd : Side) (b : Byte) : (s.setRbyte sd b).draws = s.draws := rfl
@[simp] theorem State.setRbyte_cap (s : State) (sd : Side) (b : Byte) (g0 : Ring) : (s.setRbyte sd b).cap g0 = s.cap g0 := rfl
@[simp] theorem State.setRbyte_byteAt (s : State) (sd : Side) (b : Byte) (g0 : Ring) (k : Nat) :
    (s.setRbyte sd b).byteAt g0 k = s.byteAt g0 k := rfl
@[simp] theorem State.setRbyte_ptrRead (s : State) (sd : Side) (b : Byte) (sd' : Side) (q : Ptr) :
    (s.setRbyte sd b).ptrRead sd' q = s.ptrRead sd' q := rfl

/-! ### `present` -/

@[simp] theorem State.present_cfg (s : State) (sd : Side) (rq : Request) (n : Nat) : (s.present sd rq n).cfg =
    s.cfg := rfl
@[simp] theorem State.present_prodPos (s : State) (sd : Side) (rq : Request) (n : Nat) : (s.present sd rq n).prodPos =
    s.prodPos := rfl
@[simp] theorem State.present_consPos (s : State) (sd : Side) (rq : Request) (n : Nat) : (s.present sd rq n).consPos =
    s.consPos := rfl
@[simp] theorem State.present_store (s : State) (sd : Side) (rq : Request) (n : Nat) : (s.present sd rq n).store =
    s.store := rfl
@[simp] theorem State.present_reg (s : State) (sd : Side) (rq : Request) (n : Nat) : (s.present sd rq n).reg =
    s.reg := rfl
@[simp] theorem State.present_seen (s : State) (sd : Side) (rq : Request) (n : Nat) : (s.present sd rq n).seen =
    s.seen := rfl
@[simp] theorem State.present_intStatus (s : State) (sd : Side) (rq : Request) (n : Nat) : (s.present sd rq n).intStatus =
    s.intStatus := rfl
@[simp] theorem State.present_intEnable (s : State) (sd : Side) (rq : Request) (n : Nat) : (s.present sd rq n).intEnable =
    s.intEnable := rfl
@[simp] theorem State.present_port (s : State) (sd : Side) (rq : Request) (n : Nat) : (s.present sd rq n).port =
    s.port.set sd
      { s.port.get sd with txn := rq.txn, wdata := rq.wdata, wbyte := rq.wbyte, pbuf := rq.pbuf } := rfl
@[simp] theorem State.present_events (s : State) (sd : Side) (rq : Request) (n : Nat) : (s.present sd rq n).events =
    s.events := rfl
@[simp] theorem State.present_inputs (s : State) (sd : Side) (rq : Request) (n : Nat) : (s.present sd rq n).inputs =
    s.inputs := rfl
@[simp] theorem State.present_side (s : State) (sd : Side) (rq : Request) (n : Nat) : (s.present sd rq n).side =
    sd := rfl
@[simp] theorem State.present_quantum (s : State) (sd : Side) (rq : Request) (n : Nat) : (s.present sd rq n).quantum =
    n := rfl
@[simp] theorem State.present_waited (s : State) (sd : Side) (rq : Request) (n : Nat) : (s.present sd rq n).waited =
    s.waited := rfl
@[simp] theorem State.present_draws (s : State) (sd : Side) (rq : Request) (n : Nat) : (s.present sd rq n).draws =
    s.draws := rfl
@[simp] theorem State.present_cap (s : State) (sd : Side) (rq : Request) (n : Nat) (g0 : Ring) : (s.present sd rq n).cap g0 = s.cap g0 := rfl
@[simp] theorem State.present_byteAt (s : State) (sd : Side) (rq : Request) (n : Nat) (g0 : Ring) (k : Nat) :
    (s.present sd rq n).byteAt g0 k = s.byteAt g0 k := rfl
@[simp] theorem State.present_ptrRead (s : State) (sd : Side) (rq : Request) (n : Nat) (sd' : Side) (q : Ptr) :
    (s.present sd rq n).ptrRead sd' q = s.ptrRead sd' q := rfl

/-! ### `dropResults` -/

@[simp] theorem State.dropResults_cfg (s : State) : s.dropResults.cfg = s.cfg := rfl
@[simp] theorem State.dropResults_prodPos (s : State) : s.dropResults.prodPos = s.prodPos := rfl
@[simp] theorem State.dropResults_consPos (s : State) : s.dropResults.consPos = s.consPos := rfl
@[simp] theorem State.dropResults_store (s : State) : s.dropResults.store = s.store := rfl
@[simp] theorem State.dropResults_reg (s : State) : s.dropResults.reg = s.reg := rfl
@[simp] theorem State.dropResults_seen (s : State) : s.dropResults.seen = s.seen := rfl
@[simp] theorem State.dropResults_intStatus (s : State) : s.dropResults.intStatus = s.intStatus := rfl
@[simp] theorem State.dropResults_intEnable (s : State) : s.dropResults.intEnable = s.intEnable := rfl
@[simp] theorem State.dropResults_port (s : State) : s.dropResults.port =
    s.port.set s.side
      { s.port.get s.side with
        res := Config.freeRes s.draws, voff := Config.freeVoff s.draws, vlen := Config.freeVlen s.draws
        rdata := Config.freeRdata s.draws, rbyte := Config.freeRbyte s.draws } := rfl
@[simp] theorem State.dropResults_events (s : State) : s.dropResults.events = s.events := rfl
@[simp] theorem State.dropResults_inputs (s : State) : s.dropResults.inputs = s.inputs := rfl
@[simp] theorem State.dropResults_side (s : State) : s.dropResults.side = s.side := rfl
@[simp] theorem State.dropResults_quantum (s : State) : s.dropResults.quantum = s.quantum := rfl
@[simp] theorem State.dropResults_waited (s : State) : s.dropResults.waited = s.waited := rfl
@[simp] theorem State.dropResults_draws (s : State) : s.dropResults.draws = s.draws + 1 := rfl
@[simp] theorem State.dropResults_cap (s : State) (g0 : Ring) : s.dropResults.cap g0 = s.cap g0 := rfl
@[simp] theorem State.dropResults_byteAt (s : State) (g0 : Ring) (k : Nat) :
    s.dropResults.byteAt g0 k = s.byteAt g0 k := rfl
@[simp] theorem State.dropResults_ptrRead (s : State) (sd' : Side) (q : Ptr) :
    s.dropResults.ptrRead sd' q = s.ptrRead sd' q := rfl

end Sys2Proof.Machine
end

