-- ==== Sys2Proof/Laws/Memory.lean ====
section
/-! SUPPORT. The laws of the backing stores: a read after a write, and the canonical form that every write keeps. -/

namespace Sys2Proof.Machine

@[simp] theorem Memory.read_nil (i : Nat) : Memory.read [] i = Memory.blank := rfl

@[simp] theorem Memory.read_cons (j : Nat) (c : Byte) (m : Memory) (i : Nat) :
    Memory.read ((j, c) :: m) i = if i = j then c else Memory.read m i := rfl

/-- An index the store does not list reads as the reset content. -/
theorem Memory.read_unlisted (m : Memory) (i : Nat) (h : ∀ e ∈ m, e.1 ≠ i) : m.read i = Memory.blank := by
  induction m with
  | nil => rfl
  | cons e m ih =>
    obtain ⟨j, c⟩ := e
    have hj : i ≠ j := fun hij => h (j, c) List.mem_cons_self hij.symm
    rw [Memory.read_cons, if_neg hj]
    exact ih fun e he => h e (List.mem_cons_of_mem _ he)

/-- A write leaves every other index as it was. -/
theorem Memory.read_write_other (m : Memory) (i j : Nat) (b : Byte) (h : j ≠ i) :
    (m.write i b).read j = m.read j := by
  induction m with
  | nil =>
    simp only [Memory.write, Memory.cons]
    split <;> simp [h]
  | cons e m ih =>
    obtain ⟨k, c⟩ := e
    simp only [Memory.write]
    split
    · simp only [Memory.cons]
      split <;> simp [h]
    · split
      · rename_i hik
        subst hik
        simp only [Memory.cons]
        split <;> simp [h]
      · simp [ih]

/-- In the canonical form, a read after a write to the same index gives the byte written. -/
theorem Memory.read_write_same (m : Memory) (i : Nat) (b : Byte) (h : m.wf) : (m.write i b).read i = b := by
  induction m with
  | nil =>
    simp only [Memory.write, Memory.cons]
    split
    · rename_i hb; simp [hb]
    · simp
  | cons e m ih =>
    obtain ⟨k, c⟩ := e
    obtain ⟨hp, hz⟩ := h
    simp only [List.map_cons, List.pairwise_cons] at hp
    have hm : Memory.wf m := ⟨hp.2, fun e he => hz e (List.mem_cons_of_mem _ he)⟩
    have above : ∀ e ∈ m, k < e.1 := fun e he => hp.1 e.1 (List.mem_map_of_mem he)
    simp only [Memory.write]
    split
    · rename_i hik
      simp only [Memory.cons]
      split
      · rename_i hb
        rw [Memory.read_unlisted, hb]
        intro e he
        rcases List.mem_cons.mp he with rfl | he
        · exact Nat.ne_of_gt hik
        · exact Nat.ne_of_gt (Nat.lt_trans hik (above e he))
      · simp
    · split
      · rename_i hik
        subst hik
        simp only [Memory.cons]
        split
        · rename_i hb
          rw [Memory.read_unlisted, hb]
          exact fun e he => Nat.ne_of_gt (above e he)
        · simp
      · rename_i _ hne
        simp [hne, ih hm]

/-- A read after a write, at any index. -/
theorem Memory.read_write (m : Memory) (i j : Nat) (b : Byte) (h : m.wf) :
    (m.write i b).read j = if j = i then b else m.read j := by
  by_cases hj : j = i
  · subst hj; simp [Memory.read_write_same m j b h]
  · simp [hj, Memory.read_write_other m i j b hj]

/-- What a store lists after a write it listed before, or it is the entry written. -/
theorem Memory.mem_write (m : Memory) (i : Nat) (b : Byte) (e : Host.Cell) (he : e ∈ m.write i b) :
    e ∈ m ∨ e = (i, b) := by
  induction m with
  | nil =>
    simp only [Memory.write, Memory.cons] at he
    split at he <;> simp_all
  | cons d m ih =>
    obtain ⟨k, c⟩ := d
    simp only [Memory.write] at he
    split at he
    · simp only [Memory.cons] at he
      split at he <;> simp_all
      rcases he with rfl | h <;> simp_all
    · split at he
      · simp only [Memory.cons] at he
        split at he <;> simp_all
        rcases he with rfl | h <;> simp_all
      · rcases List.mem_cons.mp he with rfl | h
        · simp
        · rcases ih h with h | h
          · exact .inl (List.mem_cons_of_mem _ h)
          · exact .inr h

/-- Putting a byte in front of a store whose indices are all greater keeps the canonical form. -/
theorem Memory.cons_wf (i : Nat) (b : Byte) (m : Memory) (h : m.wf) (habove : ∀ e ∈ m, i < e.1) :
    (Memory.cons i b m).wf := by
  simp only [Memory.cons]
  split
  · exact h
  · rename_i hb
    refine ⟨?_, ?_⟩
    · simp only [List.map_cons, List.pairwise_cons]
      refine ⟨fun j hj => ?_, h.1⟩
      obtain ⟨e, he, rfl⟩ := List.mem_map.mp hj
      exact habove e he
    · intro e he
      rcases List.mem_cons.mp he with rfl | he
      · exact hb
      · exact h.2 e he

/-- A write keeps the canonical form. -/
theorem Memory.write_wf (m : Memory) (i : Nat) (b : Byte) (h : m.wf) : (m.write i b).wf := by
  induction m with
  | nil => exact Memory.cons_wf i b [] h (by simp)
  | cons e m ih =>
    obtain ⟨k, c⟩ := e
    obtain ⟨hp, hz⟩ := h
    simp only [List.map_cons, List.pairwise_cons] at hp
    have hm : Memory.wf m := ⟨hp.2, fun e he => hz e (List.mem_cons_of_mem _ he)⟩
    have above : ∀ e ∈ m, k < e.1 := fun e he => hp.1 e.1 (List.mem_map_of_mem he)
    simp only [Memory.write]
    split
    · rename_i hik
      refine Memory.cons_wf i b _ ⟨by simpa using hp, hz⟩ fun e he => ?_
      rcases List.mem_cons.mp he with rfl | he
      · exact hik
      · exact Nat.lt_trans hik (above e he)
    · split
      · rename_i hik
        subst hik
        exact Memory.cons_wf i b m hm above
      · rename_i hlt hne
        have hki : k < i := by omega
        have hw := ih hm
        refine ⟨?_, ?_⟩
        · simp only [List.map_cons, List.pairwise_cons]
          refine ⟨fun j hj => ?_, hw.1⟩
          obtain ⟨e, he, rfl⟩ := List.mem_map.mp hj
          rcases Memory.mem_write m i b e he with he | rfl
          · exact above e he
          · exact hki
        · intro e he
          rcases List.mem_cons.mp he with rfl | he
          · exact hz _ List.mem_cons_self
          · exact hw.2 e he

/-! ### The stores of the state -/

/-- A byte store on one ring leaves the other store alone. -/
theorem State.setByte_store_other (s : State) (g h : Ring) (i : Nat) (b : Byte) (hne : h ≠ g) :
    (s.setByte g i b).store.get h = s.store.get h := by simp [hne]

/-- A byte store leaves every other index alone. -/
theorem State.setByte_read_other (s : State) (g h : Ring) (i j : Nat) (b : Byte)
    (hne : h ≠ g ∨ j ≠ i % s.cap g) :
    ((s.setByte g i b).store.get h).read j = (s.store.get h).read j := by
  by_cases hg : h = g
  · subst hg
    simp [Memory.read_write_other _ _ _ _ (hne.resolve_left (fun h => h rfl))]
  · simp [hg]

/-- Reading a byte after a byte store on the same ring. -/
theorem State.setByte_byteAt (s : State) (g : Ring) (i j : Nat) (b : Byte) (h : (s.store.get g).wf) :
    (s.setByte g i b).byteAt g j = if j % s.cap g = i % s.cap g then b else s.byteAt g j := by
  simp [State.byteAt, Memory.read_write _ _ _ _ h]

/-- Reading a byte after a byte store on the other ring. -/
theorem State.setByte_byteAt_other (s : State) (g h : Ring) (i j : Nat) (b : Byte) (hne : h ≠ g) :
    (s.setByte g i b).byteAt h j = s.byteAt h j := by simp [State.byteAt, hne]

/-- A byte store keeps the canonical form of both stores. -/
theorem State.setByte_wf (s : State) (g h : Ring) (i : Nat) (b : Byte) (hw : (s.store.get h).wf) :
    ((s.setByte g i b).store.get h).wf := by
  by_cases hg : h = g
  · subst hg
    simpa using Memory.write_wf _ _ _ hw
  · simpa [hg] using hw

/-- The stores after reset have the canonical form. -/
theorem State.resetWith_wf (c : Config) (g : Ring) : ((State.resetWith c).store.get g).wf := by
  cases g <;> exact ⟨List.Pairwise.nil, by simp [State.resetWith, PerRing.get]⟩

end Sys2Proof.Machine
end

