-- ==== Sys2Proof/Laws/Positions.lean ====
section
/-! SUPPORT. The arithmetic of positions around a ring (spec/00_scope.md R10, spec/40_ring_ops.md R128): `dist` and
`advance` without a remainder, and how they fit together. -/

namespace Sys2Proof.Machine

/-- `dist` as the case split of spec/00_scope.md R10, for any two words. -/
theorem dist_eq (a b : Word) (c : Nat) (hc : 0 < c) :
    dist a b c =
      if b.toNat % c ≤ a.toNat % c then a.toNat % c - b.toNat % c else a.toNat % c + c - b.toNat % c := by
  have hb := Nat.mod_lt b.toNat hc
  have ha := Nat.mod_lt a.toNat hc
  unfold dist
  rw [Nat.add_mod]
  by_cases h0 : b.toNat % c = 0
  · simp [h0]
  · rw [Nat.mod_eq_of_lt (show c - b.toNat % c < c by omega)]
    by_cases h : b.toNat % c ≤ a.toNat % c
    · rw [if_pos h, show a.toNat % c + (c - b.toNat % c) = (a.toNat % c - b.toNat % c) + c by omega,
        Nat.add_mod_right, Nat.mod_eq_of_lt (by omega)]
    · rw [if_neg h, Nat.mod_eq_of_lt (by omega)]
      omega

/-- "For `a, b` in `[0, C)`: `(a - b) mod C = a - b` if `a >= b`, else `a - b + C`" (R10). -/
theorem dist_inRange (a b : Word) (c : Nat) (ha : a.toNat < c) (hb : b.toNat < c) :
    dist a b c = if b.toNat ≤ a.toNat then a.toNat - b.toNat else a.toNat + c - b.toNat := by
  rw [dist_eq a b c (by omega), Nat.mod_eq_of_lt ha, Nat.mod_eq_of_lt hb]

theorem dist_lt (a b : Word) (c : Nat) (hc : 0 < c) : dist a b c < c := Nat.mod_lt _ hc

@[simp] theorem dist_self (a : Word) (c : Nat) (hc : 0 < c) : dist a a c = 0 := by
  rw [dist_eq a a c hc]
  simp

/-- Two positions are equal when nothing lies between them. -/
theorem dist_eq_zero (a b : Word) (c : Nat) (ha : a.toNat < c) (hb : b.toNat < c) :
    dist a b c = 0 ↔ a = b := by
  rw [dist_inRange a b c ha hb]
  constructor
  · intro h
    apply BitVec.eq_of_toNat_eq
    split at h <;> omega
  · rintro rfl
    simp

theorem advance_toNat (p : Word) (n c : Nat) (hc : 0 < c) (hw : c ≤ 2 ^ 32) :
    (advance p n c).toNat = (p.toNat + n) % c := by
  unfold advance
  rw [BitVec.toNat_ofNat, Nat.mod_eq_of_lt]
  exact Nat.lt_of_lt_of_le (Nat.mod_lt _ hc) hw

theorem advance_lt (p : Word) (n c : Nat) (hc : 0 < c) : (advance p n c).toNat < c := by
  unfold advance
  rw [BitVec.toNat_ofNat]
  exact Nat.lt_of_le_of_lt (Nat.mod_le _ _) (Nat.mod_lt _ hc)

theorem add_mod_small (p n c : Nat) (hn : n < c) :
    (p + n) % c = if p % c + n < c then p % c + n else p % c + n - c := by
  have hp := Nat.mod_lt p (show 0 < c by omega)
  rw [Nat.add_mod, Nat.mod_eq_of_lt hn]
  split
  · exact Nat.mod_eq_of_lt ‹_›
  · rw [show p % c + n = (p % c + n - c) + c by omega, Nat.add_mod_right, Nat.mod_eq_of_lt (by omega)]
    omega

/-- Advancing the upper position by what still fits before the lower one adds to the distance. -/
theorem dist_advance_left (p b : Word) (n c : Nat) (hc : 0 < c) (hw : c ≤ 2 ^ 32) (h : dist p b c + n < c) :
    dist (advance p n c) b c = dist p b c + n := by
  have hb := Nat.mod_lt b.toNat hc
  have hp := Nat.mod_lt p.toNat hc
  rw [dist_eq _ _ _ hc] at h ⊢
  rw [dist_eq _ _ _ hc, advance_toNat p n c hc hw, Nat.mod_mod, add_mod_small _ _ _ (by split at h <;> omega)]
  split_ifs at h ⊢ <;> omega

/-- Advancing the lower position towards the upper one takes from the distance. -/
theorem dist_advance_right (a p : Word) (n c : Nat) (hc : 0 < c) (hw : c ≤ 2 ^ 32) (h : n ≤ dist a p c) :
    dist a (advance p n c) c = dist a p c - n := by
  have ha := Nat.mod_lt a.toNat hc
  have hp := Nat.mod_lt p.toNat hc
  have hlt := dist_lt a p c hc
  rw [dist_eq a p _ hc] at h hlt ⊢
  rw [dist_eq _ _ _ hc, advance_toNat p n c hc hw, Nat.mod_mod, add_mod_small _ _ _ (by omega)]
  split_ifs at h ⊢ <;> omega

/-- Measuring from a later base: what lies between the bases is taken away. -/
theorem dist_rebase (a b b' : Word) (c : Nat) (hc : 0 < c) (h : dist b' b c ≤ dist a b c) :
    dist a b' c = dist a b c - dist b' b c := by
  have ha := Nat.mod_lt a.toNat hc
  have hb := Nat.mod_lt b.toNat hc
  have hb' := Nat.mod_lt b'.toNat hc
  rw [dist_eq b' b _ hc, dist_eq a b _ hc] at h
  rw [dist_eq a b' _ hc, dist_eq b' b _ hc, dist_eq a b _ hc]
  split_ifs at h ⊢ <;> omega

theorem freeSpace_lt (prod cons : Word) (c : Nat) (hc : 0 < c) : freeSpace prod cons c < c := by
  unfold freeSpace
  omega

/-- A frame passes the space test exactly when it leaves one slot free (spec/10_state.md R22). -/
theorem le_freeSpace (prod cons : Word) (n c : Nat) (hc : 0 < c) :
    n ≤ freeSpace prod cons c ↔ dist prod cons c + n ≤ c - 1 := by
  have := dist_lt prod cons c hc
  unfold freeSpace
  omega

theorem frameSize_eq (len : Half) : frameSize len = len.toNat + 2 := rfl

theorem two_le_frameSize (len : Half) : 2 ≤ frameSize len := by rw [frameSize_eq]; omega

@[simp] theorem frameBytes_length (len : Half) (payload : List Byte) :
    (frameBytes len payload).length = payload.length + 2 := rfl

/-- The two header bytes give back the length (spec/30_encoding.md R96 a). -/
theorem lengthOf_frame (len : Half) : lengthOf (len.extractLsb' 0 8) (len.extractLsb' 8 8) = len := by
  apply BitVec.eq_of_toNat_eq
  have := len.isLt
  unfold lengthOf
  rw [BitVec.toNat_append, BitVec.extractLsb'_toNat, BitVec.extractLsb'_toNat,
    ← Nat.shiftLeft_add_eq_or_of_lt (Nat.mod_lt _ (by decide)), Nat.shiftLeft_eq, Nat.shiftRight_eq_div_pow]
  simp
  omega

end Sys2Proof.Machine
end

