-- ==== Sys2Proof/Laws/Ops.lean ====
section
/-! SUPPORT. For each shared operation, once, all it can do; and `run`: how it composes, the induction over it, and
the closed forms of the two byte loops. -/

namespace Sys2Proof.Machine

open Host (Outcome)

/-! ### Issuing an operation -/

/-- A request that is ready is performed on the state whose result registers are free. -/
theorem accept_ready (i : Instr) (s : State) (go : State → Outcome State Fault Refusal)
    (hb : (s.port.get s.side).busy = none) (hm : mayIssue s.side i = true) :
    accept i s go = go s.dropResults := by
  simp [accept, hb, hm]

/-- All `accept` can do: refuse on a busy port, refuse a side without the right, or perform. -/
theorem accept_cases (i : Instr) (s : State) (go : State → Outcome State Fault Refusal) :
    ((s.port.get s.side).busy ≠ none ∧ accept i s go = .refused .portBusy) ∨
    ((s.port.get s.side).busy = none ∧ mayIssue s.side i = false ∧ accept i s go = .refused .notIssuer) ∨
    ((s.port.get s.side).busy = none ∧ mayIssue s.side i = true ∧ accept i s go = go s.dropResults) := by
  cases hb : (s.port.get s.side).busy with
  | some ph => left; simp [accept, hb]
  | none =>
    right
    cases hm : mayIssue s.side i with
    | false => left; simp [accept, hb, hm]
    | true => right; simp [accept, hb, hm]

/-- If an issued operation answers a next state, the request was ready. -/
theorem accept_next (i : Instr) (s t : State) (go : State → Outcome State Fault Refusal)
    (h : accept i s go = .next t) :
    (s.port.get s.side).busy = none ∧ mayIssue s.side i = true ∧ go s.dropResults = .next t := by
  rcases accept_cases i s go with ⟨_, h'⟩ | ⟨_, _, h'⟩ | ⟨hb, hm, h'⟩
  · rw [h'] at h; cases h
  · rw [h'] at h; cases h
  · exact ⟨hb, hm, h' ▸ h⟩

@[simp] theorem dropResults_busy (s : State) (sd : Side) :
    (s.dropResults.port.get sd).busy = (s.port.get sd).busy := by
  by_cases h : sd = s.side
  · subst h; simp
  · simp [h]

@[simp] theorem dropResults_pbuf (s : State) (sd : Side) :
    (s.dropResults.port.get sd).pbuf = (s.port.get sd).pbuf := by
  by_cases h : sd = s.side
  · subst h; simp
  · simp [h]

@[simp] theorem dropResults_wdata (s : State) (sd : Side) :
    (s.dropResults.port.get sd).wdata = (s.port.get sd).wdata := by
  by_cases h : sd = s.side
  · subst h; simp
  · simp [h]

@[simp] theorem dropResults_wbyte (s : State) (sd : Side) :
    (s.dropResults.port.get sd).wbyte = (s.port.get sd).wbyte := by
  by_cases h : sd = s.side
  · subst h; simp
  · simp [h]

theorem complete_eq (s : State) : complete s = .next (s.finish s.side .ok) := rfl

/-- All a pointer write can do: refuse a value that is no position, or store it and answer Ok. -/
theorem writePointer_cases (p : Ptr) (s : State) :
    ((s.port.get s.side).wdata.toNat < s.cap (ptrRing p) ∧
      writePointer p s = .next ((s.setReg p (s.port.get s.side).wdata).finish s.side .ok)) ∨
    (s.cap (ptrRing p) ≤ (s.port.get s.side).wdata.toNat ∧ writePointer p s = .refused .badPointer) := by
  rcases Nat.lt_or_ge (s.port.get s.side).wdata.toNat (s.cap (ptrRing p)) with h | h
  · exact .inl ⟨h, by simp [writePointer, h, complete]⟩
  · exact .inr ⟨h, by simp [writePointer, Nat.not_lt.mpr h]⟩

/-- All the start of ENQUEUE and SEND can do: refuse a PBUF of another length, answer FrameTooLarge, or
go on from the pointer read. -/
theorem enqueueFrame_cases (g : Ring) (len : Half) (s : State) :
    ((s.port.get s.side).pbuf.length ≠ len.toNat ∧ enqueueFrame g len s = .refused .payloadSize) ∨
    ((s.port.get s.side).pbuf.length = len.toNat ∧ s.cap g < frameSize len ∧
      enqueueFrame g len s = .next (s.finish s.side .frameTooLarge)) ∨
    ((s.port.get s.side).pbuf.length = len.toNat ∧ frameSize len ≤ s.cap g ∧
      enqueueFrame g len s = perform (.frameRead g .plain len) s) := by
  by_cases hp : (s.port.get s.side).pbuf.length = len.toNat
  · rcases Nat.lt_or_ge (s.cap g) (frameSize len) with h | h
    · exact .inr (.inl ⟨hp, h, by simp [enqueueFrame, hp, h]⟩)
    · exact .inr (.inr ⟨hp, h, by simp [enqueueFrame, hp, Nat.not_lt.mpr h]⟩)
  · exact .inl ⟨hp, by simp [enqueueFrame, hp]⟩

/-! ### Atomic actions: all each can do -/

theorem actFrameRead_cases (sd : Side) (g : Ring) (job : EnqJob) (len : Half) (s : State) :
    (freeSpace (s.prodPos.get g) (s.ptrRead sd (pubCons g)) (s.cap g) < frameSize len ∧
      actFrameRead sd g job len s = s.finish sd .insufficientSpace) ∨
    (frameSize len ≤ freeSpace (s.prodPos.get g) (s.ptrRead sd (pubCons g)) (s.cap g) ∧
      actFrameRead sd g job len s =
        s.goOn sd (.frameWrite g job len (s.ptrRead sd (pubCons g)) ((s.prodPos.get g).toNat % s.cap g)
          (frameBytes len (s.port.get sd).pbuf))) := by
  rcases Nat.lt_or_ge (freeSpace (s.prodPos.get g) (s.ptrRead sd (pubCons g)) (s.cap g)) (frameSize len)
    with h | h
  · exact .inl ⟨h, by simp [actFrameRead, h]⟩
  · exact .inr ⟨h, by simp [actFrameRead, Nat.not_lt.mpr h]⟩

theorem actPublish_cases (sd : Side) (g : Ring) (job : EnqJob) (len : Half) (cp : Word) (s : State) :
    (actPublish sd g job len cp s =
      ((s.setProd g (advance (s.prodPos.get g) (frameSize len) (s.cap g))).setReg (pubProd g)
        (advance (s.prodPos.get g) (frameSize len) (s.cap g))).finish sd .ok ∧
      (job = .generate → crosses (dist (s.prodPos.get g) cp (s.cap g)) s.cfg.rxHighWatermark
        (dist (advance (s.prodPos.get g) (frameSize len) (s.cap g)) cp (s.cap g)) = false)) ∨
    (actPublish sd g job len cp s =
      ((s.setProd g (advance (s.prodPos.get g) (frameSize len) (s.cap g))).setReg (pubProd g)
        (advance (s.prodPos.get g) (frameSize len) (s.cap g))).goOn sd (.raiseLast .rxReady) ∧
      job = .generate ∧ crosses (dist (s.prodPos.get g) cp (s.cap g)) s.cfg.rxHighWatermark
        (dist (advance (s.prodPos.get g) (frameSize len) (s.cap g)) cp (s.cap g)) = true) := by
  cases job with
  | plain => left; simp [actPublish]
  | generate =>
    cases hx : crosses (dist (s.prodPos.get g) cp (s.cap g)) s.cfg.rxHighWatermark
        (dist (advance (s.prodPos.get g) (frameSize len) (s.cap g)) cp (s.cap g)) with
    | false => left; simp [actPublish, hx]
    | true => right; simp [actPublish, hx]

theorem drainBlocked_cases (sd : Side) (job : DrainJob) (cause : BlockCause) (pp : Word) (s : State) :
    drainBlocked sd job cause pp s = s.finish sd (.wouldBlock cause) ∨
    drainBlocked sd job cause pp s = s.goOn sd (.giveBack job pp) ∨
    ∃ todo, job = .dispatch todo 0 ∧ drainBlocked sd job cause pp s = s.goOn sd (.ackBit todo) := by
  cases job with
  | plain g => left; rfl
  | process c0 k =>
    by_cases hk : k = 0
    · left; simp [drainBlocked, hk]
    · right; left; simp [drainBlocked, hk]
  | dispatch todo k =>
    by_cases hk : k = 0
    · subst hk; right; right; exact ⟨todo, rfl, by simp [drainBlocked]⟩
    · right; left; simp [drainBlocked, hk]

theorem actDrainRead_cases (sd : Side) (job : DrainJob) (s : State) :
    (dist (s.ptrRead sd (pubProd (drainRing job))) (s.consPos.get (drainRing job)) (s.cap (drainRing job)) < 2 ∧
      actDrainRead sd job s = drainBlocked sd job .header (s.ptrRead sd (pubProd (drainRing job))) s) ∨
    (2 ≤ dist (s.ptrRead sd (pubProd (drainRing job))) (s.consPos.get (drainRing job)) (s.cap (drainRing job)) ∧
      actDrainRead sd job s = s.goOn sd (.headerLow job (s.ptrRead sd (pubProd (drainRing job))))) := by
  rcases Nat.lt_or_ge (dist (s.ptrRead sd (pubProd (drainRing job))) (s.consPos.get (drainRing job))
    (s.cap (drainRing job))) 2 with h | h
  · exact .inl ⟨h, by simp [actDrainRead, h]⟩
  · exact .inr ⟨h, by simp [actDrainRead, Nat.not_lt.mpr h]⟩

/-- The high header byte: not enough visible bytes, or the frame is drained, presented as a view by DRAIN
and copied out by the operations around it. -/
theorem actHeaderHigh_cases (sd : Side) (job : DrainJob) (pp : Word) (b0 : Byte) (s : State) :
    let g := drainRing job
    let c := s.consPos.get g
    let len := lengthOf b0 (s.byteAt g (c.toNat + 1))
    (dist pp c (s.cap g) < frameSize len ∧
      actHeaderHigh sd job pp b0 s = drainBlocked sd job .partialFrame pp s) ∨
    (frameSize len ≤ dist pp c (s.cap g) ∧
      ((job = .plain g ∧ actHeaderHigh sd job pp b0 s =
        ((s.setCons g (advance c (frameSize len) (s.cap g))).setView sd (advance c 2 (s.cap g)) len).finish
          sd .ok) ∨
       (job ≠ .plain g ∧ actHeaderHigh sd job pp b0 s =
        (s.setCons g (advance c (frameSize len) (s.cap g))).goOn sd
          (.copyOut job pp (advance c 2 (s.cap g)).toNat len.toNat [])))) := by
  intro g c len
  rcases Nat.lt_or_ge (dist pp c (s.cap g)) (frameSize len) with h | h
  · exact .inl ⟨h, by unfold actHeaderHigh; exact if_pos h⟩
  · refine .inr ⟨h, ?_⟩
    cases job with
    | plain g' => exact .inl ⟨rfl, by unfold actHeaderHigh; exact if_neg (Nat.not_lt.mpr h)⟩
    | process c0 k =>
      exact .inr ⟨by simp, by unfold actHeaderHigh; exact if_neg (Nat.not_lt.mpr h)⟩
    | dispatch todo k =>
      exact .inr ⟨by simp, by unfold actHeaderHigh; exact if_neg (Nat.not_lt.mpr h)⟩

theorem actDeliver_cases (sd : Side) (job : DrainJob) (pp : Word) (bytes : List Byte) (s : State) :
    ((∃ g, job = .plain g) ∧ actDeliver sd job pp bytes s = s.finish sd .ok) ∨
    (∃ c0 k, job = .process c0 k ∧ s.cfg.txDrainMode = .one ∧
      actDeliver sd job pp bytes s =
        (s.emit sd (.sinkDevice bytes)).goOn sd (.giveBack (.process c0 (k + 1)) pp)) ∨
    (∃ c0 k, job = .process c0 k ∧ s.cfg.txDrainMode = .exhaust ∧
      actDeliver sd job pp bytes s =
        (s.emit sd (.sinkDevice bytes)).goOn sd (.drainRead (.process c0 (k + 1)))) ∨
    (∃ todo k, job = .dispatch todo k ∧
      actDeliver sd job pp bytes s =
        (s.emit sd (.sinkHost bytes)).goOn sd (.drainRead (.dispatch todo (k + 1)))) := by
  cases job with
  | plain g => exact .inl ⟨⟨g, rfl⟩, rfl⟩
  | process c0 k =>
    cases hm : s.cfg.txDrainMode with
    | one => exact .inr (.inl ⟨c0, k, rfl, rfl, by simp [actDeliver, hm]⟩)
    | exhaust => exact .inr (.inr (.inl ⟨c0, k, rfl, rfl, by simp [actDeliver, hm]⟩))
  | dispatch todo k => exact .inr (.inr (.inr ⟨todo, k, rfl, rfl⟩))

theorem actGiveBack_cases (sd : Side) (job : DrainJob) (pp : Word) (s : State) :
    (actGiveBack sd job pp s = (commitCons (drainRing job) s).finish sd .ok) ∨
    (actGiveBack sd job pp s = (commitCons .tx s).goOn sd (.raiseLast .txSpace) ∧
      ∃ c0 k, job = .process c0 k) ∨
    (∃ todo k, job = .dispatch todo k ∧
      actGiveBack sd job pp s = (commitCons .rx s).goOn sd (.ackBit todo)) := by
  cases job with
  | plain g => left; rfl
  | process c0 k =>
    cases hx : crosses (freeSpace pp c0 (s.cap .tx)) s.cfg.txLowWatermark
        (freeSpace pp (s.consPos.get .tx) (s.cap .tx)) with
    | false => left; simp [actGiveBack, drainRing, hx]
    | true => right; left; exact ⟨by simp [actGiveBack, drainRing, hx], c0, k, rfl⟩
  | dispatch todo k => right; right; exact ⟨todo, k, rfl, rfl⟩

/-- All the walk of DISPATCH can do next. -/
theorem serveBits_cases (sd : Side) (todo : List IntBit) (s : State) :
    (todo = [] ∧ serveBits sd todo s = s.finish sd .ok) ∨
    (∃ rest, todo = .rxReady :: rest ∧ serveBits sd todo s = s.goOn sd (.drainRead (.dispatch todo 0))) ∨
    (∃ rest, todo = .txSpace :: rest ∧ serveBits sd todo s = s.goOn sd (.ackBit todo)) ∨
    (∃ rest, todo = .error :: rest ∧ serveBits sd todo s = s.goOn sd (.report todo)) := by
  cases todo with
  | nil => exact .inl ⟨rfl, rfl⟩
  | cons b rest =>
    cases b with
    | rxReady => exact .inr (.inl ⟨rest, rfl, rfl⟩)
    | txSpace => exact .inr (.inr (.inl ⟨rest, rfl, rfl⟩))
    | error => exact .inr (.inr (.inr ⟨rest, rfl, rfl⟩))

/-! ### Running an operation -/

@[simp] theorem run_zero (sd : Side) (s : State) : run 0 sd s = s := rfl

/-- A side with no operation in progress takes no action. -/
@[simp] theorem run_idle (n : Nat) (sd : Side) (s : State) (h : (s.port.get sd).busy = none) :
    run n sd s = s := by
  cases n <;> simp [run, h]

/-- One action, then the rest. -/
theorem run_busy (n : Nat) (sd : Side) (s : State) (ph : Phase) (h : (s.port.get sd).busy = some ph) :
    run (n + 1) sd s = run n sd (act sd ph s) := by
  simp [run, h]

@[simp] theorem goOn_busy (s : State) (sd : Side) (ph : Phase) :
    ((s.goOn sd ph).port.get sd).busy = some ph := by simp

@[simp] theorem finish_busy (s : State) (sd : Side) (r : Result) :
    ((s.finish sd r).port.get sd).busy = none := by simp

/-- From a named phase: one action, then the rest. -/
theorem run_goOn (n : Nat) (sd : Side) (s : State) (ph : Phase) :
    run (n + 1) sd (s.goOn sd ph) = run n sd (act sd ph (s.goOn sd ph)) :=
  run_busy n sd _ ph (goOn_busy s sd ph)

/-- An operation that has ended stays as it is. -/
@[simp] theorem run_finish (n : Nat) (sd : Side) (s : State) (r : Result) :
    run n sd (s.finish sd r) = s.finish sd r :=
  run_idle n sd _ (finish_busy s sd r)

/-- The later phase is the one that counts. -/
@[simp] theorem goOn_goOn (s : State) (sd : Side) (ph ph' : Phase) :
    (s.goOn sd ph).goOn sd ph' = s.goOn sd ph' := by
  simp [State.goOn, State.setPort]

/-- What an operation presents does not depend on the phase it was in. -/
@[simp] theorem goOn_finish (s : State) (sd : Side) (ph : Phase) (r : Result) :
    (s.goOn sd ph).finish sd r = s.finish sd r := by
  simp [State.goOn, State.finish, State.setPort]

/-- The induction over `run`: what every action keeps, a run keeps. -/
theorem run_induct (P : State → Prop) (sd : Side)
    (hact : ∀ s ph, (s.port.get sd).busy = some ph → P s → P (act sd ph s)) (n : Nat) (s : State) (h : P s) :
    P (run n sd s) := by
  induction n generalizing s with
  | zero => exact h
  | succ n ih =>
    cases hb : (s.port.get sd).busy with
    | none => rwa [run_idle _ _ _ hb]
    | some ph =>
      rw [run_busy n sd s ph hb]
      exact ih _ (hact s ph hb h)

/-! ### What no action changes -/

/-- An action of one side changes neither the parameters nor the model's own fields, nor any reader-side
copy, nor INT_ENABLE, nor anything of the other side's port. -/
structure ActionFrame (sd : Side) (s t : State) : Prop where
  cfg : t.cfg = s.cfg
  seen : t.seen = s.seen
  intEnable : t.intEnable = s.intEnable
  inputs : t.inputs = s.inputs
  side : t.side = s.side
  quantum : t.quantum = s.quantum
  waited : t.waited = s.waited
  draws : t.draws = s.draws
  otherPort : t.port.get (otherSide sd) = s.port.get (otherSide sd)
  otherEvents : t.events.get (otherSide sd) = s.events.get (otherSide sd)
  txn : (t.port.get sd).txn = (s.port.get sd).txn
  wdata : (t.port.get sd).wdata = (s.port.get sd).wdata
  wbyte : (t.port.get sd).wbyte = (s.port.get sd).wbyte
  pbuf : (t.port.get sd).pbuf = (s.port.get sd).pbuf

theorem ActionFrame.refl (sd : Side) (s : State) : ActionFrame sd s s := by
  constructor <;> rfl

theorem ActionFrame.trans {sd : Side} {s t u : State} (h : ActionFrame sd s t) (h' : ActionFrame sd t u) :
    ActionFrame sd s u := by
  constructor
  · exact h'.cfg.trans h.cfg
  · exact h'.seen.trans h.seen
  · exact h'.intEnable.trans h.intEnable
  · exact h'.inputs.trans h.inputs
  · exact h'.side.trans h.side
  · exact h'.quantum.trans h.quantum
  · exact h'.waited.trans h.waited
  · exact h'.draws.trans h.draws
  · exact h'.otherPort.trans h.otherPort
  · exact h'.otherEvents.trans h.otherEvents
  · exact h'.txn.trans h.txn
  · exact h'.wdata.trans h.wdata
  · exact h'.wbyte.trans h.wbyte
  · exact h'.pbuf.trans h.pbuf

theorem goOn_frame (s : State) (sd : Side) (ph : Phase) : ActionFrame sd s (s.goOn sd ph) := by
  constructor <;> simp

theorem finish_frame (s : State) (sd : Side) (r : Result) : ActionFrame sd s (s.finish sd r) := by
  constructor <;> simp

theorem setView_frame (s : State) (sd : Side) (off : Word) (len : Half) :
    ActionFrame sd s (s.setView sd off len) := by constructor <;> simp

theorem setByte_frame (s : State) (sd : Side) (g : Ring) (i : Nat) (b : Byte) :
    ActionFrame sd s (s.setByte g i b) := by constructor <;> simp

theorem setProd_frame (s : State) (sd : Side) (g : Ring) (v : Word) : ActionFrame sd s (s.setProd g v) := by
  constructor <;> simp

theorem setCons_frame (s : State) (sd : Side) (g : Ring) (v : Word) : ActionFrame sd s (s.setCons g v) := by
  constructor <;> simp

theorem setReg_frame (s : State) (sd : Side) (p : Ptr) (v : Word) : ActionFrame sd s (s.setReg p v) := by
  constructor <;> simp

theorem raiseBit_frame (s : State) (sd : Side) (b : IntBit) : ActionFrame sd s (s.raiseBit b) := by
  constructor <;> simp

theorem clearBit_frame (s : State) (sd : Side) (b : IntBit) : ActionFrame sd s (s.clearBit b) := by
  constructor <;> simp

theorem emit_frame (s : State) (sd : Side) (e : Event) : ActionFrame sd s (s.emit sd e) := by
  constructor <;> simp

theorem drainBlocked_frame (sd : Side) (job : DrainJob) (cause : BlockCause) (pp : Word) (s : State) :
    ActionFrame sd s (drainBlocked sd job cause pp s) := by
  rcases drainBlocked_cases sd job cause pp s with h | h | ⟨_, _, h⟩ <;> rw [h]
  · exact finish_frame ..
  · exact goOn_frame ..
  · exact goOn_frame ..

theorem serveBits_frame (sd : Side) (todo : List IntBit) (s : State) :
    ActionFrame sd s (serveBits sd todo s) := by
  rcases serveBits_cases sd todo s with ⟨_, h⟩ | ⟨_, _, h⟩ | ⟨_, _, h⟩ | ⟨_, _, h⟩ <;> rw [h]
  · exact finish_frame ..
  · exact goOn_frame ..
  · exact goOn_frame ..
  · exact goOn_frame ..

theorem actPublish_frame (sd : Side) (g : Ring) (job : EnqJob) (len : Half) (cp : Word) (s : State) :
    ActionFrame sd s (actPublish sd g job len cp s) := by
  rcases actPublish_cases sd g job len cp s with ⟨h, _⟩ | ⟨h, _⟩ <;> rw [h]
  · exact ((setProd_frame ..).trans (setReg_frame ..)).trans (finish_frame ..)
  · exact ((setProd_frame ..).trans (setReg_frame ..)).trans (goOn_frame ..)

theorem actDeliver_frame (sd : Side) (job : DrainJob) (pp : Word) (bytes : List Byte) (s : State) :
    ActionFrame sd s (actDeliver sd job pp bytes s) := by
  rcases actDeliver_cases sd job pp bytes s with
    ⟨_, h⟩ | ⟨_, _, _, _, h⟩ | ⟨_, _, _, _, h⟩ | ⟨_, _, _, h⟩ <;> rw [h]
  · exact finish_frame ..
  · exact (emit_frame ..).trans (goOn_frame ..)
  · exact (emit_frame ..).trans (goOn_frame ..)
  · exact (emit_frame ..).trans (goOn_frame ..)

/-- Every atomic action keeps the frame of its side. -/
theorem act_frame (sd : Side) (ph : Phase) (s : State) : ActionFrame sd s (act sd ph s) := by
  cases ph with
  | frameRead g job len =>
    rcases actFrameRead_cases sd g job len s with ⟨_, h⟩ | ⟨_, h⟩ <;> simp only [act, h]
    · exact finish_frame ..
    · exact goOn_frame ..
  | frameWrite g job len cp pos rest =>
    cases rest with
    | nil => exact actPublish_frame ..
    | cons b rest => exact (setByte_frame ..).trans (goOn_frame ..)
  | raiseLast b => exact (raiseBit_frame ..).trans (finish_frame ..)
  | drainRead job =>
    rcases actDrainRead_cases sd job s with ⟨_, h⟩ | ⟨_, h⟩ <;> simp only [act, h]
    · exact drainBlocked_frame ..
    · exact goOn_frame ..
  | headerLow job pp => exact goOn_frame ..
  | headerHigh job pp b0 =>
    rcases actHeaderHigh_cases sd job pp b0 s with ⟨_, h⟩ | ⟨_, ⟨_, h⟩ | ⟨_, h⟩⟩ <;> simp only [act, h]
    · exact drainBlocked_frame ..
    · exact ((setCons_frame ..).trans (setView_frame ..)).trans (finish_frame ..)
    · exact (setCons_frame ..).trans (goOn_frame ..)
  | copyOut job pp pos left acc =>
    cases left with
    | zero => exact actDeliver_frame ..
    | succ n => exact goOn_frame ..
  | giveBack job pp =>
    rcases actGiveBack_cases sd job pp s with h | ⟨h, _⟩ | ⟨_, _, _, h⟩ <;> simp only [act, h]
    · exact (setReg_frame ..).trans (finish_frame ..)
    · exact (setReg_frame ..).trans (goOn_frame ..)
    · exact (setReg_frame ..).trans (goOn_frame ..)
  | readStatus => exact serveBits_frame ..
  | report todo => exact (emit_frame ..).trans (goOn_frame ..)
  | ackBit todo =>
    cases todo with
    | nil => exact finish_frame ..
    | cons b rest => exact (clearBit_frame ..).trans (serveBits_frame ..)

/-- A run keeps the frame of its side. -/
theorem run_frame (n : Nat) (sd : Side) (s : State) : ActionFrame sd s (run n sd s) :=
  run_induct (fun t => ActionFrame sd s t) sd (fun t ph _ h => h.trans (act_frame sd ph t)) n s (.refl sd s)

/-! ### The byte loops -/

/-- A list of bytes stored one after another from `pos` on, around the ring. -/
def State.setBytes (s : State) (g : Ring) : Nat → List Byte → State
  | _, [] => s
  | pos, b :: rest => (s.setByte g pos b).setBytes g ((pos + 1) % s.cap g) rest

/-- The write loop of a frame, all its bytes at once. -/
theorem run_frameWrite (rest : List Byte) (n : Nat) (sd : Side) (g : Ring) (job : EnqJob) (len : Half)
    (cp : Word) (pos : Nat) (s : State) (hn : rest.length ≤ n) :
    ∃ pos', run n sd (s.goOn sd (.frameWrite g job len cp pos rest)) =
      run (n - rest.length) sd ((s.setBytes g pos rest).goOn sd (.frameWrite g job len cp pos' [])) := by
  induction rest generalizing n s pos with
  | nil => exact ⟨pos, rfl⟩
  | cons b rest ih =>
    obtain ⟨m, rfl⟩ : ∃ m, n = m + 1 := ⟨n - 1, by simp at hn; omega⟩
    obtain ⟨pos', h⟩ := ih m ((pos + 1) % s.cap g) (s.setByte g pos b) (by simpa using hn)
    refine ⟨pos', ?_⟩
    rw [run_goOn]
    have hstep : act sd (.frameWrite g job len cp pos (b :: rest))
        (s.goOn sd (.frameWrite g job len cp pos (b :: rest))) =
        (s.setByte g pos b).goOn sd (.frameWrite g job len cp ((pos + 1) % s.cap g) rest) := by
      show ((s.goOn sd _).setByte g pos b).goOn sd _ = _
      rw [show (s.goOn sd (.frameWrite g job len cp pos (b :: rest))).setByte g pos b =
        (s.setByte g pos b).goOn sd (.frameWrite g job len cp pos (b :: rest)) from rfl, goOn_goOn]
      rfl
    rw [hstep, h]
    simp [State.setBytes]

/-- Storing bytes changes the store of that ring and nothing else. -/
theorem setBytes_store_only (s : State) (g : Ring) (pos : Nat) (bytes : List Byte) :
    s.setBytes g pos bytes = { s with store := (s.setBytes g pos bytes).store } := by
  induction bytes generalizing s pos with
  | nil => rfl
  | cons b rest ih =>
    show (s.setByte g pos b).setBytes g _ rest = _
    rw [ih]
    rfl

theorem setBytes_cap (s : State) (g h : Ring) (pos : Nat) (bytes : List Byte) :
    (s.setBytes g pos bytes).cap h = s.cap h := by
  rw [setBytes_store_only]; rfl

/-- Storing bytes keeps the canonical form. -/
theorem setBytes_wf (s : State) (g h : Ring) (pos : Nat) (bytes : List Byte) (hw : (s.store.get h).wf) :
    ((s.setBytes g pos bytes).store.get h).wf := by
  induction bytes generalizing s pos with
  | nil => exact hw
  | cons b rest ih => exact ih _ _ (State.setByte_wf s g h pos b hw)

/-- Storing bytes leaves alone every index they do not reach. -/
theorem setBytes_read_other (s : State) (g h : Ring) (pos : Nat) (bytes : List Byte) (j : Nat)
    (hne : h ≠ g ∨ ∀ k, k < bytes.length → j ≠ (pos + k) % s.cap g) :
    ((s.setBytes g pos bytes).store.get h).read j = (s.store.get h).read j := by
  induction bytes generalizing s pos with
  | nil => rfl
  | cons b rest ih =>
    show (((s.setByte g pos b).setBytes g _ rest).store.get h).read j = _
    rw [ih]
    · apply State.setByte_read_other
      exact hne.imp_right fun hk => by simpa using hk 0 (by simp)
    · refine hne.imp_right fun hk k hlt => ?_
      have := hk (k + 1) (by simpa using hlt)
      simpa [Nat.add_assoc, Nat.add_comm 1 k] using this

/-- Bytes that fit into the ring read back in order. -/
theorem setBytes_byteAt (s : State) (g : Ring) (pos : Nat) (bytes : List Byte) (k : Nat)
    (hw : (s.store.get g).wf) (hlen : bytes.length ≤ s.cap g) (hk : k < bytes.length) :
    (s.setBytes g pos bytes).byteAt g (pos + k) = bytes[k] := by
  induction bytes generalizing s pos k with
  | nil => simp at hk
  | cons b rest ih =>
    have hc : 0 < s.cap g := by simp at hlen; omega
    cases k with
    | zero =>
      have hother := setBytes_read_other (s.setByte g pos b) g g ((pos + 1) % s.cap g) rest (pos % s.cap g)
        (.inr fun j hj h => by
          simp only [State.setByte_cap, Nat.mod_add_mod] at h
          have hj' : j + 1 < s.cap g := by simp at hlen; omega
          rw [Nat.add_assoc, add_mod_small pos (1 + j) (s.cap g) (by omega)] at h
          have := Nat.mod_lt pos hc
          split at h <;> omega)
      show ((s.setByte g pos b).setBytes g ((pos + 1) % s.cap g) rest).byteAt g pos = b
      rw [State.byteAt, setBytes_cap, State.setByte_cap, hother]
      simpa [State.byteAt] using State.setByte_byteAt s g pos pos b hw
    | succ k =>
      have := ih (s.setByte g pos b) ((pos + 1) % s.cap g) k (State.setByte_wf s g g pos b hw)
        (by simp at hlen ⊢; omega) (by simpa using hk)
      show ((s.setByte g pos b).setBytes g ((pos + 1) % s.cap g) rest).byteAt g (pos + (k + 1)) =
        rest[k]'(by simpa using hk)
      rw [← this]
      simp only [State.byteAt, setBytes_cap, State.setByte_cap, Nat.mod_add_mod]
      congr 2
      omega

/-- The copy-out loop of a view, all its bytes at once. -/
theorem run_copyOut (left n : Nat) (sd : Side) (job : DrainJob) (pp : Word) (pos : Nat) (acc : List Byte)
    (s : State) (hn : left ≤ n) :
    ∃ pos', run n sd (s.goOn sd (.copyOut job pp pos left acc)) =
      run (n - left) sd (s.goOn sd (.copyOut job pp pos' 0
        (acc ++ (List.range left).map fun i => s.byteAt (drainRing job) (pos + i)))) := by
  induction left generalizing n pos acc with
  | zero => exact ⟨pos, by simp⟩
  | succ left ih =>
    obtain ⟨m, rfl⟩ : ∃ m, n = m + 1 := ⟨n - 1, by omega⟩
    obtain ⟨pos', h⟩ := ih m ((pos + 1) % s.cap (drainRing job)) (acc ++ [s.byteAt (drainRing job) pos])
      (by omega)
    refine ⟨pos', ?_⟩
    rw [run_goOn]
    have hstep : act sd (.copyOut job pp pos (left + 1) acc) (s.goOn sd (.copyOut job pp pos (left + 1) acc)) =
        s.goOn sd (.copyOut job pp ((pos + 1) % s.cap (drainRing job)) left
          (acc ++ [s.byteAt (drainRing job) pos])) := by
      show (s.goOn sd _).goOn sd _ = _
      rw [goOn_goOn]
      rfl
    have hbytes : acc ++ [s.byteAt (drainRing job) pos] ++
        ((List.range left).map fun i => s.byteAt (drainRing job) ((pos + 1) % s.cap (drainRing job) + i)) =
        acc ++ (List.range (left + 1)).map fun i => s.byteAt (drainRing job) (pos + i) := by
      rw [List.append_assoc, List.range_succ_eq_map, List.map_cons, List.map_map]
      refine congrArg (acc ++ ·) (congrArg (s.byteAt (drainRing job) pos :: ·) ?_)
      apply List.map_congr_left
      intro i _
      simp only [State.byteAt, Function.comp, Nat.mod_add_mod]
      congr 2
      omega
    rw [hstep, h, Nat.add_sub_add_right, hbytes]

end Sys2Proof.Machine
end

