-- ==== Sys2Proof/Laws/PerInstr.lean ====
section
/-! SUPPORT. Per instruction: the word the encoder writes has the width of the instruction's row in
spec/opcode_table.json, and in the bits of the row's mask it has the row's match. -/

namespace Sys2Proof.Laws

/-- A row of spec/opcode_table.json: its width in bits, its mask and its match. -/
structure TableRow where
  width : Nat
  mask : Nat
  pattern : Nat
  deriving DecidableEq, Repr

/-- The row of each instruction, copied from spec/opcode_table.json. -/
def tableRow : Instr → TableRow
  | .enqueue _ _ => ⟨32, 0xFFFE0000, 0x01000000⟩
  | .drain _ => ⟨32, 0xFFFEFFFF, 0x02000000⟩
  | .commit _ => ⟨32, 0xFFFEFFFF, 0x03000000⟩
  | .ptrWrite _ => ⟨32, 0xFFFFFFF3, 0x04000000⟩
  | .ptrRead _ => ⟨32, 0xFFFFFFF3, 0x05000000⟩
  | .raiseInt _ => ⟨32, 0xFFFFFFFC, 0x08000000⟩
  | .ack _ => ⟨32, 0xFFFFFFFC, 0x09000000⟩
  | .dispatch => ⟨32, 0xFFFFFFFF, 0x0A000000⟩
  | .send _ => ⟨32, 0xFFFF0000, 0x10000000⟩
  | .processTx => ⟨32, 0xFFFFFFFF, 0x11000000⟩
  | .generateRx _ => ⟨32, 0xFFFF0000, 0x12000000⟩
  | .regRdTxTailPtr => ⟨9, 0x1FF, 0x000⟩
  | .regWrTxTailPtr => ⟨9, 0x1FF, 0x100⟩
  | .regRdRxHeadPtr => ⟨9, 0x1FF, 0x004⟩
  | .regWrRxHeadPtr => ⟨9, 0x1FF, 0x104⟩
  | .regRdHostTxHeadPub => ⟨9, 0x1FF, 0x008⟩
  | .regWrHostTxHeadPub => ⟨9, 0x1FF, 0x108⟩
  | .regRdHostRxTailPub => ⟨9, 0x1FF, 0x00C⟩
  | .regWrHostRxTailPub => ⟨9, 0x1FF, 0x10C⟩
  | .regRdIntStatus => ⟨9, 0x1FF, 0x010⟩
  | .regWrIntStatus => ⟨9, 0x1FF, 0x110⟩
  | .regRdIntEnable => ⟨9, 0x1FF, 0x014⟩
  | .regWrIntEnable => ⟨9, 0x1FF, 0x114⟩
  | .regRdIntClear => ⟨9, 0x1FF, 0x018⟩
  | .regWrIntClear => ⟨9, 0x1FF, 0x118⟩
  | .memRd _ _ => ⟨34, 0x200000000, 0x000000000⟩
  | .memWr _ _ => ⟨34, 0x200000000, 0x200000000⟩

/-- A transaction lies in a row: it has the row's width, and under the row's mask it is the row's match. -/
def inRow (r : TableRow) : Txn → Prop
  | .cmd w => r.width = 32 ∧ w &&& BitVec.ofNat 32 r.mask = BitVec.ofNat 32 r.pattern
  | .rt w => r.width = 9 ∧ w &&& BitVec.ofNat 9 r.mask = BitVec.ofNat 9 r.pattern
  | .mt w => r.width = 34 ∧ w &&& BitVec.ofNat 34 r.mask = BitVec.ofNat 34 r.pattern

/-- The encoder writes a word of the instruction's row (spec/30_encoding.md R101, R105, R106). -/
def EncodingMatchesTable.Statement (i : Instr) : Prop := inRow (tableRow i) (encode i)

theorem row_cmd (op : BitVec 8) (g : BitVec 1) (n : Half) (mask pattern : Nat)
    (h : ∀ i, i < 32 → ((cmdWord op g n).getLsbD i && (BitVec.ofNat 32 mask).getLsbD i) =
      (BitVec.ofNat 32 pattern).getLsbD i) : inRow ⟨32, mask, pattern⟩ (.cmd (cmdWord op g n)) :=
  ⟨rfl, BitVec.eq_of_getLsbD_eq fun i hi => by rw [BitVec.getLsbD_and]; exact h i hi⟩

theorem row_mt (wr : BitVec 1) (g : Ring) (idx : Word) (mask pattern : Nat)
    (h : ∀ i, i < 34 → ((mtWord wr g idx).getLsbD i && (BitVec.ofNat 34 mask).getLsbD i) =
      (BitVec.ofNat 34 pattern).getLsbD i) : inRow ⟨34, mask, pattern⟩ (.mt (mtWord wr g idx)) :=
  ⟨rfl, BitVec.eq_of_getLsbD_eq fun i hi => by rw [BitVec.getLsbD_and]; exact h i hi⟩

theorem mtWord_getLsbD (wr : BitVec 1) (g : Ring) (idx : Word) (i : Nat) :
    (mtWord wr g idx).getLsbD i =
      if i < 32 then idx.getLsbD i
      else if i < 33 then (ringBit g).getLsbD (i - 32)
      else wr.getLsbD (i - 33) := by
  unfold mtWord
  rw [BitVec.getLsbD_append, BitVec.getLsbD_append]
  by_cases h1 : i < 32
  · simp [h1]
  · by_cases h2 : i < 33
    · have : i - 32 < 1 := by omega
      simp [h1, h2, this]
    · have h3 : ¬i - 32 < 1 := by omega
      simp [h1, h2, h3, Nat.sub_sub]

theorem EncodingMatchesTable.enqueue (g : Ring) (len : Half) : EncodingMatchesTable.Statement (.enqueue g len) :=
  row_cmd _ _ _ _ _ fun i hi => by
    rw [cmdWord_getLsbD]
    cases g <;> interval_cases i <;> simp [ringBit]

theorem EncodingMatchesTable.drain (g : Ring) : EncodingMatchesTable.Statement (.drain g) := by
  cases g <;> exact ⟨rfl, by decide⟩

theorem EncodingMatchesTable.commit (g : Ring) : EncodingMatchesTable.Statement (.commit g) := by
  cases g <;> exact ⟨rfl, by decide⟩

theorem EncodingMatchesTable.ptrWrite (p : Ptr) : EncodingMatchesTable.Statement (.ptrWrite p) := by
  cases p <;> exact ⟨rfl, by decide⟩

theorem EncodingMatchesTable.ptrRead (p : Ptr) : EncodingMatchesTable.Statement (.ptrRead p) := by
  cases p <;> exact ⟨rfl, by decide⟩

theorem EncodingMatchesTable.raiseInt (b : IntBit) : EncodingMatchesTable.Statement (.raiseInt b) := by
  cases b <;> exact ⟨rfl, by decide⟩

theorem EncodingMatchesTable.ack (b : IntBit) : EncodingMatchesTable.Statement (.ack b) := by
  cases b <;> exact ⟨rfl, by decide⟩

theorem EncodingMatchesTable.dispatch : EncodingMatchesTable.Statement .dispatch :=
  ⟨rfl, by decide⟩

theorem EncodingMatchesTable.send (len : Half) : EncodingMatchesTable.Statement (.send len) :=
  row_cmd _ _ _ _ _ fun i hi => by
    rw [cmdWord_getLsbD]
    interval_cases i <;> simp

theorem EncodingMatchesTable.processTx : EncodingMatchesTable.Statement .processTx :=
  ⟨rfl, by decide⟩

theorem EncodingMatchesTable.generateRx (len : Half) : EncodingMatchesTable.Statement (.generateRx len) :=
  row_cmd _ _ _ _ _ fun i hi => by
    rw [cmdWord_getLsbD]
    interval_cases i <;> simp

theorem EncodingMatchesTable.regRdTxTailPtr : EncodingMatchesTable.Statement .regRdTxTailPtr :=
  ⟨rfl, by decide⟩

theorem EncodingMatchesTable.regWrTxTailPtr : EncodingMatchesTable.Statement .regWrTxTailPtr :=
  ⟨rfl, by decide⟩

theorem EncodingMatchesTable.regRdRxHeadPtr : EncodingMatchesTable.Statement .regRdRxHeadPtr :=
  ⟨rfl, by decide⟩

theorem EncodingMatchesTable.regWrRxHeadPtr : EncodingMatchesTable.Statement .regWrRxHeadPtr :=
  ⟨rfl, by decide⟩

theorem EncodingMatchesTable.regRdHostTxHeadPub : EncodingMatchesTable.Statement .regRdHostTxHeadPub :=
  ⟨rfl, by decide⟩

theorem EncodingMatchesTable.regWrHostTxHeadPub : EncodingMatchesTable.Statement .regWrHostTxHeadPub :=
  ⟨rfl, by decide⟩

theorem EncodingMatchesTable.regRdHostRxTailPub : EncodingMatchesTable.Statement .regRdHostRxTailPub :=
  ⟨rfl, by decide⟩

theorem EncodingMatchesTable.regWrHostRxTailPub : EncodingMatchesTable.Statement .regWrHostRxTailPub :=
  ⟨rfl, by decide⟩

theorem EncodingMatchesTable.regRdIntStatus : EncodingMatchesTable.Statement .regRdIntStatus :=
  ⟨rfl, by decide⟩

theorem EncodingMatchesTable.regWrIntStatus : EncodingMatchesTable.Statement .regWrIntStatus :=
  ⟨rfl, by decide⟩

theorem EncodingMatchesTable.regRdIntEnable : EncodingMatchesTable.Statement .regRdIntEnable :=
  ⟨rfl, by decide⟩

theorem EncodingMatchesTable.regWrIntEnable : EncodingMatchesTable.Statement .regWrIntEnable :=
  ⟨rfl, by decide⟩

theorem EncodingMatchesTable.regRdIntClear : EncodingMatchesTable.Statement .regRdIntClear :=
  ⟨rfl, by decide⟩

theorem EncodingMatchesTable.regWrIntClear : EncodingMatchesTable.Statement .regWrIntClear :=
  ⟨rfl, by decide⟩

theorem EncodingMatchesTable.memRd (g : Ring) (idx : Word) : EncodingMatchesTable.Statement (.memRd g idx) :=
  row_mt _ _ _ _ _ fun i hi => by
    rw [mtWord_getLsbD]
    interval_cases i <;> simp

theorem EncodingMatchesTable.memWr (g : Ring) (idx : Word) : EncodingMatchesTable.Statement (.memWr g idx) :=
  row_mt _ _ _ _ _ fun i hi => by
    rw [mtWord_getLsbD]
    interval_cases i <;> simp

end Sys2Proof.Laws
end

