-- ==== Sys2Proof/Laws/Safety.lean ====
section
/-! SUPPORT. The invariants of Sys2Proof.Safety do not look at the inputs still to come. -/

namespace Sys2Proof.Machine

theorem ranged_setInputs {s : State} (l : List Input) (h : Ranged s) : Ranged (s.setInputs l) :=
  ⟨h.cfg, h.prod, h.cons, h.reg, h.seen, h.status, h.enable, h.canonical, h.inStore⟩

theorem ringOrdered_setInputs {s : State} {g : Ring} (l : List Input) (h : RingOrdered s g) :
    RingOrdered (s.setInputs l) g :=
  ⟨h.seenCons_regCons, h.regCons_cons, h.cons_seenProd, h.seenProd_copy, h.copy_prod, h.published, h.slotFree,
    h.onCourse⟩

theorem safe_setInputs {s : State} (l : List Input) (h : Safe s) : Safe (s.setInputs l) :=
  ⟨ranged_setInputs l h.ranged, h.roles, h.payloads, h.snapshots, fun g => ringOrdered_setInputs l (h.ordered g)⟩

theorem takeFrames_setInputs (s : State) (g : Ring) (l : List Input) (fuel pos avail : Nat) :
    takeFrames (s.setInputs l) g fuel pos avail = takeFrames s g fuel pos avail := by
  induction fuel generalizing pos avail with
  | zero => rfl
  | succ n ih =>
    have e : ∀ p, lengthAt (s.setInputs l) g p = lengthAt s g p := fun _ => rfl
    have e' : ∀ p k, payloadAt (s.setInputs l) g p k = payloadAt s g p k := fun _ _ => rfl
    simp only [takeFrames, e, e', ih]

theorem streamFaithful_setInputs {s : State} {g : Ring} (l : List Input) (h : StreamFaithful s g) :
    StreamFaithful (s.setInputs l) g where
  whole := by
    have e := h.whole
    unfold StreamWhole framesTo at e ⊢
    rw [takeFrames_setInputs]
    exact e
  writing := h.writing
  header := h.header
  reading := h.reading
  copying := h.copying

end Sys2Proof.Machine
end

