-- ==== Sys2Proof/Laws/Turns.lean ====
section
/-! SUPPORT. What the end of a turn can do: `settle` changes the reader-side copies and the waiting counts alone; a
copy stays, or takes its register's value. With SYNC_LATENCY unbounded a turn is the input's, whole. -/

namespace Sys2Proof.Machine

open Host (Outcome)

/-! ### No bound -/

@[simp] theorem turn_unbounded (s : State) (n : Nat) (h : s.cfg.syncLatency = none) : s.turn n = n := by
  simp [State.turn, h]

@[simp] theorem settle_unbounded (s : State) (k : Nat) (t : State) (h : s.cfg.syncLatency = none) :
    s.settle k t = t := by
  simp [State.settle, h]

@[simp] theorem settleNext_unbounded (s : State) (k : Nat) (o : Outcome State Fault Refusal)
    (h : s.cfg.syncLatency = none) : settleNext s k o = o := by
  cases o <;> simp [settleNext, h]

/-! ### A bound -/

theorem turn_le_one (s : State) (n l : Nat) (h : s.cfg.syncLatency = some l) : s.turn n = min n 1 := by
  simp [State.turn, h]

theorem turn_le (s : State) (n : Nat) : s.turn n ≤ n := by
  unfold State.turn
  split
  · exact Nat.le_refl n
  · exact Nat.min_le_left n 1

/-! ### `settle`, field by field -/

@[simp] theorem State.settle_cfg (s : State) (k : Nat) (t : State) : (s.settle k t).cfg = t.cfg := by
  unfold State.settle
  split <;> rfl

@[simp] theorem State.settle_prodPos (s : State) (k : Nat) (t : State) : (s.settle k t).prodPos = t.prodPos := by
  unfold State.settle
  split <;> rfl

@[simp] theorem State.settle_consPos (s : State) (k : Nat) (t : State) : (s.settle k t).consPos = t.consPos := by
  unfold State.settle
  split <;> rfl

@[simp] theorem State.settle_store (s : State) (k : Nat) (t : State) : (s.settle k t).store = t.store := by
  unfold State.settle
  split <;> rfl

@[simp] theorem State.settle_reg (s : State) (k : Nat) (t : State) : (s.settle k t).reg = t.reg := by
  unfold State.settle
  split <;> rfl

@[simp] theorem State.settle_intStatus (s : State) (k : Nat) (t : State) : (s.settle k t).intStatus = t.intStatus := by
  unfold State.settle
  split <;> rfl

@[simp] theorem State.settle_intEnable (s : State) (k : Nat) (t : State) : (s.settle k t).intEnable = t.intEnable := by
  unfold State.settle
  split <;> rfl

@[simp] theorem State.settle_port (s : State) (k : Nat) (t : State) : (s.settle k t).port = t.port := by
  unfold State.settle
  split <;> rfl

@[simp] theorem State.settle_events (s : State) (k : Nat) (t : State) : (s.settle k t).events = t.events := by
  unfold State.settle
  split <;> rfl

@[simp] theorem State.settle_inputs (s : State) (k : Nat) (t : State) : (s.settle k t).inputs = t.inputs := by
  unfold State.settle
  split <;> rfl

@[simp] theorem State.settle_side (s : State) (k : Nat) (t : State) : (s.settle k t).side = t.side := by
  unfold State.settle
  split <;> rfl

@[simp] theorem State.settle_quantum (s : State) (k : Nat) (t : State) : (s.settle k t).quantum = t.quantum := by
  unfold State.settle
  split <;> rfl

@[simp] theorem State.settle_draws (s : State) (k : Nat) (t : State) : (s.settle k t).draws = t.draws := by
  unfold State.settle
  split <;> rfl

@[simp] theorem State.settle_cap (s : State) (k : Nat) (t : State) (g : Ring) :
    (s.settle k t).cap g = t.cap g := by
  simp [State.cap]

@[simp] theorem State.settle_byteAt (s : State) (k : Nat) (t : State) (g : Ring) (i : Nat) :
    (s.settle k t).byteAt g i = t.byteAt g i := by
  simp [State.byteAt]

/-- All the end of a turn can do to a copy: nothing, or a SYNC. -/
theorem State.settle_seen_cases (s : State) (k : Nat) (t : State) (p : Ptr) :
    (s.settle k t).seen.get p = t.seen.get p ∨ (s.settle k t).seen.get p = t.reg.get p := by
  unfold State.settle
  split
  · exact .inl rfl
  · simp only [PerPtr.get_ofFn]
    split
    · exact .inr rfl
    · exact .inl rfl

/-- With a bound, a copy that is stale after the turn has not waited that long. -/
theorem State.settle_bounded (s : State) (k : Nat) (t : State) (p : Ptr) (l : Nat)
    (h : s.cfg.syncLatency = some l) :
    ((s.settle k t).seen.get p = t.reg.get p ∧ (s.settle k t).waited.get p = 0) ∨
    (s.waitAfter t k p < l ∧ (s.settle k t).seen.get p = t.seen.get p ∧
      (s.settle k t).waited.get p = s.waitAfter t k p) := by
  rcases Nat.lt_or_ge (s.waitAfter t k p) l with hl | hl
  · exact .inr ⟨hl, by simp [State.settle, h, Nat.not_le.mpr hl], by simp [State.settle, h, Nat.not_le.mpr hl]⟩
  · exact .inl ⟨by simp [State.settle, h, hl], by simp [State.settle, h, hl]⟩

/-! ### `step` -/

@[simp] theorem step_idle (s : State) (h : s.inputs = []) : step s = .next s := by
  simp [step, h]

theorem step_input (s : State) (x : Input) (rest : List Input) (h : s.inputs = x :: rest) :
    step s = settleNext s (s.inputActions x) (takeInput x (s.setInputs rest)) := by
  simp [step, h]

theorem settleNext_next (s : State) (k : Nat) (o : Outcome State Fault Refusal) (t : State)
    (h : settleNext s k o = .next t) : ∃ t', o = .next t' ∧ t = s.settle k t' := by
  cases o with
  | next t' => exact ⟨t', rfl, by cases h; rfl⟩
  | fault r => cases h
  | refused r => cases h

/-- All a step that answers a next state can do: nothing, with no input; else the input, then the due SYNC steps. -/
theorem step_cases (s t : State) (h : step s = .next t) :
    (s.inputs = [] ∧ t = s) ∨
    (∃ x rest t', s.inputs = x :: rest ∧ takeInput x (s.setInputs rest) = .next t' ∧
      t = s.settle (s.inputActions x) t') := by
  cases hi : s.inputs with
  | nil => exact .inl ⟨rfl, by rw [step_idle s hi] at h; cases h; rfl⟩
  | cons x rest =>
    rw [step_input s x rest hi] at h
    obtain ⟨t', ht, rfl⟩ := settleNext_next s _ _ t h
    exact .inr ⟨x, rest, t', rfl, ht, rfl⟩

end Sys2Proof.Machine
end

