-- ==== Sys2Proof/Tests/Slice0.lean ====
section
/-! SUPPORT. Tests of the model: words written out from spec/30_encoding.md, vectors of spec/95_test_vectors.md, and
for each obligation with hypotheses a witness that meets them. -/

namespace Sys2Proof.Tests

open Sys2Proof Sys2Proof.Machine
open Host (Outcome)

/-! ### Helpers -/

/-- The parameters of the vectors: both capacities 16, watermarks 4 (spec/95_test_vectors.md, Conventions). -/
def c16 : Config := { capTx := 16, capRx := 16 }

/-- The reset state of the vectors. -/
def fresh : State := State.resetWith c16

/-- A side with its operands, about to perform up to `q` atomic actions. -/
def sideOf (sd : Side) (q : Nat) (wdata : Word) (wbyte : Byte) (pbuf : List Byte) (s : State) : State :=
  { s with
    side := sd
    quantum := q
    port := s.port.set sd { s.port.get sd with wdata := wdata, wbyte := wbyte, pbuf := pbuf } }

/-- A side that takes a payload, or none. -/
def by' (sd : Side) (pbuf : List Byte) (s : State) : State := sideOf sd 80 0 0 pbuf s

/-- A side that presents a data word. -/
def withWord (sd : Side) (v : Word) (s : State) : State := sideOf sd 80 v 0 [] s

/-- The next state of an outcome; another machine where there is none. -/
def nextOf : Outcome State Fault Refusal → State
  | .next t => t
  | _ => State.resetWith { capTx := 1, capRx := 1 }

/-- The refusal of an outcome. -/
def refusalOf : Outcome State Fault Refusal → Option Refusal
  | .refused r => some r
  | _ => none

/-- The state after an instruction. -/
def after (i : Instr) (s : State) : State := nextOf (exec i s)

/-- Start position `p` on the TX ring (spec/95_test_vectors.md, Conventions). -/
def startAt (p : Word) : State :=
  { fresh with
    prodPos := ⟨p, 0⟩
    consPos := ⟨p, 0⟩
    reg := ⟨p, 0, p, 0⟩
    seen := ⟨p, 0, p, 0⟩ }

/-- After ENQ-1: a 5-byte payload enqueued on TX. -/
def enq1 : State := after (.enqueue .tx 5) (by' .host [0xAB, 0xCD, 0xEF, 0x01, 0x02] fresh)

/-- ENQ-1, and the producer pointer has crossed. -/
def enq1Seen : State := enq1.syncPtr .txHeadPub

/-- After GRX-2: two 1-byte payloads generated. -/
def grx2 : State :=
  after (.generateRx 1) (by' .device [0x22] (after (.generateRx 1) (by' .device [0x11] fresh)))

/-- The first 8 bytes of a store. -/
def firstBytes (s : State) (g : Ring) : List Byte := (List.range 8).map (s.byteAt g)

/-! ### Well-formedness -/

theorem test_memory_index_beyond_store_is_ill_formed :
    Instr.wellFormed c16 (.memRd .tx 16) = false ∧ Instr.wellFormed c16 (.memWr .rx 16) = false := by decide

theorem test_memory_index_in_store_is_well_formed :
    Instr.wellFormed c16 (.memRd .tx 15) = true ∧ Instr.wellFormed c16 (.memWr .rx 15) = true := by decide

theorem test_payload_of_another_length_does_not_fit :
    (Instr.enqueue .tx 2).payloadFits [0x01] = false ∧ (Instr.send 0).payloadFits [0x01] = false ∧
      (Instr.generateRx 3).payloadFits [] = false := by decide

theorem test_config_too_small_is_invalid :
    Config.valid { capTx := 2 } = false ∧ Config.valid { capRx := 16, maxPayloadRx := 14 } = false ∧
      Config.valid { capTx := 2 ^ 32 + 1, maxPayloadTx := 0 } = false ∧
      Config.valid { capTx := 70000, maxPayloadTx := 65536 } = false ∧
      Config.valid { txLowWatermark := 2 ^ 32 } = false ∧ Config.valid { rxHighWatermark := 2 ^ 32 } = false := by
  decide

theorem test_config_smallest_and_largest_are_valid :
    Config.valid { capTx := 3, capRx := 2 ^ 32, txLowWatermark := 2 ^ 32 - 1 } = true ∧
      ({ capRx := 2 ^ 32 } : Config).maxPayloadRx = 65535 ∧ ({} : Config).maxPayloadTx = 4093 ∧
      ({} : Config).syncLatency = none := by decide

/-! ### Words written out from spec/30_encoding.md R100, R101, R105, R106 -/

/-- op 0x01, g 1, n 0x012C. -/
theorem test_decode_enqueue : decode (.cmd 0b00000001_0000000_1_0000000100101100) = .ok (.enqueue .rx 300) := by decide

/-- op 0x02, g 1, n 0. -/
theorem test_decode_drain : decode (.cmd 0b00000010_0000000_1_0000000000000000) = .ok (.drain .rx) := by decide

/-- op 0x03, g 0, n 0. -/
theorem test_decode_commit : decode (.cmd 0b00000011_0000000_0_0000000000000000) = .ok (.commit .tx) := by decide

/-- op 0x04, n 0x04. -/
theorem test_decode_ptr_write : decode (.cmd 0b00000100_0000000_0_0000000000000100) = .ok (.ptrWrite .rxHead) := by decide

/-- op 0x05, n 0x08. -/
theorem test_decode_ptr_read : decode (.cmd 0b00000101_0000000_0_0000000000001000) = .ok (.ptrRead .txHeadPub) := by decide

/-- op 0x08, n 1. -/
theorem test_decode_raise : decode (.cmd 0b00001000_0000000_0_0000000000000001) = .ok (.raiseInt .txSpace) := by decide

/-- op 0x09, n 2. -/
theorem test_decode_ack : decode (.cmd 0b00001001_0000000_0_0000000000000010) = .ok (.ack .error) := by decide

/-- op 0x0A. -/
theorem test_decode_dispatch : decode (.cmd 0b00001010_0000000_0_0000000000000000) = .ok .dispatch := by decide

/-- op 0x10, n 0xFFFF. -/
theorem test_decode_send : decode (.cmd 0b00010000_0000000_0_1111111111111111) = .ok (.send 65535) := by decide

/-- op 0x11. -/
theorem test_decode_process_tx : decode (.cmd 0b00010001_0000000_0_0000000000000000) = .ok .processTx := by decide

/-- op 0x12, n 0. -/
theorem test_decode_generate_rx : decode (.cmd 0b00010010_0000000_0_0000000000000000) = .ok (.generateRx 0) := by decide

/-- w 0 and each of the seven offsets. -/
theorem test_decode_reg_rd :
    decode (.rt 0b0_00000000) = .ok .regRdTxTailPtr ∧ decode (.rt 0b0_00000100) = .ok .regRdRxHeadPtr ∧
    decode (.rt 0b0_00001000) = .ok .regRdHostTxHeadPub ∧ decode (.rt 0b0_00001100) = .ok .regRdHostRxTailPub ∧
    decode (.rt 0b0_00010000) = .ok .regRdIntStatus ∧ decode (.rt 0b0_00010100) = .ok .regRdIntEnable ∧
    decode (.rt 0b0_00011000) = .ok .regRdIntClear := by decide

/-- w 1 and each of the seven offsets. -/
theorem test_decode_reg_wr :
    decode (.rt 0b1_00000000) = .ok .regWrTxTailPtr ∧ decode (.rt 0b1_00000100) = .ok .regWrRxHeadPtr ∧
    decode (.rt 0b1_00001000) = .ok .regWrHostTxHeadPub ∧ decode (.rt 0b1_00001100) = .ok .regWrHostRxTailPub ∧
    decode (.rt 0b1_00010000) = .ok .regWrIntStatus ∧ decode (.rt 0b1_00010100) = .ok .regWrIntEnable ∧
    decode (.rt 0b1_00011000) = .ok .regWrIntClear := by decide

/-- w 0, g 1, idx 0x80000001. -/
theorem test_decode_mem_rd : decode (.mt 0x180000001) = .ok (.memRd .rx 0x80000001) := by decide

/-- w 1, g 0, idx 0xFFFFFFFF. -/
theorem test_decode_mem_wr : decode (.mt 0x2FFFFFFFF) = .ok (.memWr .tx 0xFFFFFFFF) := by decide

/-- The reserved values of `op` named by R108 a. -/
theorem test_decode_reserved_op :
    decode (.cmd 0x00000000) = .error .reservedOp ∧ decode (.cmd 0x06000000) = .error .reservedOp ∧
    decode (.cmd 0x07000000) = .error .reservedOp ∧ decode (.cmd 0x0B000000) = .error .reservedOp ∧
    decode (.cmd 0x0F000000) = .error .reservedOp ∧ decode (.cmd 0x13000000) = .error .reservedOp ∧
    decode (.cmd 0xFF000000) = .error .reservedOp := by decide

/-- The bad fields of R108 b and d; the last but one is LAT-12, the last REG-8. -/
theorem test_decode_bad_fields :
    decode (.cmd 0x01020005) = .error .reservedField ∧ decode (.cmd 0x08800000) = .error .reservedField ∧
    decode (.cmd 0x10010001) = .error .ringNotTaken ∧ decode (.cmd 0x0A010000) = .error .ringNotTaken ∧
    decode (.cmd 0x02000001) = .error .argumentNotZero ∧ decode (.cmd 0x11000001) = .error .argumentNotZero ∧
    decode (.cmd 0x04000010) = .error .badPointerOffset ∧ decode (.cmd 0x05000002) = .error .badPointerOffset ∧
    decode (.cmd 0x08000003) = .error .badBitIndex ∧ decode (.rt 0x01C) = .error .badRegisterOffset := by decide

/-- The table's numbering: 32, 9 (16) and 34 (40) bits; a bit beyond the format is no word. -/
theorem test_table_words :
    decodeTableWord 32 0x0A000000 = some .dispatch ∧ decodeTableWord 16 0x114 = some .regWrIntEnable ∧
    decodeTableWord 9 0x010 = some .regRdIntStatus ∧ decodeTableWord 40 0x300000000 = some (.memWr .rx 0) ∧
    decodeTableWord 34 0x100000002 = some (.memRd .rx 2) ∧ decodeTableWord 16 0x214 = none ∧
    decodeTableWord 32 0x00000000 = none := by decide

/-! ### Vectors of spec/95_test_vectors.md, one operation each -/

/-- ENQ-3: the header straddles the end. -/
theorem test_enqueue_header_straddles :
    let t := after (.enqueue .tx 3) (by' .host [0x11, 0x22, 0x33] (startAt 15))
    firstBytes t .tx = [0x00, 0x11, 0x22, 0x33, 0, 0, 0, 0] ∧ t.byteAt .tx 15 = 0x03 ∧
      t.prodPos.tx = 4 ∧ t.reg.txHeadPub = 4 := by decide

/-- ENQ-1, ENQ-7, ENQ-8: Ok, InsufficientSpace at `len + 2 = C`, FrameTooLarge above. -/
theorem test_enqueue_results :
    enq1.port.host.res = 0x000 ∧ firstBytes enq1 .tx = [5, 0, 0xAB, 0xCD, 0xEF, 1, 2, 0] ∧
    (after (.enqueue .tx 14) (by' .host (List.replicate 14 0) fresh)).port.host.res = 0x002 ∧
    (after (.enqueue .tx 15) (by' .host (List.replicate 15 0) fresh)).port.host.res = 0x001 := by decide

/-- DRN-8: the view of a frame at 12 wraps. -/
theorem test_drain_view_wraps :
    let s := (after (.enqueue .tx 4) (by' .host [0x11, 0x22, 0x33, 0x44] (startAt 12))).syncPtr .txHeadPub
    let t := after (.drain .tx) (by' .device [] s)
    t.port.device.res = 0 ∧ t.port.device.voff = 14 ∧ t.port.device.vlen = 4 ∧ t.consPos.tx = 2 ∧
      payloadAt t .tx 14 4 = [0x11, 0x22, 0x33, 0x44] ∧ t.reg.txTail = 12 := by decide

/-- DRN-2 (stale pointer), DRN-5 (a raw length and pointer): the two WouldBlock. -/
theorem test_drain_results :
    (after (.drain .tx) (by' .device [] enq1)).port.device.res = 0x003 ∧
    (let s := { fresh with store := ⟨[(0, 0x05)], []⟩, seen := ⟨0, 0, 4, 0⟩ }
     let t := after (.drain .tx) (by' .device [] s)
     t.port.device.res = 0x103 ∧ t.consPos.tx = 0) := by decide

/-- CMT-1: the pointer moves, the copy does not. -/
theorem test_commit :
    let t := after (.commit .tx) (by' .device [] (after (.drain .tx) (by' .device [] enq1Seen)))
    t.reg.txTail = 7 ∧ t.seen.txTail = 0 ∧ t.port.device.res = 0 := by decide

/-- PTR-1. -/
theorem test_ptr_write :
    let t := after (.ptrWrite .txHeadPub) (withWord .host 7 fresh)
    t.reg = ⟨0, 0, 7, 0⟩ ∧ t.seen = ⟨0, 0, 0, 0⟩ ∧ t.prodPos.tx = 0 := by decide

/-- PTR-6, PTR-7: refused. -/
theorem test_ptr_write_refused :
    refusalOf (exec (.ptrWrite .txHeadPub) (withWord .device 3 fresh)) = some .notIssuer ∧
    refusalOf (exec (.ptrWrite .txHeadPub) (withWord .host 16 fresh)) = some .badPointer := by decide

/-- PTR-2, PTR-3. -/
theorem test_ptr_read :
    let s := after (.ptrWrite .txHeadPub) (withWord .host 7 fresh)
    (after (.ptrRead .txHeadPub) (by' .host [] s)).port.host.rdata = 7 ∧
    (after (.ptrRead .txHeadPub) (by' .device [] s)).port.device.rdata = 0 := by decide

/-- LAT-1, LAT-6. -/
theorem test_raise :
    (after (.raiseInt .rxReady) (by' .device [] fresh)).intStatus = 0x1 ∧
    (after (.raiseInt .rxReady) (by' .device [] fresh)).irq = false ∧
    (after (.raiseInt .error) (by' .device [] (after (.raiseInt .txSpace) (by' .host [] fresh)))).intStatus = 0x6 := by
  decide

/-- LAT-4, LAT-11. -/
theorem test_ack :
    (after (.ack .error) (by' .host [] { fresh with intStatus := 0x5 })).intStatus = 0x1 ∧
    refusalOf (exec (.ack .rxReady) (by' .device [] fresh)) = some .notIssuer := by decide

/-- LAT-7. -/
theorem test_dispatch_error_report :
    let t := after .dispatch (by' .host [] { fresh with intStatus := 0x6 })
    t.intStatus = 0 ∧ t.events.host = [.errorReport] ∧ t.reg = ⟨0, 0, 0, 0⟩ ∧ t.port.host.res = 0 := by decide

/-- DSP-2, and DSP-1 without the SYNC. -/
theorem test_dispatch_drains :
    (let t := after .dispatch (by' .host [] (grx2.syncPtr .rxHead))
     t.events.host = [.sinkHost [0x11], .sinkHost [0x22]] ∧ t.consPos.rx = 6 ∧ t.reg.rxTailPub = 6 ∧
       t.intStatus = 0) ∧
    (let t := after .dispatch (by' .host [] grx2)
     t.events.host = [] ∧ t.reg.rxTailPub = 0 ∧ t.intStatus = 0) := by decide

/-- SND-1. -/
theorem test_send :
    let t := after (.send 1) (by' .host [0x7F] fresh)
    firstBytes t .tx = [1, 0, 0x7F, 0, 0, 0, 0, 0] ∧ t.prodPos.tx = 3 ∧ t.reg.txHeadPub = 3 ∧
      t.intStatus = 0 := by decide

/-- PTX-2: an 11-byte payload, TX_SPACE raised. -/
theorem test_process_tx_one :
    let bytes := [1, 2, 3, 4, 5, 6, 7, 8, 9, 10, 11]
    let t := after .processTx (by' .device [] ((after (.send 11) (by' .host bytes fresh)).syncPtr .txHeadPub))
    t.events.device = [.sinkDevice bytes] ∧ t.consPos.tx = 13 ∧ t.reg.txTail = 13 ∧ t.intStatus = 0x2 ∧
      t.port.device.res = 0 := by decide

/-- Two frames in mode `exhaust` (spec/43_agent_ops.md R162): one publication. -/
theorem test_process_tx_exhaust :
    let s := { fresh with cfg := { c16 with txDrainMode := .exhaust } }
    let s := after (.send 8) (by' .host (List.replicate 8 7) (after (.send 1) (by' .host [0x10] s)))
    let t := after .processTx (by' .device [] (s.syncPtr .txHeadPub))
    t.events.device = [.sinkDevice [0x10], .sinkDevice (List.replicate 8 7)] ∧ t.reg.txTail = 13 ∧
      t.intStatus = 0x2 := by decide

/-- GRX-2: the second frame reaches the watermark. -/
theorem test_generate_rx :
    grx2.intStatus = 0x1 ∧ grx2.reg.rxHead = 6 ∧ firstBytes grx2 .rx = [1, 0, 0x11, 1, 0, 0x22, 0, 0] := by decide

/-- GRX-6: never FrameTooLarge. -/
theorem test_generate_rx_too_large :
    (after (.generateRx 14) (by' .device (List.replicate 14 0) fresh)).port.device.res = 0x002 ∧
    (after (.generateRx 15) (by' .device (List.replicate 15 0) fresh)).port.device.res = 0x002 := by decide

/-- REG-7, and the owner and the reader of the three other pointers (R185). -/
theorem test_reg_rd_pointers :
    let s := { fresh with reg := ⟨1, 2, 3, 4⟩, seen := ⟨5, 6, 7, 8⟩ }
    (after .regRdTxTailPtr (by' .host [] s)).port.host.rdata = 5 ∧
    (after .regRdRxHeadPtr (by' .device [] s)).port.device.rdata = 2 ∧
    (after .regRdHostTxHeadPub (by' .host [] s)).port.host.rdata = 3 ∧
    (after .regRdHostTxHeadPub (by' .device [] s)).port.device.rdata = 7 ∧
    (after .regRdHostRxTailPub (by' .device [] s)).port.device.rdata = 8 := by decide

/-- PTR-8 through the register form (R184). -/
theorem test_reg_wr_pointers :
    (after .regWrTxTailPtr (withWord .device 5 fresh)).reg = ⟨5, 0, 0, 0⟩ ∧
    (after .regWrRxHeadPtr (withWord .device 6 fresh)).reg = ⟨0, 6, 0, 0⟩ ∧
    (after .regWrHostTxHeadPub (withWord .host 15 fresh)).reg = ⟨0, 0, 15, 0⟩ ∧
    (after .regWrHostRxTailPub (withWord .host 2 fresh)).reg = ⟨0, 0, 0, 2⟩ := by decide

/-- P3 step 3, REG-1, REG-3. -/
theorem test_reg_rd_latch :
    let s := { fresh with intStatus := 0x5, intEnable := 0x4 }
    (after .regRdIntStatus (by' .host [] s)).port.host.rdata = 0x5 ∧
    (after .regRdIntEnable (by' .device [] s)).port.device.rdata = 0x4 ∧
    (after .regRdIntClear (by' .host [] s)).port.host.rdata = 0 := by decide

/-- REG-2, REG-4, REG-3, REG-5, LAT-2. -/
theorem test_reg_wr_latch :
    (after .regWrIntStatus (withWord .device 0xFFFFFFFF fresh)).intStatus = 0x7 ∧
    (after .regWrIntStatus (withWord .host 0 { fresh with intStatus := 0x2 })).intStatus = 0x2 ∧
    (after .regWrIntClear (withWord .host 0x5 { fresh with intStatus := 0x7 })).intStatus = 0x2 ∧
    (after .regWrIntEnable (withWord .host 0xF fresh)).intEnable = 0x7 ∧
    (after .regWrIntEnable (withWord .host 0x1 { fresh with intStatus := 0x1 })).irq = true := by decide

/-- REG-6 and the host's missing right to TX_TAIL_PTR (R107). -/
theorem test_reg_wr_refused :
    refusalOf (exec .regWrIntEnable (withWord .device 1 fresh)) = some .notIssuer ∧
    refusalOf (exec .regWrTxTailPtr (withWord .host 1 fresh)) = some .notIssuer := by decide

/-- MEM-1, MEM-4. -/
theorem test_mem_rd :
    (after (.memRd .tx 2) (by' .device [] enq1)).port.device.rbyte = 0xAB ∧
    refusalOf (exec (.memRd .rx 16) (by' .host [] fresh)) = some .badIndex := by decide

/-- MEM-2, MEM-3. -/
theorem test_mem_wr :
    (after (.memWr .rx 0) (sideOf .device 1 0 0x5A [] fresh)).store = ⟨[], [(0, 0x5A)]⟩ ∧
    refusalOf (exec (.memWr .tx 0) (sideOf .device 1 0 0x5A [] fresh)) = some .notIssuer := by decide

/-- LAT-9: a bit raised while DISPATCH runs stays pending. -/
theorem test_raise_during_dispatch :
    let s := after .dispatch (sideOf .host 1 0 0 [] { fresh with intStatus := 0x4 })
    let t := run 80 .host (after (.raiseInt .rxReady) (by' .device [] s))
    t.intStatus = 0x1 ∧ t.events.host = [.errorReport] ∧ t.port.host.busy = none := by decide

/-! ### Steps -/

/-- The word placed by `withFetchWord` runs as the first instruction after reset. -/
theorem test_first_instruction_after_reset :
    (nextOf (step (State.reset.withFetchWord 32 0x08000002))).intStatus = 0x4 ∧
    (nextOf (step (State.reset.withFetchWord 32 0x12000003))).prodPos.rx = 5 ∧
    (nextOf (step (State.reset.withFetchWord 40 0x200000FFF))).port.host.res = 0 := by decide

/-- A word that is no operation is refused by name. -/
theorem test_bad_word_is_refused :
    refusalOf (step (State.reset.withFetchWord 32 0x13000000)) = some (.badEncoding .reservedOp) := by decide

/-- HOST_TX_HEAD_PUB is about to be stored, then the device performs two atomic actions. -/
def storeThenTwo (l : Option Nat) : State :=
  (State.resetWith { c16 with syncLatency := l }).setInputs
    [.issue .host ⟨.cmd 0x04000008, 7, 0, []⟩ 1, .issue .device ⟨.cmd 0x08000000, 0, 0, []⟩ 1,
      .issue .device ⟨.cmd 0x08000001, 0, 0, []⟩ 1]

/-- SYNC_LATENCY 0 is "SYNC after every owner write" (92_eei_decisions.md D9); 2 lets two actions go by; unbounded,
nothing crosses by itself. -/
theorem test_sync_latency :
    (nextOf (step (storeThenTwo (some 0)))).seen.txHeadPub = 7 ∧
    (let s₁ := nextOf (step (storeThenTwo (some 2)))
     let s₂ := nextOf (step s₁)
     s₁.seen.txHeadPub = 0 ∧ s₂.seen.txHeadPub = 0 ∧ (nextOf (step s₂)).seen.txHeadPub = 7) ∧
    (nextOf (step (nextOf (step (nextOf (step (storeThenTwo none))))))).seen.txHeadPub = 0 := by decide

/-- With a bound a turn is one atomic action: of an ENQUEUE the pointer read alone; FrameTooLarge takes none. -/
theorem test_bounded_turn :
    let s := State.resetWith { c16 with syncLatency := some 5 }
    (nextOf (step (s.setInputs [.issue .host ⟨.cmd 0x01000001, 0, 0, [0x55]⟩ 9]))).port.host.busy =
      some (.frameWrite .tx .plain 1 0 0 [1, 0, 0x55]) ∧
    s.issueActions (.enqueue .tx 1) 9 = 1 ∧ s.issueActions (.enqueue .tx 15) 9 = 0 ∧
    s.issueActions .processTx 0 = 0 ∧ s.issueActions (.commit .tx) 0 = 1 := by decide

/-! ### Witnesses: the hypotheses of the obligations are met together -/

theorem witness_FreshRingsAreEmpty :
    c16.valid = true ∧ Config.valid {} = true ∧ Config.valid { capTx := 3, capRx := 3 } = true := by decide

/-- One state for each of the five clauses. -/
theorem witness_StepRunsTheDecodedInstruction :
    fresh.inputs = [] ∧
    (fresh.setInputs [.sync .rxHead]).inputs = .sync .rxHead :: [] ∧
    (fresh.setInputs [.resume .host 3]).inputs = .resume .host 3 :: [] ∧
    ((fresh.setInputs [.issue .host ⟨.cmd 0x0A000000, 0, 0, []⟩ 9]).inputs =
      .issue .host ⟨.cmd 0x0A000000, 0, 0, []⟩ 9 :: [] ∧ decode (.cmd 0x0A000000) = .ok .dispatch) ∧
    ((fresh.setInputs [.issue .host ⟨.rt 0x01C, 0, 0, []⟩ 9]).inputs =
      .issue .host ⟨.rt 0x01C, 0, 0, []⟩ 9 :: [] ∧ decode (.rt 0x01C) = .error .badRegisterOffset) := by decide

/-- One state for each of the three clauses. -/
theorem witness_UnboundedLatencyAddsNothing :
    fresh.cfg.syncLatency = none ∧
    (fresh.setInputs [.sync .rxHead]).inputs = .sync .rxHead :: [] ∧
    (fresh.setInputs [.resume .host 3]).inputs = .resume .host 3 :: [] ∧
    ((fresh.setInputs [.issue .host ⟨.cmd 0x0A000000, 0, 0, []⟩ 9]).inputs =
      .issue .host ⟨.cmd 0x0A000000, 0, 0, []⟩ 9 :: [] ∧ decode (.cmd 0x0A000000) = .ok .dispatch) := by decide

/-- A step that makes a copy stale, and one in which it stays stale. -/
theorem witness_LatencyBoundsTheWait :
    (let s := storeThenTwo (some 2)
     let t := nextOf (step s)
     s.cfg.syncLatency = some 2 ∧ s.inputs ≠ [] ∧ t.seen.get .txHeadPub ≠ t.reg.get .txHeadPub ∧
       s.seen.get .txHeadPub = s.reg.get .txHeadPub) ∧
    (let s := nextOf (step (storeThenTwo (some 2)))
     let t := nextOf (step s)
     s.cfg.syncLatency = some 2 ∧ s.inputs ≠ [] ∧ t.seen.get .txHeadPub ≠ t.reg.get .txHeadPub ∧
       s.seen.get .txHeadPub ≠ s.reg.get .txHeadPub) := by decide

theorem witness_LatencyBoundsTheWait_steps :
    step (storeThenTwo (some 2)) = .next (nextOf (step (storeThenTwo (some 2)))) ∧
    step (nextOf (step (storeThenTwo (some 2)))) =
      .next (nextOf (step (nextOf (step (storeThenTwo (some 2)))))) := ⟨rfl, rfl⟩

/-- A run in which a copy goes stale and stays stale for one more step. -/
def staleRun : Nat → State
  | 0 => storeThenTwo (some 2)
  | 1 => nextOf (step (storeThenTwo (some 2)))
  | _ + 2 => nextOf (step (nextOf (step (storeThenTwo (some 2)))))

theorem witness_StalePointerCrossesInTime :
    (staleRun 0).cfg.syncLatency = some 2 ∧ (∀ k, k ≤ 1 → step (staleRun k) = .next (staleRun (k + 1))) ∧
    (staleRun 0).seen.get .txHeadPub = (staleRun 0).reg.get .txHeadPub ∧
    (∀ k, k ≤ 1 → (staleRun (k + 1)).seen.get .txHeadPub ≠ (staleRun (k + 1)).reg.get .txHeadPub) ∧
    ((List.range 1).map fun k => (staleRun (k + 1)).stepActions).sum = 1 := by
  refine ⟨by decide, fun k hk => ?_, by decide, by decide, by decide⟩
  match k, hk with
  | 0, _ => rfl
  | 1, _ => rfl

theorem witness_ParametersNeverChange :
    step (storeThenTwo (some 2)) = .next (nextOf (step (storeThenTwo (some 2)))) := rfl

theorem witness_PlacedWordRunsNext :
    decodeTableWord 32 0x02010000 = some (.drain .rx) ∧ decodeTableWord 16 0x118 = some .regWrIntClear ∧
    decodeTableWord 40 0x200000005 = some (.memWr .tx 5) := by decide

/-- ENQUEUE cut after three of its actions. -/
theorem witness_TurnsComposeForEveryInstruction :
    exec (.enqueue .tx 5) { by' .host [1, 2, 3, 4, 5] fresh with quantum := 3 } =
      .next (after (.enqueue .tx 5) { by' .host [1, 2, 3, 4, 5] fresh with quantum := 3 }) ∧
    (after (.enqueue .tx 5) { by' .host [1, 2, 3, 4, 5] fresh with quantum := 3 }).port.host.busy ≠ none :=
  ⟨rfl, by decide⟩

theorem witness_DecodedWordIsTheEncodedOne :
    decode (.cmd 0x1200FFFF) = .ok (.generateRx 65535) ∧ decode (.rt 0x10C) = .ok .regWrHostRxTailPub ∧
    decode (.mt 0x0FFFFFFFF) = .ok (.memRd .tx 0xFFFFFFFF) := by decide

/-- Either side idle. -/
theorem witness_IssueRightsAreKept :
    ((by' .host [] fresh).port.get (by' .host [] fresh).side).busy = none ∧
    ((by' .device [] fresh).port.get (by' .device [] fresh).side).busy = none := by decide

/-- One request for each clause: a reserved `op`, `g` where there is none, `n` one above the last bit; a side without
the right; the offset after the last; the index `C`; the pointer value `C`. -/
theorem witness_RequestsOutsideTheInterfaceAreRefused :
    (0x13000000 / 2 ^ 24 ∉ [0x01, 0x02, 0x03, 0x04, 0x05, 0x08, 0x09, 0x0A, 0x10, 0x11, 0x12]) ∧
    (0x04010000 / 2 ^ 24 ∉ [0x01, 0x02, 0x03] ∧ 0x04010000 / 2 ^ 16 % 2 = 1) ∧
    (0x08000003 / 2 ^ 24 ∈ [0x08, 0x09] ∧ 2 < 0x08000003 % 2 ^ 16) ∧
    (decode (.cmd 0x09000000) = .ok (.ack .rxReady) ∧ mayIssue .device (.ack .rxReady) = false) ∧
    ((0x01C : BitVec 9).toNat % 2 ^ 8 ∉ [0x00, 0x04, 0x08, 0x0C, 0x10, 0x14, 0x18]) ∧
    (fresh.cap .rx ≤ (0x100000010 : BitVec 34).toNat % 2 ^ 32) ∧
    (decode (.cmd 0x04000008) = .ok (.ptrWrite .txHeadPub) ∧ fresh.cap (ptrRing .txHeadPub) ≤ (16 : Word).toNat) ∧
    (fresh.setInputs [.issue .host ⟨.cmd 0x13000000, 0, 0, []⟩ 1]).inputs =
      .issue .host ⟨.cmd 0x13000000, 0, 0, []⟩ 1 :: [] := by decide

/-- A host in the middle of an ENQUEUE. -/
def halfEnqueued : State := after (.enqueue .tx 5) (sideOf .host 3 0 0 [1, 2, 3, 4, 5] fresh)

theorem witness_BusyPortIsRefused : (halfEnqueued.port.get halfEnqueued.side).busy ≠ none := by decide

theorem witness_RaiseSetsItsBitOnly :
    ((by' .device [] fresh).port.get (by' .device [] fresh).side).busy = none := by decide

/-- An idle host, for ACK, and for the writes of INT_STATUS, INT_CLEAR and INT_ENABLE with every bit at 1. -/
theorem witness_AckClearsItsBitOnly :
    let s := withWord .host 0xFFFFFFFF { fresh with intStatus := 0x7 }
    (s.port.get s.side).busy = none ∧ s.side = .host := by decide

theorem witness_StatusWriteOrs :
    (let s := withWord .device 0xFFFFFFFF fresh
     (s.port.get s.side).busy = none) ∧
    (let s := withWord .device 4 fresh
     (s.port.get s.side).busy = none ∧ (s.port.get s.side).wdata = 1 <<< (bitIndex .error).toNat) := by decide

theorem witness_ClearWriteClears :
    (let s := withWord .host 0xFFFFFFFF { fresh with intStatus := 0x7 }
     (s.port.get s.side).busy = none ∧ s.side = .host) ∧
    (let s := withWord .host 1 { fresh with intStatus := 0x7 }
     (s.port.get s.side).busy = none ∧ s.side = .host ∧
       (s.port.get s.side).wdata = 1 <<< (bitIndex .rxReady).toNat) := by decide

theorem witness_EnableWriteStores :
    let s := withWord .host 0xFFFFFFFF { fresh with intStatus := 0x7 }
    (s.port.get s.side).busy = none ∧ s.side = .host := by decide

theorem witness_LatchReadsReturnTheBits :
    let s := by' .device [] { fresh with intStatus := 0xF, intEnable := 0x5 }
    (s.port.get s.side).busy = none := by decide

/-- With whole frames visible, and with none. -/
theorem witness_DispatchServesEverySetBit :
    let s := by' .host [] (grx2.syncPtr .rxHead)
    let s' := by' .host [] { grx2 with intStatus := 0x7 }
    ((s.port.get s.side).busy = none ∧ s.side = .host ∧ s.cfg.valid = true ∧ fullQuantum s.cfg ≤ s.quantum ∧
      s.intStatus.getLsbD 0 = true ∧ (framesTo s .rx (s.seen.get .rxHead)).1 = [[0x11], [0x22]]) ∧
    ((s'.port.get s'.side).busy = none ∧ s'.side = .host ∧ s'.cfg.valid = true ∧
      fullQuantum s'.cfg ≤ s'.quantum ∧ (framesTo s' .rx (s'.seen.get .rxHead)).1 = []) := by decide

/-- RX_READY raised after a snapshot of ERROR alone. -/
theorem witness_LaterRaiseOutlivesDispatch :
    let s := after (.raiseInt .rxReady)
      (by' .device [] (after .dispatch (sideOf .host 1 0 0 [] { fresh with intStatus := 0x4 })))
    (s.port.get .host).busy = some (.report [.error]) ∧ IntBit.rxReady ∉ [IntBit.error] ∧
      s.intStatus.getLsbD (bitIndex .rxReady).toNat = true := by decide

theorem witness_DispatchIgnoresTheMask :
    exec .dispatch (by' .host [] (grx2.syncPtr .rxHead)) =
      .next (after .dispatch (by' .host [] (grx2.syncPtr .rxHead))) := rfl

/-- A device that writes 0x3 to INT_STATUS while ERROR is set. -/
def writesStatus : State :=
  { fresh with intStatus := 0x4, inputs := [.issue .device ⟨.rt 0x110, 0x3, 0, []⟩ 1] }

theorem witness_OnlyExplicitRaiseSetsError :
    RolesKept writesStatus ∧ step writesStatus = .next (nextOf (step writesStatus)) ∧
      (∀ sd rq n rest i, writesStatus.inputs = .issue sd rq n :: rest → decode rq.txn = .ok i →
        i ≠ .raiseInt .error ∧ (i = .regWrIntStatus → rq.wdata.getLsbD 2 = false)) ∧
      (nextOf (step writesStatus)).intStatus.getLsbD 2 = true := by
  refine ⟨fun sd ph h => ?_, rfl, fun sd rq n rest i h hd => ?_, by decide⟩
  · cases sd <;> cases h
  · cases h
    have e : decode (.rt 0x110) = .ok .regWrIntStatus := by decide
    cases hd.symm.trans e
    exact ⟨by decide, fun _ => by decide⟩

/-- The value at the two sides of the boundary, `C - 1` and `C`. -/
theorem witness_PointerWriteStoresWhole :
    let s := withWord .device 15 fresh
    let s' := withWord .device 16 fresh
    ((s.port.get s.side).busy = none ∧ s.side = owner .txTail ∧
      (s.port.get s.side).wdata.toNat < s.cap (ptrRing .txTail)) ∧
    ((s'.port.get s'.side).busy = none ∧ s'.side = owner .txTail ∧
      s'.cap (ptrRing .txTail) ≤ (s'.port.get s'.side).wdata.toNat) := by decide

/-- The owner and the reader. -/
theorem witness_PointerReadBySide :
    let s := by' .device [] fresh
    (s.port.get s.side).busy = none ∧ s.side = owner .txTail ∧ s.side ≠ owner .txHeadPub := by decide

/-- A SYNC, and another step while a SYNC is not next; SYNC_LATENCY is unbounded. -/
theorem witness_OnlySyncMovesTheCopy :
    (enq1.setInputs [.sync .txHeadPub]).cfg.syncLatency = none ∧
    (enq1.setInputs [.resume .host 1]).cfg.syncLatency = none ∧
    (enq1.setInputs [.sync .txHeadPub]).inputs = .sync .txHeadPub :: [] ∧
    (step (enq1.setInputs [.resume .host 1]) = .next (nextOf (step (enq1.setInputs [.resume .host 1]))) ∧
      ∀ rest, (enq1.setInputs [.resume .host 1]).inputs ≠ .sync .txHeadPub :: rest) :=
  ⟨by decide, by decide, rfl, rfl, fun _ h => by cases h⟩

/-- HOST_TX_HEAD_PUB is about to be stored, then to cross. -/
def toStore : State := fresh.setInputs [.issue .host ⟨.cmd 0x04000008, 7, 0, []⟩ 1, .sync .txHeadPub]

/-- A run in which the pointer is stored, crosses, and nothing more happens. -/
def storedThenSeen : Nat → State
  | 0 => toStore
  | 1 => nextOf (step toStore)
  | _ + 2 => nextOf (step (nextOf (step toStore)))

theorem witness_ReaderNeverGoesBack :
    (∀ k, k < 2 → step (storedThenSeen k) = .next (storedThenSeen (k + 1))) ∧
    (storedThenSeen 0).seen.get .txHeadPub = (storedThenSeen 0).reg.get .txHeadPub ∧
    (storedThenSeen 2).seen.get .txHeadPub = 7 := by
  refine ⟨fun k hk => ?_, by decide, by decide⟩
  match k, hk with
  | 0, _ => rfl
  | 1, _ => rfl

theorem witness_PseudoOperationsAreTheSame :
    ((withWord .host 4 fresh).port.get (withWord .host 4 fresh).side).wdata = 1 <<< (bitIndex .error).toNat := by
  decide

/-- The index at the two sides of the boundary, `C - 1` and `C`. -/
theorem witness_MemReadReturnsTheByte :
    let s := by' .device [] enq1
    (s.port.get s.side).busy = none ∧ s.side = consumer .tx ∧ (15 : Word).toNat < s.cap .tx ∧
      s.cap .tx ≤ (16 : Word).toNat := by decide

theorem witness_MemWriteStoresTheByte :
    let s := sideOf .host 1 0 0x5A [] enq1
    (s.port.get s.side).busy = none ∧ s.side = producer .tx ∧ (s.store.get .tx).wf ∧
      (15 : Word).toNat < s.cap .tx ∧ s.cap .tx ≤ (16 : Word).toNat := by decide

theorem witness_DistIsTheRemainder : 0 < 16 ∧ dist 2 15 16 = 3 ∧ dist 15 15 16 = 0 ∧ dist 0 1 16 = 15 := by decide

/-- The hypotheses of EnqueueFollowsItsSteps for a payload of a given length. -/
def enqueueReady (g : Ring) (len : Half) (s : State) : Bool :=
  decide ((s.port.get s.side).busy = none) && decide (s.side = producer g) && s.cfg.valid &&
    decide ((s.store.get g).wf) && decide ((s.port.get s.side).pbuf.length = len.toNat) &&
    decide (len.toNat + 4 ≤ s.quantum)

/-- FrameTooLarge at `len + 2 = C + 1`, InsufficientSpace at `len + 2 = C` and at one byte more than is free,
Ok at exactly the free space, and on a wrapped start. -/
theorem witness_EnqueueFollowsItsSteps :
    (let s := by' .host (List.replicate 15 1) fresh
     enqueueReady .tx 15 s = true ∧ s.cap .tx < (15 : Half).toNat + 2) ∧
    (let s := by' .host (List.replicate 14 1) fresh
     enqueueReady .tx 14 s = true ∧ ¬ s.cap .tx < (14 : Half).toNat + 2 ∧
       s.cap .tx - 1 - dist (s.prodPos.get .tx) (s.seen.get (pubCons .tx)) (s.cap .tx) < (14 : Half).toNat + 2) ∧
    (let s := by' .host (List.replicate 7 1) enq1
     enqueueReady .tx 7 s = true ∧
       s.cap .tx - 1 - dist (s.prodPos.get .tx) (s.seen.get (pubCons .tx)) (s.cap .tx) + 1 = (7 : Half).toNat + 2) ∧
    (let s := by' .host (List.replicate 6 1) enq1
     enqueueReady .tx 6 s = true ∧
       s.cap .tx - 1 - dist (s.prodPos.get .tx) (s.seen.get (pubCons .tx)) (s.cap .tx) = (6 : Half).toNat + 2) ∧
    (let s := by' .host [1, 2, 3] (startAt 15)
     enqueueReady .tx 3 s = true ∧
       ¬ s.cap .tx - 1 - dist (s.prodPos.get .tx) (s.seen.get (pubCons .tx)) (s.cap .tx) < (3 : Half).toNat + 2) := by
  decide

/-- One action short of the publication. -/
theorem witness_FrameStaysHiddenUntilPublished :
    let s := sideOf .host 8 0 0 [1, 2, 3, 4, 5] fresh
    (s.port.get s.side).busy = none ∧ s.side = producer .tx ∧ s.cfg.valid = true ∧
      (s.port.get s.side).pbuf.length = (5 : Half).toNat ∧ s.quantum < (5 : Half).toNat + 4 ∧
      (5 : Half).toNat + 2 ≤ freeSpace (s.prodPos.get .tx) (s.seen.get (pubCons .tx)) (s.cap .tx) := by decide

/-- ENQUEUE of `C - 2` bytes, and GENERATE_RX of `C - 2` bytes. -/
theorem witness_FullStoreFrameNeverFits :
    let s := sideOf .device 1 0 0 (List.replicate 14 1) fresh
    (s.port.get s.side).busy = none ∧ s.side = producer .rx ∧ s.cfg.valid = true ∧
      (s.port.get s.side).pbuf.length = (14 : Half).toNat ∧ 1 ≤ s.quantum ∧
      (14 : Half).toNat + 2 = s.cap .rx ∧ s.cap .rx ≤ (14 : Half).toNat + 2 := by decide

/-- The host with a payload of `C - 3` bytes, after reset. -/
def largestPayload : State := by' .host (List.replicate 13 1) fresh

/-- The clause about a safe state, with the largest payload. -/
theorem witness_FullStoreFrameNeverFits_safe :
    (largestPayload.port.get largestPayload.side).busy = none ∧ largestPayload.side = producer .tx ∧
      largestPayload.cfg.valid = true ∧
      (largestPayload.port.get largestPayload.side).pbuf.length = (13 : Half).toNat ∧
      1 ≤ largestPayload.quantum ∧ Safe largestPayload ∧
      exec (.enqueue .tx 13) largestPayload = .next (after (.enqueue .tx 13) largestPayload) ∧
      Answered largestPayload (after (.enqueue .tx 13) largestPayload) .ok ∧
      (13 : Half).toNat + 3 = largestPayload.cap .tx := by
  have idle : ∀ sd, (largestPayload.port.get sd).busy = none := by intro sd; cases sd <;> decide
  refine ⟨by decide, by decide, by decide, by decide, by decide, ⟨⟨by decide, ?_, ?_, ?_, ?_, by decide, by decide,
    ?_, ?_⟩, ?_, ?_, ?_, fun g => ⟨?_, ?_, ?_, ?_, ?_, ?_, ?_, ?_⟩⟩, rfl, ⟨by decide, by decide⟩, by decide⟩
  · intro g; cases g <;> decide
  · intro g; cases g <;> decide
  · intro p; cases p <;> decide
  · intro p; cases p <;> decide
  · intro g; cases g <;> decide
  · intro g; cases g <;> decide
  · intro sd ph h; cases (idle sd).symm.trans h
  · intro sd g job len h; cases (idle sd).symm.trans h
  · intro g; cases g <;> decide
  · cases g <;> decide
  · cases g <;> decide
  · cases g <;> decide
  · cases g <;> decide
  · cases g <;> decide
  · cases g <;> decide
  · cases g <;> decide
  · intro cp size pos left h
    have e : writingFrame g (largestPayload.port.get (producer g)).busy = none := by rw [idle]; rfl
    cases e.symm.trans h

/-- 8 bytes are free: 6 of payload fit exactly, 7 are one too many. -/
theorem witness_ExactFitSucceedsOneByteMoreFails :
    (let s := by' .host (List.replicate 6 1) enq1
     enqueueReady .tx 6 s = true ∧
       (6 : Half).toNat + 2 = freeSpace (s.prodPos.get .tx) (s.seen.get (pubCons .tx)) (s.cap .tx)) ∧
    (let s := by' .host (List.replicate 7 1) enq1
     enqueueReady .tx 7 s = true ∧
       (7 : Half).toNat + 2 = freeSpace (s.prodPos.get .tx) (s.seen.get (pubCons .tx)) (s.cap .tx) + 1 ∧
       (after (.enqueue .tx 7) s).port.host.busy = none) := by decide

theorem witness_EnqueueIgnoresTheConsumerSide :
    exec (.enqueue .tx 5) (by' .host [1, 2, 3, 4, 5] fresh) =
      .next (after (.enqueue .tx 5) (by' .host [1, 2, 3, 4, 5] fresh)) := rfl

/-- The hypotheses of DrainFollowsItsSteps. -/
def drainReady (g : Ring) (s : State) : Bool :=
  decide ((s.port.get s.side).busy = none) && decide (s.side = consumer g) && s.cfg.valid && decide (3 ≤ s.quantum)

/-- One visible byte; a header whose frame is one byte longer than what is visible; a frame exactly as long. -/
theorem witness_DrainFollowsItsSteps :
    (let s := by' .device [] { enq1 with seen := ⟨0, 0, 1, 0⟩ }
     drainReady .tx s = true ∧ availTo s .tx (s.seen.get (pubProd .tx)) = 1) ∧
    (let s := by' .device [] { enq1 with seen := ⟨0, 0, 6, 0⟩ }
     drainReady .tx s = true ∧ availTo s .tx (s.seen.get (pubProd .tx)) + 1 = (lengthAt s .tx 0).toNat + 2) ∧
    (let s := by' .device [] enq1Seen
     drainReady .tx s = true ∧ availTo s .tx (s.seen.get (pubProd .tx)) = (lengthAt s .tx 0).toNat + 2) := by decide

theorem witness_CommitPublishesThePosition :
    let s := by' .host [] fresh
    (s.port.get s.side).busy = none ∧ s.side = consumer .rx := by decide

/-- InsufficientSpace by one byte (GRX-4), and Ok at the watermark exactly (GRX-5). -/
theorem witness_GenerateRxFollowsItsSteps :
    (let s := by' .device (List.replicate 8 0) grx2
     enqueueReady .rx 8 s = true ∧ s.side = .device ∧ (8 : Half).toNat + 5 ≤ s.quantum ∧
       s.cap .rx - 1 - dist (s.prodPos.get .rx) (s.seen.get .rxTailPub) (s.cap .rx) + 1 = (8 : Half).toNat + 2) ∧
    (let s := by' .device [0x01, 0x02] fresh
     enqueueReady .rx 2 s = true ∧ s.side = .device ∧ (2 : Half).toNat + 5 ≤ s.quantum ∧
       dist (s.prodPos.get .rx) (s.seen.get .rxTailPub) (s.cap .rx) + (2 : Half).toNat + 2 =
         s.cfg.rxHighWatermark) := by decide

/-- The hypotheses of the PROCESS_TX statements for one drain mode. -/
def processReady (m : DrainMode) (s : State) : Bool :=
  decide ((s.port.get s.side).busy = none) && decide (s.side = .device) && s.cfg.valid &&
    decide (s.cfg.txDrainMode = m) && decide (fullQuantum s.cfg ≤ s.quantum)

/-- Nothing visible; part of a frame; a whole frame. -/
theorem witness_ProcessTxDrainsOneFrame :
    (let s := by' .device [] enq1
     processReady .one s = true ∧ availTo s .tx (s.seen.get .txHeadPub) = 0) ∧
    (let s := by' .device [] { enq1 with seen := ⟨0, 0, 6, 0⟩ }
     processReady .one s = true ∧ availTo s .tx (s.seen.get .txHeadPub) = 6) ∧
    (let s := by' .device [] enq1Seen
     processReady .one s = true ∧
       availTo s .tx (s.seen.get .txHeadPub) = (lengthAt s .tx (s.consPos.get .tx).toNat).toNat + 2) := by decide

/-- No frame visible, and one. -/
theorem witness_ProcessTxDrainsToExhaustion :
    (let s := by' .device [] { enq1 with cfg := { c16 with txDrainMode := .exhaust } }
     processReady .exhaust s = true ∧ (framesTo s .tx (s.seen.get .txHeadPub)).1 = []) ∧
    (let s := by' .device [] { enq1Seen with cfg := { c16 with txDrainMode := .exhaust } }
     processReady .exhaust s = true ∧ (framesTo s .tx (s.seen.get .txHeadPub)).1 ≠ []) := by decide

theorem witness_PayloadOfAnotherLengthIsRefused :
    let s := by' .host [1, 2] fresh
    ((s.port.get s.side).busy = none ∧ mayIssue s.side (.send 3) = true) ∧
      (Instr.send 3).payloadFits (s.port.get s.side).pbuf = false := by decide

theorem witness_NoSideWritesWhatTheOtherOwns :
    exec .processTx (by' .device [] enq1Seen) = .next (after .processTx (by' .device [] enq1Seen)) := rfl

/-- The step clause with a side that goes on and with one that issues. -/
theorem witness_NoSideWritesWhatTheOtherOwns_step :
    (Input.resume .device 4).actor = some .device ∧
    (let s := (after .processTx (sideOf .device 5 0 0 [] enq1Seen)).setInputs [.resume .device 4]
     (∀ ph, (s.port.get .host).busy ≠ some ph) ∧
       (∀ ph, (s.port.get .device).busy = some ph → phaseOfSide .device ph = true) ∧
       s.inputs = .resume .device 4 :: [] ∧ step s = .next (nextOf (step s))) ∧
    (Input.issue .host ⟨.cmd 0x08000001, 0, 0, []⟩ 1).actor = some .host ∧
    (let s := enq1Seen.setInputs [.issue .host ⟨.cmd 0x08000001, 0, 0, []⟩ 1]
     RolesKept s ∧ s.inputs = .issue .host ⟨.cmd 0x08000001, 0, 0, []⟩ 1 :: [] ∧
       step s = .next (nextOf (step s))) := by
  refine ⟨rfl, ⟨fun ph h => ?_, fun ph h => ?_, rfl, rfl⟩, rfl, fun sd ph h => ?_, rfl, rfl⟩
  · cases h
  · cases h
    decide
  · cases sd <;> cases h

/-! ### A state in which an operation of each side is under way -/

/-- The device has drained a frame and copies it out while the host writes the next one. -/
def bothBusy : State :=
  after (.enqueue .tx 2)
    (sideOf .host 3 0 0 [0x31, 0x32] (after .processTx (sideOf .device 5 0 0 [] enq1Seen)))

theorem test_bothBusy_device :
    (bothBusy.port.get .device).busy = some (.copyOut (.process 0 0) 7 4 3 [0xAB, 0xCD]) := by decide

theorem test_bothBusy_host :
    (bothBusy.port.get .host).busy = some (.frameWrite .tx .plain 2 0 9 [0x31, 0x32]) := by decide

/-- The same with the host about to go on to its publication. -/
def hostGoesOn : State := bothBusy.setInputs [.resume .host 20]

/-- The same with the device about to deliver what it copies. -/
def deviceGoesOn : State := bothBusy.setInputs [.resume .device 20]

theorem bothBusy_busy (sd : Side) (ph : Phase) (h : (bothBusy.port.get sd).busy = some ph) :
    ph = .copyOut (.process 0 0) 7 4 3 [0xAB, 0xCD] ∧ sd = .device ∨
      ph = .frameWrite .tx .plain 2 0 9 [0x31, 0x32] ∧ sd = .host := by
  cases sd
  · exact .inr ⟨Option.some.inj (h.symm.trans test_bothBusy_host), rfl⟩
  · exact .inl ⟨Option.some.inj (h.symm.trans test_bothBusy_device), rfl⟩

theorem bothBusy_ranged : Ranged bothBusy where
  cfg := by decide
  prod := by intro g; cases g <;> decide
  cons := by intro g; cases g <;> decide
  reg := by intro p; cases p <;> decide
  seen := by intro p; cases p <;> decide
  status := by decide
  enable := by decide
  canonical := by intro g; cases g <;> decide
  inStore := by intro g; cases g <;> decide

theorem witness_EveryStepKeepsRanges :
    Ranged hostGoesOn ∧ step hostGoesOn = .next (nextOf (step hostGoesOn)) := ⟨ranged_setInputs _ bothBusy_ranged, rfl⟩

theorem witness_EveryStepKeepsRoles :
    RolesKept writesStatus ∧ step writesStatus = .next (nextOf (step writesStatus)) :=
  ⟨witness_OnlyExplicitRaiseSetsError.1, rfl⟩

theorem witness_ResetIsRanged : Config.valid { capTx := 3, capRx := 4096 } = true := by decide

theorem bothBusy_onCourse (g : Ring) : FrameOnCourse bothBusy g := by
  intro cp size pos left h
  cases g
  · have e : writingFrame .tx (bothBusy.port.get (producer .tx)).busy = some (0, 4, 9, 2) := by decide
    cases h.symm.trans e
    decide
  · have e : writingFrame .rx (bothBusy.port.get (producer .rx)).busy = none := by decide
    cases h.symm.trans e

theorem bothBusy_ordered (g : Ring) : RingOrdered bothBusy g where
  seenCons_regCons := by cases g <;> decide
  regCons_cons := by cases g <;> decide
  cons_seenProd := by cases g <;> decide
  seenProd_copy := by cases g <;> decide
  copy_prod := by cases g <;> decide
  published := by cases g <;> decide
  slotFree := by cases g <;> decide
  onCourse := bothBusy_onCourse g

theorem bothBusy_roles : RolesKept bothBusy := by
  intro sd ph h
  obtain ⟨rfl, rfl⟩ | ⟨rfl, rfl⟩ := bothBusy_busy sd ph h <;> decide

theorem bothBusy_payloads : PayloadsHeld bothBusy := by
  intro sd g job len h
  obtain ⟨e, _⟩ | ⟨e, _⟩ := bothBusy_busy sd _ h <;> cases e

theorem bothBusy_snapshots : SnapshotsInRange bothBusy := by intro g; cases g <;> decide

theorem bothBusy_safe : Safe bothBusy :=
  ⟨bothBusy_ranged, bothBusy_roles, bothBusy_payloads, bothBusy_snapshots, bothBusy_ordered⟩

theorem bothBusy_whole (g : Ring) : StreamWhole bothBusy g := by
  unfold StreamWhole
  cases g <;> decide

theorem bothBusy_writing (g : Ring) (job : EnqJob) (len : Half) (cp : Word) (pos : Nat) (rest : List Byte)
    (h : (bothBusy.port.get (producer g)).busy = some (.frameWrite g job len cp pos rest)) :
    (bothBusy.port.get (producer g)).pbuf.length = len.toNat ∧
      ((List.range (frameSize len - rest.length)).map fun i =>
        bothBusy.byteAt g ((bothBusy.prodPos.get g).toNat + i)) ++ rest =
        frameBytes len (bothBusy.port.get (producer g)).pbuf := by
  obtain ⟨e, _⟩ | ⟨e, _⟩ := bothBusy_busy _ _ h <;> cases e
  decide

theorem bothBusy_copying (g : Ring) (job : DrainJob) (pp : Word) (pos left : Nat) (acc : List Byte)
    (h : (bothBusy.port.get (consumer g)).busy = some (.copyOut job pp pos left acc)) (hg : drainRing job = g) :
    left ≤ dist (bothBusy.consPos.get g) (bothBusy.reg.get (pubCons g)) (bothBusy.cap g) ∧
      pos = ((bothBusy.consPos.get g).toNat + (bothBusy.cap g - left)) % bothBusy.cap g := by
  obtain ⟨e, _⟩ | ⟨e, _⟩ := bothBusy_busy _ _ h <;> cases e
  subst hg
  decide

theorem bothBusy_faithful (g : Ring) : StreamFaithful bothBusy g where
  whole := bothBusy_whole g
  writing := bothBusy_writing g
  header job pp h := by obtain ⟨e, _⟩ | ⟨e, _⟩ := bothBusy_busy _ _ h <;> cases e
  reading job pp b0 h := by obtain ⟨e, _⟩ | ⟨e, _⟩ := bothBusy_busy _ _ h <;> cases e
  copying := bothBusy_copying g

theorem resume_keepsProtocol (s : State) (sd : Side) (n : Nat) : NextKeepsProtocol (s.setInputs [.resume sd n]) := by
  intro sd' rq n' rest i h
  cases h

/-- Both: a step that publishes a frame, and a step of the other side. -/
theorem witness_ProtocolStepsKeepSafe :
    (Safe hostGoesOn ∧ NextKeepsProtocol hostGoesOn ∧ step hostGoesOn = .next (nextOf (step hostGoesOn))) ∧
    (Safe deviceGoesOn ∧ NextKeepsProtocol deviceGoesOn ∧
      step deviceGoesOn = .next (nextOf (step deviceGoesOn))) :=
  ⟨⟨safe_setInputs _ bothBusy_safe, resume_keepsProtocol _ _ _, rfl⟩, ⟨safe_setInputs _ bothBusy_safe, resume_keepsProtocol _ _ _, rfl⟩⟩

theorem witness_ResetIsSafe : Config.valid { capTx := 3, capRx := 4096 } = true := by decide

/-- There is a live byte to keep. -/
theorem witness_LiveBytesAreNeverOverwritten :
    (Safe hostGoesOn ∧ NextKeepsProtocol hostGoesOn ∧ step hostGoesOn = .next (nextOf (step hostGoesOn))) ∧
      6 < dist (hostGoesOn.prodPos.get .tx) (hostGoesOn.reg.get (pubCons .tx)) (hostGoesOn.cap .tx) :=
  ⟨witness_ProtocolStepsKeepSafe.1, by decide⟩

theorem witness_StalePointerUnderstatesSpace : Safe bothBusy := bothBusy_safe

theorem witness_DrainLoopsAreBounded :
    Safe deviceGoesOn ∧ BatchesBounded deviceGoesOn ∧ NextKeepsProtocol deviceGoesOn ∧
      step deviceGoesOn = .next (nextOf (step deviceGoesOn)) ∧
      batchCount .tx (deviceGoesOn.port.get (consumer .tx)).busy = 1 :=
  ⟨safe_setInputs _ bothBusy_safe, by intro g; cases g <;> decide, resume_keepsProtocol _ _ _, rfl, by decide⟩

theorem witness_ProtocolStepsKeepStreamsWhole :
    Safe hostGoesOn ∧ (∀ g, StreamFaithful hostGoesOn g) ∧ NextKeepsProtocol hostGoesOn ∧
      step hostGoesOn = .next (nextOf (step hostGoesOn)) :=
  ⟨safe_setInputs _ bothBusy_safe, fun g => streamFaithful_setInputs _ (bothBusy_faithful g), resume_keepsProtocol _ _ _, rfl⟩

/-- The device has begun a DRAIN and read the low length byte. -/
def midDrain : State := after (.drain .tx) (sideOf .device 2 0 0 [] enq1Seen)

/-- The same with the device about to go on to its result. -/
def drainGoesOn : State := midDrain.setInputs [.resume .device 1]

theorem midDrain_busy (sd : Side) (ph : Phase) (h : (midDrain.port.get sd).busy = some ph) :
    ph = .headerHigh (.plain .tx) 7 5 ∧ sd = .device := by
  have e : (midDrain.port.get .device).busy = some (.headerHigh (.plain .tx) 7 5) := by decide
  have e' : (midDrain.port.get .host).busy = none := by decide
  cases sd
  · cases e'.symm.trans h
  · exact ⟨(Option.some.inj (e.symm.trans h)).symm, rfl⟩

theorem midDrain_safe : Safe midDrain where
  ranged :=
    { cfg := by decide
      prod := by intro g; cases g <;> decide
      cons := by intro g; cases g <;> decide
      reg := by intro p; cases p <;> decide
      seen := by intro p; cases p <;> decide
      status := by decide
      enable := by decide
      canonical := by intro g; cases g <;> decide
      inStore := by intro g; cases g <;> decide }
  roles := by
    intro sd ph h
    obtain ⟨rfl, rfl⟩ := midDrain_busy sd ph h
    decide
  payloads := by intro sd g job len h; cases (midDrain_busy sd _ h).1
  snapshots := by intro g; cases g <;> decide
  ordered g :=
    { seenCons_regCons := by cases g <;> decide
      regCons_cons := by cases g <;> decide
      cons_seenProd := by cases g <;> decide
      seenProd_copy := by cases g <;> decide
      copy_prod := by cases g <;> decide
      published := by cases g <;> decide
      slotFree := by cases g <;> decide
      onCourse := by
        intro cp size pos left h
        have e : writingFrame g (midDrain.port.get (producer g)).busy = none := by cases g <;> decide
        cases h.symm.trans e }

theorem midDrain_faithful (g : Ring) : StreamFaithful midDrain g where
  whole := by
    unfold StreamWhole
    cases g <;> decide
  writing job len cp pos rest h := by cases (midDrain_busy _ _ h).1
  header job pp h := by cases (midDrain_busy _ _ h).1
  reading job pp b0 h hg := by
    cases (midDrain_busy _ _ h).1
    subst hg
    decide
  copying job pp pos left acc h := by cases (midDrain_busy _ _ h).1

/-- A step in which DRAIN hands a payload over; and, DRAIN having no part in them, a step in which the producer
position moves and one in which a payload is delivered. -/
theorem witness_FramesArriveInOrderUnchanged :
    (Safe drainGoesOn ∧ (∀ g, StreamFaithful drainGoesOn g) ∧ NextKeepsProtocol drainGoesOn ∧
      step drainGoesOn = .next (nextOf (step drainGoesOn)) ∧
      DrainHandsOver drainGoesOn (nextOf (step drainGoesOn)) .tx ∧
      queued drainGoesOn .tx = [[0xAB, 0xCD, 0xEF, 0x01, 0x02]]) ∧
    (Safe hostGoesOn ∧ (∀ g, StreamFaithful hostGoesOn g) ∧ NextKeepsProtocol hostGoesOn ∧
      step hostGoesOn = .next (nextOf (step hostGoesOn)) ∧
      ¬ DrainHandsOver hostGoesOn (nextOf (step hostGoesOn)) .tx ∧
      (nextOf (step hostGoesOn)).prodPos.get .tx ≠ hostGoesOn.prodPos.get .tx) ∧
    (Safe deviceGoesOn ∧ (∀ g, StreamFaithful deviceGoesOn g) ∧ NextKeepsProtocol deviceGoesOn ∧
      step deviceGoesOn = .next (nextOf (step deviceGoesOn)) ∧
      ¬ DrainHandsOver deviceGoesOn (nextOf (step deviceGoesOn)) .tx ∧
      delivered (nextOf (step deviceGoesOn)) .tx = [[0xAB, 0xCD, 0xEF, 0x01, 0x02]]) := by
  refine ⟨⟨safe_setInputs _ midDrain_safe, fun g => streamFaithful_setInputs _ (midDrain_faithful g),
      resume_keepsProtocol _ _ _, rfl, ⟨.inr ⟨1, [], .headerHigh (.plain .tx) 7 5, rfl, by decide, by decide⟩,
        by decide, by decide⟩, by decide⟩,
    ⟨safe_setInputs _ bothBusy_safe, fun g => streamFaithful_setInputs _ (bothBusy_faithful g),
      resume_keepsProtocol _ _ _, rfl, ?_, by decide⟩,
    ⟨safe_setInputs _ bothBusy_safe, fun g => streamFaithful_setInputs _ (bothBusy_faithful g),
      resume_keepsProtocol _ _ _, rfl, ?_, by decide⟩⟩
  · rintro ⟨⟨_, _, _, h, _⟩ | ⟨_, _, _, h, _⟩, _⟩ <;> cases h
  · rintro ⟨⟨_, _, _, h, _⟩ | ⟨_, _, ph, _, h, hp⟩, _⟩
    · cases h
    · obtain ⟨rfl, _⟩ | ⟨rfl, _⟩ := bothBusy_busy _ _ h <;> cases hp

/-- The largest frame of the store from the last position on. -/
theorem witness_EnqueueSyncDrainRoundTrip :
    let rq : Request := ⟨.cmd 0x0100000D, 0, 0, List.replicate 13 0x5A⟩
    let rq' : Request := ⟨.cmd 0x02000000, 0, 0, []⟩
    let s := (startAt 15).setInputs [.issue .host rq 17, .sync .txHeadPub, .issue .device rq' 3]
    Ranged s ∧ s.cfg.syncLatency = none ∧ (∀ sd, (s.port.get sd).busy = none) ∧ s.prodPos.get .tx = 15 ∧ s.consPos.get .tx = 15 ∧
      s.seen.get (pubCons .tx) = 15 ∧ (13 : Half).toNat + 2 ≤ s.cap .tx - 1 ∧ rq.pbuf.length = (13 : Half).toNat ∧
      (13 : Half).toNat + 4 ≤ 17 ∧ 3 ≤ 3 ∧ decode rq.txn = .ok (.enqueue .tx 13) ∧ decode rq'.txn = .ok (.drain .tx) ∧
      s.inputs = [.issue (producer .tx) rq 17, .sync (pubProd .tx), .issue (consumer .tx) rq' 3] := by
  refine ⟨⟨by decide, ?_, ?_, ?_, ?_, by decide, by decide, ?_, ?_⟩, by decide, ?_, by decide⟩
  · intro g; cases g <;> decide
  · intro g; cases g <;> decide
  · intro p; cases p <;> decide
  · intro p; cases p <;> decide
  · intro g; cases g <;> decide
  · intro g; cases g <;> decide
  · intro sd; cases sd <;> decide

/-- Under a bound: a SYNC; an empty turn, a side with nothing in progress and a side that goes on; and of issues a frame
too large, an empty turn, a first action and an operation of one action. -/
theorem witness_CountedActionsArePerformed :
    let s := { halfEnqueued with cfg := { c16 with syncLatency := some 2 } }
    let issue (w : BitVec 32) (pbuf : List Byte) (n : Nat) := s.setInputs [.issue .device ⟨.cmd w, 0, 0, pbuf⟩ n]
    s.cfg.syncLatency = some 2 ∧
    (s.setInputs [.sync .txHeadPub]).stepActions = 1 ∧
    (s.setInputs [.resume .host 0]).stepActions = 0 ∧
    ((s.port.get .device).busy = none ∧ (s.setInputs [.resume .device 3]).stepActions = 0) ∧
    ((s.port.get .host).busy = some (.frameWrite .tx .plain 5 0 2 [1, 2, 3, 4, 5]) ∧
      (s.setInputs [.resume .host 3]).stepActions = 1) ∧
    (frameTooLargeFor s (.enqueue .rx 15) = true ∧ firstAction s (.enqueue .rx 15) = some (.frameRead .rx .plain 15) ∧
      decode (.cmd 0x0101000F) = .ok (.enqueue .rx 15) ∧
      refusalOf (step (issue 0x0101000F (List.replicate 15 0) 1)) = none ∧
      (issue 0x0101000F (List.replicate 15 0) 1).stepActions = 0) ∧
    (frameTooLargeFor s (.enqueue .rx 14) = false ∧ decode (.cmd 0x0101000E) = .ok (.enqueue .rx 14) ∧
      refusalOf (step (issue 0x0101000E (List.replicate 14 0) 0)) = none ∧
      (issue 0x0101000E (List.replicate 14 0) 0).stepActions = 0 ∧
      (issue 0x0101000E (List.replicate 14 0) 3).stepActions = 1) ∧
    (firstAction s (.commit .tx) = none ∧ decode (.cmd 0x03000000) = .ok (.commit .tx) ∧
      refusalOf (step (issue 0x03000000 [] 0)) = none ∧ (issue 0x03000000 [] 0).stepActions = 1) := by decide

end Sys2Proof.Tests
end

section
/-! Scope (spec/00_scope.md): the parameters are fixed, `dist` is the remainder of R10, and what SYNC_LATENCY does to
a step (R7, 92_eei_decisions.md D9), unbounded and with a bound. -/

namespace Sys2Proof.Machine

/-! ### What issuing an operation leaves alone -/

theorem perform_frame {ph : Phase} {s t : State} (h : perform ph s = .next t) : ActionFrame s.side s t := by
  cases h
  exact (goOn_frame ..).trans (run_frame ..)

theorem complete_frame {s t : State} (h : complete s = .next t) : ActionFrame s.side s t := by
  cases h
  exact finish_frame ..

theorem enqueueFrame_frame {g : Ring} {len : Half} {s t : State} (h : enqueueFrame g len s = .next t) :
    ActionFrame s.side s t := by
  rcases enqueueFrame_cases g len s with ⟨_, e⟩ | ⟨_, _, e⟩ | ⟨_, _, e⟩ <;> rw [e] at h
  · cases h
  · cases h
    exact finish_frame ..
  · exact perform_frame h

theorem writePointer_frame {p : Ptr} {s t : State} (h : writePointer p s = .next t) : ActionFrame s.side s t := by
  rcases writePointer_cases p s with ⟨_, e⟩ | ⟨_, e⟩ <;> rw [e] at h <;> cases h
  exact (setReg_frame ..).trans (finish_frame ..)

theorem setRdata_frame (s : State) (sd : Side) (v : Word) : ActionFrame sd s (s.setRdata sd v) := by
  constructor <;> simp

theorem setRbyte_frame (s : State) (sd : Side) (b : Byte) : ActionFrame sd s (s.setRbyte sd b) := by
  constructor <;> simp

theorem setIntStatus_frame (s : State) (sd : Side) (v : Word) : ActionFrame sd s (s.setIntStatus v) := by
  constructor <;> simp

theorem readLatch_frame {v : Word} {s t : State} (h : readLatch v s = .next t) : ActionFrame s.side s t :=
  (setRdata_frame s s.side v).trans (complete_frame h)

theorem readPointer_frame {p : Ptr} {s t : State} (h : readPointer p s = .next t) : ActionFrame s.side s t :=
  (setRdata_frame s s.side _).trans (complete_frame h)

/-- The frame with INT_ENABLE left out of it. -/
theorem ActionFrame.but_intEnable {sd : Side} {s t : State} (h : ActionFrame sd s t) :
    ActionFrame sd (s.setIntEnable t.intEnable) t := by
  rw [h.intEnable]
  exact h

/-- An instruction that answers a next state keeps, from the state its issue leaves on, the frame of an action of the
issuing side, INT_ENABLE aside, which REG_WR.INT_ENABLE alone stores. -/
theorem exec_frame {i : Instr} {s t : State} (h : exec i s = .next t) :
    ActionFrame s.side (s.dropResults.setIntEnable t.intEnable) t := by
  unfold exec at h
  cases i with
  | enqueue | send =>
    obtain ⟨_, _, h⟩ := accept_next _ _ _ _ h
    exact (enqueueFrame_frame h).but_intEnable
  | drain | dispatch | processTx =>
    obtain ⟨_, _, h⟩ := accept_next _ _ _ _ h
    exact (perform_frame h).but_intEnable
  | generateRx len =>
    obtain ⟨_, _, h⟩ := accept_next _ _ _ _ h
    split at h
    · cases h
    · exact (perform_frame h).but_intEnable
  | commit =>
    obtain ⟨_, _, h⟩ := accept_next _ _ _ _ h
    exact ((setReg_frame ..).trans (complete_frame h)).but_intEnable
  | ptrWrite | regWrTxTailPtr | regWrRxHeadPtr | regWrHostTxHeadPub | regWrHostRxTailPub =>
    obtain ⟨_, _, h⟩ := accept_next _ _ _ _ h
    exact (writePointer_frame h).but_intEnable
  | ptrRead | regRdTxTailPtr | regRdRxHeadPtr | regRdHostTxHeadPub | regRdHostRxTailPub =>
    obtain ⟨_, _, h⟩ := accept_next _ _ _ _ h
    exact (readPointer_frame h).but_intEnable
  | regRdIntStatus | regRdIntEnable | regRdIntClear =>
    obtain ⟨_, _, h⟩ := accept_next _ _ _ _ h
    exact (readLatch_frame h).but_intEnable
  | raiseInt | ack | regWrIntStatus | regWrIntClear =>
    obtain ⟨_, _, h⟩ := accept_next _ _ _ _ h
    exact ((setIntStatus_frame ..).trans (complete_frame h)).but_intEnable
  | regWrIntEnable =>
    obtain ⟨_, _, h⟩ := accept_next _ _ _ _ h
    cases h
    exact finish_frame ..
  | memRd g idx =>
    obtain ⟨_, _, h⟩ := accept_next _ _ _ _ h
    split at h
    · exact ((setRbyte_frame ..).trans (complete_frame h)).but_intEnable
    · cases h
  | memWr g idx =>
    obtain ⟨_, _, h⟩ := accept_next _ _ _ _ h
    split at h
    · exact ((setByte_frame ..).trans (complete_frame h)).but_intEnable
    · cases h

theorem exec_cfg {i : Instr} {s t : State} (h : exec i s = .next t) : t.cfg = s.cfg :=
  (exec_frame h).cfg

/-! ### Taking an input -/

@[simp] theorem takeInput_sync (p : Ptr) (s : State) : takeInput (.sync p) s = .next (s.syncPtr p) := rfl

@[simp] theorem takeInput_resume (sd : Side) (n : Nat) (s : State) :
    takeInput (.resume sd n) s = .next (run (s.turn n) sd s) := rfl

theorem takeInput_issue (sd : Side) (rq : Request) (n : Nat) (i : Instr) (s : State)
    (h : decode rq.txn = .ok i) : takeInput (.issue sd rq n) s = exec i (s.present sd rq (s.turn n)) := by
  simp [takeInput, h]

theorem takeInput_issue_error (sd : Side) (rq : Request) (n : Nat) (e : DecodeError) (s : State)
    (h : decode rq.txn = .error e) : takeInput (.issue sd rq n) s = .refused (.badEncoding e) := by
  simp [takeInput, h]

theorem takeInput_cfg {x : Input} {s t : State} (h : takeInput x s = .next t) : t.cfg = s.cfg := by
  cases x with
  | sync p => cases h; rfl
  | resume sd n => cases h; exact (run_frame ..).cfg
  | issue sd rq n =>
    cases hd : decode rq.txn with
    | ok i =>
      rw [takeInput_issue sd rq n i s hd] at h
      rw [exec_cfg h, State.present_cfg]
    | error e =>
      rw [takeInput_issue_error sd rq n e s hd] at h
      cases h

theorem step_cfg {s t : State} (h : step s = .next t) : t.cfg = s.cfg := by
  rcases step_cases s t h with ⟨_, rfl⟩ | ⟨x, rest, t', _, ht, rfl⟩
  · rfl
  · rw [State.settle_cfg]
    exact (takeInput_cfg ht).trans rfl

/-- Settles O7: every input leaves the parameters alone, and so do the SYNC steps that are due. -/
theorem parametersNeverChange : Obligations.ParametersNeverChange := fun _ _ h => step_cfg h

/-! ### How long a stale copy waits -/

theorem stale_iff (s : State) (p : Ptr) : s.stale p = true ↔ s.seen.get p ≠ s.reg.get p := by
  simp [State.stale]

theorem waitAfter_of_fresh (s t : State) (k : Nat) (p : Ptr) (h : s.seen.get p = s.reg.get p) :
    s.waitAfter t k p = 0 := by
  simp [State.waitAfter, State.stale, h]

theorem waitAfter_of_stale (s t : State) (k : Nat) (p : Ptr) (hs : s.seen.get p ≠ s.reg.get p)
    (ht : t.seen.get p ≠ t.reg.get p) : s.waitAfter t k p = s.waited.get p + k := by
  simp [State.waitAfter, (stale_iff s p).mpr hs, (stale_iff t p).mpr ht]

/-- A copy still stale after the due SYNC steps was stale before them, and has waited for less than the bound. -/
theorem settle_of_stale {s : State} {k : Nat} {t : State} {p : Ptr} {l : Nat} (hl : s.cfg.syncLatency = some l)
    (h : (s.settle k t).seen.get p ≠ (s.settle k t).reg.get p) :
    t.seen.get p ≠ t.reg.get p ∧ s.waitAfter t k p < l ∧
      (s.settle k t).waited.get p = s.waitAfter t k p := by
  rw [State.settle_reg] at h
  rcases State.settle_bounded s k t p l hl with ⟨hseen, _⟩ | ⟨hlt, hseen, hwaited⟩
  · exact absurd hseen h
  · exact ⟨hseen ▸ h, hlt, hwaited⟩

theorem stepActions_input (s : State) (x : Input) (rest : List Input) (h : s.inputs = x :: rest) :
    s.stepActions = s.inputActions x := by
  simp [State.stepActions, h]

theorem stepActions_idle (s : State) (h : s.inputs = []) : s.stepActions = 0 := by
  simp [State.stepActions, h]

/-- Settles O5: a copy that is stale after the step is one that no due SYNC refreshed, so its count is `waitAfter`. -/
theorem latencyBoundsTheWait : Obligations.LatencyBoundsTheWait := by
  intro s t p l hl hin hstep hstale
  rcases step_cases s t hstep with ⟨hnil, _⟩ | ⟨x, rest, t', hx, _, rfl⟩
  · exact absurd hnil hin
  · obtain ⟨hstale', hlt, hwaited⟩ := settle_of_stale hl hstale
    rw [hwaited, stepActions_input s x rest hx]
    exact ⟨hlt, waitAfter_of_fresh s t' _ p, fun hs => waitAfter_of_stale s t' _ p hs hstale'⟩

/-- A copy that a step makes stale starts its count at 0, below the bound. -/
theorem step_starts_wait {s t : State} {p : Ptr} {l : Nat} (hl : s.cfg.syncLatency = some l)
    (hstep : step s = .next t) (hs : s.seen.get p = s.reg.get p) (ht : t.seen.get p ≠ t.reg.get p) :
    t.waited.get p = 0 ∧ 0 < l := by
  have hin : s.inputs ≠ [] := by
    intro hnil
    rw [step_idle s hnil] at hstep
    cases hstep
    exact ht hs
  obtain ⟨hlt, hzero, _⟩ := latencyBoundsTheWait s t p l hl hin hstep ht
  exact ⟨hzero hs, by rw [← hzero hs]; exact hlt⟩

/-- A step after which a stale copy is still stale adds its actions to the count and keeps it below the bound; a step
with no input adds nothing. -/
theorem step_adds_wait {s t : State} {p : Ptr} {l : Nat} (hl : s.cfg.syncLatency = some l)
    (hstep : step s = .next t) (hs : s.seen.get p ≠ s.reg.get p) (ht : t.seen.get p ≠ t.reg.get p)
    (hlt : s.waited.get p < l) : t.waited.get p = s.waited.get p + s.stepActions ∧ t.waited.get p < l := by
  by_cases hin : s.inputs = []
  · rw [step_idle s hin] at hstep
    cases hstep
    rw [stepActions_idle s hin]
    exact ⟨rfl, hlt⟩
  · obtain ⟨hlt', _, hadd⟩ := latencyBoundsTheWait s t p l hl hin hstep ht
    exact ⟨hadd hs, hlt'⟩

theorem steps_keep_cfg {f : Nat → State} {n : Nat} (hrun : ∀ k, k ≤ n → step (f k) = .next (f (k + 1)))
    (k : Nat) (hk : k ≤ n + 1) : (f k).cfg = (f 0).cfg := by
  induction k with
  | zero => rfl
  | succ k ih => rw [step_cfg (hrun k (by omega)), ih (by omega)]

/-- Settles O6: by induction on the run, the count of the stale copy is the sum of the actions gone by. -/
theorem stalePointerCrossesInTime : Obligations.StalePointerCrossesInTime := by
  intro f n p l hl hrun hfresh hstale
  have bound : ∀ k, k ≤ n → (f k).cfg.syncLatency = some l := fun k hk => by
    rw [steps_keep_cfg hrun k (by omega), hl]
  have count : ∀ k, k ≤ n →
      (f (k + 1)).waited.get p = ((List.range k).map fun j => (f (j + 1)).stepActions).sum ∧
        (f (k + 1)).waited.get p < l := by
    intro k
    induction k with
    | zero =>
      intro hk
      obtain ⟨hzero, hpos⟩ := step_starts_wait hl (hrun 0 hk) hfresh (hstale 0 hk)
      simpa [hzero] using hpos
    | succ k ih =>
      intro hk
      obtain ⟨hsum, hlt⟩ := ih (by omega)
      obtain ⟨hadd, hlt'⟩ := step_adds_wait (bound (k + 1) hk) (hrun (k + 1) hk) (hstale k (by omega))
        (hstale (k + 1) hk) hlt
      exact ⟨by simp [hadd, hsum, List.range_succ], hlt'⟩
  obtain ⟨hsum, hlt⟩ := count n (Nat.le_refl n)
  exact hsum ▸ hlt

/-! ### The remainder -/

/-- Settles O34: the lower position is taken off as its remainder, from one whole turn of the ring. -/
theorem distIsTheRemainder : Obligations.DistIsTheRemainder := by
  intro a b c hc
  refine ⟨?_, dist_lt a b c hc⟩
  have hle : b.toNat % c ≤ c := (Nat.mod_lt _ hc).le
  calc (dist a b c : Int)
      = ((a.toNat : Int) - (b.toNat : Int) % c + c) % c := by
        unfold dist
        rw [Int.natCast_mod, Int.natCast_add, Int.natCast_sub hle, Int.natCast_mod]
        congr 1
        ring
    _ = ((a.toNat : Int) - (b.toNat : Int) % c) % c := Int.add_emod_right ..
    _ = ((a.toNat : Int) - (b.toNat : Int)) % c := Int.sub_emod_emod ..

/-! ### No bound -/

/-- With SYNC_LATENCY unbounded nothing follows the input. -/
theorem step_unbounded (s : State) (x : Input) (rest : List Input) (hu : s.cfg.syncLatency = none)
    (h : s.inputs = x :: rest) : step s = takeInput x (s.setInputs rest) := by
  rw [step_input s x rest h, settleNext_unbounded s _ _ hu]

/-- Settles O4: nothing follows the input, and its turn is as long as it says. -/
theorem unboundedLatencyAddsNothing : Obligations.UnboundedLatencyAddsNothing := by
  intro s hu
  have hturn : ∀ n rest, (s.setInputs rest).turn n = n := fun n rest => turn_unbounded _ n hu
  refine ⟨fun p rest h => ?_, fun sd n rest h => ?_, fun sd rq n rest i h hd => ?_⟩
  · rw [step_unbounded s _ rest hu h, takeInput_sync]
  · rw [step_unbounded s _ rest hu h, takeInput_resume, hturn]
  · rw [step_unbounded s _ rest hu h, takeInput_issue sd rq n i _ hd, hturn]

end Sys2Proof.Machine
end

section
/-! What issuing an instruction can do, said once for all the rows of spec/opcode_table.json: an operation of several
atomic actions begins with its `firstAction`; an operation of one performs one of eight kinds of action and ends. -/

namespace Sys2Proof.Machine

open Host (Outcome)

/-! ### Ready requests -/

/-- Every arm of `exec` tests the port and the issue rights first. -/
theorem exec_accept (i : Instr) (s : State) : ∃ go, exec i s = accept i s go := by
  unfold exec execCommit execRaise execAck execGenerateRx execRegWrIntStatus execRegWrIntEnable execRegWrIntClear
    execMemRd execMemWr
  cases i <;> exact ⟨_, rfl⟩

theorem exec_ready {i : Instr} {s t : State} (h : exec i s = .next t) : Ready i s := by
  obtain ⟨go, hgo⟩ := exec_accept i s
  rw [hgo] at h
  obtain ⟨hbusy, hmay, _⟩ := accept_next i s t _ h
  exact ⟨hbusy, hmay⟩

/-- Settles O15: the busy port is the first test of every operation. -/
theorem busyPortIsRefused : Obligations.BusyPortIsRefused := by
  intro i s hbusy
  obtain ⟨go, hgo⟩ := exec_accept i s
  rw [hgo]
  rcases accept_cases i s go with ⟨_, h⟩ | ⟨hidle, _⟩ | ⟨hidle, _⟩
  · exact h
  · exact absurd hidle hbusy
  · exact absurd hidle hbusy

/-! ### Operations of several atomic actions -/

/-- A ready operation of several actions: PBUF of another length is refused, a frame larger than the store is answered
at once, and everything else begins with the first action. -/
theorem exec_several {i : Instr} {s : State} {ph : Phase} (hr : Ready i s) (hph : firstAction s i = some ph) :
    exec i s =
      if i.payloadFits (s.port.get s.side).pbuf = false then .refused .payloadSize
      else if frameTooLargeFor s i = true then .next (s.dropResults.finish s.side .frameTooLarge)
      else perform ph s.dropResults := by
  obtain ⟨hbusy, hmay⟩ := hr
  cases i with
  | enqueue g len =>
    cases hph
    rw [show exec (.enqueue g len) s = accept _ s (enqueueFrame g len) from rfl, accept_ready _ _ _ hbusy hmay]
    simp [enqueueFrame, Instr.payloadFits, frameTooLargeFor, frameSize_eq]
    rfl
  | send len =>
    cases hph
    rw [show exec (.send len) s = accept _ s (enqueueFrame .tx len) from rfl, accept_ready _ _ _ hbusy hmay]
    simp [enqueueFrame, Instr.payloadFits, frameTooLargeFor, frameSize_eq]
    rfl
  | generateRx len =>
    cases hph
    rw [show exec (.generateRx len) s = execGenerateRx len s from rfl, execGenerateRx,
      accept_ready _ _ _ hbusy hmay]
    simp [Instr.payloadFits, frameTooLargeFor]
  | drain | processTx | dispatch =>
    cases hph
    exact accept_ready _ _ _ hbusy hmay
  | _ => cases hph

/-- All a request for an operation of several actions can answer. -/
theorem exec_several_cases {i : Instr} {s t : State} {ph : Phase} (h : exec i s = .next t)
    (hph : firstAction s i = some ph) :
    i.payloadFits (s.port.get s.side).pbuf = true ∧
    ((frameTooLargeFor s i = true ∧ t = s.dropResults.finish s.side .frameTooLarge) ∨
     (frameTooLargeFor s i = false ∧ t = run s.quantum s.side (s.dropResults.goOn s.side ph))) := by
  rw [exec_several (exec_ready h) hph] at h
  split at h
  · cases h
  · rename_i hfit
    refine ⟨by simpa using hfit, ?_⟩
    split at h
    · rename_i hlarge
      cases h
      exact .inl ⟨hlarge, rfl⟩
    · rename_i hsmall
      cases h
      exact .inr ⟨by simpa using hsmall, rfl⟩

/-! ### Operations of one atomic action -/

/-- What the atomic action of an operation of one can do to the state of a side that issued it. Of these only raw writes
(spec/41_pointer_ops.md R145) store a pointer other than by COMMIT, or a byte. -/
inductive SingleAction (i : Instr) (s : State) : State → Prop
  | commit (g : Ring) (hside : s.side = consumer g) : SingleAction i s (commitCons g s)
  | storePtr (p : Ptr) (v : Word) (hraw : isRaw i = true) (hside : s.side = owner p)
      (hv : v.toNat < s.cap (ptrRing p)) : SingleAction i s (s.setReg p v)
  | storeByte (g : Ring) (k : Nat) (b : Byte) (hraw : isRaw i = true) (hside : s.side = producer g) :
      SingleAction i s (s.setByte g k b)
  | setBits (v : Word) : SingleAction i s (s.setIntStatus (setStatus s.intStatus v))
  | clearBits (v : Word) (hside : s.side = .host) : SingleAction i s (s.setIntStatus (clearStatus s.intStatus v))
  | enable (v : Word) (hside : s.side = .host) : SingleAction i s (s.setIntEnable (enableValue v))
  | readWord (v : Word) : SingleAction i s (s.setRdata s.side v)
  | readByte (b : Byte) : SingleAction i s (s.setRbyte s.side b)

/-- The action `u` performed, the operation ends with Ok at the port of `s`. -/
def EndsAfter (i : Instr) (s t : State) : Prop := ∃ u, SingleAction i s u ∧ t = u.finish s.side .ok

theorem writePointer_single {i : Instr} {p : Ptr} {s t : State} (hraw : isRaw i = true) (hside : s.side = owner p)
    (h : writePointer p s = .next t) : EndsAfter i s t := by
  rcases writePointer_cases p s with ⟨hv, e⟩ | ⟨_, e⟩ <;> rw [e] at h <;> cases h
  exact ⟨_, .storePtr p _ hraw hside hv, rfl⟩

theorem readPointer_single {i : Instr} {p : Ptr} {s t : State} (h : readPointer p s = .next t) : EndsAfter i s t := by
  cases h
  exact ⟨_, .readWord _, rfl⟩

theorem readLatch_single {i : Instr} {v : Word} {s t : State} (h : readLatch v s = .next t) : EndsAfter i s t := by
  cases h
  exact ⟨_, .readWord _, rfl⟩

/-- All an operation of one atomic action can answer. -/
theorem exec_single {i : Instr} {s t : State} (h : exec i s = .next t) (hph : firstAction s i = none) :
    EndsAfter i s.dropResults t := by
  unfold exec at h
  cases i with
  | enqueue | drain | dispatch | send | processTx | generateRx => cases hph
  | commit g =>
    obtain ⟨_, hmay, h⟩ := accept_next _ _ _ _ h
    cases h
    exact ⟨_, .commit g (of_decide_eq_true hmay), rfl⟩
  | ptrWrite | regWrTxTailPtr | regWrRxHeadPtr | regWrHostTxHeadPub | regWrHostRxTailPub =>
    obtain ⟨_, hmay, h⟩ := accept_next _ _ _ _ h
    exact writePointer_single rfl (of_decide_eq_true hmay) h
  | ptrRead | regRdTxTailPtr | regRdRxHeadPtr | regRdHostTxHeadPub | regRdHostRxTailPub =>
    obtain ⟨_, _, h⟩ := accept_next _ _ _ _ h
    exact readPointer_single h
  | regRdIntStatus | regRdIntEnable | regRdIntClear =>
    obtain ⟨_, _, h⟩ := accept_next _ _ _ _ h
    exact readLatch_single h
  | raiseInt | regWrIntStatus =>
    obtain ⟨_, _, h⟩ := accept_next _ _ _ _ h
    cases h
    exact ⟨_, .setBits _, rfl⟩
  | ack | regWrIntClear =>
    obtain ⟨_, hmay, h⟩ := accept_next _ _ _ _ h
    cases h
    exact ⟨_, .clearBits _ (of_decide_eq_true hmay), rfl⟩
  | regWrIntEnable =>
    obtain ⟨_, hmay, h⟩ := accept_next _ _ _ _ h
    cases h
    exact ⟨_, .enable _ (of_decide_eq_true hmay), rfl⟩
  | memRd =>
    obtain ⟨_, _, h⟩ := accept_next _ _ _ _ h
    split at h <;> cases h
    exact ⟨_, .readByte _, rfl⟩
  | memWr g idx =>
    obtain ⟨_, hmay, h⟩ := accept_next _ _ _ _ h
    split at h <;> cases h
    exact ⟨_, .storeByte g _ _ rfl (of_decide_eq_true hmay), rfl⟩

/-- The induction over an instruction: a property that FrameTooLarge (`hlarge`), the start of an operation of several
actions (`hbegin`), each of its actions (`hact`) and the whole of an operation of one (`hsingle`) keep holds after it. -/
theorem exec_keeps {i : Instr} {s t : State} (P : State → Prop) (h : exec i s = .next t)
    (hlarge : P (s.dropResults.finish s.side .frameTooLarge))
    (hbegin : ∀ ph, firstAction s i = some ph → i.payloadFits (s.port.get s.side).pbuf = true →
      P (s.dropResults.goOn s.side ph))
    (hact : ∀ u ph, (u.port.get s.side).busy = some ph → P u → P (act s.side ph u))
    (hsingle : ∀ u, SingleAction i s.dropResults u → P (u.finish s.side .ok)) : P t := by
  cases hph : firstAction s i with
  | none =>
    obtain ⟨u, hu, rfl⟩ := exec_single h hph
    exact hsingle u hu
  | some ph =>
    obtain ⟨hfit, ⟨_, rfl⟩ | ⟨_, rfl⟩⟩ := exec_several_cases h hph
    · exact hlarge
    · exact run_induct P s.side hact _ _ (hbegin ph hph hfit)

/-! ### Taking an input -/

/-- A SYNC leaves every copy, or gives it the value of its register. -/
theorem syncPtr_seen_cases (s : State) (p q : Ptr) :
    (s.syncPtr p).seen.get q = s.seen.get q ∨ (s.syncPtr p).seen.get q = s.reg.get q := by
  rw [State.syncPtr_seen, PerPtr.get_set]
  split
  · subst q; exact .inr rfl
  · exact .inl rfl

/-- An issue that answers a next state presents a word that decodes. -/
theorem takeInput_issue_next {sd : Side} {rq : Request} {n : Nat} {s t : State}
    (h : takeInput (.issue sd rq n) s = .next t) :
    ∃ i, decode rq.txn = .ok i ∧ exec i (s.present sd rq (s.turn n)) = .next t := by
  cases hd : decode rq.txn with
  | ok i => exact ⟨i, rfl, by rw [← takeInput_issue sd rq n i s hd, h]⟩
  | error e =>
    rw [takeInput_issue_error sd rq n e s hd] at h
    cases h

/-- An input leaves a copy, or gives it the value of its register. -/
theorem takeInput_seen_cases {x : Input} {s t : State} (h : takeInput x s = .next t) (p : Ptr) :
    t.seen.get p = s.seen.get p ∨ t.seen.get p = t.reg.get p := by
  cases x with
  | sync q => cases h; exact syncPtr_seen_cases s q p
  | resume sd n => cases h; exact .inl (by rw [(run_frame ..).seen])
  | issue sd rq n =>
    obtain ⟨i, _, he⟩ := takeInput_issue_next h
    exact .inl (by rw [(exec_frame he).seen]; rfl)

end Sys2Proof.Machine
end

section
/-! Ranges (spec/10_state.md R20, R21, R31, R35, R37, R40): every update of the state keeps them where the value stored
is in range, and every action stores such values. -/

namespace Sys2Proof.Machine

open Host (Outcome)

/-! ### Legal parameters -/

theorem cap_bounds {c : Config} (h : c.valid = true) (g : Ring) : 3 ≤ c.cap g ∧ c.cap g ≤ 2 ^ 32 := by
  simp only [Config.valid, ringParamsValid, Bool.and_eq_true, decide_eq_true_eq] at h
  cases g <;> simp only [Config.cap] <;> omega

theorem cap_pos {c : Config} (h : c.valid = true) (g : Ring) : 0 < c.cap g := by
  have := (cap_bounds h g).1
  omega

theorem Ranged.cap_pos {s : State} (h : Ranged s) (g : Ring) : 0 < s.cap g := Machine.cap_pos h.cfg g

theorem Ranged.cap_le {s : State} (h : Ranged s) (g : Ring) : s.cap g ≤ 2 ^ 32 := (cap_bounds h.cfg g).2

/-- Settles O48: every register and position is 0, and every capacity is positive. -/
theorem resetIsRanged : Obligations.ResetIsRanged := by
  intro c hc
  have hzero : ∀ g, (0 : Word).toNat < (State.resetWith c).cap g := fun g => cap_pos hc g
  exact
    { cfg := hc
      prod := fun g => by cases g <;> exact hzero _
      cons := fun g => by cases g <;> exact hzero _
      reg := fun p => by cases p <;> exact hzero _
      seen := fun p => by cases p <;> exact hzero _
      status := BitVec.zero_and
      enable := BitVec.zero_and
      canonical := State.resetWith_wf c
      inStore := fun g e he => by cases g <;> cases he }

/-! ### What each update keeps -/

/-- The ports, the events and the model's own fields have no part in the ranges. -/
theorem Ranged.outside {s : State} (h : Ranged s) (port : PerSide Port) (events : PerSide (List Event))
    (inputs : List Input) (side : Side) (quantum : Nat) (waited : PerPtr Nat) (draws : Nat) :
    Ranged { s with
      port := port, events := events, inputs := inputs, side := side, quantum := quantum, waited := waited
      draws := draws } :=
  ⟨h.cfg, h.prod, h.cons, h.reg, h.seen, h.status, h.enable, h.canonical, h.inStore⟩

theorem Ranged.goOn {s : State} (h : Ranged s) (sd : Side) (ph : Phase) : Ranged (s.goOn sd ph) :=
  h.outside ..

theorem Ranged.finish {s : State} (h : Ranged s) (sd : Side) (r : Result) : Ranged (s.finish sd r) :=
  h.outside ..

theorem Ranged.emit {s : State} (h : Ranged s) (sd : Side) (e : Event) : Ranged (s.emit sd e) := h.outside ..

theorem Ranged.present {s : State} (h : Ranged s) (sd : Side) (rq : Request) (n : Nat) :
    Ranged (s.present sd rq n) := h.outside ..

theorem Ranged.dropResults {s : State} (h : Ranged s) : Ranged s.dropResults := h.outside ..

theorem Ranged.setProd {s : State} (h : Ranged s) (g : Ring) (v : Word) (hv : v.toNat < s.cap g) :
    Ranged (s.setProd g v) :=
  { h with
    prod := fun g' => by
      rw [State.setProd_prodPos, PerRing.get_set]
      split
      · subst g'; exact hv
      · exact h.prod g' }

theorem Ranged.setCons {s : State} (h : Ranged s) (g : Ring) (v : Word) (hv : v.toNat < s.cap g) :
    Ranged (s.setCons g v) :=
  { h with
    cons := fun g' => by
      rw [State.setCons_consPos, PerRing.get_set]
      split
      · subst g'; exact hv
      · exact h.cons g' }

theorem Ranged.setReg {s : State} (h : Ranged s) (p : Ptr) (v : Word) (hv : v.toNat < s.cap (ptrRing p)) :
    Ranged (s.setReg p v) :=
  { h with
    reg := fun p' => by
      rw [State.setReg_reg, PerPtr.get_set]
      split
      · subst p'; exact hv
      · exact h.reg p' }

theorem Ranged.commitCons {s : State} (h : Ranged s) (g : Ring) : Ranged (commitCons g s) :=
  h.setReg _ _ (by rw [ptrRing_pubCons]; exact h.cons g)

/-- Copies that stay or take the value of their register stay in range. -/
theorem Ranged.setSeen {s t : State} (h : Ranged s) (ht : t = { s with seen := t.seen, waited := t.waited })
    (hseen : ∀ p, t.seen.get p = s.seen.get p ∨ t.seen.get p = s.reg.get p) : Ranged t := by
  rw [ht]
  exact
    { h with
      seen := fun p => by
        rcases hseen p with e | e
        · exact e ▸ h.seen p
        · exact e ▸ h.reg p }

theorem Ranged.setIntStatus {s : State} (h : Ranged s) (v : Word) (hv : v &&& ~~~intMask = 0) :
    Ranged (s.setIntStatus v) := { h with status := hv }

theorem Ranged.setIntEnable {s : State} (h : Ranged s) (v : Word) (hv : v &&& ~~~intMask = 0) :
    Ranged (s.setIntEnable v) := { h with enable := hv }

theorem Ranged.setByte {s : State} (h : Ranged s) (g : Ring) (i : Nat) (b : Byte) : Ranged (s.setByte g i b) :=
  { h with
    canonical := fun g' => State.setByte_wf s g g' i b (h.canonical g')
    inStore := fun g' e he => by
      by_cases hg : g' = g
      · subst g'
        rw [State.setByte_store, PerRing.get_set_same] at he
        rcases Memory.mem_write _ _ _ e he with he | rfl
        · exact h.inStore g e he
        · exact Nat.mod_lt i (h.cap_pos g)
      · rw [State.setByte_store_other s g g' i b hg] at he
        exact h.inStore g' e he }

/-! ### The latch words -/

theorem enableValue_reserved (v : Word) : enableValue v &&& ~~~intMask = 0 := by
  rw [enableValue, BitVec.and_assoc, BitVec.and_not_self]
  exact BitVec.and_zero

theorem setStatus_reserved {status : Word} (v : Word) (h : status &&& ~~~intMask = 0) :
    setStatus status v &&& ~~~intMask = 0 := by
  have hv := enableValue_reserved v
  rw [enableValue] at hv
  rw [setStatus, BitVec.and_or_distrib_right, h, hv]
  rfl

theorem clearStatus_reserved {status : Word} (v : Word) (h : status &&& ~~~intMask = 0) :
    clearStatus status v &&& ~~~intMask = 0 := by
  rw [clearStatus, BitVec.and_assoc, BitVec.and_comm (~~~ _), ← BitVec.and_assoc, h]
  exact BitVec.zero_and

theorem Ranged.raiseBit {s : State} (h : Ranged s) (b : IntBit) : Ranged (s.raiseBit b) :=
  h.setIntStatus _ (setStatus_reserved _ h.status)

theorem Ranged.clearBit {s : State} (h : Ranged s) (b : IntBit) : Ranged (s.clearBit b) :=
  h.setIntStatus _ (clearStatus_reserved _ h.status)

/-! ### What each action keeps -/

theorem Ranged.drainBlocked {s : State} (h : Ranged s) (sd : Side) (job : DrainJob) (cause : BlockCause) (pp : Word) :
    Ranged (drainBlocked sd job cause pp s) := by
  rcases drainBlocked_cases sd job cause pp s with e | e | ⟨_, _, e⟩ <;> rw [e]
  · exact h.finish ..
  · exact h.goOn ..
  · exact h.goOn ..

theorem Ranged.serveBits {s : State} (h : Ranged s) (sd : Side) (todo : List IntBit) :
    Ranged (serveBits sd todo s) := by
  rcases serveBits_cases sd todo s with ⟨_, e⟩ | ⟨_, _, e⟩ | ⟨_, _, e⟩ | ⟨_, _, e⟩ <;> rw [e]
  · exact h.finish ..
  · exact h.goOn ..
  · exact h.goOn ..
  · exact h.goOn ..

theorem Ranged.actPublish {s : State} (h : Ranged s) (sd : Side) (g : Ring) (job : EnqJob) (len : Half) (cp : Word) :
    Ranged (actPublish sd g job len cp s) := by
  have hnew := advance_lt (s.prodPos.get g) (frameSize len) (s.cap g) (h.cap_pos g)
  have hpub := (h.setProd g _ hnew).setReg (pubProd g) _ (by rw [ptrRing_pubProd]; exact hnew)
  rcases actPublish_cases sd g job len cp s with ⟨e, _⟩ | ⟨e, _⟩ <;> rw [e]
  · exact hpub.finish ..
  · exact hpub.goOn ..

theorem Ranged.actDeliver {s : State} (h : Ranged s) (sd : Side) (job : DrainJob) (pp : Word) (bytes : List Byte) :
    Ranged (actDeliver sd job pp bytes s) := by
  rcases actDeliver_cases sd job pp bytes s with ⟨_, e⟩ | ⟨_, _, _, _, e⟩ | ⟨_, _, _, _, e⟩ | ⟨_, _, _, e⟩ <;> rw [e]
  · exact h.finish ..
  · exact (h.emit ..).goOn ..
  · exact (h.emit ..).goOn ..
  · exact (h.emit ..).goOn ..

/-- Positions advance modulo the capacity, pointers take positions, and the latch takes its three bits. -/
theorem Ranged.act {s : State} (h : Ranged s) (sd : Side) (ph : Phase) : Ranged (act sd ph s) := by
  cases ph with
  | frameRead g job len =>
    rcases actFrameRead_cases sd g job len s with ⟨_, e⟩ | ⟨_, e⟩ <;> simp only [Machine.act, e]
    · exact h.finish ..
    · exact h.goOn ..
  | frameWrite g job len cp pos rest =>
    cases rest with
    | nil => exact h.actPublish ..
    | cons b rest => exact (h.setByte ..).goOn ..
  | raiseLast b => exact (h.raiseBit b).finish ..
  | drainRead job =>
    rcases actDrainRead_cases sd job s with ⟨_, e⟩ | ⟨_, e⟩ <;> simp only [Machine.act, e]
    · exact h.drainBlocked ..
    · exact h.goOn ..
  | headerLow job pp => exact h.goOn ..
  | headerHigh job pp b0 =>
    have hcons (p : Word) (n : Nat) := h.setCons (drainRing job) _ (advance_lt p n _ (h.cap_pos _))
    rcases actHeaderHigh_cases sd job pp b0 s with ⟨_, e⟩ | ⟨_, ⟨_, e⟩ | ⟨_, e⟩⟩ <;> simp only [Machine.act, e]
    · exact h.drainBlocked ..
    · exact (hcons _ _).outside ..
    · exact (hcons _ _).goOn ..
  | copyOut job pp pos left acc =>
    cases left with
    | zero => exact h.actDeliver ..
    | succ n => exact h.goOn ..
  | giveBack job pp =>
    rcases actGiveBack_cases sd job pp s with e | ⟨e, _⟩ | ⟨_, _, _, e⟩ <;> simp only [Machine.act, e]
    · exact (h.commitCons _).finish ..
    · exact (h.commitCons _).goOn ..
    · exact (h.commitCons _).goOn ..
  | readStatus => exact h.serveBits ..
  | report todo => exact (h.emit ..).goOn ..
  | ackBit todo =>
    cases todo with
    | nil => exact h.finish ..
    | cons b rest => exact (h.clearBit b).serveBits ..

theorem Ranged.run {s : State} (h : Ranged s) (n : Nat) (sd : Side) : Ranged (run n sd s) :=
  run_induct Ranged sd (fun _ ph _ hu => hu.act sd ph) n s h

/-- A raw write of a pointer is refused out of range, a byte is stored at an index of its store. -/
theorem Ranged.single {i : Instr} {s u : State} (h : Ranged s) (hu : SingleAction i s u) : Ranged u := by
  cases hu with
  | commit g => exact h.commitCons g
  | storePtr p v _ _ hv => exact h.setReg p v hv
  | storeByte g k b => exact h.setByte g k b
  | setBits v => exact h.setIntStatus _ (setStatus_reserved v h.status)
  | clearBits v => exact h.setIntStatus _ (clearStatus_reserved v h.status)
  | enable v => exact h.setIntEnable _ (enableValue_reserved v)
  | readWord | readByte => exact h.outside ..

theorem Ranged.exec {i : Instr} {s t : State} (h : Ranged s) (ht : exec i s = .next t) : Ranged t :=
  exec_keeps Ranged ht (h.dropResults.finish ..) (fun _ _ _ => h.dropResults.goOn ..) (fun _ ph _ hu => hu.act _ ph)
    (fun _ hu => (h.dropResults.single hu).finish ..)

/-! ### Every step -/

/-- All the due SYNC steps do: nothing but copies that take the value of their register, and counts. -/
theorem settle_eq (s : State) (k : Nat) (t : State) :
    s.settle k t = { t with seen := (s.settle k t).seen, waited := (s.settle k t).waited } := by
  unfold State.settle
  split <;> rfl

theorem Ranged.syncPtr {s : State} (h : Ranged s) (p : Ptr) : Ranged (s.syncPtr p) :=
  h.setSeen rfl (syncPtr_seen_cases s p)

theorem Ranged.settle {t : State} (h : Ranged t) (s : State) (k : Nat) : Ranged (s.settle k t) :=
  h.setSeen (settle_eq s k t) (s.settle_seen_cases k t)

theorem Ranged.takeInput {x : Input} {s t : State} (h : Ranged s) (ht : takeInput x s = .next t) : Ranged t := by
  cases x with
  | sync p => cases ht; exact h.syncPtr p
  | resume sd n => cases ht; exact h.run ..
  | issue sd rq n =>
    obtain ⟨i, _, he⟩ := takeInput_issue_next ht
    exact (h.present ..).exec he

/-- Settles O46: every input keeps the ranges, whatever it presents, and so do the due SYNC steps. -/
theorem everyStepKeepsRanges : Obligations.EveryStepKeepsRanges := by
  intro s t h ht
  rcases step_cases s t ht with ⟨_, rfl⟩ | ⟨x, rest, u, _, hu, rfl⟩
  · exact h
  · exact ((ranged_setInputs rest h).takeInput hu).settle ..

end Sys2Proof.Machine
end

section
/-! Ownership (spec/10_state.md R42, spec/60_exceptions.md R219): a side's operation in progress stays one it may issue,
and while it is, every action writes only what its side owns. -/

namespace Sys2Proof.Machine

open Host (Outcome)

/-! ### The operation in progress -/

/-- The operation in progress at the port of `sd`, if there is one, is one that `sd` may issue. -/
def RoleKept (sd : Side) (s : State) : Prop := ∀ ph, (s.port.get sd).busy = some ph → phaseOfSide sd ph = true

theorem RoleKept.idle {sd : Side} {s : State} (h : (s.port.get sd).busy = none) : RoleKept sd s := by
  intro ph hph
  rw [h] at hph
  cases hph

theorem RoleKept.finish (sd : Side) (s : State) (r : Result) : RoleKept sd (s.finish sd r) :=
  .idle (finish_busy s sd r)

theorem RoleKept.goOn {sd : Side} {ph : Phase} (s : State) (h : phaseOfSide sd ph = true) :
    RoleKept sd (s.goOn sd ph) := by
  intro ph' hph'
  rw [goOn_busy] at hph'
  cases hph'
  exact h

/-- The phase that begins to write a frame, and reads the payload presented at the port. -/
def Phase.beginsFrame : Phase → Bool
  | .frameRead _ _ _ => true
  | _ => false

/-- The operation in progress at the port of `sd`, if there is one, is one that `sd` may issue, past its beginning. -/
def GoesOn (sd : Side) (s : State) : Prop :=
  ∀ ph, (s.port.get sd).busy = some ph → phaseOfSide sd ph = true ∧ ph.beginsFrame = false

theorem GoesOn.role {sd : Side} {s : State} (h : GoesOn sd s) : RoleKept sd s := fun ph hph => (h ph hph).1

theorem GoesOn.finish (sd : Side) (s : State) (r : Result) : GoesOn sd (s.finish sd r) := by
  intro ph hph
  rw [finish_busy] at hph
  cases hph

theorem GoesOn.goOn {sd : Side} {ph : Phase} (s : State) (h : phaseOfSide sd ph = true)
    (hfirst : ph.beginsFrame = false) : GoesOn sd (s.goOn sd ph) := by
  intro ph' hph'
  rw [goOn_busy] at hph'
  cases hph'
  exact ⟨h, hfirst⟩

theorem GoesOn.drainBlocked {sd : Side} {job : DrainJob} (cause : BlockCause) (pp : Word) (s : State)
    (h : jobOfSide sd job = true) : GoesOn sd (drainBlocked sd job cause pp s) := by
  rcases drainBlocked_cases sd job cause pp s with e | e | ⟨todo, rfl, e⟩ <;> rw [e]
  · exact .finish _ _ _
  · exact .goOn _ h rfl
  · exact .goOn _ h rfl

theorem GoesOn.serveBits (todo : List IntBit) (s : State) : GoesOn .host (serveBits .host todo s) := by
  rcases serveBits_cases .host todo s with ⟨_, e⟩ | ⟨_, _, e⟩ | ⟨_, _, e⟩ | ⟨_, _, e⟩ <;> rw [e]
  · exact .finish _ _ _
  · exact .goOn _ rfl rfl
  · exact .goOn _ rfl rfl
  · exact .goOn _ rfl rfl

theorem GoesOn.actDeliver {sd : Side} {job : DrainJob} (pp : Word) (bytes : List Byte) (s : State)
    (h : jobOfSide sd job = true) : GoesOn sd (actDeliver sd job pp bytes s) := by
  rcases actDeliver_cases sd job pp bytes s with
    ⟨_, e⟩ | ⟨c0, k, rfl, _, e⟩ | ⟨c0, k, rfl, _, e⟩ | ⟨todo, k, rfl, e⟩ <;> rw [e]
  · exact .finish _ _ _
  · exact .goOn _ h rfl
  · exact .goOn _ h rfl
  · exact .goOn _ h rfl

/-- A frame is written by the producer of its ring, and for GENERATE_RX by the device. -/
theorem frameRole_iff (sd : Side) (g : Ring) (job : EnqJob) :
    (decide (sd = producer g) && (decide (job = .plain) || decide (g = .rx))) = true ↔
      sd = producer g ∧ (job = .plain ∨ g = .rx) := by
  simp

/-- The next phase of an operation belongs to the side of the phase before it and does not begin a frame. -/
theorem act_goesOn {sd : Side} {ph : Phase} (s : State) (h : phaseOfSide sd ph = true) : GoesOn sd (act sd ph s) := by
  cases ph with
  | frameRead g job len =>
    rcases actFrameRead_cases sd g job len s with ⟨_, e⟩ | ⟨_, e⟩ <;> simp only [act, e]
    · exact .finish _ _ _
    · exact .goOn _ h rfl
  | frameWrite g job len cp pos rest =>
    cases rest with
    | cons b rest => exact .goOn _ h rfl
    | nil =>
      show GoesOn sd (actPublish sd g job len cp s)
      rcases actPublish_cases sd g job len cp s with ⟨e, _⟩ | ⟨e, hjob, _⟩ <;> rw [e]
      · exact .finish _ _ _
      · obtain ⟨rfl, hplain | rfl⟩ := (frameRole_iff sd g job).mp h
        · rw [hjob] at hplain; cases hplain
        · exact .goOn _ rfl rfl
  | raiseLast b => exact .finish _ _ _
  | drainRead job =>
    rcases actDrainRead_cases sd job s with ⟨_, e⟩ | ⟨_, e⟩ <;> simp only [act, e]
    · exact .drainBlocked _ _ _ h
    · exact .goOn _ h rfl
  | headerLow job pp => exact .goOn _ h rfl
  | headerHigh job pp b0 =>
    rcases actHeaderHigh_cases sd job pp b0 s with ⟨_, e⟩ | ⟨_, ⟨_, e⟩ | ⟨_, e⟩⟩ <;> simp only [act, e]
    · exact .drainBlocked _ _ _ h
    · exact .finish _ _ _
    · exact .goOn _ h rfl
  | copyOut job pp pos left acc =>
    cases left with
    | zero => exact .actDeliver _ _ _ h
    | succ n => exact .goOn _ h rfl
  | giveBack job pp =>
    rcases actGiveBack_cases sd job pp s with e | ⟨e, c0, k, rfl⟩ | ⟨todo, k, rfl, e⟩ <;> simp only [act, e]
    · exact .finish _ _ _
    · exact .goOn _ (by simpa [phaseOfSide, jobOfSide] using h) rfl
    · exact .goOn _ h rfl
  | readStatus =>
    obtain rfl := of_decide_eq_true h
    exact .serveBits _ _
  | report todo => exact .goOn _ h rfl
  | ackBit todo =>
    cases todo with
    | nil => exact .finish _ _ _
    | cons b rest =>
      obtain rfl := of_decide_eq_true h
      exact .serveBits _ _

theorem act_role {sd : Side} {ph : Phase} (s : State) (h : phaseOfSide sd ph = true) : RoleKept sd (act sd ph s) :=
  (act_goesOn s h).role

/-- The first phase of an operation belongs to a side that may issue it. -/
theorem firstAction_role {sd : Side} {i : Instr} {s : State} {ph : Phase} (hmay : mayIssue sd i = true)
    (h : firstAction s i = some ph) : phaseOfSide sd ph = true := by
  cases i with
  | enqueue g len =>
    cases h
    exact (frameRole_iff ..).mpr ⟨of_decide_eq_true hmay, .inl rfl⟩
  | send len =>
    cases h
    exact (frameRole_iff ..).mpr ⟨of_decide_eq_true hmay, .inl rfl⟩
  | generateRx len =>
    cases h
    exact (frameRole_iff ..).mpr ⟨of_decide_eq_true hmay, .inr rfl⟩
  | drain | processTx | dispatch => cases h; exact hmay
  | _ => cases h

/-! ### What each update may write -/

theorem OwnWritesOnly.refl (sd : Side) (s : State) : OwnWritesOnly sd s s where
  prod _ _ := rfl
  mem _ _ _ := rfl
  cons _ _ := rfl
  reg _ _ := rfl
  port := rfl
  events := rfl
  enable _ := rfl
  status _ _ h := h

theorem OwnWritesOnly.trans {sd : Side} {s t u : State} (h : OwnWritesOnly sd s t) (h' : OwnWritesOnly sd t u) :
    OwnWritesOnly sd s u where
  prod g hg := (h'.prod g hg).trans (h.prod g hg)
  mem g hg j := (h'.mem g hg j).trans (h.mem g hg j)
  cons g hg := (h'.cons g hg).trans (h.cons g hg)
  reg p hp := (h'.reg p hp).trans (h.reg p hp)
  port := h'.port.trans h.port
  events := h'.events.trans h.events
  enable hsd := (h'.enable hsd).trans (h.enable hsd)
  status hsd k hk := h'.status hsd k (h.status hsd k hk)

/-- A side writes its own port; copies and the model's own fields are nobody's. -/
theorem OwnWritesOnly.atPort (sd : Side) (s : State) (pt : Port) (seen : PerPtr Word) (inputs : List Input)
    (side : Side) (quantum : Nat) (waited : PerPtr Nat) (draws : Nat) :
    OwnWritesOnly sd s { s with
      port := s.port.set sd pt, seen := seen, inputs := inputs, side := side, quantum := quantum, waited := waited
      draws := draws } :=
  { OwnWritesOnly.refl sd s with port := PerSide.get_set_other _ _ _ _ (otherSide_ne sd) }

theorem OwnWritesOnly.unowned (sd : Side) (s : State) (seen : PerPtr Word) (inputs : List Input) (side : Side)
    (quantum : Nat) (waited : PerPtr Nat) (draws : Nat) :
    OwnWritesOnly sd s { s with
      seen := seen, inputs := inputs, side := side, quantum := quantum, waited := waited, draws := draws } :=
  { OwnWritesOnly.refl sd s with }

theorem OwnWritesOnly.goOn {sd : Side} {s t : State} (h : OwnWritesOnly sd s t) (ph : Phase) :
    OwnWritesOnly sd s (t.goOn sd ph) := h.trans (.atPort ..)

theorem OwnWritesOnly.finish {sd : Side} {s t : State} (h : OwnWritesOnly sd s t) (r : Result) :
    OwnWritesOnly sd s (t.finish sd r) := h.trans (.atPort ..)

theorem OwnWritesOnly.setProd {sd : Side} (s : State) {g : Ring} (v : Word) (hsd : sd = producer g) :
    OwnWritesOnly sd s (s.setProd g v) :=
  { OwnWritesOnly.refl sd s with
    prod := fun _ hg' => PerRing.get_set_other _ _ _ _ fun e => hg' (e ▸ hsd) }

theorem OwnWritesOnly.setCons {sd : Side} (s : State) {g : Ring} (v : Word) (hsd : sd = consumer g) :
    OwnWritesOnly sd s (s.setCons g v) :=
  { OwnWritesOnly.refl sd s with
    cons := fun _ hg' => PerRing.get_set_other _ _ _ _ fun e => hg' (e ▸ hsd) }

theorem OwnWritesOnly.setReg {sd : Side} (s : State) {p : Ptr} (v : Word) (hsd : sd = owner p) :
    OwnWritesOnly sd s (s.setReg p v) :=
  { OwnWritesOnly.refl sd s with
    reg := fun _ hp' => PerPtr.get_set_other _ _ _ _ fun e => hp' (e ▸ hsd) }

theorem OwnWritesOnly.commitCons {sd : Side} (s : State) {g : Ring} (hsd : sd = consumer g) :
    OwnWritesOnly sd s (commitCons g s) := .setReg s _ (hsd.trans (owner_pubCons g).symm)

theorem OwnWritesOnly.setByte {sd : Side} (s : State) {g : Ring} (i : Nat) (b : Byte) (hsd : sd = producer g) :
    OwnWritesOnly sd s (s.setByte g i b) :=
  { OwnWritesOnly.refl sd s with
    mem := fun g' hg' j => State.setByte_read_other s g g' i j b (.inl fun e => hg' (e ▸ hsd)) }

theorem OwnWritesOnly.setBits (sd : Side) (s : State) (v : Word) :
    OwnWritesOnly sd s (s.setIntStatus (setStatus s.intStatus v)) :=
  { OwnWritesOnly.refl sd s with status := fun _ k hk => by simp [setStatus, hk] }

theorem OwnWritesOnly.hostStatus (s : State) (v : Word) : OwnWritesOnly .host s (s.setIntStatus v) :=
  { OwnWritesOnly.refl .host s with status := fun hsd => nomatch hsd }

theorem OwnWritesOnly.hostEnable (s : State) (v : Word) : OwnWritesOnly .host s (s.setIntEnable v) :=
  { OwnWritesOnly.refl .host s with enable := fun hsd => nomatch hsd }

theorem OwnWritesOnly.emit (sd : Side) (s : State) (e : Event) : OwnWritesOnly sd s (s.emit sd e) :=
  { OwnWritesOnly.refl sd s with events := PerSide.get_set_other _ _ _ _ (otherSide_ne sd) }

/-! ### What each action may write -/

/-- A drain is run by the consumer of its ring. -/
theorem jobOfSide_consumer {sd : Side} {job : DrainJob} (h : jobOfSide sd job = true) :
    sd = consumer (drainRing job) := by
  cases job <;> exact of_decide_eq_true h

theorem OwnWritesOnly.drainBlocked (sd : Side) (job : DrainJob) (cause : BlockCause) (pp : Word) (s : State) :
    OwnWritesOnly sd s (drainBlocked sd job cause pp s) := by
  rcases drainBlocked_cases sd job cause pp s with e | e | ⟨_, _, e⟩ <;> rw [e]
  · exact (OwnWritesOnly.refl sd s).finish _
  · exact (OwnWritesOnly.refl sd s).goOn _
  · exact (OwnWritesOnly.refl sd s).goOn _

theorem OwnWritesOnly.serveBits (sd : Side) (todo : List IntBit) (s : State) :
    OwnWritesOnly sd s (serveBits sd todo s) := by
  rcases serveBits_cases sd todo s with ⟨_, e⟩ | ⟨_, _, e⟩ | ⟨_, _, e⟩ | ⟨_, _, e⟩ <;> rw [e]
  · exact (OwnWritesOnly.refl sd s).finish _
  · exact (OwnWritesOnly.refl sd s).goOn _
  · exact (OwnWritesOnly.refl sd s).goOn _
  · exact (OwnWritesOnly.refl sd s).goOn _

theorem OwnWritesOnly.actPublish {sd : Side} (s : State) {g : Ring} (job : EnqJob) (len : Half) (cp : Word)
    (hsd : sd = producer g) : OwnWritesOnly sd s (actPublish sd g job len cp s) := by
  have hpub (v : Word) : OwnWritesOnly sd s ((s.setProd g v).setReg (pubProd g) v) :=
    (OwnWritesOnly.setProd s v hsd).trans (.setReg _ v (hsd.trans (owner_pubProd g).symm))
  rcases actPublish_cases sd g job len cp s with ⟨e, _⟩ | ⟨e, _⟩ <;> rw [e]
  · exact (hpub _).finish _
  · exact (hpub _).goOn _

theorem OwnWritesOnly.actDeliver (sd : Side) (job : DrainJob) (pp : Word) (bytes : List Byte) (s : State) :
    OwnWritesOnly sd s (actDeliver sd job pp bytes s) := by
  rcases actDeliver_cases sd job pp bytes s with ⟨_, e⟩ | ⟨_, _, _, _, e⟩ | ⟨_, _, _, _, e⟩ | ⟨_, _, _, e⟩ <;> rw [e]
  · exact (OwnWritesOnly.refl sd s).finish _
  · exact (OwnWritesOnly.emit sd s _).goOn _
  · exact (OwnWritesOnly.emit sd s _).goOn _
  · exact (OwnWritesOnly.emit sd s _).goOn _

/-- An action of an operation its side may issue writes only what the side owns. -/
theorem act_own {sd : Side} {ph : Phase} (s : State) (h : phaseOfSide sd ph = true) :
    OwnWritesOnly sd s (act sd ph s) := by
  cases ph with
  | frameRead g job len =>
    rcases actFrameRead_cases sd g job len s with ⟨_, e⟩ | ⟨_, e⟩ <;> simp only [act, e]
    · exact (OwnWritesOnly.refl sd s).finish _
    · exact (OwnWritesOnly.refl sd s).goOn _
  | frameWrite g job len cp pos rest =>
    obtain ⟨hsd, _⟩ := (frameRole_iff sd g job).mp h
    cases rest with
    | nil => exact .actPublish s job len cp hsd
    | cons b rest => exact (OwnWritesOnly.setByte s pos b hsd).goOn _
  | raiseLast b => exact (OwnWritesOnly.setBits sd s _).finish _
  | drainRead job =>
    rcases actDrainRead_cases sd job s with ⟨_, e⟩ | ⟨_, e⟩ <;> simp only [act, e]
    · exact .drainBlocked ..
    · exact (OwnWritesOnly.refl sd s).goOn _
  | headerLow job pp => exact (OwnWritesOnly.refl sd s).goOn _
  | headerHigh job pp b0 =>
    have hcons (v : Word) : OwnWritesOnly sd s (s.setCons (drainRing job) v) := .setCons s v (jobOfSide_consumer h)
    rcases actHeaderHigh_cases sd job pp b0 s with ⟨_, e⟩ | ⟨_, ⟨_, e⟩ | ⟨_, e⟩⟩ <;> simp only [act, e]
    · exact .drainBlocked ..
    · exact ((hcons _).trans (.atPort ..)).finish _
    · exact (hcons _).goOn _
  | copyOut job pp pos left acc =>
    cases left with
    | zero => exact .actDeliver ..
    | succ n => exact (OwnWritesOnly.refl sd s).goOn _
  | giveBack job pp =>
    have hsd := jobOfSide_consumer h
    rcases actGiveBack_cases sd job pp s with e | ⟨e, c0, k, rfl⟩ | ⟨todo, k, rfl, e⟩ <;> simp only [act, e]
    · exact (OwnWritesOnly.commitCons s hsd).finish _
    · exact (OwnWritesOnly.commitCons s hsd).goOn _
    · exact (OwnWritesOnly.commitCons s hsd).goOn _
  | readStatus => exact .serveBits ..
  | report todo => exact (OwnWritesOnly.emit sd s _).goOn _
  | ackBit todo =>
    cases todo with
    | nil => exact (OwnWritesOnly.refl sd s).finish _
    | cons b rest =>
      obtain rfl := of_decide_eq_true h
      exact (OwnWritesOnly.hostStatus s _).trans (.serveBits ..)

/-- While a side goes on with an operation it may issue, it writes only what it owns and the operation stays one. -/
theorem run_own {sd : Side} (s u : State) (n : Nat) (h : OwnWritesOnly sd s u) (hrole : RoleKept sd u) :
    OwnWritesOnly sd s (run n sd u) ∧ RoleKept sd (run n sd u) :=
  run_induct (fun v => OwnWritesOnly sd s v ∧ RoleKept sd v) sd
    (fun v ph hph hv => ⟨hv.1.trans (act_own v (hv.2 ph hph)), act_role v (hv.2 ph hph)⟩) n u ⟨h, hrole⟩

theorem SingleAction.own {i : Instr} {s u : State} (h : SingleAction i s u) : OwnWritesOnly s.side s u := by
  cases h with
  | commit g hside => exact .commitCons s hside
  | storePtr p v _ hside => exact .setReg s v hside
  | storeByte g k b _ hside => exact .setByte s k b hside
  | setBits v => exact .setBits _ s v
  | clearBits v hside => rw [hside]; exact .hostStatus s _
  | enable v hside => rw [hside]; exact .hostEnable s _
  | readWord | readByte => exact .atPort ..

/-- Whatever a side issues, in a turn of any length, it writes only what it owns. -/
theorem exec_own {i : Instr} {s t : State} (h : exec i s = .next t) : OwnWritesOnly s.side s t := by
  obtain ⟨_, hmay⟩ := exec_ready h
  have hdrop : OwnWritesOnly s.side s s.dropResults := .atPort ..
  have hkeep := exec_keeps (fun u => OwnWritesOnly s.side s u ∧ RoleKept s.side u) h
    ⟨hdrop.finish _, .finish _ _ _⟩
    (fun ph hph _ => ⟨hdrop.goOn ph, .goOn _ (firstAction_role hmay hph)⟩)
    (fun u ph hph hu => ⟨hu.1.trans (act_own u (hu.2 ph hph)), act_role u (hu.2 ph hph)⟩)
    (fun u hu => ⟨(hdrop.trans hu.own).finish _, .finish _ _ _⟩)
  exact hkeep.1

/-- The input by which a side acts makes it write only what it owns, and no copy. -/
theorem takeInput_own {s t : State} {x : Input} {sd : Side} (hroles : RolesKept s) (hx : x.actor = some sd)
    (h : takeInput x s = .next t) : OwnWritesOnly sd s t ∧ t.seen = s.seen := by
  cases x with
  | sync p => cases hx
  | resume sd' n =>
    cases hx
    cases h
    exact ⟨(run_own s s _ (.refl sd s) (hroles sd)).1, (run_frame ..).seen⟩
  | issue sd' rq n =>
    cases hx
    obtain ⟨i, _, he⟩ := takeInput_issue_next h
    have hpresent : OwnWritesOnly sd s (s.present sd rq (s.turn n)) := .atPort ..
    exact ⟨hpresent.trans (exec_own he), (exec_frame he).seen⟩

/-- Settles O49: by the first phase of what is issued or the phase in progress, every action is one of the side's own;
the due SYNC steps write copies alone. -/
theorem noSideWritesWhatTheOtherOwns : Obligations.NoSideWritesWhatTheOtherOwns := by
  refine ⟨fun i s t h => ⟨exec_own h, (exec_frame h).seen⟩, fun s t sd x rest hroles hin hx ht => ?_⟩
  rw [step_input s x rest hin] at ht
  obtain ⟨u, hu, rfl⟩ := settleNext_next _ _ _ _ ht
  obtain ⟨hown, hseen⟩ := takeInput_own (s := s.setInputs rest) hroles hx hu
  have hinputs : OwnWritesOnly sd s (s.setInputs rest) := .unowned ..
  refine ⟨(hinputs.trans hown).trans (settle_eq s _ u ▸ .unowned ..), fun p => ?_⟩
  cases hl : s.cfg.syncLatency with
  | none => exact .inl (by rw [settle_unbounded s _ u hl, hseen, State.setInputs_seen])
  | some l =>
    rcases s.settle_seen_cases (s.inputActions x) u p with e | e
    · exact .inl (by rw [e, hseen, State.setInputs_seen])
    · exact .inr ⟨nofun, by rw [e, State.settle_reg]⟩

end Sys2Proof.Machine
end

section
/-! The order of the positions around a ring (spec/10_state.md R22, R32, R34; spec/20_memory.md R76, R78). What one
action can do to a ring is said once for its consumer and once for its producer; each keeps `RingOrdered`, and so does a
copy that takes the value of its register. -/

namespace Sys2Proof.Machine

open Host (Outcome)

/-! ### Measuring from a later base -/

/-- The order of two positions is the same measured from a base they both lie beyond. -/
theorem dist_le_rebase {a a' b b' : Word} {c : Nat} (hc : 0 < c) (h : dist b' b c ≤ dist a b c)
    (hle : dist a b c ≤ dist a' b c) : dist a b' c ≤ dist a' b' c := by
  rw [dist_rebase a b b' c hc h, dist_rebase a' b b' c hc (h.trans hle)]
  omega

/-- What lies between two positions is the difference of their distances. -/
theorem dist_between {a a' b : Word} {c : Nat} (hc : 0 < c) (h : dist a b c ≤ dist a' b c) :
    dist a b c + dist a' a c = dist a' b c := by
  rw [dist_rebase a' b a c hc h]
  omega

/-! ### What producer and consumer hold -/

/-- The frame the producer of `g` is writing now. -/
def writing (s : State) (g : Ring) : Option (Word × Nat × Nat × Nat) :=
  writingFrame g (s.port.get (producer g)).busy

theorem seenCons_eq (s : State) (g : Ring) :
    seenCons s g = ((writing s g).map Prod.fst).getD (s.seen.get (pubCons g)) := by
  unfold seenCons writing
  cases writingFrame g (s.port.get (producer g)).busy <;> rfl

theorem claimed_eq (s : State) (g : Ring) : claimed s g = ((writing s g).map fun w => w.2.1).getD 0 := by
  unfold claimed writing
  cases writingFrame g (s.port.get (producer g)).busy <;> rfl

theorem frameOnCourse_iff (s : State) (g : Ring) :
    FrameOnCourse s g ↔ ∀ cp size pos left, writing s g = some (cp, size, pos, left) →
      left ≤ size ∧ pos = ((s.prodPos.get g).toNat + (size - left)) % s.cap g := Iff.rfl

theorem FrameOnCourse.idle {s : State} {g : Ring} (h : writing s g = none) : FrameOnCourse s g := by
  intro cp size pos left hw
  rw [writing] at h
  rw [h] at hw
  cases hw

/-- What an action of the consumer of `g` does to the ring: it drains bytes it knows of, gives back what it had
drained, and works with the producer position it knew or with the copy. -/
structure ConsumerMoves (g : Ring) (s t : State) : Prop where
  cons : t.consPos.get g = s.consPos.get g ∨
    ∃ n, n ≤ availTo s g (seenProd s g) ∧ t.consPos.get g = advance (s.consPos.get g) n (s.cap g)
  reg : t.reg.get (pubCons g) = s.reg.get (pubCons g) ∨ t.reg.get (pubCons g) = s.consPos.get g
  sight : seenProd t g = seenProd s g ∨ seenProd t g = s.seen.get (pubProd g)

/-- What an action of the producer of `g` does to the ring: nothing, or it claims a frame that leaves one slot free of
the consumer position it reads, or writes the next byte of its frame, or publishes the frame it has written. -/
inductive ProducerMoves (g : Ring) (s t : State) : Prop
  | rests (hprod : t.prodPos.get g = s.prodPos.get g) (hreg : t.reg.get (pubProd g) = s.reg.get (pubProd g))
      (hw : writing t g = writing s g)
  | claims (size : Nat) (hprod : t.prodPos.get g = s.prodPos.get g)
      (hreg : t.reg.get (pubProd g) = s.reg.get (pubProd g)) (hs : writing s g = none)
      (ht : writing t g = some (s.seen.get (pubCons g), size, (s.prodPos.get g).toNat % s.cap g, size))
      (hfree : dist (s.prodPos.get g) (s.seen.get (pubCons g)) (s.cap g) + size ≤ s.cap g - 1)
  | writes (cp : Word) (size pos left : Nat) (hprod : t.prodPos.get g = s.prodPos.get g)
      (hreg : t.reg.get (pubProd g) = s.reg.get (pubProd g)) (hs : writing s g = some (cp, size, pos, left + 1))
      (ht : writing t g = some (cp, size, (pos + 1) % s.cap g, left))
  | publishes (cp : Word) (size pos : Nat) (hs : writing s g = some (cp, size, pos, 0)) (ht : writing t g = none)
      (hprod : t.prodPos.get g = advance (s.prodPos.get g) size (s.cap g))
      (hreg : t.reg.get (pubProd g) = t.prodPos.get g)

/-! ### Each keeps the order -/

section

variable {s t : State} {g : Ring}

theorem beyond_congr (hcfg : t.cfg = s.cfg) (hbase : seenCons t g = seenCons s g) (x : Word) :
    beyond t g x = beyond s g x := by
  simp only [beyond, State.cap, hcfg, hbase]

/-- The consumer's moves keep the order: it drains no byte beyond the producer position it works with. -/
theorem RingOrdered.consumerMoves (h : RingOrdered s g) (hr : Ranged s) (hm : ConsumerMoves g s t)
    (hcfg : t.cfg = s.cfg) (hseen : t.seen = s.seen) (hprod : t.prodPos.get g = s.prodPos.get g)
    (hreg : t.reg.get (pubProd g) = s.reg.get (pubProd g)) (hw : writing t g = writing s g) : RingOrdered t g := by
  have hc := hr.cap_pos g
  have hcap : t.cap g = s.cap g := by simp only [State.cap, hcfg]
  have hbase : seenCons t g = seenCons s g := by rw [seenCons_eq, seenCons_eq, hw, hseen]
  have hbeyond := beyond_congr hcfg hbase
  have hdrain : beyond s g (s.consPos.get g) ≤ beyond s g (t.consPos.get g) ∧
      beyond s g (t.consPos.get g) ≤ beyond s g (seenProd s g) := by
    rcases hm.cons with e | ⟨n, hn, e⟩
    · exact ⟨by rw [e], by rw [e]; exact h.cons_seenProd⟩
    · have hbetween := dist_between hc h.cons_seenProd
      have hlt := dist_lt (seenProd s g) (seenCons s g) (s.cap g) hc
      have hadv := dist_advance_left (s.consPos.get g) (seenCons s g) n (s.cap g) hc (hr.cap_le g)
        (by simp only [availTo] at hn; omega)
      simp only [availTo] at hn
      simp only [beyond, e, hadv]
      omega
  have hsight : beyond s g (seenProd s g) ≤ beyond s g (seenProd t g) ∧
      beyond s g (seenProd t g) ≤ beyond s g (s.seen.get (pubProd g)) := by
    rcases hm.sight with e | e <;> rw [e]
    · exact ⟨le_refl _, h.seenProd_copy⟩
    · exact ⟨h.seenProd_copy, le_refl _⟩
  have hgive : beyond s g (s.reg.get (pubCons g)) ≤ beyond s g (t.reg.get (pubCons g)) ∧
      beyond s g (t.reg.get (pubCons g)) ≤ beyond s g (s.consPos.get g) := by
    rcases hm.reg with e | e <;> rw [e]
    · exact ⟨le_refl _, h.regCons_cons⟩
    · exact ⟨h.regCons_cons, le_refl _⟩
  constructor
  · rw [hbeyond, hbeyond, hseen]; exact h.seenCons_regCons.trans hgive.1
  · rw [hbeyond, hbeyond]; exact hgive.2.trans hdrain.1
  · rw [hbeyond, hbeyond]; exact hdrain.2.trans hsight.1
  · rw [hbeyond, hbeyond, hseen]; exact hsight.2
  · rw [hbeyond, hbeyond, hseen, hprod]; exact h.copy_prod
  · rw [hreg, hprod]; exact h.published
  · rw [hbeyond, claimed_eq, hw, ← claimed_eq, hprod, hcap]; exact h.slotFree
  · rw [frameOnCourse_iff, hw, hprod, hcap]; exact h.onCourse

/-- A producer that works with the same consumer position and has not moved keeps the order. -/
theorem RingOrdered.sameBase (h : RingOrdered s g) (hcfg : t.cfg = s.cfg) (hseen : t.seen = s.seen)
    (hcons : t.consPos.get g = s.consPos.get g) (hregCons : t.reg.get (pubCons g) = s.reg.get (pubCons g))
    (hsight : seenProd t g = seenProd s g) (hprod : t.prodPos.get g = s.prodPos.get g)
    (hreg : t.reg.get (pubProd g) = s.reg.get (pubProd g)) (hbase : seenCons t g = seenCons s g)
    (hslot : beyond s g (s.prodPos.get g) + claimed t g ≤ s.cap g - 1) (hcourse : FrameOnCourse t g) :
    RingOrdered t g := by
  have hbeyond := beyond_congr hcfg hbase
  constructor
  · rw [hbeyond, hbeyond, hseen, hregCons]; exact h.seenCons_regCons
  · rw [hbeyond, hbeyond, hregCons, hcons]; exact h.regCons_cons
  · rw [hbeyond, hbeyond, hcons, hsight]; exact h.cons_seenProd
  · rw [hbeyond, hbeyond, hseen, hsight]; exact h.seenProd_copy
  · rw [hbeyond, hbeyond, hseen, hprod]; exact h.copy_prod
  · rw [hreg, hprod]; exact h.published
  · rw [hbeyond, hprod, show t.cap g = s.cap g by simp only [State.cap, hcfg]]; exact hslot
  · exact hcourse

/-- A published frame keeps the order, which is measured from now on from the copy the producer will read next. -/
theorem RingOrdered.publishes (h : RingOrdered s g) (hr : Ranged s) {cp : Word} {size pos : Nat}
    (hs : writing s g = some (cp, size, pos, 0)) (ht : writing t g = none)
    (hprod : t.prodPos.get g = advance (s.prodPos.get g) size (s.cap g))
    (hreg : t.reg.get (pubProd g) = t.prodPos.get g) (hcfg : t.cfg = s.cfg) (hseen : t.seen = s.seen)
    (hcons : t.consPos.get g = s.consPos.get g) (hregCons : t.reg.get (pubCons g) = s.reg.get (pubCons g))
    (hsight : seenProd t g = seenProd s g) : RingOrdered t g := by
  have hc := hr.cap_pos g
  have hcap : t.cap g = s.cap g := by simp only [State.cap, hcfg]
  have hbase : seenCons t g = s.seen.get (pubCons g) := by simp [seenCons_eq, ht, hseen]
  have hbeyond (x : Word) : beyond t g x = dist x (s.seen.get (pubCons g)) (s.cap g) := by
    rw [beyond, hbase, hcap]
  have hslot : beyond s g (s.prodPos.get g) + size ≤ s.cap g - 1 := by
    simpa [claimed_eq, hs] using h.slotFree
  have hadv : beyond s g (advance (s.prodPos.get g) size (s.cap g)) = beyond s g (s.prodPos.get g) + size :=
    dist_advance_left _ _ _ _ hc (hr.cap_le g) (by unfold beyond at hslot; omega)
  have hcopyProd : beyond s g (s.seen.get (pubProd g)) ≤ beyond s g (t.prodPos.get g) := by
    have := h.copy_prod
    rw [hprod, hadv]; omega
  have hcopy_cons := h.seenCons_regCons.trans h.regCons_cons
  have hcopy_seenProd := hcopy_cons.trans h.cons_seenProd
  have hcopy_copy := hcopy_seenProd.trans h.seenProd_copy
  constructor
  · rw [hbeyond, hbeyond, hseen, hregCons]; exact dist_le_rebase hc (le_refl _) h.seenCons_regCons
  · rw [hbeyond, hbeyond, hregCons, hcons]; exact dist_le_rebase hc h.seenCons_regCons h.regCons_cons
  · rw [hbeyond, hbeyond, hcons, hsight]; exact dist_le_rebase hc hcopy_cons h.cons_seenProd
  · rw [hbeyond, hbeyond, hsight, hseen]; exact dist_le_rebase hc hcopy_seenProd h.seenProd_copy
  · rw [hbeyond, hbeyond, hseen]; exact dist_le_rebase hc hcopy_copy hcopyProd
  · exact hreg
  · have hclaim : claimed t g = 0 := by simp [claimed_eq, ht]
    have hre := dist_rebase _ _ _ _ hc (hcopy_copy.trans hcopyProd)
    rw [hbeyond, hre, hclaim, hcap, hprod]
    unfold beyond at hadv hslot
    omega
  · exact .idle ht

/-- The producer's moves keep the order: it claims no more than what is free, and publishes what it claimed. -/
theorem RingOrdered.producerMoves (h : RingOrdered s g) (hr : Ranged s) (hm : ProducerMoves g s t)
    (hcfg : t.cfg = s.cfg) (hseen : t.seen = s.seen) (hcons : t.consPos.get g = s.consPos.get g)
    (hregCons : t.reg.get (pubCons g) = s.reg.get (pubCons g)) (hsight : seenProd t g = seenProd s g) :
    RingOrdered t g := by
  have hcap : t.cap g = s.cap g := by simp only [State.cap, hcfg]
  cases hm with
  | rests hprod hreg hw =>
    refine h.sameBase hcfg hseen hcons hregCons hsight hprod hreg ?_ ?_ ?_
    · rw [seenCons_eq, seenCons_eq, hw, hseen]
    · rw [claimed_eq, hw, ← claimed_eq]; exact h.slotFree
    · rw [frameOnCourse_iff, hw, hprod, hcap]; exact h.onCourse
  | claims size hprod hreg hs ht hfree =>
    have hcopy : seenCons s g = s.seen.get (pubCons g) := by simp [seenCons_eq, hs]
    refine h.sameBase hcfg hseen hcons hregCons hsight hprod hreg ?_ ?_ ?_
    · simp [seenCons_eq, hs, ht]
    · simpa [claimed_eq, ht, beyond, hcopy] using hfree
    · rw [frameOnCourse_iff, ht, hprod, hcap]
      intro cp size' pos left hw
      cases hw
      simp
  | writes cp size pos left hprod hreg hs ht =>
    refine h.sameBase hcfg hseen hcons hregCons hsight hprod hreg ?_ ?_ ?_
    · simp [seenCons_eq, hs, ht]
    · have hslot := h.slotFree
      simpa [claimed_eq, hs, ht] using hslot
    · obtain ⟨hleft, hpos⟩ := h.onCourse cp size pos (left + 1) hs
      rw [frameOnCourse_iff, ht, hprod, hcap]
      intro cp' size' pos' left' hw
      cases hw
      refine ⟨by omega, ?_⟩
      rw [hpos, Nat.mod_add_mod, show size - left = size - (left + 1) + 1 by omega, Nat.add_assoc]
  | publishes cp size pos hs ht hprod hreg =>
    exact h.publishes hr hs ht hprod hreg hcfg hseen hcons hregCons hsight

end

/-- Whatever the copies become, the producer works with the consumer position it has read, or else with the copy. -/
theorem seenCons_setSeen (s : State) (g : Ring) (seen : PerPtr Word) (waited : PerPtr Nat) :
    seenCons { s with seen := seen, waited := waited } g = seenCons s g ∨
    (seenCons { s with seen := seen, waited := waited } g = seen.get (pubCons g) ∧
      seenCons s g = s.seen.get (pubCons g)) := by
  unfold seenCons
  cases writingFrame g (s.port.get (producer g)).busy with
  | some w => exact .inl rfl
  | none => exact .inr ⟨rfl, rfl⟩

/-- The consumer works with the producer position its drain holds, or else with the copy. -/
theorem seenProd_setSeen (s : State) (g : Ring) (seen : PerPtr Word) (waited : PerPtr Nat) :
    seenProd { s with seen := seen, waited := waited } g = seenProd s g ∨
    (seenProd { s with seen := seen, waited := waited } g = seen.get (pubProd g) ∧
      seenProd s g = s.seen.get (pubProd g)) := by
  unfold seenProd
  cases drainSnapshot g (s.port.get (consumer g)).busy with
  | some w => exact .inl rfl
  | none => exact .inr ⟨rfl, rfl⟩

/-- Copies that stay or take the value of their register keep the order; where the producer is not writing, it is
measured from the new copy of the consumer pointer. -/
theorem RingOrdered.setSeen {s : State} {g : Ring} (h : RingOrdered s g) (hr : Ranged s) (seen : PerPtr Word)
    (waited : PerPtr Nat) (hseen : ∀ p, seen.get p = s.seen.get p ∨ seen.get p = s.reg.get p) :
    RingOrdered { s with seen := seen, waited := waited } g := by
  have hc := hr.cap_pos g
  have hbases := seenCons_setSeen s g seen waited
  have hsights := seenProd_setSeen s g seen waited
  generalize hb : seenCons { s with seen := seen, waited := waited } g = b at hbases
  generalize hpp : seenProd { s with seen := seen, waited := waited } g = pp at hsights
  have hself : beyond s g (seenCons s g) = 0 := dist_self _ _ hc
  have hb_regCons : beyond s g b ≤ beyond s g (s.reg.get (pubCons g)) := by
    rcases hbases with e | ⟨e, _⟩ <;> rw [e]
    · omega
    · rcases hseen (pubCons g) with e | e <;> rw [e]
      exact h.seenCons_regCons
  have hcopy_regCons : dist (seen.get (pubCons g)) b (s.cap g) ≤ dist (s.reg.get (pubCons g)) b (s.cap g) := by
    rcases hseen (pubCons g) with e | e
    · have hsame : b = seenCons s g := by
        rcases hbases with e' | ⟨e', e''⟩
        · exact e'
        · rw [e', e'', e]
      rw [hsame, e]; exact h.seenCons_regCons
    · rw [e]
  have hcopy : beyond s g (s.seen.get (pubProd g)) ≤ beyond s g (seen.get (pubProd g)) ∧
      beyond s g (seen.get (pubProd g)) ≤ beyond s g (s.prodPos.get g) := by
    rcases hseen (pubProd g) with e | e <;> rw [e]
    · exact ⟨le_refl _, h.copy_prod⟩
    · rw [h.published]; exact ⟨h.copy_prod, le_refl _⟩
  have hsight : beyond s g (seenProd s g) ≤ beyond s g pp ∧ beyond s g pp ≤ beyond s g (seen.get (pubProd g)) := by
    have hold := h.seenProd_copy.trans hcopy.1
    rcases hsights with e | ⟨e, _⟩ <;> rw [e]
    · exact ⟨le_refl _, hold⟩
    · exact ⟨hold, le_refl _⟩
  have hb_cons := hb_regCons.trans h.regCons_cons
  have hcons_sight := h.cons_seenProd.trans hsight.1
  have hb_sight := hb_cons.trans hcons_sight
  have hb_copy := hb_sight.trans hsight.2
  have hprod := dist_rebase _ _ _ _ hc (hb_copy.trans hcopy.2)
  have hslot := h.slotFree
  refine ⟨?_, ?_, ?_, ?_, ?_, h.published, ?_, h.onCourse⟩ <;> simp only [beyond, hb, hpp]
  · exact hcopy_regCons
  · exact dist_le_rebase hc hb_regCons h.regCons_cons
  · exact dist_le_rebase hc hb_cons hcons_sight
  · exact dist_le_rebase hc hb_sight hsight.2
  · exact dist_le_rebase hc hb_copy hcopy.2
  · show dist (s.prodPos.get g) b (s.cap g) + claimed s g ≤ s.cap g - 1
    unfold beyond at hslot
    omega

end Sys2Proof.Machine
end

section
/-! The invariant of a run that keeps to the protocol: every action of a side moves the rings it consumes and the rings
it produces as `ConsumerMoves` and `ProducerMoves` allow, and so every step that is no raw write keeps `Safe`. -/

namespace Sys2Proof.Machine

open Host (Outcome)

/-! ### Sides and rings -/

theorem producer_or_consumer (sd : Side) (g : Ring) : sd = producer g ∨ sd = consumer g := by
  cases sd <;> cases g <;> simp [producer, consumer]

theorem producer_injective {g h : Ring} (e : producer g = producer h) : g = h := by
  cases g <;> cases h <;> simp_all [producer]

theorem consumer_injective {g h : Ring} (e : consumer g = consumer h) : g = h := by
  cases g <;> cases h <;> simp_all [consumer]

theorem pubCons_injective {g h : Ring} (e : pubCons g = pubCons h) : g = h := by
  simpa using congrArg ptrRing e

theorem eq_otherSide {sd sd' : Side} (h : sd' ≠ sd) : sd' = otherSide sd := by
  cases sd <;> cases sd' <;> simp_all [otherSide]

theorem ptrRead_producer (s : State) (g : Ring) : s.ptrRead (producer g) (pubCons g) = s.seen.get (pubCons g) := by
  simp [State.ptrRead, producer_ne_consumer]

theorem ptrRead_consumer (s : State) (g : Ring) : s.ptrRead (consumer g) (pubProd g) = s.seen.get (pubProd g) := by
  simp [State.ptrRead, (producer_ne_consumer g).symm]

theorem setReg_pubProd_pubCons (s : State) (g h : Ring) (v : Word) :
    (s.setReg (pubProd h) v).reg.get (pubCons g) = s.reg.get (pubCons g) :=
  PerPtr.get_set_other _ _ _ _ (pubProd_ne_pubCons h g).symm

theorem setReg_pubCons_pubProd (s : State) (g h : Ring) (v : Word) :
    (s.setReg (pubCons h) v).reg.get (pubProd g) = s.reg.get (pubProd g) :=
  PerPtr.get_set_other _ _ _ _ (pubProd_ne_pubCons g h)

theorem commitCons_reg (s : State) (g : Ring) : (commitCons g s).reg.get (pubCons g) = s.consPos.get g :=
  PerPtr.get_set_same ..

/-! ### What a side works with -/

theorem seenProd_busy {s : State} {g : Ring} {ph : Phase} (h : (s.port.get (consumer g)).busy = some ph) :
    seenProd s g = (drainSnapshot g (some ph)).getD (s.seen.get (pubProd g)) := by
  rw [seenProd, h]

theorem seenProd_goOn (s : State) (g : Ring) (ph : Phase) :
    seenProd (s.goOn (consumer g) ph) g = (drainSnapshot g (some ph)).getD (s.seen.get (pubProd g)) :=
  seenProd_busy (goOn_busy s _ ph)

theorem seenProd_idle {s : State} {g : Ring} (h : (s.port.get (consumer g)).busy = none) :
    seenProd s g = s.seen.get (pubProd g) := by
  rw [seenProd, h]; rfl

theorem writing_busy {s : State} {g : Ring} {ph : Phase} (h : (s.port.get (producer g)).busy = some ph) :
    writing s g = writingFrame g (some ph) := by
  rw [writing, h]

theorem writing_goOn (s : State) (g : Ring) (ph : Phase) :
    writing (s.goOn (producer g) ph) g = writingFrame g (some ph) := writing_busy (goOn_busy s _ ph)

theorem writing_idle {s : State} {g : Ring} (h : (s.port.get (producer g)).busy = none) : writing s g = none := by
  rw [writing, h]; rfl

/-! ### What an action of the consumer does -/

section

variable {s : State} {g : Ring}

/-- An action that gives nothing back and drains nothing, and works with the position it knew or with the copy. -/
theorem ConsumerMoves.goOn {u : State} {ph : Phase}
    (hcons : u.consPos.get g = s.consPos.get g ∨
      ∃ n, n ≤ availTo s g (seenProd s g) ∧ u.consPos.get g = advance (s.consPos.get g) n (s.cap g))
    (hreg : u.reg.get (pubCons g) = s.reg.get (pubCons g) ∨ u.reg.get (pubCons g) = s.consPos.get g)
    (hseen : u.seen = s.seen)
    (hph : drainSnapshot g (some ph) = none ∨ drainSnapshot g (some ph) = some (seenProd s g) ∨
      drainSnapshot g (some ph) = some (s.seen.get (pubProd g))) :
    ConsumerMoves g s (u.goOn (consumer g) ph) := by
  refine ⟨hcons, hreg, ?_⟩
  rw [seenProd_goOn, hseen]
  rcases hph with e | e | e <;> rw [e]
  · exact .inr rfl
  · exact .inl rfl
  · exact .inr rfl

theorem ConsumerMoves.finish {u : State} {r : Result}
    (hcons : u.consPos.get g = s.consPos.get g ∨
      ∃ n, n ≤ availTo s g (seenProd s g) ∧ u.consPos.get g = advance (s.consPos.get g) n (s.cap g))
    (hreg : u.reg.get (pubCons g) = s.reg.get (pubCons g) ∨ u.reg.get (pubCons g) = s.consPos.get g)
    (hseen : u.seen = s.seen) : ConsumerMoves g s (u.finish (consumer g) r) := by
  refine ⟨hcons, hreg, .inr ?_⟩
  rw [seenProd_idle (finish_busy u _ r)]
  exact congrArg (PerPtr.get · _) hseen

theorem ConsumerMoves.drainBlocked (job : DrainJob) (cause : BlockCause) (pp : Word)
    (hpp : pp = seenProd s (drainRing job) ∨ pp = s.seen.get (pubProd (drainRing job))) :
    ConsumerMoves (drainRing job) s (drainBlocked (consumer (drainRing job)) job cause pp s) := by
  rcases drainBlocked_cases (consumer (drainRing job)) job cause pp s with e | e | ⟨todo, _, e⟩ <;> rw [e]
  · exact .finish (.inl rfl) (.inl rfl) rfl
  · exact .goOn (.inl rfl) (.inl rfl) rfl (.inr (by simpa [drainSnapshot] using hpp))
  · exact .goOn (.inl rfl) (.inl rfl) rfl (.inl rfl)

theorem ConsumerMoves.serveBits (todo : List IntBit) (u : State) (hcons : u.consPos = s.consPos) (hreg : u.reg = s.reg)
    (hseen : u.seen = s.seen) : ConsumerMoves g s (serveBits (consumer g) todo u) := by
  have hcons' := congrArg (PerRing.get · g) hcons
  have hreg' := congrArg (PerPtr.get · (pubCons g)) hreg
  rcases serveBits_cases (consumer g) todo u with ⟨_, e⟩ | ⟨_, _, e⟩ | ⟨_, _, e⟩ | ⟨_, _, e⟩ <;> rw [e]
  · exact .finish (.inl hcons') (.inl hreg') hseen
  · exact .goOn (.inl hcons') (.inl hreg') hseen (.inl rfl)
  · exact .goOn (.inl hcons') (.inl hreg') hseen (.inl rfl)
  · exact .goOn (.inl hcons') (.inl hreg') hseen (.inl rfl)

theorem ConsumerMoves.actDeliver (job : DrainJob) (pp : Word) (bytes : List Byte)
    (hpp : pp = seenProd s (drainRing job)) :
    ConsumerMoves (drainRing job) s (actDeliver (consumer (drainRing job)) job pp bytes s) := by
  rcases actDeliver_cases (consumer (drainRing job)) job pp bytes s with
    ⟨_, e⟩ | ⟨c0, k, rfl, _, e⟩ | ⟨c0, k, rfl, _, e⟩ | ⟨todo, k, rfl, e⟩ <;> rw [e]
  · exact .finish (.inl rfl) (.inl rfl) rfl
  · exact .goOn (.inl rfl) (.inl rfl) rfl (.inr (.inl (by rw [← hpp]; rfl)))
  · exact .goOn (.inl rfl) (.inl rfl) rfl (.inl rfl)
  · exact .goOn (.inl rfl) (.inl rfl) rfl (.inl rfl)

/-- Each action of the side that consumes ring `g`. Draining is done by the read of the high header byte, up to the
producer position the drain holds, and giving back by the COMMIT inside a loop. -/
theorem act_consumerMoves {ph : Phase} (hbusy : (s.port.get (consumer g)).busy = some ph)
    (hrole : phaseOfSide (consumer g) ph = true) : ConsumerMoves g s (act (consumer g) ph s) := by
  have hsight := seenProd_busy hbusy
  cases ph with
  | frameRead g' job len =>
    rcases actFrameRead_cases (consumer g) g' job len s with ⟨_, e⟩ | ⟨_, e⟩ <;> simp only [act, e]
    · exact .finish (.inl rfl) (.inl rfl) rfl
    · exact .goOn (.inl rfl) (.inl rfl) rfl (.inl rfl)
  | frameWrite g' job len cp pos rest =>
    cases rest with
    | cons b rest => exact .goOn (.inl rfl) (.inl rfl) rfl (.inl rfl)
    | nil =>
      show ConsumerMoves g s (actPublish (consumer g) g' job len cp s)
      rcases actPublish_cases (consumer g) g' job len cp s with ⟨e, _⟩ | ⟨e, _⟩ <;> rw [e]
      · exact .finish (.inl rfl) (.inl (setReg_pubProd_pubCons ..)) rfl
      · exact .goOn (.inl rfl) (.inl (setReg_pubProd_pubCons ..)) rfl (.inl rfl)
  | raiseLast b => exact .finish (.inl rfl) (.inl rfl) rfl
  | drainRead job =>
    obtain rfl := consumer_injective (jobOfSide_consumer hrole)
    have hpp := ptrRead_consumer s (drainRing job)
    rcases actDrainRead_cases (consumer (drainRing job)) job s with ⟨_, e⟩ | ⟨_, e⟩ <;> simp only [act, e]
    · exact .drainBlocked _ _ _ (.inr hpp)
    · exact .goOn (.inl rfl) (.inl rfl) rfl (.inr (.inr (by simp [drainSnapshot, hpp])))
  | headerLow job pp =>
    obtain rfl := consumer_injective (jobOfSide_consumer hrole)
    exact .goOn (.inl rfl) (.inl rfl) rfl (.inr (.inl (by simp [hsight, drainSnapshot])))
  | headerHigh job pp b0 =>
    obtain rfl := consumer_injective (jobOfSide_consumer hrole)
    have hpp : pp = seenProd s (drainRing job) := by simp [hsight, drainSnapshot]
    rcases actHeaderHigh_cases (consumer (drainRing job)) job pp b0 s with ⟨_, e⟩ | ⟨hle, ⟨_, e⟩ | ⟨_, e⟩⟩ <;>
      simp only [act, e]
    · exact .drainBlocked _ _ _ (.inl hpp)
    · exact .finish (.inr ⟨_, hpp ▸ hle, PerRing.get_set_same ..⟩) (.inl rfl) rfl
    · exact .goOn (.inr ⟨_, hpp ▸ hle, PerRing.get_set_same ..⟩) (.inl rfl) rfl
        (.inr (.inl (by simp [hpp, drainSnapshot])))
  | copyOut job pp pos left acc =>
    obtain rfl := consumer_injective (jobOfSide_consumer hrole)
    have hpp : pp = seenProd s (drainRing job) := by simp [hsight, drainSnapshot]
    cases left with
    | zero => exact .actDeliver job pp acc hpp
    | succ n => exact .goOn (.inl rfl) (.inl rfl) rfl (.inr (.inl (by simp [hpp, drainSnapshot])))
  | giveBack job pp =>
    obtain rfl := consumer_injective (jobOfSide_consumer hrole)
    rcases actGiveBack_cases (consumer (drainRing job)) job pp s with e | ⟨e, c0, k, rfl⟩ | ⟨todo, k, rfl, e⟩ <;>
      simp only [act, e]
    · exact .finish (.inl rfl) (.inr (commitCons_reg s _)) rfl
    · exact .goOn (.inl rfl) (.inr (commitCons_reg s .tx)) rfl (.inl rfl)
    · exact .goOn (.inl rfl) (.inr (commitCons_reg s .rx)) rfl (.inl rfl)
  | readStatus => exact .serveBits _ s rfl rfl rfl
  | report todo => exact .goOn (.inl rfl) (.inl rfl) rfl (.inl rfl)
  | ackBit todo =>
    cases todo with
    | nil => exact .finish (.inl rfl) (.inl rfl) rfl
    | cons b rest => exact .serveBits _ _ rfl rfl rfl

/-! ### What an action of the producer does -/

theorem ProducerMoves.goOn {u : State} {ph : Phase} (hprod : u.prodPos.get g = s.prodPos.get g)
    (hreg : u.reg.get (pubProd g) = s.reg.get (pubProd g)) (hw : writing s g = none)
    (hph : writingFrame g (some ph) = none) : ProducerMoves g s (u.goOn (producer g) ph) :=
  .rests hprod hreg (by rw [writing_goOn, hw, hph])

theorem ProducerMoves.finish {u : State} {r : Result} (hprod : u.prodPos.get g = s.prodPos.get g)
    (hreg : u.reg.get (pubProd g) = s.reg.get (pubProd g)) (hw : writing s g = none) :
    ProducerMoves g s (u.finish (producer g) r) :=
  .rests hprod hreg (by rw [writing_idle (finish_busy u _ r), hw])

theorem ProducerMoves.drainBlocked (job : DrainJob) (cause : BlockCause) (pp : Word) (hw : writing s g = none) :
    ProducerMoves g s (drainBlocked (producer g) job cause pp s) := by
  rcases drainBlocked_cases (producer g) job cause pp s with e | e | ⟨todo, _, e⟩ <;> rw [e]
  · exact .finish rfl rfl hw
  · exact .goOn rfl rfl hw rfl
  · exact .goOn rfl rfl hw rfl

theorem ProducerMoves.serveBits (todo : List IntBit) (u : State) (hprod : u.prodPos = s.prodPos) (hreg : u.reg = s.reg)
    (hw : writing s g = none) : ProducerMoves g s (serveBits (producer g) todo u) := by
  have hprod' := congrArg (PerRing.get · g) hprod
  have hreg' := congrArg (PerPtr.get · (pubProd g)) hreg
  rcases serveBits_cases (producer g) todo u with ⟨_, e⟩ | ⟨_, _, e⟩ | ⟨_, _, e⟩ | ⟨_, _, e⟩ <;> rw [e]
  · exact .finish hprod' hreg' hw
  · exact .goOn hprod' hreg' hw rfl
  · exact .goOn hprod' hreg' hw rfl
  · exact .goOn hprod' hreg' hw rfl

theorem ProducerMoves.actDeliver (job : DrainJob) (pp : Word) (bytes : List Byte) (hw : writing s g = none) :
    ProducerMoves g s (actDeliver (producer g) job pp bytes s) := by
  rcases actDeliver_cases (producer g) job pp bytes s with ⟨_, e⟩ | ⟨_, _, _, _, e⟩ | ⟨_, _, _, _, e⟩ | ⟨_, _, _, e⟩ <;>
    rw [e]
  · exact .finish rfl rfl hw
  · exact .goOn rfl rfl hw rfl
  · exact .goOn rfl rfl hw rfl
  · exact .goOn rfl rfl hw rfl

/-- The space test claims the frame, of as many bytes as its header and the payload at the port have. -/
theorem ProducerMoves.actFrameRead (hc : 0 < s.cap g) (job : EnqJob) (len : Half)
    (hpay : (s.port.get (producer g)).pbuf.length = len.toNat) (hw : writing s g = none) :
    ProducerMoves g s (actFrameRead (producer g) g job len s) := by
  have hcp := ptrRead_producer s g
  rcases actFrameRead_cases (producer g) g job len s with ⟨_, e⟩ | ⟨hfit, e⟩ <;> rw [e]
  · exact .finish rfl rfl hw
  · rw [hcp] at hfit ⊢
    refine .claims (frameSize len) rfl rfl hw ?_ ((le_freeSpace _ _ _ _ hc).mp hfit)
    rw [writing_goOn]
    simp [writingFrame, hpay, frameSize_eq]

/-- Each action of the side that produces ring `g`; drains and the latch do not touch the producer's end. -/
theorem act_producerMoves {ph : Phase} (hc : 0 < s.cap g) (hpay : PayloadsHeld s)
    (hbusy : (s.port.get (producer g)).busy = some ph) (hrole : phaseOfSide (producer g) ph = true) :
    ProducerMoves g s (act (producer g) ph s) := by
  have hw := writing_busy hbusy
  cases ph with
  | frameRead g' job len =>
    obtain rfl := producer_injective ((frameRole_iff _ g' job).mp hrole).1
    exact .actFrameRead hc job len (hpay _ _ _ _ hbusy) hw
  | frameWrite g' job len cp pos rest =>
    obtain rfl := producer_injective ((frameRole_iff _ g' job).mp hrole).1
    cases rest with
    | cons b rest =>
      exact .writes cp (frameSize len) pos rest.length rfl rfl (by simp [hw, writingFrame])
        ((writing_goOn ..).trans (by simp [writingFrame]))
    | nil =>
      have hempty : writing s g = some (cp, frameSize len, pos, 0) := by simp [hw, writingFrame]
      show ProducerMoves g s (actPublish (producer g) g job len cp s)
      rcases actPublish_cases (producer g) g job len cp s with ⟨e, _⟩ | ⟨e, _⟩ <;> rw [e]
      · exact .publishes cp _ pos hempty (writing_idle (finish_busy ..)) (by simp) (by simp)
      · exact .publishes cp _ pos hempty (writing_goOn ..) (by simp) (by simp)
  | raiseLast b => exact .finish rfl rfl hw
  | drainRead job =>
    rcases actDrainRead_cases (producer g) job s with ⟨_, e⟩ | ⟨_, e⟩ <;> simp only [act, e]
    · exact .drainBlocked _ _ _ hw
    · exact .goOn rfl rfl hw rfl
  | headerLow job pp => exact .goOn rfl rfl hw rfl
  | headerHigh job pp b0 =>
    rcases actHeaderHigh_cases (producer g) job pp b0 s with ⟨_, e⟩ | ⟨_, ⟨_, e⟩ | ⟨_, e⟩⟩ <;> simp only [act, e]
    · exact .drainBlocked _ _ _ hw
    · exact .finish rfl rfl hw
    · exact .goOn rfl rfl hw rfl
  | copyOut job pp pos left acc =>
    cases left with
    | zero => exact .actDeliver _ _ _ hw
    | succ n => exact .goOn rfl rfl hw rfl
  | giveBack job pp =>
    rcases actGiveBack_cases (producer g) job pp s with e | ⟨e, _⟩ | ⟨_, _, _, e⟩ <;> simp only [act, e]
    · exact .finish rfl (setReg_pubCons_pubProd ..) hw
    · exact .goOn rfl (setReg_pubCons_pubProd ..) hw rfl
    · exact .goOn rfl (setReg_pubCons_pubProd ..) hw rfl
  | readStatus => exact .serveBits _ s rfl rfl hw
  | report todo => exact .goOn rfl rfl hw rfl
  | ackBit todo =>
    cases todo with
    | nil => exact .finish rfl rfl hw
    | cons b rest => exact .serveBits _ _ rfl rfl hw

end

/-! ### What a side does to both rings -/

/-- Side `sd` did something a protocol run allows: it wrote only what it owns, goes on with an operation it may issue,
holds a payload for a frame it is about to write, and moved its ends of the rings as their rules allow. -/
structure SideMoves (sd : Side) (s t : State) : Prop where
  cfg : t.cfg = s.cfg
  seen : t.seen = s.seen
  own : OwnWritesOnly sd s t
  role : RoleKept sd t
  payload : ∀ g job len, (t.port.get sd).busy = some (.frameRead g job len) →
    (t.port.get sd).pbuf.length = len.toNat
  consumer : ∀ g, sd = consumer g → ConsumerMoves g s t
  producer : ∀ g, sd = producer g → ProducerMoves g s t

theorem SideMoves.act {s : State} {sd : Side} {ph : Phase} (h : Safe s) (hbusy : (s.port.get sd).busy = some ph) :
    SideMoves sd s (act sd ph s) where
  cfg := (act_frame sd ph s).cfg
  seen := (act_frame sd ph s).seen
  own := act_own s (h.roles sd ph hbusy)
  role := act_role s (h.roles sd ph hbusy)
  payload g job len hb := nomatch (act_goesOn s (h.roles sd ph hbusy) _ hb).2
  consumer g hsd := by
    subst hsd
    exact act_consumerMoves hbusy (h.roles _ ph hbusy)
  producer g hsd := by
    subst hsd
    exact act_producerMoves (h.ranged.cap_pos g) h.payloads hbusy (h.roles _ ph hbusy)

/-- A phase that holds no producer position and writes no frame. -/
def holdsNothing (ph : Option Phase) : Prop := ∀ g, drainSnapshot g ph = none ∧ writingFrame g ph = none

/-- An idle side moves the rings as their rules allow if it ends with nothing held and only gives back what it had
drained. -/
theorem SideMoves.ofIdle {s t : State} {sd : Side} (hidle : (s.port.get sd).busy = none)
    (cfg : t.cfg = s.cfg) (seen : t.seen = s.seen) (own : OwnWritesOnly sd s t) (role : RoleKept sd t)
    (payload : ∀ g job len, (t.port.get sd).busy = some (.frameRead g job len) →
      (t.port.get sd).pbuf.length = len.toNat)
    (hheld : holdsNothing (t.port.get sd).busy) (hprod : t.prodPos = s.prodPos) (hcons : t.consPos = s.consPos)
    (hregProd : ∀ g, t.reg.get (pubProd g) = s.reg.get (pubProd g))
    (hregCons : ∀ g, t.reg.get (pubCons g) = s.reg.get (pubCons g) ∨ t.reg.get (pubCons g) = s.consPos.get g) :
    SideMoves sd s t where
  cfg := cfg
  seen := seen
  own := own
  role := role
  payload := payload
  consumer g hsd := by
    subst hsd
    refine ⟨.inl (by rw [hcons]), hregCons g, .inr ?_⟩
    rw [seenProd, (hheld g).1, seen]; rfl
  producer g hsd := by
    subst hsd
    refine .rests (by rw [hprod]) (hregProd g) ?_
    rw [writing_idle hidle, writing, (hheld g).2]

theorem OwnWritesOnly.port_of_ne {s t : State} {sd sd' : Side} (h : OwnWritesOnly sd s t) (hne : sd' ≠ sd) :
    t.port.get sd' = s.port.get sd' := by
  rw [eq_otherSide hne]
  exact h.port

theorem ProducerMoves.seenCons_cases {s t : State} {g : Ring} (h : ProducerMoves g s t) (hseen : t.seen = s.seen) :
    seenCons t g = seenCons s g ∨ seenCons t g = s.seen.get (pubCons g) := by
  simp only [seenCons_eq, hseen]
  cases h with
  | rests _ _ hw => exact .inl (by rw [hw])
  | claims _ _ _ _ ht => exact .inr (by rw [ht]; rfl)
  | writes _ _ _ _ _ _ hs ht => exact .inl (by rw [hs, ht]; rfl)
  | publishes _ _ _ _ ht => exact .inr (by rw [ht]; rfl)

/-- After a side's move each end works with the position it worked with before, or with the copy. -/
theorem SideMoves.sights {s t : State} {sd : Side} (h : SideMoves sd s t) (g : Ring) :
    (seenProd t g = seenProd s g ∨ seenProd t g = s.seen.get (pubProd g)) ∧
    (seenCons t g = seenCons s g ∨ seenCons t g = s.seen.get (pubCons g)) := by
  have hne := producer_ne_consumer g
  rcases producer_or_consumer sd g with rfl | rfl
  · exact ⟨.inl (by rw [seenProd, seenProd, h.own.port_of_ne hne.symm, h.seen]),
      (h.producer g rfl).seenCons_cases h.seen⟩
  · exact ⟨(h.consumer g rfl).sight, .inl (by rw [seenCons, seenCons, h.own.port_of_ne hne, h.seen])⟩

theorem Ranged.copies {s : State} (h : Ranged s) (g : Ring) :
    (s.seen.get (pubProd g)).toNat < s.cap g ∧ (s.seen.get (pubCons g)).toNat < s.cap g := by
  have hprod := h.seen (pubProd g)
  have hcons := h.seen (pubCons g)
  rw [ptrRing_pubProd] at hprod
  rw [ptrRing_pubCons] at hcons
  exact ⟨hprod, hcons⟩

/-- Whatever a side does as the protocol allows keeps a safe state safe. -/
theorem Safe.sideMoves {s t : State} {sd : Side} (h : Safe s) (hr : Ranged t) (hm : SideMoves sd s t) : Safe t := by
  have hother (sd' : Side) (hne : sd' ≠ sd) : t.port.get sd' = s.port.get sd' := hm.own.port_of_ne hne
  have hcap (g : Ring) : t.cap g = s.cap g := by simp only [State.cap, hm.cfg]
  refine ⟨hr, fun sd' ph hph => ?_, fun sd' g job len hph => ?_, fun g => ?_, fun g => ?_⟩
  · by_cases e : sd' = sd
    · subst e; exact hm.role ph hph
    · rw [hother sd' e] at hph; exact h.roles sd' ph hph
  · by_cases e : sd' = sd
    · subst e; exact hm.payload g job len hph
    · rw [hother sd' e] at hph ⊢; exact h.payloads sd' g job len hph
  · obtain ⟨hprodCopy, hconsCopy⟩ := h.ranged.copies g
    obtain ⟨hprodOld, hconsOld⟩ := h.snapshots g
    obtain ⟨hprodNew, hconsNew⟩ := hm.sights g
    rw [hcap]
    refine ⟨?_, ?_⟩
    · rcases hprodNew with e | e <;> rwa [e]
    · rcases hconsNew with e | e <;> rwa [e]
  · rcases producer_or_consumer sd g with rfl | rfl
    · have hne := producer_ne_consumer g
      have hport := hother _ hne.symm
      exact (h.ordered g).producerMoves h.ranged (hm.producer g rfl) hm.cfg hm.seen (hm.own.cons g hne)
        (hm.own.reg _ (by rwa [owner_pubCons])) (by rw [seenProd, seenProd, hport, hm.seen])
    · have hne := producer_ne_consumer g
      have hport := hother _ hne
      exact (h.ordered g).consumerMoves h.ranged (hm.consumer g rfl) hm.cfg hm.seen (hm.own.prod g hne.symm)
        (hm.own.reg _ (by rw [owner_pubProd]; exact hne.symm)) (by rw [writing, writing, hport])

/-! ### What issuing an operation does to both rings -/

theorem firstAction_holdsNothing {s : State} {i : Instr} {ph : Phase} (h : firstAction s i = some ph) :
    holdsNothing (some ph) := by
  intro g
  cases i with
  | enqueue | send | generateRx | drain | processTx | dispatch => cases h; exact ⟨rfl, rfl⟩
  | _ => cases h

/-- An operation that begins with a frame has at its port a payload of the frame's length. -/
theorem firstAction_payload {s : State} {i : Instr} {pbuf : List Byte} {g : Ring} {job : EnqJob} {len : Half}
    (h : firstAction s i = some (.frameRead g job len)) (hfit : i.payloadFits pbuf = true) :
    pbuf.length = len.toNat := by
  cases i with
  | enqueue | send | generateRx => cases h; exact of_decide_eq_true hfit
  | _ => cases h

/-- An operation of one action that is no raw write moves no position, and stores no pointer but, by COMMIT, what its
side has drained. -/
theorem SingleAction.protocol {i : Instr} {s u : State} (h : SingleAction i s u) (hraw : isRaw i = false) :
    u.cfg = s.cfg ∧ u.seen = s.seen ∧ u.prodPos = s.prodPos ∧ u.consPos = s.consPos ∧
    ∀ g, u.reg.get (pubProd g) = s.reg.get (pubProd g) ∧
      (u.reg.get (pubCons g) = s.reg.get (pubCons g) ∨ u.reg.get (pubCons g) = s.consPos.get g) := by
  cases h with
  | commit g =>
    refine ⟨rfl, rfl, rfl, rfl, fun g' => ⟨setReg_pubCons_pubProd .., ?_⟩⟩
    by_cases e : g' = g
    · subst e; exact .inr (commitCons_reg s g')
    · exact .inl (PerPtr.get_set_other _ _ _ _ fun h => e (pubCons_injective h))
  | storePtr _ _ h | storeByte _ _ _ h => rw [hraw] at h; cases h
  | _ => exact ⟨rfl, rfl, rfl, rfl, fun _ => ⟨rfl, .inl rfl⟩⟩

theorem Safe.present {s : State} {sd : Side} (h : Safe s) (hidle : (s.port.get sd).busy = none) (rq : Request)
    (n : Nat) : Safe (s.present sd rq n) := by
  have hnone : ((s.present sd rq n).port.get sd).busy = none := by simpa using hidle
  exact h.sideMoves (h.ranged.present ..)
    (.ofIdle hidle rfl rfl (.atPort ..) (.idle hnone) (fun _ _ _ e => nomatch hnone.symm.trans e)
      (hnone ▸ fun _ => ⟨rfl, rfl⟩) rfl rfl (fun _ => rfl) (fun _ => .inl rfl))

/-- A side that ends an operation at once, after an action that moves no position and stores no pointer but what it
has drained. -/
theorem Safe.endsAtOnce {s u : State} {sd : Side} {r : Result} (h : Safe s) (hidle : (s.port.get sd).busy = none)
    (hr : Ranged u) (cfg : u.cfg = s.cfg) (seen : u.seen = s.seen) (own : OwnWritesOnly sd s u)
    (hprod : u.prodPos = s.prodPos) (hcons : u.consPos = s.consPos)
    (hreg : ∀ g, u.reg.get (pubProd g) = s.reg.get (pubProd g) ∧
      (u.reg.get (pubCons g) = s.reg.get (pubCons g) ∨ u.reg.get (pubCons g) = s.consPos.get g)) :
    Safe (u.finish sd r) :=
  have hnone := finish_busy u sd r
  h.sideMoves (hr.finish ..)
    (.ofIdle hidle cfg seen (own.finish r) (.finish sd u r) (fun _ _ _ e => nomatch hnone.symm.trans e)
      (hnone ▸ fun _ => ⟨rfl, rfl⟩) hprod hcons (fun g => (hreg g).1) (fun g => (hreg g).2))

/-- An operation of several actions begins: nothing is held or claimed before its first action. -/
theorem Safe.begins {i : Instr} {s : State} {ph : Phase} (h : Safe s) (hready : Ready i s)
    (hph : firstAction s i = some ph) (hfit : i.payloadFits (s.port.get s.side).pbuf = true) :
    Safe (s.dropResults.goOn s.side ph) := by
  obtain ⟨hidle, hmay⟩ := hready
  have hbusy := goOn_busy s.dropResults s.side ph
  refine h.sideMoves (h.ranged.dropResults.goOn ..)
    (.ofIdle hidle rfl rfl (OwnWritesOnly.goOn (.atPort ..) ph) (.goOn _ (firstAction_role hmay hph))
      (fun g job len e => ?_) (hbusy ▸ firstAction_holdsNothing hph) rfl rfl (fun _ => rfl) (fun _ => .inl rfl))
  rw [hbusy] at e
  cases e
  have := firstAction_payload hph hfit
  simpa using this

/-- Issuing an instruction that is no raw write keeps a safe state safe. -/
theorem Safe.exec {i : Instr} {s t : State} (h : Safe s) (hraw : isRaw i = false) (ht : exec i s = .next t) :
    Safe t := by
  have hready := exec_ready ht
  have hdrop : OwnWritesOnly s.side s s.dropResults := .atPort ..
  refine exec_keeps Safe ht ?_ (fun ph hph hfit => h.begins hready hph hfit)
    (fun u ph hph hu => hu.sideMoves (hu.ranged.act ..) (.act hu hph)) fun u hu => ?_
  · exact h.endsAtOnce hready.1 h.ranged.dropResults rfl rfl hdrop rfl rfl fun _ => ⟨rfl, .inl rfl⟩
  · obtain ⟨hcfg, hseen, hprod, hcons, hreg⟩ := hu.protocol hraw
    exact h.endsAtOnce hready.1 (h.ranged.dropResults.single hu) hcfg hseen (hdrop.trans hu.own) hprod hcons hreg

/-! ### Every step -/

theorem Safe.run {s : State} (h : Safe s) (n : Nat) (sd : Side) : Safe (run n sd s) :=
  run_induct Safe sd (fun _ _ hph hu => hu.sideMoves (hu.ranged.act ..) (.act hu hph)) n s h

/-- Copies that stay or take the value of their register keep a safe state safe. -/
theorem Safe.setSeen {s t : State} (h : Safe s) (ht : t = { s with seen := t.seen, waited := t.waited })
    (hseen : ∀ p, t.seen.get p = s.seen.get p ∨ t.seen.get p = s.reg.get p) : Safe t := by
  have hr := h.ranged.setSeen ht hseen
  rw [ht] at hr ⊢
  refine ⟨hr, h.roles, h.payloads, fun g => ⟨?_, ?_⟩, fun g => (h.ordered g).setSeen h.ranged _ _ hseen⟩
  · rcases seenProd_setSeen s g t.seen t.waited with e | ⟨e, _⟩ <;> rw [e]
    · exact (h.snapshots g).1
    · exact (hr.copies g).1
  · rcases seenCons_setSeen s g t.seen t.waited with e | ⟨e, _⟩ <;> rw [e]
    · exact (h.snapshots g).2
    · exact (hr.copies g).2

/-- Settles O50: the side an input makes act moves both rings as their rules allow, and a SYNC, an input's own or a due
one, gives a copy the value of its register. -/
theorem protocolStepsKeepSafe : Obligations.ProtocolStepsKeepSafe := by
  intro s t h hproto ht
  rcases step_cases s t ht with ⟨_, rfl⟩ | ⟨x, rest, u, hin, hu, rfl⟩
  · exact h
  · have hs := safe_setInputs rest h
    suffices hsafe : Safe u from hsafe.setSeen (settle_eq s _ u) (s.settle_seen_cases _ u)
    cases x with
    | sync p => cases hu; exact hs.setSeen rfl (syncPtr_seen_cases _ p)
    | resume sd n => cases hu; exact hs.run ..
    | issue sd rq n =>
      obtain ⟨i, hd, he⟩ := takeInput_issue_next hu
      have hidle : ((s.setInputs rest).port.get sd).busy = none := by simpa using (exec_ready he).1
      exact (hs.present hidle rq _).exec (hproto sd rq n rest i hin hd) he

end Sys2Proof.Machine
end

section
/-! The state after reset (spec/10_state.md R46, spec/70_reset_and_hazards.md R231) and the `irq` output (R39). -/

namespace Sys2Proof.Machine

open Host (Outcome)

section

variable (c : Config)

@[simp] theorem resetWith_prodPos (g : Ring) : (State.resetWith c).prodPos.get g = 0 := by cases g <;> rfl

@[simp] theorem resetWith_consPos (g : Ring) : (State.resetWith c).consPos.get g = 0 := by cases g <;> rfl

@[simp] theorem resetWith_reg (p : Ptr) : (State.resetWith c).reg.get p = 0 := by cases p <;> rfl

@[simp] theorem resetWith_seen (p : Ptr) : (State.resetWith c).seen.get p = 0 := by cases p <;> rfl

@[simp] theorem resetWith_store (g : Ring) : (State.resetWith c).store.get g = [] := by cases g <;> rfl

@[simp] theorem resetWith_port (sd : Side) : (State.resetWith c).port.get sd = Port.reset := by cases sd <;> rfl

@[simp] theorem resetWith_events (sd : Side) : (State.resetWith c).events.get sd = [] := by cases sd <;> rfl

@[simp] theorem resetWith_irq : (State.resetWith c).irq = false := by simp [State.irq, State.resetWith]

@[simp] theorem resetWith_seenProd (g : Ring) : seenProd (State.resetWith c) g = 0 := by
  simp [seenProd, Port.reset, drainSnapshot]

@[simp] theorem resetWith_seenCons (g : Ring) : seenCons (State.resetWith c) g = 0 := by
  simp [seenCons, Port.reset, writingFrame]

end

/-- Reading INT_CLEAR at an idle port presents 0. -/
theorem exec_regRdIntClear (s : State) (h : (s.port.get s.side).busy = none) :
    exec .regRdIntClear s = .next ((s.dropResults.setRdata s.side 0).finish s.side .ok) :=
  accept_ready _ _ _ h rfl

/-- Settles O1: the fields of the reset state, and the read of INT_CLEAR at its idle ports. -/
theorem resetClearsTheBlock : Obligations.ResetClearsTheBlock := by
  intro c
  refine ⟨fun g => ⟨resetWith_prodPos c g, resetWith_consPos c g⟩,
    fun p => ⟨resetWith_reg c p, resetWith_seen c p⟩, rfl, rfl, resetWith_irq c, fun g i => ?_,
    fun sd => ⟨?_, resetWith_events c sd⟩, fun sd => ⟨_, exec_regRdIntClear _ ?_, ?_⟩⟩
  · rw [resetWith_store]; rfl
  · rw [resetWith_port]; rfl
  · rw [resetWith_port]; rfl
  · simp

/-- After reset both rings are empty, and all their positions are 0. -/
theorem resetWith_ordered {c : Config} (hc : c.valid = true) (g : Ring) : RingOrdered (State.resetWith c) g := by
  have hzero : dist 0#32 0#32 ((State.resetWith c).cap g) = 0 := dist_self _ _ (cap_pos hc g)
  have hidle : writing (State.resetWith c) g = none := writing_idle (by rw [resetWith_port]; rfl)
  constructor <;> simp [beyond, hzero, claimed_eq, hidle, FrameOnCourse.idle]

theorem resetWith_safe {c : Config} (hc : c.valid = true) : Safe (State.resetWith c) where
  ranged := resetIsRanged c hc
  roles sd ph h := by rw [resetWith_port] at h; cases h
  payloads sd g job len h := by rw [resetWith_port] at h; cases h
  snapshots g := by
    rw [resetWith_seenProd, resetWith_seenCons]
    exact ⟨cap_pos hc g, cap_pos hc g⟩
  ordered := resetWith_ordered hc

/-- An empty ring holds no frame. -/
theorem framesTo_empty {s : State} {g : Ring} {pp : Word} (h : availTo s g pp = 0) : framesTo s g pp = ([], 0) := by
  rw [framesTo, h]; rfl

theorem resetWith_empty {c : Config} (hc : c.valid = true) (g : Ring) :
    availTo (State.resetWith c) g ((State.resetWith c).prodPos.get g) = 0 := by
  rw [availTo, resetWith_prodPos, resetWith_consPos]
  exact dist_self _ _ (cap_pos hc g)

theorem resetWith_faithful {c : Config} (hc : c.valid = true) (g : Ring) : StreamFaithful (State.resetWith c) g where
  whole := by rw [StreamWhole, framesTo_empty (resetWith_empty hc g), resetWith_empty hc g]
  writing _ _ _ _ _ h := by rw [resetWith_port] at h; cases h
  header _ _ h := by rw [resetWith_port] at h; cases h
  reading _ _ _ h := by rw [resetWith_port] at h; cases h
  copying _ _ _ _ _ h := by rw [resetWith_port] at h; cases h

/-- Settles O51: nothing is in progress and nothing lies in a ring. -/
theorem resetIsSafe : Obligations.ResetIsSafe := by
  intro c hc
  refine ⟨resetWith_safe hc, fun g => ?_, fun g => ⟨resetWith_faithful hc g, ?_⟩⟩
  · rw [resetWith_port]
    exact Nat.zero_le _
  · rw [queued, framesTo_empty (resetWith_empty hc g)]

/-! ### `irq` -/

theorem intMask_getLsbD (k : Nat) : intMask.getLsbD k = decide (k < 3) := by
  rw [show intMask = BitVec.ofNat 32 (2 ^ 3 - 1) from rfl, BitVec.getLsbD_ofNat, Nat.testBit_two_pow_sub_one,
    ← Bool.decide_and]
  exact decide_eq_decide.mpr ⟨fun h => h.2, fun h => ⟨by omega, h⟩⟩

theorem word_ne_zero_iff (v : Word) : v ≠ 0 ↔ ∃ k, v.getLsbD k = true := by
  refine ⟨fun h => ?_, fun ⟨k, hk⟩ h0 => by simp [h0] at hk⟩
  by_contra hnone
  simp only [not_exists, Bool.not_eq_true] at hnone
  exact h (BitVec.eq_of_getLsbD_eq fun k _ => by simp [hnone k])

/-- Settles O16: the mask keeps the three implemented bits, and a word is not 0 exactly when one of its bits is set. -/
theorem irqIsRecordedAndEnabled : Obligations.IrqIsRecordedAndEnabled := by
  intro s
  have hbit (k : Nat) : (s.intStatus &&& s.intEnable &&& intMask).getLsbD k = true ↔
      k < 3 ∧ s.intStatus.getLsbD k = true ∧ s.intEnable.getLsbD k = true := by
    simp only [BitVec.getLsbD_and, intMask_getLsbD, Bool.and_eq_true, decide_eq_true_eq]
    exact and_comm
  simp only [State.irq, decide_eq_true_eq, word_ne_zero_iff, hbit]

end Sys2Proof.Machine
end

section
/-! Turns (spec/10_state.md R24, R45): an operation cut into two turns, the atomic actions a step performs, and what a
run of steps does to a reader-side copy. -/

namespace Sys2Proof.Machine

open Host (Outcome)

/-! ### The quantum has no part in an action -/

/-- The same state with another quantum. -/
def State.withQuantum (s : State) (q : Nat) : State := { s with quantum := q }

theorem ite_withQuantum (c : Prop) [Decidable c] (s t : State) (q : Nat) :
    (if c then s else t).withQuantum q = if c then s.withQuantum q else t.withQuantum q :=
  apply_ite (State.withQuantum · q) c s t

theorem drainBlocked_withQuantum (sd : Side) (job : DrainJob) (cause : BlockCause) (pp : Word) (s : State) (q : Nat) :
    drainBlocked sd job cause pp (s.withQuantum q) = (drainBlocked sd job cause pp s).withQuantum q := by
  cases job with
  | plain g => rfl
  | process | dispatch =>
    simp only [drainBlocked, ite_withQuantum]
    rfl

theorem serveBits_withQuantum (sd : Side) (todo : List IntBit) (s : State) (q : Nat) :
    serveBits sd todo (s.withQuantum q) = (serveBits sd todo s).withQuantum q := by
  cases todo with
  | nil => rfl
  | cons b rest => cases b <;> rfl

theorem actPublish_withQuantum (sd : Side) (g : Ring) (job : EnqJob) (len : Half) (cp : Word) (s : State) (q : Nat) :
    actPublish sd g job len cp (s.withQuantum q) = (actPublish sd g job len cp s).withQuantum q := by
  cases job with
  | plain => rfl
  | generate =>
    simp only [actPublish, ite_withQuantum]
    rfl

theorem actDeliver_withQuantum (sd : Side) (job : DrainJob) (pp : Word) (bytes : List Byte) (s : State) (q : Nat) :
    actDeliver sd job pp bytes (s.withQuantum q) = (actDeliver sd job pp bytes s).withQuantum q := by
  cases job with
  | plain | dispatch => rfl
  | process c0 k =>
    have hcfg : (s.withQuantum q).cfg = s.cfg := rfl
    simp only [actDeliver, hcfg]
    cases s.cfg.txDrainMode <;> rfl

theorem actHeaderHigh_withQuantum (sd : Side) (job : DrainJob) (pp : Word) (b0 : Byte) (s : State) (q : Nat) :
    actHeaderHigh sd job pp b0 (s.withQuantum q) = (actHeaderHigh sd job pp b0 s).withQuantum q := by
  cases job with
  | plain | process | dispatch =>
    simp only [actHeaderHigh, drainBlocked_withQuantum, ite_withQuantum]
    rfl

/-- An action does what it does under any quantum. -/
theorem act_withQuantum (sd : Side) (ph : Phase) (s : State) (q : Nat) :
    act sd ph (s.withQuantum q) = (act sd ph s).withQuantum q := by
  cases ph with
  | frameRead g job len =>
    simp only [act, actFrameRead, ite_withQuantum]
    rfl
  | frameWrite g job len cp pos rest =>
    cases rest with
    | cons b rest => rfl
    | nil => exact actPublish_withQuantum ..
  | drainRead job =>
    simp only [act, actDrainRead, drainBlocked_withQuantum, ite_withQuantum]
    rfl
  | headerHigh job pp b0 => exact actHeaderHigh_withQuantum ..
  | copyOut job pp pos left acc =>
    cases left with
    | succ n => rfl
    | zero => exact actDeliver_withQuantum ..
  | giveBack job pp =>
    cases job with
    | plain | dispatch => rfl
    | process c0 k =>
      simp only [act, actGiveBack, ite_withQuantum]
      rfl
  | readStatus => exact serveBits_withQuantum ..
  | ackBit todo =>
    cases todo with
    | nil => rfl
    | cons b rest => exact serveBits_withQuantum sd rest (s.clearBit b) q
  | raiseLast | headerLow | report => rfl

theorem run_withQuantum (n : Nat) (sd : Side) (s : State) (q : Nat) :
    run n sd (s.withQuantum q) = (run n sd s).withQuantum q := by
  induction n generalizing s with
  | zero => rfl
  | succ n ih =>
    cases hb : (s.port.get sd).busy with
    | none => rw [run_idle _ _ _ hb, run_idle _ _ (s.withQuantum q) hb]
    | some ph => rw [run_busy n sd s ph hb, run_busy n sd (s.withQuantum q) ph hb, act_withQuantum, ih]

/-- Two turns, one after the other. -/
theorem run_add (m n : Nat) (sd : Side) (s : State) : run (m + n) sd s = run n sd (run m sd s) := by
  induction m generalizing s with
  | zero => rw [Nat.zero_add, run_zero]
  | succ m ih =>
    cases hb : (s.port.get sd).busy with
    | none => rw [run_idle _ _ _ hb, run_idle _ _ _ hb, run_idle _ _ _ hb]
    | some ph => rw [Nat.add_right_comm, run_busy _ _ _ ph hb, run_busy _ _ _ ph hb, ih]

/-! ### An operation cut into two turns -/

/-- What an issued operation does under one quantum it does under another. -/
theorem accept_withQuantum {i : Instr} {s t : State} {go : State → Outcome State Fault Refusal} (q : Nat)
    (h : accept i s go = .next t) (hgo : ∀ u, go u = .next t → go (u.withQuantum q) = .next (t.withQuantum q)) :
    accept i (s.withQuantum q) go = .next (t.withQuantum q) := by
  obtain ⟨hidle, hmay, h⟩ := accept_next i s t go h
  rw [accept_ready i (s.withQuantum q) go hidle hmay]
  exact hgo _ h

theorem writePointer_withQuantum {p : Ptr} {s t : State} (q : Nat) (h : writePointer p s = .next t) :
    writePointer p (s.withQuantum q) = .next (t.withQuantum q) := by
  rcases writePointer_cases p s with ⟨hv, e⟩ | ⟨_, e⟩ <;> rw [e] at h <;> cases h
  exact if_pos hv

/-- An operation of one action does not look at the quantum. -/
theorem exec_single_withQuantum {i : Instr} {s t : State} (q : Nat) (h : exec i s = .next t)
    (hph : firstAction s i = none) : exec i (s.withQuantum q) = .next (t.withQuantum q) := by
  unfold exec at h ⊢
  cases i with
  | enqueue | drain | dispatch | send | processTx | generateRx => cases hph
  | ptrWrite | regWrTxTailPtr | regWrRxHeadPtr | regWrHostTxHeadPub | regWrHostRxTailPub =>
    exact accept_withQuantum q h fun _ hu => writePointer_withQuantum q hu
  | memRd | memWr =>
    refine accept_withQuantum q h fun u hu => ?_
    split at hu <;> cases hu
    exact if_pos ‹_›
  | _ => exact accept_withQuantum q h fun u hu => by cases hu; rfl

/-- Settles O9: an operation of one action ends in the first turn, and what is left of one of several is a run. -/
theorem turnsComposeForEveryInstruction : Obligations.TurnsComposeForEveryInstruction := by
  intro i s t m n h
  change exec i (s.withQuantum m) = .next t at h
  show exec i ((s.withQuantum m).withQuantum (m + n)) = .next ((run n s.side t).withQuantum (m + n))
  cases hph : firstAction (s.withQuantum m) i with
  | none =>
    obtain ⟨u, _, rfl⟩ := exec_single h hph
    rw [exec_single_withQuantum _ h hph]
    exact congrArg (Outcome.next <| State.withQuantum · (m + n)) (run_finish n s.side u .ok).symm
  | some ph =>
    have hready : Ready i (s.withQuantum m) := exec_ready h
    obtain ⟨hfit, hcases⟩ := exec_several_cases h hph
    change i.payloadFits (s.port.get s.side).pbuf = true at hfit
    have hfit' : ¬ i.payloadFits (s.port.get s.side).pbuf = false := by simp [hfit]
    have hwhole : exec i ((s.withQuantum m).withQuantum (m + n)) = _ := exec_several hready hph
    rcases hcases with ⟨hlarge, rfl⟩ | ⟨hsmall, rfl⟩
    · refine hwhole.trans ((if_neg hfit').trans ((if_pos hlarge).trans ?_))
      exact congrArg (Outcome.next <| State.withQuantum · (m + n))
        (run_finish n s.side (s.withQuantum m).dropResults .frameTooLarge).symm
    · refine hwhole.trans ((if_neg hfit').trans ((if_neg (ne_true_of_eq_false hsmall)).trans ?_))
      show Outcome.next (run (m + n) s.side (((s.withQuantum m).dropResults.goOn s.side ph).withQuantum (m + n))) =
        Outcome.next ((run n s.side (run m s.side ((s.withQuantum m).dropResults.goOn s.side ph))).withQuantum (m + n))
      rw [run_withQuantum, run_add]

/-! ### The next input -/

theorem inputActions_issue (s : State) (sd : Side) (rq : Request) (n : Nat) (i : Instr) (hd : decode rq.txn = .ok i) :
    s.inputActions (.issue sd rq n) = s.issueActions i n := by
  simp [State.inputActions, hd]

/-- Settles O3: `step` is `takeInput` of the next input, case by case, and the due SYNC steps. -/
theorem stepRunsTheDecodedInstruction : Obligations.StepRunsTheDecodedInstruction := by
  intro s
  refine ⟨step_idle s, fun p rest h => ?_, fun sd n rest h => ?_, fun sd rq n rest i h hd => ?_,
    fun sd rq n rest e h hd => ?_⟩
  · rw [step_input s _ rest h, takeInput_sync]; rfl
  · rw [step_input s _ rest h, takeInput_resume]; rfl
  · rw [step_input s _ rest h, takeInput_issue sd rq n i _ hd, inputActions_issue s sd rq n i hd]; rfl
  · rw [step_input s _ rest h, takeInput_issue_error sd rq n e _ hd]; rfl

/-! ### The actions a step performs -/

theorem issueActions_single {s : State} {i : Instr} (n : Nat) (h : firstAction s i = none) :
    s.issueActions i n = 1 := by
  cases i with
  | enqueue | drain | dispatch | send | processTx | generateRx => cases h
  | _ => rfl

theorem issueActions_several {s : State} {i : Instr} {ph : Phase} (n : Nat) (h : firstAction s i = some ph) :
    s.issueActions i n = if frameTooLargeFor s i = true then 0 else min n 1 := by
  cases i with
  | enqueue | send => simp only [State.issueActions, frameTooLargeFor, decide_eq_true_eq]; rfl
  | drain | dispatch | processTx | generateRx => rfl
  | _ => cases h

theorem firstAction_present (s : State) (l : List Input) (sd : Side) (rq : Request) (n : Nat) (i : Instr) :
    firstAction ((s.setInputs l).present sd rq n) i = firstAction s i := by
  cases i <;> rfl

theorem frameTooLargeFor_present (s : State) (l : List Input) (sd : Side) (rq : Request) (n : Nat) (i : Instr) :
    frameTooLargeFor ((s.setInputs l).present sd rq n) i = frameTooLargeFor s i := by
  cases i <;> rfl

/-- With a bound a side that goes on performs one action, or none. -/
theorem step_resume_bounded {s : State} {sd : Side} {n l : Nat} {rest : List Input} (hl : s.cfg.syncLatency = some l)
    (h : s.inputs = .resume sd n :: rest) :
    step s = .next (s.settle (s.inputActions (.resume sd n)) (run (min n 1) sd (s.setInputs rest))) := by
  rw [step_input s _ rest h, takeInput_resume, turn_le_one (s.setInputs rest) n l hl]
  rfl

/-- With a bound an issue that answers a next state has executed its instruction in a turn of one action at the most. -/
theorem step_issue_bounded {s t : State} {sd : Side} {rq : Request} {n l : Nat} {rest : List Input} {i : Instr}
    (hl : s.cfg.syncLatency = some l) (h : s.inputs = .issue sd rq n :: rest) (hd : decode rq.txn = .ok i)
    (ht : step s = .next t) :
    ∃ u, exec i ((s.setInputs rest).present sd rq (min n 1)) = .next u ∧ t = s.settle (s.issueActions i n) u := by
  rw [step_input s _ rest h, takeInput_issue sd rq n i _ hd, turn_le_one (s.setInputs rest) n l hl,
    inputActions_issue s sd rq n i hd] at ht
  exact settleNext_next _ _ _ _ ht

/-- Settles O58: a turn of one action at the most is no run or one action of it, and the count says which. -/
theorem countedActionsArePerformed : Obligations.CountedActionsArePerformed := by
  intro s l hl
  refine ⟨fun p rest h => ?_, fun sd n rest h => ⟨fun hnone => ?_, fun ph hn hbusy => ?_⟩,
    fun sd rq n rest i t h hd ht => ?_⟩
  · exact ⟨stepActions_input s _ rest h, by rw [step_input s _ rest h, takeInput_sync]; rfl⟩
  · have hcount : s.inputActions (.resume sd n) = 0 := by
      rcases hnone with rfl | hidle
      · simp [State.inputActions]
      · simp [State.inputActions, hidle]
    refine ⟨(stepActions_input s _ rest h).trans hcount, ?_⟩
    rw [step_resume_bounded hl h, hcount]
    rcases hnone with rfl | hidle
    · rfl
    · rw [run_idle _ _ (s.setInputs rest) hidle]
  · have hmin : min n 1 = 1 := by omega
    have hcount : s.inputActions (.resume sd n) = 1 := by simp [State.inputActions, hbusy, hmin]
    refine ⟨(stepActions_input s _ rest h).trans hcount, ?_⟩
    rw [step_resume_bounded hl h, hcount, hmin, run_busy 0 sd (s.setInputs rest) ph hbusy, run_zero]
  · intro begun
    obtain ⟨u, hu, rfl⟩ := step_issue_bounded hl h hd ht
    rw [stepActions_input s _ rest h, inputActions_issue s sd rq n i hd]
    cases hph : firstAction s i with
    | none =>
      obtain ⟨v, _, rfl⟩ := exec_single hu ((firstAction_present ..).trans hph)
      refine ⟨issueActions_single n hph, ?_⟩
      rw [State.settle_port]
      exact finish_busy v sd .ok
    | some ph =>
      have hcount := issueActions_several n hph
      obtain ⟨_, hcases⟩ := exec_several_cases hu ((firstAction_present ..).trans hph)
      rw [frameTooLargeFor_present] at hcases
      have hbegun (hsmall : frameTooLargeFor s i = false) : u = run (min n 1) sd (begun.goOn sd ph) :=
        hcases.elim (fun hlarge => nomatch hsmall.symm.trans hlarge.1) And.right
      have hended (hlarge : frameTooLargeFor s i = true) : u = begun.finish sd .frameTooLarge :=
        hcases.elim And.right fun hsmall => nomatch hlarge.symm.trans hsmall.1
      refine ⟨fun hlarge => ?_, fun hsmall hn => ?_, fun hsmall hn => ?_⟩
      · have hnone : s.issueActions i n = 0 := by rw [hcount, if_pos hlarge]
        rw [hnone, hended hlarge]
        exact ⟨rfl, rfl⟩
      · subst hn
        have hnone : s.issueActions i 0 = 0 := by rw [hcount, hsmall]; rfl
        rw [hnone, hbegun hsmall]
        exact ⟨rfl, rfl⟩
      · have hmin : min n 1 = 1 := by omega
        have hone : s.issueActions i n = 1 := by rw [hcount, hsmall, hmin]; rfl
        rw [hone, hbegun hsmall, hmin]
        exact ⟨rfl, congrArg (s.settle 1) (run_goOn 0 sd begun ph)⟩

/-! ### A reader-side copy along a run -/

/-- A step leaves a copy, or gives it the value its register holds when the step is over. -/
theorem step_seen_cases {s t : State} (h : step s = .next t) (p : Ptr) :
    t.seen.get p = s.seen.get p ∨ t.seen.get p = t.reg.get p := by
  rcases step_cases s t h with ⟨_, rfl⟩ | ⟨x, rest, u, _, hu, rfl⟩
  · exact .inl rfl
  · rw [State.settle_reg]
    rcases s.settle_seen_cases (s.inputActions x) u p with e | e
    · rw [e]
      exact takeInput_seen_cases hu p
    · exact .inr e

/-- The moment at which the copy of `p` took the value it holds at moment `k` of a run. -/
def lastCrossing (f : Nat → State) (p : Ptr) : Nat → Nat
  | 0 => 0
  | k + 1 => if (f (k + 1)).seen.get p = (f k).seen.get p then lastCrossing f p k else k + 1

theorem lastCrossing_le (f : Nat → State) (p : Ptr) (k : Nat) : lastCrossing f p k ≤ k := by
  induction k with
  | zero => exact Nat.le_refl 0
  | succ k ih =>
    rw [lastCrossing]
    split <;> omega

theorem lastCrossing_mono (f : Nat → State) (p : Ptr) (k : Nat) : lastCrossing f p k ≤ lastCrossing f p (k + 1) := by
  have := lastCrossing_le f p k
  rw [lastCrossing.eq_2]
  split <;> omega

/-- Settles O30: by induction on the run, the copy holds what its register held when the copy last changed. -/
theorem readerNeverGoesBack : Obligations.ReaderNeverGoesBack := by
  intro f n p hrun hfresh
  refine ⟨lastCrossing f p, fun k _ => lastCrossing_le f p k, fun k _ => lastCrossing_mono f p k, fun k => ?_⟩
  induction k with
  | zero => exact fun _ => hfresh
  | succ k ih =>
    intro hk
    rw [lastCrossing]
    split
    · rename_i hsame
      rw [hsame]
      exact ih (by omega)
    · rename_i hnew
      exact (step_seen_cases (hrun k (by omega)) p).resolve_left hnew

end Sys2Proof.Machine
end

section
/-! Live bytes (spec/20_memory.md R78): the byte a producer writes next lies beyond its position and before the slot it
leaves free, so a step writes no byte between the published consumer position and the producer position. -/

namespace Sys2Proof.Machine

/-! ### What lies beyond a live byte -/

/-- The distance walked from the lower position leads to the upper one. -/
theorem add_dist_mod (a b : Word) (c : Nat) (hc : 0 < c) : (b.toNat + dist a b c) % c = a.toNat % c := by
  have hb := (Nat.mod_lt b.toNat hc).le
  rw [dist, Nat.add_mod_mod, ← Nat.mod_add_mod, show b.toNat % c + (a.toNat + (c - b.toNat % c)) = a.toNat + c by omega,
    Nat.add_mod_right]

/-- An index short of the upper position is none of those from the upper position on, within one turn of the ring. -/
theorem index_below_ne (a b : Word) (c k j : Nat) (hk : k < dist a b c) (hj : dist a b c + j < c) :
    (b.toNat + k) % c ≠ (a.toNat + j) % c := by
  intro h
  rw [← Nat.mod_add_mod a.toNat, ← add_dist_mod a b c (by omega), Nat.mod_add_mod, Nat.add_assoc] at h
  have hsame : k ≡ dist a b c + j [MOD c] := Nat.ModEq.add_left_cancel' _ h
  have := hsame.eq_of_lt_of_lt (by omega) hj
  omega

section

variable {s t u : State} {g : Ring}

/-- The live bytes and what the producer has claimed leave one slot free. -/
theorem RingOrdered.live_add_claimed (h : RingOrdered s g) (hc : 0 < s.cap g) :
    dist (s.prodPos.get g) (s.reg.get (pubCons g)) (s.cap g) + claimed s g ≤ s.cap g - 1 := by
  have hprod : beyond s g (s.reg.get (pubCons g)) ≤ beyond s g (s.prodPos.get g) :=
    h.regCons_cons.trans (h.cons_seenProd.trans (h.seenProd_copy.trans h.copy_prod))
  have hlive := dist_between hc hprod
  have hslot := h.slotFree
  unfold beyond at hslot
  omega

/-- The byte the producer writes next is no live byte. -/
theorem RingOrdered.live_ne_next (h : RingOrdered s g) (hc : 0 < s.cap g) {cp : Word} {size pos left k : Nat}
    (hw : writing s g = some (cp, size, pos, left + 1))
    (hk : k < dist (s.prodPos.get g) (s.reg.get (pubCons g)) (s.cap g)) :
    ((s.reg.get (pubCons g)).toNat + k) % s.cap g ≠ pos % s.cap g := by
  obtain ⟨hleft, hpos⟩ := h.onCourse cp size pos (left + 1) hw
  have hroom := h.live_add_claimed hc
  have hclaim : claimed s g = size := by simp [claimed_eq, hw]
  rw [hpos, Nat.mod_mod]
  exact index_below_ne _ _ _ _ _ hk (by omega)

/-! ### Live bytes kept -/

/-- Every byte from the published consumer position of `s` up to its producer position is the same in `t`. -/
def LiveKept (g : Ring) (s t : State) : Prop :=
  ∀ k, k < dist (s.prodPos.get g) (s.reg.get (pubCons g)) (s.cap g) →
    t.byteAt g ((s.reg.get (pubCons g)).toNat + k) = s.byteAt g ((s.reg.get (pubCons g)).toNat + k)

theorem LiveKept.ofReads (hcfg : t.cfg = s.cfg) (hread : ∀ j, (t.store.get g).read j = (s.store.get g).read j) :
    LiveKept g s t := by
  intro k _
  rw [State.byteAt, hread, State.cap, hcfg]
  rfl

theorem LiveKept.ofStore (hcfg : t.cfg = s.cfg) (hstore : t.store = s.store) : LiveKept g s t :=
  .ofReads hcfg fun _ => by rw [hstore]

/-- While the live bytes only grow at the producer's end, what is kept later was kept before. -/
theorem LiveKept.trans (h : LiveKept g s t) (h' : LiveKept g t u)
    (hreg : t.reg.get (pubCons g) = s.reg.get (pubCons g))
    (hgrow : dist (s.prodPos.get g) (s.reg.get (pubCons g)) (s.cap g) ≤
      dist (t.prodPos.get g) (t.reg.get (pubCons g)) (t.cap g)) : LiveKept g s u := by
  intro k hk
  rw [← h k hk, ← hreg]
  exact h' k (hk.trans_le hgrow)

/-! ### What an action stores -/

theorem drainBlocked_store (sd : Side) (job : DrainJob) (cause : BlockCause) (pp : Word) (s : State) :
    (drainBlocked sd job cause pp s).store = s.store := by
  rcases drainBlocked_cases sd job cause pp s with e | e | ⟨_, _, e⟩ <;> rw [e] <;> rfl

theorem serveBits_store (sd : Side) (todo : List IntBit) (s : State) : (serveBits sd todo s).store = s.store := by
  rcases serveBits_cases sd todo s with ⟨_, e⟩ | ⟨_, _, e⟩ | ⟨_, _, e⟩ | ⟨_, _, e⟩ <;> rw [e] <;> rfl

/-- Of all actions the write of a frame byte alone touches a backing store. -/
theorem act_store_cases (sd : Side) (ph : Phase) (s : State) :
    (∃ g job len cp pos b rest, ph = .frameWrite g job len cp pos (b :: rest)) ∨ (act sd ph s).store = s.store := by
  cases ph with
  | frameRead g job len =>
    rcases actFrameRead_cases sd g job len s with ⟨_, e⟩ | ⟨_, e⟩ <;> exact .inr (by rw [act, e]; rfl)
  | frameWrite g job len cp pos rest =>
    cases rest with
    | cons b rest => exact .inl ⟨g, job, len, cp, pos, b, rest, rfl⟩
    | nil =>
      have hpub : (actPublish sd g job len cp s).store = s.store := by
        rcases actPublish_cases sd g job len cp s with ⟨e, _⟩ | ⟨e, _⟩ <;> rw [e] <;> rfl
      exact .inr hpub
  | drainRead job =>
    rcases actDrainRead_cases sd job s with ⟨_, e⟩ | ⟨_, e⟩ <;> refine .inr ?_ <;> rw [act, e]
    · exact drainBlocked_store ..
    · rfl
  | headerHigh job pp b0 =>
    rcases actHeaderHigh_cases sd job pp b0 s with ⟨_, e⟩ | ⟨_, ⟨_, e⟩ | ⟨_, e⟩⟩ <;> refine .inr ?_ <;> rw [act, e]
    · exact drainBlocked_store ..
    · rfl
    · rfl
  | copyOut job pp pos left acc =>
    cases left with
    | succ n => exact .inr rfl
    | zero =>
      have hdeliver : (actDeliver sd job pp acc s).store = s.store := by
        rcases actDeliver_cases sd job pp acc s with ⟨_, e⟩ | ⟨_, _, _, _, e⟩ | ⟨_, _, _, _, e⟩ | ⟨_, _, _, e⟩ <;>
          rw [e] <;> rfl
      exact .inr hdeliver
  | giveBack job pp =>
    rcases actGiveBack_cases sd job pp s with e | ⟨e, _⟩ | ⟨_, _, _, e⟩ <;> exact .inr (by rw [act, e]; rfl)
  | readStatus => exact .inr (serveBits_store ..)
  | ackBit todo =>
    cases todo with
    | nil => exact .inr rfl
    | cons b rest => exact .inr (serveBits_store ..)
  | raiseLast | headerLow | report => exact .inr rfl

/-- An operation of one action that is no raw write touches no backing store. -/
theorem SingleAction.store {i : Instr} (h : SingleAction i s u) (hraw : isRaw i = false) : u.store = s.store := by
  cases h with
  | storeByte _ _ _ hraw' => rw [hraw] at hraw'; cases hraw'
  | _ => rfl

/-! ### Every step -/

theorem Safe.act (h : Safe s) {sd : Side} {ph : Phase} (hbusy : (s.port.get sd).busy = some ph) :
    Safe (act sd ph s) := h.sideMoves (h.ranged.act ..) (.act h hbusy)

/-- An action of the producer never takes from the live bytes, and adds to them when it publishes a frame. -/
theorem Safe.live_grows (h : Safe s) {ph : Phase} (hbusy : (s.port.get (producer g)).busy = some ph) :
    dist (s.prodPos.get g) (s.reg.get (pubCons g)) (s.cap g) ≤
      dist ((Machine.act (producer g) ph s).prodPos.get g) (s.reg.get (pubCons g)) (s.cap g) := by
  have hc := h.ranged.cap_pos g
  cases act_producerMoves hc h.payloads hbusy (h.roles _ ph hbusy) with
  | rests hprod | claims _ hprod | writes _ _ _ _ hprod => rw [hprod]
  | publishes cp size pos hs _ hprod =>
    have hroom := (h.ordered g).live_add_claimed hc
    have hclaim : claimed s g = size := by simp [claimed_eq, hs]
    rw [hprod, dist_advance_left _ _ _ _ hc (h.ranged.cap_le g) (by omega)]
    omega

/-- An action of the producer writes the next byte of its frame, or none. -/
theorem Safe.act_liveKept (h : Safe s) {ph : Phase} (hbusy : (s.port.get (producer g)).busy = some ph) :
    LiveKept g s (Machine.act (producer g) ph s) := by
  rcases act_store_cases (producer g) ph s with ⟨g', job, len, cp, pos, b, rest, rfl⟩ | hstore
  · obtain rfl := producer_injective ((frameRole_iff _ g' job).mp (h.roles _ _ hbusy)).1
    have hw : writing s g = some (cp, frameSize len, pos, rest.length + 1) := by
      simp [writing_busy hbusy, writingFrame]
    intro k hk
    show (s.setByte g pos b).byteAt g _ = _
    rw [State.setByte_byteAt s g _ _ b (h.ranged.canonical g),
      if_neg ((h.ordered g).live_ne_next (h.ranged.cap_pos g) hw hk)]
  · exact .ofStore (act_frame ..).cfg hstore

/-- Whichever side goes on: the consumer writes no byte, and of the producer's actions each keeps the live bytes. -/
theorem Safe.run_liveKept (h : Safe s) (n : Nat) (sd : Side) (g : Ring) : LiveKept g s (Machine.run n sd s) := by
  rcases producer_or_consumer sd g with rfl | rfl
  · induction n generalizing s with
    | zero => exact fun _ _ => rfl
    | succ n ih =>
      cases hbusy : (s.port.get (producer g)).busy with
      | none => rw [run_idle _ _ _ hbusy]; exact fun _ _ => rfl
      | some ph =>
        have hcfg := (act_frame (producer g) ph s).cfg
        have hreg : (Machine.act (producer g) ph s).reg.get (pubCons g) = s.reg.get (pubCons g) :=
          (act_own s (h.roles _ ph hbusy)).reg _ (by rw [owner_pubCons]; exact producer_ne_consumer g)
        rw [run_busy n _ s ph hbusy]
        refine (h.act_liveKept hbusy).trans (ih (h.act hbusy)) hreg ?_
        rw [hreg, State.cap, State.cap, hcfg]
        exact h.live_grows hbusy
  · have hown := (run_own s s n (.refl _ s) (h.roles (consumer g))).1
    exact .ofReads (run_frame ..).cfg (hown.mem g (producer_ne_consumer g).symm)

/-- Issuing an instruction that is no raw write keeps the live bytes. -/
theorem Safe.exec_liveKept {i : Instr} (h : Safe s) (hraw : isRaw i = false) (ht : Machine.exec i s = .next t)
    (g : Ring) : LiveKept g s t := by
  cases hph : firstAction s i with
  | none =>
    obtain ⟨u, hu, rfl⟩ := exec_single ht hph
    exact .ofStore (exec_cfg ht) (hu.store hraw)
  | some ph =>
    obtain ⟨hfit, ⟨_, rfl⟩ | ⟨_, rfl⟩⟩ := exec_several_cases ht hph
    · exact fun _ _ => rfl
    · exact (h.begins (exec_ready ht) hph hfit).run_liveKept _ _ g

end

/-- Settles O52: the side an input makes act keeps the live bytes of both rings, and a SYNC, an input's own or a due
one, writes no byte. -/
theorem liveBytesAreNeverOverwritten : Obligations.LiveBytesAreNeverOverwritten := by
  intro s t h hproto ht g
  rcases step_cases s t ht with ⟨_, rfl⟩ | ⟨x, rest, u, hin, hu, rfl⟩
  · exact fun _ _ => rfl
  · have hs := safe_setInputs rest h
    suffices hlive : LiveKept g s u from fun k hk => (State.settle_byteAt ..).trans (hlive k hk)
    cases x with
    | sync p => cases hu; exact fun _ _ => rfl
    | resume sd n => cases hu; exact hs.run_liveKept _ sd g
    | issue sd rq n =>
      obtain ⟨i, hd, he⟩ := takeInput_issue_next hu
      have hidle : ((s.setInputs rest).port.get sd).busy = none := by simpa using (exec_ready he).1
      exact (hs.present hidle rq _).exec_liveKept (hproto sd rq n rest i hin hd) he g

end Sys2Proof.Machine
end

section
/-! A frame cut short (spec/20_memory.md R66 c, R74; spec/40_ring_ops.md R126): in a turn too short for the publication
ENQUEUE has stored a first part of its frame and nothing else. -/

namespace Sys2Proof.Machine

open Host (Outcome)

/-! ### The write loop, cut anywhere -/

/-- The action that writes one byte of a frame. -/
theorem act_frameWrite_cons (sd : Side) (g : Ring) (job : EnqJob) (len : Half) (cp : Word) (pos : Nat) (b : Byte)
    (rest : List Byte) (s : State) (ph : Phase) :
    act sd (.frameWrite g job len cp pos (b :: rest)) (s.goOn sd ph) =
      (s.setByte g pos b).goOn sd (.frameWrite g job len cp ((pos + 1) % s.cap g) rest) :=
  goOn_goOn (s.setByte g pos b) sd ph _

/-- The write loop of a frame, cut before its end: as many bytes are stored as actions are performed. -/
theorem run_frameWrite_short (n : Nat) (sd : Side) (g : Ring) (job : EnqJob) (len : Half) (cp : Word) (pos : Nat)
    (rest : List Byte) (s : State) (hn : n ≤ rest.length) :
    ∃ pos', run n sd (s.goOn sd (.frameWrite g job len cp pos rest)) =
      (s.setBytes g pos (rest.take n)).goOn sd (.frameWrite g job len cp pos' (rest.drop n)) := by
  induction n generalizing s pos rest with
  | zero => exact ⟨pos, rfl⟩
  | succ n ih =>
    cases rest with
    | nil => cases hn
    | cons b rest =>
      rw [run_goOn, act_frameWrite_cons]
      exact ih _ rest (s.setByte g pos b) (Nat.le_of_succ_le_succ hn)

/-! ### What a part of a frame leaves alone -/

/-- An operation keeps what its statement does not name, if the pieces outside the ports are kept and the issuing side
did nothing an action may not. -/
theorem UnchangedBut.ofFrame {parts : List Part} {s t : State} (h : ActionFrame s.side s.dropResults t)
    (same : ∀ p, p ∉ parts → samePart s t p) : UnchangedBut parts s t where
  same := same
  cfg := h.cfg
  inputs := h.inputs
  side := h.side
  quantum := h.quantum
  waited := h.waited
  otherPort := h.otherPort.trans (by simp)
  operands := ⟨h.txn.trans (by simp), h.wdata.trans (by simp), h.wbyte.trans (by simp), h.pbuf.trans (by simp)⟩

theorem setBytes_frame (s : State) (sd : Side) (g : Ring) (pos : Nat) (bytes : List Byte) :
    ActionFrame sd s (s.setBytes g pos bytes) := by
  rw [setBytes_store_only]
  constructor <;> rfl

/-- An operation in progress that has stored bytes on one ring has changed that store alone. -/
theorem setBytes_goOn_unchangedBut (s : State) (g : Ring) (pos : Nat) (bytes : List Byte) (ph : Phase) :
    UnchangedBut [.mem g] s ((s.dropResults.setBytes g pos bytes).goOn s.side ph) := by
  refine .ofFrame ((setBytes_frame ..).trans (goOn_frame ..)) fun p hp => ?_
  cases p with
  | mem g' => exact fun i => setBytes_read_other _ g g' pos bytes i (.inl fun e => hp (by simp [e]))
  | _ =>
    rw [setBytes_store_only]
    rfl

/-! ### ENQUEUE -/

theorem enqueue_begins {g : Ring} {len : Half} {s : State} (hready : Ready (.enqueue g len) s)
    (hpay : (s.port.get s.side).pbuf.length = len.toNat) (hfits : frameSize len ≤ s.cap g) :
    exec (.enqueue g len) s = .next (run s.quantum s.side (s.dropResults.goOn s.side (.frameRead g .plain len))) := by
  rw [exec_several hready rfl]
  simp [Instr.payloadFits, frameTooLargeFor, hpay, Nat.not_lt.mpr hfits, perform, ← frameSize_eq]

/-- The space test passed, the producer goes on to the first byte of its frame. -/
theorem act_frameRead_fits {sd : Side} {g : Ring} {job : EnqJob} {len : Half} (s : State) (ph : Phase)
    (hsd : sd = producer g)
    (hfree : frameSize len ≤ freeSpace (s.prodPos.get g) (s.seen.get (pubCons g)) (s.cap g)) :
    act sd (.frameRead g job len) (s.goOn sd ph) =
      s.goOn sd (.frameWrite g job len (s.seen.get (pubCons g)) ((s.prodPos.get g).toNat % s.cap g)
        (frameBytes len (s.port.get sd).pbuf)) := by
  subst hsd
  have hcp := ptrRead_producer (s.goOn (producer g) ph) g
  rcases actFrameRead_cases (producer g) g job len (s.goOn (producer g) ph) with ⟨hlt, _⟩ | ⟨_, e⟩
  · rw [hcp] at hlt
    exact absurd hlt (Nat.not_lt.mpr hfree)
  · rw [act, e, hcp, goOn_goOn]
    simp

/-- An ENQUEUE that passes its checks, in a turn too short for the publication, is in progress and has stored at the
most the bytes of its frame. -/
theorem enqueue_cut_short {g : Ring} {len : Half} {s : State} (hready : Ready (.enqueue g len) s)
    (hpay : (s.port.get s.side).pbuf.length = len.toNat)
    (hfree : frameSize len ≤ freeSpace (s.prodPos.get g) (s.seen.get (pubCons g)) (s.cap g))
    (hcut : s.quantum < len.toNat + 4) :
    ∃ bytes ph, bytes.length ≤ len.toNat + 2 ∧ exec (.enqueue g len) s =
      .next ((s.dropResults.setBytes g ((s.prodPos.get g).toNat % s.cap g) bytes).goOn s.side ph) := by
  have hfits : frameSize len ≤ s.cap g := hfree.trans (by unfold freeSpace; omega)
  rw [enqueue_begins hready hpay hfits]
  cases hq : s.quantum with
  | zero => exact ⟨[], _, by simp, rfl⟩
  | succ n =>
    have hlen : (frameBytes len (s.dropResults.port.get s.side).pbuf).length = len.toNat + 2 := by
      simp [hpay]
    obtain ⟨pos', hwrite⟩ := run_frameWrite_short n s.side g .plain len (s.seen.get (pubCons g))
      ((s.prodPos.get g).toNat % s.cap g) (frameBytes len (s.dropResults.port.get s.side).pbuf) s.dropResults
      (by omega)
    have hread := act_frameRead_fits (job := .plain) s.dropResults (.frameRead g .plain len)
      (of_decide_eq_true hready.2) hfree
    refine ⟨_, _, (List.length_take_le' ..).trans_eq hlen, congrArg Outcome.next (Eq.trans ?_ hwrite)⟩
    rw [run_goOn, hread]
    rfl

/-- Settles O36: what the turn stored lies in the frame's range, which begins at the producer position. -/
theorem frameStaysHiddenUntilPublished : Obligations.FrameStaysHiddenUntilPublished := by
  intro g len s hidle hside _ hpay hcut hfree
  obtain ⟨bytes, ph, hlen, hexec⟩ := enqueue_cut_short ⟨hidle, decide_eq_true hside⟩ hpay hfree hcut
  refine ⟨_, hexec, ?_, fun j hj => ?_, setBytes_goOn_unchangedBut ..⟩
  · rw [goOn_busy]
    nofun
  · refine setBytes_read_other s.dropResults g g _ bytes j (.inr fun k hk => ?_)
    rw [State.dropResults_cap, Nat.mod_add_mod]
    exact hj k (by omega)

end Sys2Proof.Machine
end

section
/-! The word formats (spec/30_encoding.md R100, R101, R105, R106, R108, R109): the decoder inverts the encoder, and a
word that decodes has the fields of the instruction's word and no other bit. -/

namespace Sys2Proof

/-! ### From the instruction to its word and back -/

@[simp] theorem ptrOfArg_ptrOffset (p : Ptr) : ptrOfArg ((ptrOffset p).setWidth 16) = some p :=
  (ptrOfArg_eq_some _ p).mpr rfl

@[simp] theorem bitOfArg_bitIndex (b : IntBit) : bitOfArg (bitIndex b) = some b := (bitOfArg_eq_some _ b).mpr rfl

theorem decodeRt_rtWord (wr : BitVec 1) (r : Reg) :
    decodeRt (rtWord wr r) = .ok (if wr = 0 then regRead r else regWrite r) := by
  simp [decodeRt, (regOfOffset_eq_some (regOffset r) r).mpr rfl]

theorem decodeMt_mtWord (wr : BitVec 1) (g : Ring) (idx : Word) :
    decodeMt (mtWord wr g idx) = if wr = 0 then .memRd g idx else .memWr g idx := by
  simp [decodeMt, ringOfBit_ringBit]

/-- Settles O11: the fields of an assembled word are those it was assembled from, so the decoder's tests find the row
of the instruction and its operands. -/
theorem decodeOfEncodeIsTheInstruction : Obligations.DecodeOfEncodeIsTheInstruction := by
  intro i
  cases i with
  | enqueue g len => simp [encode, decode, decodeCmd, ringOfBit_ringBit]
  | drain g | commit g => simp [encode, decode, decodeCmd, decodeRingOnly, ringOfBit_ringBit]
  | ptrWrite p | ptrRead p => simp [encode, decode, decodeCmd, decodePointer]
  | raiseInt b | ack b => simp [encode, decode, decodeCmd, decodeBit]
  | dispatch | processTx => simp [encode, decode, decodeCmd, decodeBare]
  | send len | generateRx len => simp [encode, decode, decodeCmd, decodeLength]
  | memRd g idx | memWr g idx => simp [encode, decode, decodeMt_mtWord]
  | _ => simp [encode, decode, decodeRt_rtWord, regRead, regWrite]

/-! ### From the word to its instruction and back -/

section

variable {w : BitVec 32} {op : BitVec 8} {j : Instr}

/-- A command word is assembled from its fields once its reserved field is known to be 0. -/
theorem cmdWord_eq {g : BitVec 1} {n : Half} (hres : cmdReserved w = 0) (hop : cmdOp w = op) (hg : cmdRingBit w = g)
    (hn : cmdArg w = n) : cmdWord op g n = w := by
  subst hop hg hn
  exact cmdWord_fields w hres

theorem encode_of_decodeBare {i : Instr} (hres : cmdReserved w = 0) (hop : cmdOp w = op)
    (hi : encode i = .cmd (cmdWord op 0 0)) (h : decodeBare w i = .ok j) : encode j = .cmd w := by
  unfold decodeBare at h
  split_ifs at h with hg hn
  cases h
  rw [hi, cmdWord_eq hres hop (not_not.mp hg) (not_not.mp hn)]

theorem encode_of_decodeRingOnly {i : Ring → Instr} (hres : cmdReserved w = 0) (hop : cmdOp w = op)
    (hi : ∀ g, encode (i g) = .cmd (cmdWord op (ringBit g) 0)) (h : decodeRingOnly w i = .ok j) :
    encode j = .cmd w := by
  unfold decodeRingOnly at h
  split_ifs at h with hn
  cases h
  rw [hi, cmdWord_eq hres hop (ringBit_ringOfBit _).symm (not_not.mp hn)]

theorem encode_of_decodeLength {i : Half → Instr} (hres : cmdReserved w = 0) (hop : cmdOp w = op)
    (hi : ∀ n, encode (i n) = .cmd (cmdWord op 0 n)) (h : decodeLength w i = .ok j) : encode j = .cmd w := by
  unfold decodeLength at h
  split_ifs at h with hg
  cases h
  rw [hi, cmdWord_eq hres hop (not_not.mp hg) rfl]

theorem encode_of_decodePointer {i : Ptr → Instr} (hres : cmdReserved w = 0) (hop : cmdOp w = op)
    (hi : ∀ p, encode (i p) = .cmd (cmdWord op 0 ((ptrOffset p).setWidth 16))) (h : decodePointer w i = .ok j) :
    encode j = .cmd w := by
  unfold decodePointer at h
  split_ifs at h with hg
  split at h
  next p hp =>
    cases h
    rw [hi, cmdWord_eq hres hop (not_not.mp hg) ((ptrOfArg_eq_some _ p).mp hp)]
  next => cases h

theorem encode_of_decodeBit {i : IntBit → Instr} (hres : cmdReserved w = 0) (hop : cmdOp w = op)
    (hi : ∀ b, encode (i b) = .cmd (cmdWord op 0 (bitIndex b))) (h : decodeBit w i = .ok j) : encode j = .cmd w := by
  unfold decodeBit at h
  split_ifs at h with hg
  split at h
  next b hb =>
    cases h
    rw [hi, cmdWord_eq hres hop (not_not.mp hg) ((bitOfArg_eq_some _ b).mp hb)]
  next => cases h

/-- A command word that decodes is the word of its instruction: row by row, by the operands the row takes. -/
theorem encode_of_decodeCmd (h : decodeCmd w = .ok j) : encode j = .cmd w := by
  unfold decodeCmd at h
  by_cases hres : cmdReserved w = 0
  case neg => rw [if_pos hres] at h; cases h
  rw [if_neg (not_not.mpr hres)] at h
  split at h
  · cases h
    exact congrArg Txn.cmd (cmdWord_eq hres ‹_› (ringBit_ringOfBit _).symm rfl)
  split at h
  · exact encode_of_decodeRingOnly hres ‹_› (fun _ => rfl) h
  split at h
  · exact encode_of_decodeRingOnly hres ‹_› (fun _ => rfl) h
  split at h
  · exact encode_of_decodePointer hres ‹_› (fun _ => rfl) h
  split at h
  · exact encode_of_decodePointer hres ‹_› (fun _ => rfl) h
  split at h
  · exact encode_of_decodeBit hres ‹_› (fun _ => rfl) h
  split at h
  · exact encode_of_decodeBit hres ‹_› (fun _ => rfl) h
  split at h
  · exact encode_of_decodeBare hres ‹_› rfl h
  split at h
  · exact encode_of_decodeLength hres ‹_› (fun _ => rfl) h
  split at h
  · exact encode_of_decodeBare hres ‹_› rfl h
  split at h
  · exact encode_of_decodeLength hres ‹_› (fun _ => rfl) h
  · cases h

end

theorem rtWord_fields {w : BitVec 9} {r : Reg} (h : rtOffset w = regOffset r) : rtWord (rtWrite w) r = w := by
  apply BitVec.eq_of_toNat_eq
  rw [rtWord_toNat, ← h, rtWrite_toNat, rtOffset_toNat]
  omega

theorem mtWord_fields (w : BitVec 34) : mtWord (mtWrite w) (ringOfBit (mtRingBit w)) (mtIndex w) = w := by
  apply BitVec.eq_of_toNat_eq
  rw [mtWord_toNat, ringBit_ringOfBit, mtWrite_toNat, mtRingBit_toNat, mtIndex_toNat]
  omega

theorem encode_regRead (r : Reg) : encode (regRead r) = .rt (rtWord 0 r) := by
  cases r with
  | ptr p => cases p <;> rfl
  | _ => rfl

theorem encode_regWrite (r : Reg) : encode (regWrite r) = .rt (rtWord 1 r) := by
  cases r with
  | ptr p => cases p <;> rfl
  | _ => rfl

theorem bit_eq_one {b : BitVec 1} (h : b ≠ 0) : b = 1 := (BitVec.eq_zero_or_eq_one b).resolve_left h

/-- A register transaction that decodes names one of the seven registers. -/
theorem decodeRt_ok {w : BitVec 9} {i : Instr} (h : decodeRt w = .ok i) :
    ∃ r, rtOffset w = regOffset r ∧ i = if rtWrite w = 0 then regRead r else regWrite r := by
  unfold decodeRt at h
  split at h
  next r hr =>
    cases h
    exact ⟨r, (regOfOffset_eq_some _ r).mp hr, rfl⟩
  next => cases h

/-- A register transaction that decodes is the word of its instruction. -/
theorem encode_of_decodeRt {w : BitVec 9} {i : Instr} (h : decodeRt w = .ok i) : encode i = .rt w := by
  obtain ⟨r, hoff, rfl⟩ := decodeRt_ok h
  split
  next hw => rw [encode_regRead, ← hw, rtWord_fields hoff]
  next hw => rw [encode_regWrite, ← bit_eq_one hw, rtWord_fields hoff]

/-- Every memory transaction is the word of its instruction. -/
theorem encode_decodeMt (w : BitVec 34) : encode (decodeMt w) = .mt w := by
  have hw := mtWord_fields w
  unfold decodeMt
  split
  next hz => rw [hz] at hw; exact congrArg Txn.mt hw
  next ho => rw [bit_eq_one ho] at hw; exact congrArg Txn.mt hw

/-- Settles O12: in each of the three formats the fields the decoder has tested make up the whole word. -/
theorem decodedWordIsTheEncodedOne : Obligations.DecodedWordIsTheEncodedOne := by
  intro t i h
  cases t with
  | cmd w => exact encode_of_decodeCmd h
  | rt w => exact encode_of_decodeRt h
  | mt w =>
    cases h
    exact encode_decodeMt w

/-! ### Words of the spec's tables -/

theorem decode_of_encode_eq (i : Instr) {t : Txn} (h : encode i = t) : decode t = .ok i :=
  h ▸ decodeOfEncodeIsTheInstruction i

/-- Settles O10: the words of operations are those the encoder assembles, and a bit index or an offset beyond the
tables finds no row. -/
theorem wordsOfTheSpecDecode : Obligations.WordsOfTheSpecDecode :=
  ⟨decode_of_encode_eq (.enqueue .rx 5) (by decide), decode_of_encode_eq (.drain .tx) (by decide),
    decode_of_encode_eq (.ptrWrite .rxTailPub) (by decide), decode_of_encode_eq (.ack .error) (by decide),
    decode_of_encode_eq (.generateRx 300) (by decide), decode_of_encode_eq .regWrIntClear (by decide),
    decode_of_encode_eq .regRdHostTxHeadPub (by decide), decode_of_encode_eq (.memWr .rx 7) (by decide),
    by decide, by decide⟩

end Sys2Proof
end

section
/-! Whole streams (spec/30_encoding.md R94, R95): the frames among the bytes of a ring; a drain takes the first of them
off, a publication adds one at the end, and every other action of a side leaves them as they are. -/

namespace Sys2Proof.Machine

/-! ### The frames among the bytes of a ring -/

/-- The whole frames among `avail` bytes, with as much fuel as they can need. -/
def framesFrom (s : State) (g : Ring) (pos avail : Nat) : List (List Byte) × Nat := takeFrames s g avail pos avail

theorem framesTo_eq (s : State) (g : Ring) (pp : Word) :
    framesTo s g pp = framesFrom s g (s.consPos.get g).toNat (availTo s g pp) := rfl

theorem streamWhole_iff (s : State) (g : Ring) :
    StreamWhole s g ↔
      (framesFrom s g (s.consPos.get g).toNat (availTo s g (s.prodPos.get g))).2 = availTo s g (s.prodPos.get g) :=
  Iff.rfl

theorem payloadAt_congr {s t : State} {g : Ring} {off off' len : Nat}
    (h : ∀ k, k < len → t.byteAt g (off' + k) = s.byteAt g (off + k)) :
    payloadAt t g off' len = payloadAt s g off len :=
  List.map_congr_left fun k hk => h k (List.mem_range.mp hk)

/-- The frames are made of the bytes they lie in, whatever else the state holds. -/
theorem takeFrames_congr {s t : State} {g : Ring} (fuel : Nat) {pos pos' avail : Nat}
    (h : ∀ k, k < avail → t.byteAt g (pos' + k) = s.byteAt g (pos + k)) :
    takeFrames t g fuel pos' avail = takeFrames s g fuel pos avail := by
  induction fuel generalizing pos pos' avail with
  | zero => rfl
  | succ fuel ih =>
    by_cases hheader : avail < 2
    · simp only [takeFrames, if_pos hheader]
    · have hlen : lengthAt t g pos' = lengthAt s g pos := by
        simp only [lengthAt, h 1 (by omega), show t.byteAt g pos' = s.byteAt g pos from h 0 (by omega)]
      by_cases hframe : avail < frameSize (lengthAt s g pos)
      · simp only [takeFrames, hlen, if_neg hheader, if_pos hframe]
      · have hsize := frameSize_eq (lengthAt s g pos)
        have hpayload : payloadAt t g (pos' + 2) (lengthAt s g pos).toNat =
            payloadAt s g (pos + 2) (lengthAt s g pos).toNat :=
          payloadAt_congr fun k hk => by simpa only [Nat.add_assoc] using h (2 + k) (by omega)
        have hrest := ih (pos := pos + frameSize (lengthAt s g pos)) (pos' := pos' + frameSize (lengthAt s g pos))
          (avail := avail - frameSize (lengthAt s g pos))
          fun k hk => by simpa only [Nat.add_assoc] using h (frameSize (lengthAt s g pos) + k) (by omega)
        simp only [takeFrames, hlen, hpayload, hrest]

theorem framesFrom_congr {s t : State} {g : Ring} {pos pos' avail : Nat}
    (h : ∀ k, k < avail → t.byteAt g (pos' + k) = s.byteAt g (pos + k)) :
    framesFrom t g pos' avail = framesFrom s g pos avail := takeFrames_congr avail h

section

variable (s : State) (g : Ring)

/-- Every frame takes two bytes at the least, so a fuel for each byte is enough. -/
theorem takeFrames_fuel {fuel fuel' avail : Nat} (pos : Nat) (h : avail ≤ fuel) (h' : avail ≤ fuel') :
    takeFrames s g fuel pos avail = takeFrames s g fuel' pos avail := by
  induction fuel generalizing fuel' pos avail with
  | zero =>
    obtain rfl : avail = 0 := by omega
    cases fuel' <;> rfl
  | succ fuel ih =>
    cases fuel' with
    | zero =>
      obtain rfl : avail = 0 := by omega
      rfl
    | succ fuel' =>
      have hsize := two_le_frameSize (lengthAt s g pos)
      simp only [takeFrames, ih (fuel' := fuel') (avail := avail - frameSize (lengthAt s g pos)) _ (by omega) (by omega)]

/-- A frame that lies whole among the bytes is the first of them. -/
theorem framesFrom_frame {pos avail : Nat} (h : frameSize (lengthAt s g pos) ≤ avail) :
    framesFrom s g pos avail =
      (payloadAt s g (pos + 2) (lengthAt s g pos).toNat ::
          (framesFrom s g (pos + frameSize (lengthAt s g pos)) (avail - frameSize (lengthAt s g pos))).1,
        frameSize (lengthAt s g pos) +
          (framesFrom s g (pos + frameSize (lengthAt s g pos)) (avail - frameSize (lengthAt s g pos))).2) := by
  have hsize := two_le_frameSize (lengthAt s g pos)
  obtain ⟨n, rfl⟩ : ∃ n, avail = n + 1 := ⟨avail - 1, by omega⟩
  have hfuel := takeFrames_fuel s g (fuel := n) (pos + frameSize (lengthAt s g pos))
    (show n + 1 - frameSize (lengthAt s g pos) ≤ n by omega) (Nat.le_refl _)
  simp only [framesFrom, takeFrames, if_neg (Nat.not_lt.mpr h), if_neg (Nat.not_lt.mpr (hsize.trans h)), hfuel]

/-- Where no frame lies whole, there is none. -/
theorem framesFrom_cases (pos avail : Nat) :
    framesFrom s g pos avail = ([], 0) ∨ frameSize (lengthAt s g pos) ≤ avail := by
  rcases Nat.lt_or_ge avail (frameSize (lengthAt s g pos)) with h | h
  · left
    cases avail with
    | zero => rfl
    | succ n => simp only [framesFrom, takeFrames, if_pos h, ite_self]
  · exact .inr h

/-- Frames that take up all of the first `a` bytes come before the frames of the bytes that follow. -/
theorem framesFrom_append {a : Nat} (pos b : Nat) (h : (framesFrom s g pos a).2 = a) :
    framesFrom s g pos (a + b) =
      ((framesFrom s g pos a).1 ++ (framesFrom s g (pos + a) b).1, a + (framesFrom s g (pos + a) b).2) := by
  induction a using Nat.strong_induction_on generalizing pos with
  | _ a ih =>
    rcases framesFrom_cases s g pos a with hnone | hframe
    · obtain rfl : a = 0 := by rw [← h, hnone]
      rw [hnone]
      simp
    · have hsize := two_le_frameSize (lengthAt s g pos)
      rw [framesFrom_frame s g hframe] at h ⊢
      rw [framesFrom_frame s g (hframe.trans (Nat.le_add_right a b))]
      generalize frameSize (lengthAt s g pos) = n at *
      have hrest := ih (a - n) (by omega) (pos + n) (by simpa only using Nat.eq_sub_of_add_eq' h)
      rw [show a + b - n = a - n + b by omega, hrest, show pos + n + (a - n) = pos + a by omega]
      refine Prod.ext (by simp) ?_
      show n + (a - n + _) = a + _
      omega

end

/-! ### The queue of a ring -/

section

variable {s t : State} {g : Ring}

theorem byteAt_mod (s : State) (g : Ring) {i j : Nat} (h : i % s.cap g = j % s.cap g) :
    s.byteAt g i = s.byteAt g j := by
  rw [State.byteAt, h]
  rfl

/-- A consumer works with no byte beyond the producer's position. -/
theorem RingOrdered.avail_le (h : RingOrdered s g) (hc : 0 < s.cap g) :
    availTo s g (seenProd s g) ≤ availTo s g (s.prodPos.get g) :=
  dist_le_rebase hc h.cons_seenProd (h.seenProd_copy.trans h.copy_prod)

/-- What is drained and not given back, and what is still queued, are the live bytes. -/
theorem RingOrdered.drained_add_queued (h : RingOrdered s g) (hc : 0 < s.cap g) :
    dist (s.consPos.get g) (s.reg.get (pubCons g)) (s.cap g) + availTo s g (s.prodPos.get g) =
      dist (s.prodPos.get g) (s.reg.get (pubCons g)) (s.cap g) := by
  have hqueued : beyond s g (s.consPos.get g) ≤ beyond s g (s.prodPos.get g) :=
    h.cons_seenProd.trans (h.seenProd_copy.trans h.copy_prod)
  have hdrained := dist_between hc h.regCons_cons
  have hrest := dist_between hc hqueued
  have hlive := dist_between hc (h.regCons_cons.trans hqueued)
  unfold availTo
  omega

/-- Live bytes kept, the queued bytes are kept. -/
theorem LiveKept.queued (h : LiveKept g s t) (ho : RingOrdered s g) (hc : 0 < s.cap g) (hcfg : t.cfg = s.cfg) {k : Nat}
    (hk : k < availTo s g (s.prodPos.get g)) :
    t.byteAt g ((s.consPos.get g).toNat + k) = s.byteAt g ((s.consPos.get g).toNat + k) := by
  have hcap : t.cap g = s.cap g := by simp only [State.cap, hcfg]
  have hindex : ((s.consPos.get g).toNat + k) % s.cap g = ((s.reg.get (pubCons g)).toNat +
      (dist (s.consPos.get g) (s.reg.get (pubCons g)) (s.cap g) + k)) % s.cap g := by
    rw [← Nat.add_assoc, Nat.add_mod, ← add_dist_mod (s.consPos.get g) (s.reg.get (pubCons g)) _ hc, ← Nat.add_mod]
  have hlive := ho.drained_add_queued hc
  generalize dist (s.consPos.get g) (s.reg.get (pubCons g)) (s.cap g) = drained at hindex hlive
  rw [byteAt_mod s g hindex, byteAt_mod t g (hcap ▸ hindex)]
  exact h (drained + k) (by omega)

theorem byteAt_eq_of_reads (hcfg : t.cfg = s.cfg) (hread : ∀ j, (t.store.get g).read j = (s.store.get g).read j)
    (k : Nat) : t.byteAt g k = s.byteAt g k := by
  rw [State.byteAt, hread, State.cap, hcfg]
  rfl

/-- Where neither end moves and the live bytes are kept, the stream stays whole. -/
theorem StreamWhole.keeps (h : StreamWhole s g) (hs : Safe s) (hcfg : t.cfg = s.cfg)
    (hcons : t.consPos.get g = s.consPos.get g) (hprod : t.prodPos.get g = s.prodPos.get g) (hlive : LiveKept g s t) :
    StreamWhole t g := by
  have havail : availTo t g (t.prodPos.get g) = availTo s g (s.prodPos.get g) := by
    simp only [availTo, State.cap, hcfg, hcons, hprod]
  rw [streamWhole_iff, havail, hcons,
    framesFrom_congr fun k hk => hlive.queued (hs.ordered g) (hs.ranged.cap_pos g) hcfg hk]
  exact h

/-- A consumer that drains the first frame leaves the stream whole. -/
theorem StreamWhole.drains (h : StreamWhole s g) (hs : Safe s) (hcfg : t.cfg = s.cfg)
    (hframe : frameSize (lengthAt s g (s.consPos.get g).toNat) ≤ availTo s g (s.prodPos.get g))
    (hcons : t.consPos.get g =
      advance (s.consPos.get g) (frameSize (lengthAt s g (s.consPos.get g).toNat)) (s.cap g))
    (hprod : t.prodPos.get g = s.prodPos.get g) (hbytes : ∀ k, t.byteAt g k = s.byteAt g k) : StreamWhole t g := by
  have hc := hs.ranged.cap_pos g
  have hw := hs.ranged.cap_le g
  have hcap : t.cap g = s.cap g := by simp only [State.cap, hcfg]
  rw [streamWhole_iff, framesFrom_frame s g hframe] at h
  generalize frameSize (lengthAt s g (s.consPos.get g).toNat) = n at *
  have havail : availTo t g (t.prodPos.get g) = availTo s g (s.prodPos.get g) - n := by
    rw [availTo, hcap, hcons, hprod]
    exact dist_advance_right _ _ _ _ hc hw hframe
  have hrest : framesFrom t g (t.consPos.get g).toNat (availTo s g (s.prodPos.get g) - n) =
      framesFrom s g ((s.consPos.get g).toNat + n) (availTo s g (s.prodPos.get g) - n) :=
    framesFrom_congr fun k _ => by
      rw [hbytes, hcons, advance_toNat _ _ _ hc hw]
      exact byteAt_mod s g (Nat.mod_add_mod ..)
  rw [streamWhole_iff, havail, hrest]
  exact Nat.eq_sub_of_add_eq' h

/-- A producer that publishes a frame it has written leaves the stream whole. -/
theorem StreamWhole.publishes {size : Nat} (h : StreamWhole s g) (hs : Safe s) (hcfg : t.cfg = s.cfg)
    (hcons : t.consPos.get g = s.consPos.get g)
    (hprod : t.prodPos.get g = advance (s.prodPos.get g) size (s.cap g))
    (hsize : frameSize (lengthAt s g (s.prodPos.get g).toNat) = size)
    (hroom : dist (s.prodPos.get g) (s.reg.get (pubCons g)) (s.cap g) + size ≤ s.cap g - 1)
    (hbytes : ∀ k, t.byteAt g k = s.byteAt g k) : StreamWhole t g := by
  have hc := hs.ranged.cap_pos g
  have hqueued := (hs.ordered g).drained_add_queued hc
  have havail : availTo t g (t.prodPos.get g) = availTo s g (s.prodPos.get g) + size := by
    rw [availTo, show t.cap g = s.cap g by simp only [State.cap, hcfg], hcons, hprod]
    exact dist_advance_left _ _ _ _ hc (hs.ranged.cap_le g) (by unfold availTo at hqueued; omega)
  have hframe : framesFrom s g ((s.consPos.get g).toNat + availTo s g (s.prodPos.get g)) size =
      framesFrom s g (s.prodPos.get g).toNat size :=
    framesFrom_congr fun k _ => byteAt_mod s g (by
      rw [Nat.add_mod, availTo, add_dist_mod _ _ _ hc, ← Nat.add_mod])
  have hnone : framesFrom s g ((s.prodPos.get g).toNat + size) (size - size) = ([], 0) := by
    rw [Nat.sub_self]; rfl
  rw [streamWhole_iff, havail, hcons, framesFrom_congr fun k _ => hbytes _, framesFrom_append s g _ _ h, hframe,
    framesFrom_frame s g hsize.le, hsize, hnone]
  rfl

end

end Sys2Proof.Machine
end

section
/-! Faithful operations (spec/30_encoding.md R95, spec/20_memory.md R78): what a running operation holds of a ring's
bytes is what lies there, and every step that is no raw write keeps it so, and both streams whole. -/

namespace Sys2Proof.Machine

/-! ### What a running operation holds -/

/-- The phases that hold bytes of a ring, or know of them. -/
def Phase.holdsBytes : Phase → Bool
  | .frameWrite .. | .headerLow .. | .headerHigh .. | .copyOut .. => true
  | _ => false

/-- What a phase of the consumer of `g` holds is what lies in the ring. -/
def FaithfulRead (s : State) (g : Ring) : Phase → Prop
  | .headerLow job pp => drainRing job = g → 2 ≤ availTo s g pp
  | .headerHigh job pp b0 =>
    drainRing job = g → 2 ≤ availTo s g pp ∧ b0 = s.byteAt g (s.consPos.get g).toNat
  | .copyOut job _ pos left _ =>
    drainRing job = g → left ≤ dist (s.consPos.get g) (s.reg.get (pubCons g)) (s.cap g) ∧
      pos = ((s.consPos.get g).toNat + (s.cap g - left)) % s.cap g
  | _ => True

/-- What the producer of `g` has written of its frame and what it has left make up the frame. -/
def FaithfulWrite (s : State) (g : Ring) : Phase → Prop
  | .frameWrite g' _ len _ _ rest =>
    g' = g → (s.port.get (producer g)).pbuf.length = len.toNat ∧
      ((List.range (frameSize len - rest.length)).map fun i => s.byteAt g ((s.prodPos.get g).toNat + i)) ++ rest =
        frameBytes len (s.port.get (producer g)).pbuf
  | _ => True

/-- The consumer's operation in progress, if there is one, holds what lies in the ring. -/
def ReadsFaithfully (s : State) (g : Ring) : Prop :=
  ∀ ph, (s.port.get (consumer g)).busy = some ph → FaithfulRead s g ph

/-- The producer's operation in progress, if there is one, has written what its frame holds. -/
def WritesFaithfully (s : State) (g : Ring) : Prop :=
  ∀ ph, (s.port.get (producer g)).busy = some ph → FaithfulWrite s g ph

theorem streamFaithful_iff (s : State) (g : Ring) :
    StreamFaithful s g ↔ StreamWhole s g ∧ WritesFaithfully s g ∧ ReadsFaithfully s g := by
  constructor
  · intro h
    refine ⟨h.whole, fun ph hph => ?_, fun ph hph => ?_⟩
    · cases ph with
      | frameWrite g' job len cp pos rest =>
        rintro rfl
        exact h.writing job len cp pos rest hph
      | _ => trivial
    · cases ph with
      | headerLow job pp => exact h.header job pp hph
      | headerHigh job pp b0 => exact h.reading job pp b0 hph
      | copyOut job pp pos left acc => exact h.copying job pp pos left acc hph
      | _ => trivial
  · rintro ⟨hwhole, hwrites, hreads⟩
    exact ⟨hwhole, fun _ _ _ _ _ hph => hwrites _ hph rfl, fun _ _ hph => hreads _ hph, fun _ _ _ hph => hreads _ hph,
      fun _ _ _ _ _ hph => hreads _ hph⟩

section

variable {s t : State} {g : Ring} {sd : Side} {ph : Phase}

theorem FaithfulRead.ofNone (s : State) (g : Ring) (h : ph.holdsBytes = false) : FaithfulRead s g ph := by
  cases ph with
  | headerLow | headerHigh | copyOut => cases h
  | _ => trivial

theorem FaithfulWrite.ofNone (s : State) (g : Ring) (h : ph.holdsBytes = false) : FaithfulWrite s g ph := by
  cases ph with
  | frameWrite => cases h
  | _ => trivial

theorem ReadsFaithfully.goOn (h : FaithfulRead (s.goOn (consumer g) ph) g ph) :
    ReadsFaithfully (s.goOn (consumer g) ph) g := by
  intro ph' hph'
  rw [goOn_busy] at hph'
  cases hph'
  exact h

theorem WritesFaithfully.goOn (h : FaithfulWrite (s.goOn (producer g) ph) g ph) :
    WritesFaithfully (s.goOn (producer g) ph) g := by
  intro ph' hph'
  rw [goOn_busy] at hph'
  cases hph'
  exact h

/-- What a consumer holds stays true while its end rests and the live bytes are kept. -/
theorem ReadsFaithfully.keeps (h : ReadsFaithfully s g) (hs : Safe s) (hcfg : t.cfg = s.cfg)
    (hport : t.port.get (consumer g) = s.port.get (consumer g)) (hcons : t.consPos.get g = s.consPos.get g)
    (hreg : t.reg.get (pubCons g) = s.reg.get (pubCons g)) (hlive : LiveKept g s t) : ReadsFaithfully t g := by
  intro ph hph
  rw [hport] at hph
  have hcap : t.cap g = s.cap g := by simp only [State.cap, hcfg]
  have havail (pp : Word) : availTo t g pp = availTo s g pp := by simp only [availTo, hcap, hcons]
  have hold := h ph hph
  cases ph with
  | headerLow job pp => exact fun hg => havail pp ▸ hold hg
  | headerHigh job pp b0 =>
    intro hg
    obtain ⟨htwo, hb0⟩ := hold hg
    have hsight : seenProd s g = pp := by simp [seenProd_busy hph, drainSnapshot, hg]
    have hqueued := (hs.ordered g).avail_le (hs.ranged.cap_pos g)
    rw [hsight] at hqueued
    have hbyte := hlive.queued (hs.ordered g) (hs.ranged.cap_pos g) hcfg (k := 0) (by omega)
    exact ⟨havail pp ▸ htwo, by rw [hb0, hcons]; exact hbyte.symm⟩
  | copyOut job pp pos left acc =>
    intro hg
    rw [hcons, hreg, hcap]
    exact hold hg
  | _ => trivial

/-- What a producer holds stays true while its end rests and its store is kept. -/
theorem WritesFaithfully.keeps (h : WritesFaithfully s g)
    (hport : t.port.get (producer g) = s.port.get (producer g)) (hprod : t.prodPos.get g = s.prodPos.get g)
    (hbytes : ∀ k, t.byteAt g k = s.byteAt g k) : WritesFaithfully t g := by
  intro ph hph
  rw [hport] at hph
  have hold := h ph hph
  cases ph with
  | frameWrite g' job len cp pos rest =>
    intro hg
    simp only [hport, hprod, hbytes]
    exact hold hg
  | _ => trivial

/-! ### What an action does to the bytes an operation holds -/

/-- The action leaves the consumer positions alone, and the operation holds no bytes after it. -/
structure HoldsNoBytes (sd : Side) (s t : State) : Prop where
  cons : t.consPos = s.consPos
  phase : ∀ ph, (t.port.get sd).busy = some ph → ph.holdsBytes = false

/-- All an action that moves a consumer position or takes hold of bytes can do. -/
inductive TakesBytes (sd : Side) (s : State) : Phase → State → Prop
  | claims (g : Ring) (job : EnqJob) (len : Half) (cp : Word) (pos : Nat) :
      TakesBytes sd s (.frameRead g job len)
        (s.goOn sd (.frameWrite g job len cp pos (frameBytes len (s.port.get sd).pbuf)))
  | writes (g : Ring) (job : EnqJob) (len : Half) (cp : Word) (pos : Nat) (b : Byte) (rest : List Byte) :
      TakesBytes sd s (.frameWrite g job len cp pos (b :: rest))
        ((s.setByte g pos b).goOn sd (.frameWrite g job len cp ((pos + 1) % s.cap g) rest))
  | sees (job : DrainJob) (pp : Word) (h : 2 ≤ availTo s (drainRing job) pp) :
      TakesBytes sd s (.drainRead job) (s.goOn sd (.headerLow job pp))
  | readsLow (job : DrainJob) (pp : Word) :
      TakesBytes sd s (.headerLow job pp)
        (s.goOn sd (.headerHigh job pp
          (s.byteAt (drainRing job) (s.consPos.get (drainRing job)).toNat)))
  | presents (job : DrainJob) (pp : Word) (b0 : Byte) (off : Word) (len : Half)
      (hlen : len = lengthOf b0 (s.byteAt (drainRing job) ((s.consPos.get (drainRing job)).toNat + 1)))
      (hle : frameSize len ≤ availTo s (drainRing job) pp) :
      TakesBytes sd s (.headerHigh job pp b0)
        (((s.setCons (drainRing job) (advance (s.consPos.get (drainRing job)) (frameSize len)
          (s.cap (drainRing job)))).setView sd off len).finish sd .ok)
  | drains (job : DrainJob) (pp : Word) (b0 : Byte) (len : Half)
      (hlen : len = lengthOf b0 (s.byteAt (drainRing job) ((s.consPos.get (drainRing job)).toNat + 1)))
      (hle : frameSize len ≤ availTo s (drainRing job) pp) :
      TakesBytes sd s (.headerHigh job pp b0)
        ((s.setCons (drainRing job) (advance (s.consPos.get (drainRing job)) (frameSize len)
          (s.cap (drainRing job)))).goOn sd
          (.copyOut job pp (advance (s.consPos.get (drainRing job)) 2 (s.cap (drainRing job))).toNat len.toNat []))
  | copies (job : DrainJob) (pp : Word) (pos left : Nat) (acc : List Byte) (b : Byte) :
      TakesBytes sd s (.copyOut job pp pos (left + 1) acc)
        (s.goOn sd (.copyOut job pp ((pos + 1) % s.cap (drainRing job)) left (acc ++ [b])))

theorem HoldsNoBytes.goOn {u : State} (hcons : u.consPos = s.consPos) (h : ph.holdsBytes = false) :
    HoldsNoBytes sd s (u.goOn sd ph) := by
  refine ⟨hcons, fun ph' hph' => ?_⟩
  rw [goOn_busy] at hph'
  cases hph'
  exact h

theorem HoldsNoBytes.finish {u : State} {r : Result} (hcons : u.consPos = s.consPos) :
    HoldsNoBytes sd s (u.finish sd r) := by
  refine ⟨hcons, fun ph' hph' => ?_⟩
  rw [finish_busy] at hph'
  cases hph'

theorem HoldsNoBytes.drainBlocked (sd : Side) (job : DrainJob) (cause : BlockCause) (pp : Word) (s : State) :
    HoldsNoBytes sd s (drainBlocked sd job cause pp s) := by
  rcases drainBlocked_cases sd job cause pp s with e | e | ⟨_, _, e⟩ <;> rw [e]
  · exact .finish rfl
  · exact .goOn rfl rfl
  · exact .goOn rfl rfl

theorem HoldsNoBytes.serveBits {u : State} (todo : List IntBit) (hcons : u.consPos = s.consPos) :
    HoldsNoBytes sd s (serveBits sd todo u) := by
  rcases serveBits_cases sd todo u with ⟨_, e⟩ | ⟨_, _, e⟩ | ⟨_, _, e⟩ | ⟨_, _, e⟩ <;> rw [e]
  · exact .finish hcons
  · exact .goOn hcons rfl
  · exact .goOn hcons rfl
  · exact .goOn hcons rfl

theorem HoldsNoBytes.actPublish (sd : Side) (g : Ring) (job : EnqJob) (len : Half) (cp : Word) (s : State) :
    HoldsNoBytes sd s (actPublish sd g job len cp s) := by
  rcases actPublish_cases sd g job len cp s with ⟨e, _⟩ | ⟨e, _⟩ <;> rw [e]
  · exact .finish rfl
  · exact .goOn rfl rfl

theorem HoldsNoBytes.actDeliver (sd : Side) (job : DrainJob) (pp : Word) (bytes : List Byte) (s : State) :
    HoldsNoBytes sd s (actDeliver sd job pp bytes s) := by
  rcases actDeliver_cases sd job pp bytes s with ⟨_, e⟩ | ⟨_, _, _, _, e⟩ | ⟨_, _, _, _, e⟩ | ⟨_, _, _, e⟩ <;> rw [e]
  · exact .finish rfl
  · exact .goOn rfl rfl
  · exact .goOn rfl rfl
  · exact .goOn rfl rfl

/-- Every action takes hold of bytes, or leaves the consumer positions alone with nothing held. -/
theorem act_takesBytes (sd : Side) (ph : Phase) (s : State) :
    HoldsNoBytes sd s (act sd ph s) ∨ TakesBytes sd s ph (act sd ph s) := by
  cases ph with
  | frameRead g job len =>
    rcases actFrameRead_cases sd g job len s with ⟨_, e⟩ | ⟨_, e⟩ <;> simp only [act, e]
    · exact .inl (.finish rfl)
    · exact .inr (.claims ..)
  | frameWrite g job len cp pos rest =>
    cases rest with
    | cons b rest => exact .inr (.writes ..)
    | nil => exact .inl (.actPublish ..)
  | raiseLast b => exact .inl (.finish rfl)
  | drainRead job =>
    rcases actDrainRead_cases sd job s with ⟨_, e⟩ | ⟨h, e⟩ <;> simp only [act, e]
    · exact .inl (.drainBlocked ..)
    · exact .inr (.sees job _ h)
  | headerLow job pp => exact .inr (.readsLow ..)
  | headerHigh job pp b0 =>
    rcases actHeaderHigh_cases sd job pp b0 s with ⟨_, e⟩ | ⟨hle, ⟨_, e⟩ | ⟨_, e⟩⟩ <;> simp only [act, e]
    · exact .inl (.drainBlocked ..)
    · exact .inr (.presents job pp b0 _ _ rfl hle)
    · exact .inr (.drains job pp b0 _ rfl hle)
  | copyOut job pp pos left acc =>
    cases left with
    | zero => exact .inl (.actDeliver ..)
    | succ left => exact .inr (.copies ..)
  | giveBack job pp =>
    rcases actGiveBack_cases sd job pp s with e | ⟨e, _⟩ | ⟨_, _, _, e⟩ <;> simp only [act, e]
    · exact .inl (.finish rfl)
    · exact .inl (.goOn rfl rfl)
    · exact .inl (.goOn rfl rfl)
  | readStatus => exact .inl (.serveBits _ rfl)
  | report todo => exact .inl (.goOn rfl rfl)
  | ackBit todo =>
    cases todo with
    | nil => exact .inl (.finish rfl)
    | cons b rest => exact .inl (.serveBits _ rfl)

/-! ### What the producer's actions keep -/

theorem lengthAt_of_frame {len : Half} {pos : Nat} {payload : List Byte}
    (h : ((List.range (frameSize len)).map fun i => s.byteAt g (pos + i)) = frameBytes len payload) :
    lengthAt s g pos = len := by
  rw [frameSize_eq, List.range_succ_eq_map, List.range_succ_eq_map] at h
  obtain ⟨h0, h1, _⟩ : s.byteAt g pos = _ ∧ s.byteAt g (pos + 1) = _ ∧ _ := by simpa [frameBytes] using h
  rw [lengthAt, h0, h1, lengthOf_frame]

theorem writing_eq_some {cp : Word} {size pos left : Nat} (h : writing s g = some (cp, size, pos, left)) :
    ∃ job len rest, (s.port.get (producer g)).busy = some (.frameWrite g job len cp pos rest) ∧
      size = frameSize len ∧ left = rest.length := by
  unfold writing writingFrame at h
  split at h
  next g' job len cp' pos' rest hbusy =>
    split at h
    next hg =>
      subst hg
      cases h
      exact ⟨job, len, rest, hbusy, rfl, rfl⟩
    next => cases h
  next => cases h

/-- A frame whose bytes are all written lies at the producer's position. -/
theorem WritesFaithfully.frame_written {cp : Word} {size pos : Nat} (h : WritesFaithfully s g)
    (hw : writing s g = some (cp, size, pos, 0)) : frameSize (lengthAt s g (s.prodPos.get g).toNat) = size := by
  obtain ⟨job, len, rest, hbusy, rfl, hrest⟩ := writing_eq_some hw
  obtain rfl := List.eq_nil_of_length_eq_zero hrest.symm
  obtain ⟨_, hframe⟩ := h _ hbusy rfl
  rw [lengthAt_of_frame (by simpa using hframe)]

/-- The byte after `n` bytes is stored behind them. -/
theorem setByte_behind {pos start n : Nat} (b : Byte) (hw : (s.store.get g).wf) (hn : n < s.cap g)
    (hpos : pos = (start + n) % s.cap g) :
    ((List.range (n + 1)).map fun i => (s.setByte g pos b).byteAt g (start + i)) =
      ((List.range n).map fun i => s.byteAt g (start + i)) ++ [b] := by
  have hindex : pos % s.cap g = (start + n) % s.cap g := by rw [hpos, Nat.mod_mod]
  rw [List.range_succ, List.map_append]
  refine congrArg₂ (· ++ ·) (List.map_congr_left fun i hi => ?_) ?_
  · have hi := List.mem_range.mp hi
    have hne : (start + i) % s.cap g ≠ pos % s.cap g := by
      intro e
      have hsame : i ≡ n [MOD s.cap g] := Nat.ModEq.add_left_cancel' start (e.trans hindex)
      exact hi.ne (hsame.eq_of_lt_of_lt (by omega) hn)
    rw [State.setByte_byteAt s g _ _ b hw, if_neg hne]
  · simp [State.setByte_byteAt s g _ _ b hw, hindex]

/-- The byte the producer writes next joins those it has written. -/
theorem WritesFaithfully.writes {job : EnqJob} {len : Half} {cp : Word} {pos : Nat} {b : Byte} {rest : List Byte}
    (h : WritesFaithfully s g) (hs : Safe s)
    (hbusy : (s.port.get (producer g)).busy = some (.frameWrite g job len cp pos (b :: rest))) :
    WritesFaithfully ((s.setByte g pos b).goOn (producer g)
      (.frameWrite g job len cp ((pos + 1) % s.cap g) rest)) g := by
  have hw : writing s g = some (cp, frameSize len, pos, rest.length + 1) := by
    simp [writing_busy hbusy, writingFrame]
  obtain ⟨hleft, hpos⟩ := (hs.ordered g).onCourse _ _ _ _ hw
  have hslot := (hs.ordered g).slotFree
  have hclaim : claimed s g = frameSize len := by simp [claimed_eq, hw]
  have hc := hs.ranged.cap_pos g
  obtain ⟨hpay, hframe⟩ := h _ hbusy rfl
  refine .goOn fun _ => ⟨by simpa using hpay, ?_⟩
  have hbehind := setByte_behind b (hs.ranged.canonical g) (by omega) hpos
  rw [List.length_cons] at hframe
  rw [show frameSize len - (rest.length + 1) + 1 = frameSize len - rest.length by omega] at hbehind
  simp only [State.goOn_byteAt, State.goOn_prodPos, State.setByte_prodPos, hbehind, List.append_assoc]
  simpa using hframe

/-- The frame the producer begins to write is the payload at its port behind its length. -/
theorem WritesFaithfully.claims {job : EnqJob} {len : Half} {cp : Word} {pos : Nat}
    (hpay : (s.port.get (producer g)).pbuf.length = len.toNat) :
    WritesFaithfully (s.goOn (producer g)
      (.frameWrite g job len cp pos (frameBytes len (s.port.get (producer g)).pbuf))) g :=
  .goOn fun _ => ⟨by simpa using hpay, by simp [hpay, frameSize_eq]⟩

theorem WritesFaithfully.act (h : WritesFaithfully s g) (hs : Safe s)
    (hbusy : (s.port.get (producer g)).busy = some ph) : WritesFaithfully (act (producer g) ph s) g := by
  have hrole := hs.roles _ ph hbusy
  rcases act_takesBytes (producer g) ph s with hnone | htakes
  · exact fun ph' hph' => .ofNone _ g (hnone.phase ph' hph')
  · generalize Machine.act (producer g) ph s = t at htakes
    cases htakes with
    | claims g' job len cp pos =>
      obtain rfl := producer_injective ((frameRole_iff _ g' job).mp hrole).1
      exact .claims (hs.payloads _ _ _ _ hbusy)
    | writes g' job len cp pos b rest =>
      obtain rfl := producer_injective ((frameRole_iff _ g' job).mp hrole).1
      exact h.writes hs hbusy
    | presents => exact fun ph' hph' => nomatch (finish_busy ..).symm.trans hph'
    | sees | readsLow | drains | copies => exact .goOn trivial

theorem StreamWhole.producerAct (h : StreamWhole s g) (hwrites : WritesFaithfully s g) (hs : Safe s)
    (hbusy : (s.port.get (producer g)).busy = some ph) : StreamWhole (Machine.act (producer g) ph s) g := by
  have hown := act_own s (hs.roles _ ph hbusy)
  have hcfg := (act_frame (producer g) ph s).cfg
  have hcons := hown.cons g (producer_ne_consumer g)
  cases act_producerMoves (hs.ranged.cap_pos g) hs.payloads hbusy (hs.roles _ ph hbusy) with
  | rests hprod | claims _ hprod | writes _ _ _ _ hprod =>
    exact h.keeps hs hcfg hcons hprod (hs.act_liveKept hbusy)
  | publishes cp size pos hw _ hprod =>
    have hroom := (hs.ordered g).live_add_claimed (hs.ranged.cap_pos g)
    have hclaim : claimed s g = size := by simp [claimed_eq, hw]
    refine h.publishes hs hcfg hcons hprod (hwrites.frame_written hw) (hclaim ▸ hroom)
      (byteAt_eq_of_reads hcfg fun _ => ?_)
    rcases act_store_cases (producer g) ph s with ⟨g', job, len, cp', pos', b, rest, rfl⟩ | hstore
    · simp [writing_busy hbusy, writingFrame] at hw
    · rw [hstore]

theorem StreamFaithful.producerAct (h : StreamFaithful s g) (hs : Safe s)
    (hbusy : (s.port.get (producer g)).busy = some ph) : StreamFaithful (Machine.act (producer g) ph s) g := by
  obtain ⟨hwhole, hwrites, hreads⟩ := (streamFaithful_iff s g).mp h
  have hown := act_own s (hs.roles _ ph hbusy)
  have hne := producer_ne_consumer g
  exact (streamFaithful_iff _ g).mpr ⟨hwhole.producerAct hwrites hs hbusy, hwrites.act hs hbusy,
    hreads.keeps hs (act_frame ..).cfg (hown.port_of_ne hne.symm) (hown.cons g hne)
      (hown.reg _ (by rwa [owner_pubCons])) (hs.act_liveKept hbusy)⟩

/-! ### What the consumer's actions keep -/

/-- The read of the high header byte finds the length of the first frame, and drains it only if it lies whole among the
queued bytes. -/
theorem ReadsFaithfully.header {job : DrainJob} {pp : Word} {b0 : Byte} {len : Half} (h : ReadsFaithfully s g)
    (hs : Safe s) (hbusy : (s.port.get (consumer g)).busy = some (.headerHigh job pp b0)) (hg : drainRing job = g)
    (hlen : len = lengthOf b0 (s.byteAt g ((s.consPos.get g).toNat + 1))) (hle : frameSize len ≤ availTo s g pp) :
    len = lengthAt s g (s.consPos.get g).toNat ∧ frameSize len ≤ availTo s g (s.prodPos.get g) := by
  obtain ⟨_, rfl⟩ := h _ hbusy hg
  have hsight : seenProd s g = pp := by simp [seenProd_busy hbusy, drainSnapshot, hg]
  have hqueued := (hs.ordered g).avail_le (hs.ranged.cap_pos g)
  exact ⟨hlen, hle.trans (hsight ▸ hqueued)⟩

/-- The copy-out of a frame just drained begins behind its header. -/
theorem faithful_copyOut_begins {job : DrainJob} {pp : Word} {len : Half} (hs : Safe s)
    (hle : frameSize len ≤ availTo s g (s.prodPos.get g)) :
    ReadsFaithfully ((s.setCons g (advance (s.consPos.get g) (frameSize len) (s.cap g))).goOn (consumer g)
      (.copyOut job pp (advance (s.consPos.get g) 2 (s.cap g)).toNat len.toNat [])) g := by
  have hc := hs.ranged.cap_pos g
  have hcw := hs.ranged.cap_le g
  have hlive := (hs.ordered g).drained_add_queued hc
  have hlt := dist_lt (s.prodPos.get g) (s.reg.get (pubCons g)) (s.cap g) hc
  have hsize := frameSize_eq len
  have hdrained := dist_advance_left (s.consPos.get g) (s.reg.get (pubCons g)) (frameSize len) (s.cap g) hc hcw
    (by omega)
  refine .goOn fun _ => ⟨?_, ?_⟩
  · simp only [State.goOn_consPos, State.goOn_reg, State.goOn_cap, State.setCons_consPos, State.setCons_reg,
      State.setCons_cap, PerRing.get_set_same, hdrained]
    omega
  · simp only [State.goOn_consPos, State.goOn_cap, State.setCons_consPos, State.setCons_cap, PerRing.get_set_same,
      advance_toNat _ _ _ hc hcw, Nat.mod_add_mod]
    rw [show (s.consPos.get g).toNat + frameSize len + (s.cap g - len.toNat) =
      (s.consPos.get g).toNat + 2 + s.cap g by omega, Nat.add_mod_right]

/-- The copy-out goes on to the next byte. -/
theorem ReadsFaithfully.copies {job : DrainJob} {pp : Word} {pos left : Nat} {acc acc' : List Byte}
    (h : ReadsFaithfully s g) (hc : 0 < s.cap g)
    (hbusy : (s.port.get (consumer g)).busy = some (.copyOut job pp pos (left + 1) acc)) (hg : drainRing job = g) :
    ReadsFaithfully (s.goOn (consumer g) (.copyOut job pp ((pos + 1) % s.cap g) left acc')) g := by
  obtain ⟨hleft, hpos⟩ := h _ hbusy hg
  have hlt := dist_lt (s.consPos.get g) (s.reg.get (pubCons g)) (s.cap g) hc
  refine .goOn fun _ => ⟨Nat.le_of_succ_le hleft, ?_⟩
  rw [hpos, Nat.mod_add_mod, State.goOn_consPos, State.goOn_cap, Nat.add_assoc,
    show s.cap g - (left + 1) + 1 = s.cap g - left by omega]

theorem StreamFaithful.consumerAct (h : StreamFaithful s g) (hs : Safe s)
    (hbusy : (s.port.get (consumer g)).busy = some ph) : StreamFaithful (Machine.act (consumer g) ph s) g := by
  obtain ⟨hwhole, hwrites, hreads⟩ := (streamFaithful_iff s g).mp h
  have hrole := hs.roles _ ph hbusy
  have hown := act_own s hrole
  have hcfg := (act_frame (consumer g) ph s).cfg
  have hne := producer_ne_consumer g
  have hread := hown.mem g hne.symm
  have hbytes := byteAt_eq_of_reads hcfg hread
  have hprod := hown.prod g hne.symm
  have hwrites' := hwrites.keeps (hown.port_of_ne hne) hprod hbytes
  have hkeeps := fun hcons => hwhole.keeps hs hcfg hcons hprod (.ofReads hcfg hread)
  have hdrains := fun hframe hcons => hwhole.drains hs hcfg hframe hcons hprod hbytes
  rw [streamFaithful_iff]
  rcases act_takesBytes (consumer g) ph s with hnone | htakes
  · exact ⟨hkeeps (by rw [hnone.cons]), hwrites', fun ph' hph' => .ofNone _ g (hnone.phase ph' hph')⟩
  · generalize Machine.act (consumer g) ph s = t at *
    cases htakes with
    | claims | writes => exact ⟨hkeeps rfl, hwrites', .goOn trivial⟩
    | sees job pp htwo =>
      obtain rfl := consumer_injective (jobOfSide_consumer hrole)
      exact ⟨hkeeps rfl, hwrites', .goOn fun _ => htwo⟩
    | readsLow job pp =>
      obtain rfl := consumer_injective (jobOfSide_consumer hrole)
      exact ⟨hkeeps rfl, hwrites', .goOn fun _ => ⟨hreads _ hbusy rfl, rfl⟩⟩
    | presents job pp b0 off len hlen hle =>
      obtain rfl := consumer_injective (jobOfSide_consumer hrole)
      obtain ⟨rfl, hframe⟩ := hreads.header hs hbusy rfl hlen hle
      exact ⟨hdrains hframe (PerRing.get_set_same ..), hwrites',
        fun ph' hph' => nomatch (finish_busy ..).symm.trans hph'⟩
    | drains job pp b0 len hlen hle =>
      obtain rfl := consumer_injective (jobOfSide_consumer hrole)
      obtain ⟨rfl, hframe⟩ := hreads.header hs hbusy rfl hlen hle
      exact ⟨hdrains hframe (PerRing.get_set_same ..), hwrites', faithful_copyOut_begins hs hframe⟩
    | copies job pp pos left acc b =>
      obtain rfl := consumer_injective (jobOfSide_consumer hrole)
      exact ⟨hkeeps rfl, hwrites', hreads.copies (hs.ranged.cap_pos _) hbusy rfl⟩

theorem StreamFaithful.act (h : StreamFaithful s g) (hs : Safe s) (hbusy : (s.port.get sd).busy = some ph) :
    StreamFaithful (Machine.act sd ph s) g := by
  rcases producer_or_consumer sd g with rfl | rfl
  · exact h.producerAct hs hbusy
  · exact h.consumerAct hs hbusy

/-- While a side goes on with its operation, both streams stay whole and what is held of them true. -/
theorem StreamFaithful.run (h : StreamFaithful s g) (hs : Safe s) (n : Nat) : StreamFaithful (Machine.run n sd s) g :=
  (run_induct (fun u => Safe u ∧ StreamFaithful u g) sd (fun _ _ hph hu => ⟨hu.1.act hph, hu.2.act hu.1 hph⟩) n s
    ⟨hs, h⟩).2

/-- A side that moves no position, writes no byte and is left with nothing held keeps what the other side holds. -/
theorem StreamFaithful.rests (h : StreamFaithful s g) (hs : Safe s) (hown : OwnWritesOnly sd s t) (hcfg : t.cfg = s.cfg)
    (hprod : t.prodPos = s.prodPos) (hcons : t.consPos = s.consPos) (hstore : t.store = s.store)
    (hrest : ∀ ph, (t.port.get sd).busy = some ph → ph.holdsBytes = false) : StreamFaithful t g := by
  obtain ⟨hwhole, hwrites, hreads⟩ := (streamFaithful_iff s g).mp h
  have hlive : LiveKept g s t := .ofStore hcfg hstore
  have hprod' : t.prodPos.get g = s.prodPos.get g := by rw [hprod]
  have hcons' : t.consPos.get g = s.consPos.get g := by rw [hcons]
  have hne := producer_ne_consumer g
  refine (streamFaithful_iff t g).mpr ⟨hwhole.keeps hs hcfg hcons' hprod' hlive, ?_, ?_⟩
  · by_cases hsd : producer g = sd
    · subst hsd
      exact fun ph hph => .ofNone t g (hrest ph hph)
    · exact hwrites.keeps (hown.port_of_ne hsd) hprod' (byteAt_eq_of_reads hcfg fun _ => by rw [hstore])
  · by_cases hsd : consumer g = sd
    · subst hsd
      exact fun ph hph => .ofNone t g (hrest ph hph)
    · exact hreads.keeps hs hcfg (hown.port_of_ne hsd) hcons'
        (hown.reg _ (by rw [owner_pubCons]; exact fun e => hsd e.symm)) hlive

end

/-! ### Every step -/

theorem firstAction_holdsNoBytes {s : State} {i : Instr} {ph : Phase} (h : firstAction s i = some ph) :
    ph.holdsBytes = false := by
  cases i with
  | enqueue | send | generateRx | drain | processTx | dispatch => cases h; rfl
  | _ => cases h

section

variable {s t : State} {g : Ring}

theorem StreamFaithful.finish {u : State} {r : Result} (h : StreamFaithful s g) (hs : Safe s)
    (hown : OwnWritesOnly s.side s u) (hcfg : u.cfg = s.cfg) (hprod : u.prodPos = s.prodPos)
    (hcons : u.consPos = s.consPos) (hstore : u.store = s.store) : StreamFaithful (u.finish s.side r) g :=
  h.rests hs (hown.finish r) hcfg hprod hcons hstore fun _ hph => nomatch (finish_busy u _ r).symm.trans hph

/-- Issuing an instruction that is no raw write keeps both streams whole and what is held of them true. -/
theorem StreamFaithful.exec {i : Instr} (h : StreamFaithful s g) (hs : Safe s) (hraw : isRaw i = false)
    (ht : Machine.exec i s = .next t) : StreamFaithful t g := by
  have hdrop : OwnWritesOnly s.side s s.dropResults := .atPort ..
  cases hph : firstAction s i with
  | none =>
    obtain ⟨u, hu, rfl⟩ := exec_single ht hph
    obtain ⟨hcfg, _, hprod, hcons, _⟩ := hu.protocol hraw
    exact h.finish hs (hdrop.trans hu.own) hcfg hprod hcons (hu.store hraw)
  | some ph =>
    obtain ⟨hfit, ⟨_, rfl⟩ | ⟨_, rfl⟩⟩ := exec_several_cases ht hph
    · exact h.finish hs hdrop rfl rfl rfl rfl
    · refine StreamFaithful.run ?_ (hs.begins (exec_ready ht) hph hfit) _
      refine h.rests hs (hdrop.goOn ph) rfl rfl rfl rfl fun ph' hph' => ?_
      rw [goOn_busy] at hph'
      cases hph'
      exact firstAction_holdsNoBytes hph

theorem StreamFaithful.present {sd : Side} (h : StreamFaithful s g) (hs : Safe s)
    (hidle : (s.port.get sd).busy = none) (rq : Request) (n : Nat) : StreamFaithful (s.present sd rq n) g := by
  refine h.rests hs (.atPort ..) rfl rfl rfl rfl fun ph hph => ?_
  simp [hidle] at hph

/-- The reader-side copies have no part in the streams. -/
theorem StreamFaithful.setSeen (h : StreamFaithful s g) (hs : Safe s)
    (ht : t = { s with seen := t.seen, waited := t.waited }) : StreamFaithful t g := by
  obtain ⟨hwhole, hwrites, hreads⟩ := (streamFaithful_iff s g).mp h
  rw [ht]
  have hlive : LiveKept g s { s with seen := t.seen, waited := t.waited } := fun _ _ => rfl
  exact (streamFaithful_iff _ g).mpr ⟨hwhole.keeps hs rfl rfl rfl hlive, hwrites.keeps rfl rfl fun _ => rfl,
    hreads.keeps hs rfl rfl rfl rfl hlive⟩

end

/-- Settles O55: the side an input makes act reads and writes its streams faithfully, and a SYNC, an input's own or a
due one, changes no stream. -/
theorem protocolStepsKeepStreamsWhole : Obligations.ProtocolStepsKeepStreamsWhole := by
  intro s t hs h hproto ht g
  rcases step_cases s t ht with ⟨_, rfl⟩ | ⟨x, rest, u, hin, hu, rfl⟩
  · exact h g
  · have hs' := safe_setInputs rest hs
    have h' := streamFaithful_setInputs rest (h g)
    suffices hu' : Safe u ∧ StreamFaithful u g from hu'.2.setSeen hu'.1 (settle_eq s _ u)
    cases x with
    | sync p => cases hu; exact ⟨hs'.setSeen rfl (syncPtr_seen_cases _ p), h'.setSeen hs' rfl⟩
    | resume sd n => cases hu; exact ⟨hs'.run .., h'.run hs' _⟩
    | issue sd rq n =>
      obtain ⟨i, hd, he⟩ := takeInput_issue_next hu
      have hidle : ((s.setInputs rest).port.get sd).busy = none := by simpa using (exec_ready he).1
      have hraw := hproto sd rq n rest i hin hd
      have hpresent := hs'.present hidle rq (State.turn (s.setInputs rest) n)
      exact ⟨hpresent.exec hraw he, (h'.present hs' hidle rq _).exec hpresent hraw he⟩

end Sys2Proof.Machine
end

section
/-! Requests (spec/30_encoding.md R100 to R111): who may issue what, what is refused, which operations are the same, and
how a placed word is taken. -/

namespace Sys2Proof.Machine

open Host (Outcome)

/-! ### Issue rights (R107) -/

/-- An operation whose meaning never refuses its side is not refused for a side that may issue it. -/
theorem accept_ne_notIssuer {i : Instr} {s : State} {go : State → Outcome State Fault Refusal}
    (hmay : mayIssue s.side i = true) (hgo : ∀ u, go u ≠ .refused .notIssuer) : accept i s go ≠ .refused .notIssuer := by
  rcases accept_cases i s go with ⟨_, e⟩ | ⟨_, hnot, _⟩ | ⟨_, _, e⟩
  · rw [e]; nofun
  · rw [hmay] at hnot; cases hnot
  · rw [e]; exact hgo _

theorem enqueueFrame_ne_notIssuer (g : Ring) (len : Half) (s : State) :
    enqueueFrame g len s ≠ .refused .notIssuer := by
  rcases enqueueFrame_cases g len s with ⟨_, e⟩ | ⟨_, _, e⟩ | ⟨_, _, e⟩ <;> rw [e] <;> nofun

theorem writePointer_ne_notIssuer (p : Ptr) (s : State) : writePointer p s ≠ .refused .notIssuer := by
  rcases writePointer_cases p s with ⟨_, e⟩ | ⟨_, e⟩ <;> rw [e] <;> nofun

theorem perform_ne_notIssuer (ph : Phase) (s : State) : perform ph s ≠ .refused .notIssuer := nofun

theorem complete_ne_notIssuer (s : State) : complete s ≠ .refused .notIssuer := nofun

theorem exec_ne_notIssuer {i : Instr} {s : State} (hmay : mayIssue s.side i = true) :
    exec i s ≠ .refused .notIssuer := by
  unfold exec
  cases i with
  | enqueue | send => exact accept_ne_notIssuer hmay (enqueueFrame_ne_notIssuer _ _)
  | drain | dispatch | processTx => exact accept_ne_notIssuer hmay fun _ => perform_ne_notIssuer _ _
  | generateRx =>
    refine accept_ne_notIssuer hmay fun u => ?_
    split
    · nofun
    · exact perform_ne_notIssuer _ u
  | ptrWrite | regWrTxTailPtr | regWrRxHeadPtr | regWrHostTxHeadPub | regWrHostRxTailPub =>
    exact accept_ne_notIssuer hmay (writePointer_ne_notIssuer _)
  | memRd | memWr =>
    refine accept_ne_notIssuer hmay fun u => ?_
    split
    · exact complete_ne_notIssuer _
    · nofun
  | _ => exact accept_ne_notIssuer hmay fun _ => complete_ne_notIssuer _

/-- At an idle port a side is refused for want of the right exactly where it has none. -/
theorem exec_notIssuer_iff {i : Instr} {s : State} (hidle : (s.port.get s.side).busy = none) :
    exec i s = .refused .notIssuer ↔ mayIssue s.side i = false := by
  constructor
  · exact fun h => Bool.eq_false_iff.mpr fun hmay => exec_ne_notIssuer hmay h
  · intro hnot
    obtain ⟨go, hgo⟩ := exec_accept i s
    rcases accept_cases i s go with ⟨hbusy, _⟩ | ⟨_, _, e⟩ | ⟨_, hmay, _⟩
    · exact absurd hidle hbusy
    · rw [hgo, e]
    · rw [hnot] at hmay; cases hmay

/-- Settles O13: at an idle port the refusal is `mayIssue`, which is the table of R107. -/
theorem issueRightsAreKept : Obligations.IssueRightsAreKept := by
  intro i s hidle
  rw [exec_notIssuer_iff hidle]
  cases i with
  | enqueue g | drain g | commit g | memRd g | memWr g => cases g <;> exact decide_eq_false_iff_not
  | ptrWrite p => cases p <;> exact decide_eq_false_iff_not
  | regWrTxTailPtr | regWrRxHeadPtr | regWrHostTxHeadPub | regWrHostRxTailPub => exact decide_eq_false_iff_not
  | ack | dispatch | send | processTx | generateRx | regWrIntEnable | regWrIntClear => exact decide_eq_false_iff_not
  | _ => exact ⟨nofun, False.elim⟩

/-- Issuing an instruction leaves at the port nothing, or an operation its side may issue. -/
theorem exec_role {i : Instr} {s t : State} (h : exec i s = .next t) : RoleKept s.side t :=
  exec_keeps (RoleKept s.side) h (.finish _ _ _) (fun _ hph _ => .goOn _ (firstAction_role (exec_ready h).2 hph))
    (fun u ph hph hu => act_role u (hu ph hph)) (fun _ _ => .finish _ _ _)

/-- A side that acts keeps the roles if it ends with an operation it may issue. -/
theorem RolesKept.acts {s t : State} {sd : Side} (h : RolesKept s) (hown : OwnWritesOnly sd s t)
    (hrole : RoleKept sd t) : RolesKept t := by
  intro sd' ph hph
  by_cases e : sd' = sd
  · subst e; exact hrole ph hph
  · rw [hown.port_of_ne e] at hph
    exact h sd' ph hph

/-- Settles O47: an operation issued begins in a phase of its side, each action leads to another, and the other side's
port is left alone. -/
theorem everyStepKeepsRoles : Obligations.EveryStepKeepsRoles := by
  intro s t h ht
  rcases step_cases s t ht with ⟨_, rfl⟩ | ⟨x, rest, u, _, hu, rfl⟩
  · exact h
  · suffices hroles : RolesKept u from fun sd ph hph => hroles sd ph (by rwa [State.settle_port] at hph)
    have hs : RolesKept (s.setInputs rest) := h
    cases x with
    | sync p => cases hu; exact h
    | resume sd n =>
      cases hu
      obtain ⟨hown, hrole⟩ := run_own _ _ ((s.setInputs rest).turn n) (.refl sd _) (hs sd)
      exact hs.acts hown hrole
    | issue sd rq n =>
      obtain ⟨i, _, he⟩ := takeInput_issue_next hu
      exact hs.acts (takeInput_own hs rfl hu).1 (exec_role he)

/-! ### Payloads (R102) -/

theorem firstAction_of_payload {i : Instr} {pbuf : List Byte} (s : State) (h : i.payloadFits pbuf = false) :
    ∃ ph, firstAction s i = some ph := by
  cases i with
  | enqueue | send | generateRx => exact ⟨_, rfl⟩
  | _ => cases h

/-- Settles O45: the operations that take a payload are of several actions, and test it before the first. -/
theorem payloadOfAnotherLengthIsRefused : Obligations.PayloadOfAnotherLengthIsRefused := by
  intro i s hready hpay
  obtain ⟨ph, hph⟩ := firstAction_of_payload s hpay
  rw [exec_several hready hph, if_pos hpay]

/-! ### Requests outside the interface (R108) -/

/-- A request whose meaning answers no next state is refused, since nothing faults (spec/60_exceptions.md R202). -/
theorem step_refused {s : State} {sd : Side} {rq : Request} {n : Nat} {rest : List Input} {i : Instr}
    (hin : s.inputs = .issue sd rq n :: rest) (hd : decode rq.txn = .ok i)
    (h : ∀ t, exec i ((s.setInputs rest).present sd rq ((s.setInputs rest).turn n)) ≠ .next t) :
    ∃ r, step s = .refused r := by
  rw [step_input s _ rest hin, takeInput_issue sd rq n i _ hd]
  cases e : exec i ((s.setInputs rest).present sd rq ((s.setInputs rest).turn n)) with
  | next t => exact absurd e (h t)
  | fault r => cases r
  | refused r => exact ⟨r, rfl⟩

theorem step_badEncoding {s : State} {sd : Side} {rq : Request} {n : Nat} {rest : List Input} {e : DecodeError}
    (hin : s.inputs = .issue sd rq n :: rest) (hd : decode rq.txn = .error e) : ∃ r, step s = .refused r := by
  rw [step_input s _ rest hin, takeInput_issue_error sd rq n e _ hd]
  exact ⟨_, rfl⟩

/-- What R100 and R101 ask of the fields of a command word. -/
structure CommandFields (op reserved g arg : Nat) : Prop where
  known : op ∈ [0x01, 0x02, 0x03, 0x04, 0x05, 0x08, 0x09, 0x0A, 0x10, 0x11, 0x12]
  unreserved : reserved = 0
  ring : op ∉ [0x01, 0x02, 0x03] → g = 0
  noArgument : op ∈ [0x02, 0x03, 0x0A, 0x11] → arg = 0
  offset : op ∈ [0x04, 0x05] → arg ∈ [0x00, 0x04, 0x08, 0x0C]
  bit : op ∈ [0x08, 0x09] → arg ≤ 2

/-- Fields that break one of the rules of R108 a or b are no such fields. -/
theorem CommandFields.not_broken {op reserved g arg : Nat} (h : CommandFields op reserved g arg) :
    ¬(op ∉ [0x01, 0x02, 0x03, 0x04, 0x05, 0x08, 0x09, 0x0A, 0x10, 0x11, 0x12] ∨ reserved ≠ 0 ∨
      (op ∉ [0x01, 0x02, 0x03] ∧ g = 1) ∨ (op ∈ [0x02, 0x03, 0x0A, 0x11] ∧ arg ≠ 0) ∨
      (op ∈ [0x04, 0x05] ∧ arg ∉ [0x00, 0x04, 0x08, 0x0C]) ∨ (op ∈ [0x08, 0x09] ∧ 2 < arg)) := by
  rintro (hop | hres | ⟨hop, hg⟩ | ⟨hop, harg⟩ | ⟨hop, harg⟩ | ⟨hop, harg⟩)
  · exact hop h.known
  · exact hres h.unreserved
  · exact absurd ((h.ring hop).symm.trans hg) (by decide)
  · exact harg (h.noArgument hop)
  · exact harg (h.offset hop)
  · exact Nat.not_le.mpr harg (h.bit hop)

/-- The command word of an instruction has such fields. -/
theorem encode_commandFields {i : Instr} {w : BitVec 32} (h : encode i = .cmd w) :
    CommandFields (w.toNat / 2 ^ 24) (w.toNat / 2 ^ 17 % 128) (w.toNat / 2 ^ 16 % 2) (w.toNat % 2 ^ 16) := by
  have hreserved := cmdReserved_toNat w
  rw [show (2 : Nat) ^ 7 = 128 from rfl] at hreserved
  rw [← cmdOp_toNat, ← hreserved, ← cmdRingBit_toNat, ← cmdArg_toNat]
  cases i with
  | enqueue | drain | commit | dispatch | send | processTx | generateRx => cases h; constructor <;> simp
  | ptrWrite p | ptrRead p => cases h; cases p <;> constructor <;> simp [ptrOffset]
  | raiseInt b | ack b => cases h; cases b <;> constructor <;> simp [bitIndex]
  | _ => cases h

/-- The offsets of the seven registers (spec/10_state.md R30). -/
theorem regOffset_mem (r : Reg) : (regOffset r).toNat ∈ [0x00, 0x04, 0x08, 0x0C, 0x10, 0x14, 0x18] := by
  cases r with
  | ptr p => cases p <;> decide
  | _ => decide

theorem ringOfBit_eq (b : BitVec 1) : ringOfBit b = if b.toNat = 0 then .tx else .rx := by
  rcases BitVec.eq_zero_or_eq_one b with rfl | rfl <;> rfl

/-- An operation that tests an index against its store has no next state beyond it. -/
theorem accept_index_beyond {i : Instr} {g : Ring} {k : Nat} {s : State} {go : State → Outcome State Fault Refusal}
    (h : s.cap g ≤ k) (t : State) :
    accept i s (fun u => if k < u.cap g then go u else .refused .badIndex) ≠ .next t := by
  intro e
  obtain ⟨_, _, e⟩ := accept_next _ _ _ _ e
  rw [State.dropResults_cap, if_neg (Nat.not_lt.mpr h)] at e
  cases e

/-- A memory transaction beyond its store has no next state. -/
theorem exec_decodeMt_beyond {w : BitVec 34} {s : State}
    (h : s.cap (ringOfBit (mtRingBit w)) ≤ (mtIndex w).toNat) (t : State) : exec (decodeMt w) s ≠ .next t := by
  unfold decodeMt
  split
  · rw [exec, execMemRd]
    exact accept_index_beyond h t
  · rw [exec, execMemWr]
    exact accept_index_beyond h t

theorem exec_regWrite_ptr (p : Ptr) (s : State) :
    exec (regWrite (.ptr p)) s = accept (regWrite (.ptr p)) s (writePointer p) := by
  cases p <;> rfl

theorem accept_writePointer_beyond {i : Instr} {p : Ptr} {s : State}
    (h : s.cap (ptrRing p) ≤ (s.port.get s.side).wdata.toNat) (t : State) :
    accept i s (writePointer p) ≠ .next t := by
  intro e
  obtain ⟨_, _, e⟩ := accept_next _ _ _ _ e
  rcases writePointer_cases p s.dropResults with ⟨hlt, _⟩ | ⟨_, e'⟩
  · rw [State.dropResults_side, dropResults_wdata, State.dropResults_cap] at hlt
    omega
  · rw [e'] at e; cases e

/-- Settles O14: the words are none the encoder writes (O12), and the other requests have no meaning that answers a next
state. -/
theorem requestsOutsideTheInterfaceAreRefused : Obligations.RequestsOutsideTheInterfaceAreRefused := by
  intro s sd rq n rest hin
  refine ⟨fun w hw => ?_, fun i hd hmay => step_refused hin hd fun t e => ?_, fun w hw hoff => ?_, fun w hw hidx => ?_,
    fun p i hd hi hv => step_refused hin hd ?_⟩
  · intro op reserved g arg hbad
    cases hd : decode rq.txn with
    | error e => exact step_badEncoding hin hd
    | ok i =>
      have hword := decodedWordIsTheEncodedOne _ i hd
      rw [hw] at hword
      exact absurd hbad (encode_commandFields hword).not_broken
  · have hright := (exec_ready e).2
    rw [State.present_side, hmay] at hright
    cases hright
  · cases hd : decode rq.txn with
    | error e => exact step_badEncoding hin hd
    | ok i =>
      rw [hw] at hd
      obtain ⟨r, hr, _⟩ := decodeRt_ok hd
      rw [← rtOffset_toNat, hr] at hoff
      exact absurd (regOffset_mem r) hoff
  · rw [← mtRingBit_toNat, ← mtIndex_toNat, ← ringOfBit_eq] at hidx
    exact step_refused hin (by rw [hw]; rfl) (exec_decodeMt_beyond hidx)
  · have hbeyond := accept_writePointer_beyond (i := i)
      (s := (s.setInputs rest).present sd rq ((s.setInputs rest).turn n)) (p := p) (by simpa using hv)
    rcases hi with rfl | rfl
    · exact hbeyond
    · rw [exec_regWrite_ptr]; exact hbeyond

/-! ### Pseudo-operations (R111) -/

/-- Two operations are the same where the same sides may issue them and their meanings agree. -/
theorem accept_congr {i j : Instr} {s : State} {go go' : State → Outcome State Fault Refusal}
    (hmay : mayIssue s.side i = mayIssue s.side j) (hgo : go s.dropResults = go' s.dropResults) :
    accept i s go = accept j s go' := by
  simp only [accept, hmay, hgo]

theorem bitMask_eq (b : IntBit) : bitMask b = (1 <<< (bitIndex b).toNat : Nat) := by
  cases b <;> decide

/-- Settles O31: each has the issue rights and the meaning of the operation it stands for. -/
theorem pseudoOperationsAreTheSame : Obligations.PseudoOperationsAreTheSame := by
  refine fun s => ⟨fun len => accept_congr rfl rfl, fun b hv => ?_, fun p => ⟨?_, ?_⟩⟩
  · have hmask : (s.dropResults.port.get s.dropResults.side).wdata = bitMask b := by
      rw [State.dropResults_side, dropResults_wdata, hv, bitMask_eq]
    unfold exec execRaise execRegWrIntStatus execAck execRegWrIntClear
    exact ⟨accept_congr rfl (by rw [hmask]; rfl), accept_congr rfl (by rw [hmask]; rfl)⟩
  · cases p <;> exact accept_congr rfl rfl
  · cases p <;> exact accept_congr rfl rfl

/-! ### A placed word -/

theorem decodeTableWord_eq_some {nbits w : Nat} {i : Instr} (h : decodeTableWord nbits w = some i) :
    ∃ t, txnOfTable nbits w = some t ∧ decode t = .ok i := by
  unfold decodeTableWord at h
  split at h
  next t ht =>
    cases hd : decode t with
    | ok j =>
      rw [hd] at h
      cases h
      exact ⟨t, ht, hd⟩
    | error e => rw [hd] at h; cases h
  next => cases h

/-- Every operation has a side that may issue it (spec/30_encoding.md R107). -/
theorem mayIssue_someIssuer (i : Instr) : mayIssue (someIssuer i) i = true := by
  have oneOf (sd : Side) : decide (Side.host = sd) = true ∨ decide (Side.device = sd) = true := by
    cases sd <;> simp
  have hsome : mayIssue .host i = true ∨ mayIssue .device i = true := by
    cases i with
    | enqueue g | drain g | commit g | memRd g | memWr g => exact oneOf _
    | ptrWrite p => exact oneOf (owner p)
    | processTx | generateRx | regWrTxTailPtr | regWrRxHeadPtr => exact .inr rfl
    | _ => exact .inl rfl
  unfold someIssuer
  split
  next hhost => exact hhost
  next hhost => exact hsome.resolve_left hhost

theorem withFetchWord_eq {s : State} {nbits w : Nat} {t : Txn} {i : Instr} (ht : txnOfTable nbits w = some t)
    (hd : decode t = .ok i) : s.withFetchWord nbits w =
      { s with
        inputs := .issue (someIssuer i) (zeroRequest t i) (fullQuantum s.cfg) :: s.inputs
        port := s.port.set (someIssuer i) { s.port.get (someIssuer i) with busy := none } } := by
  simp [State.withFetchWord, ht, hd]

/-- The next step takes the placed request; the inputs and the port alone are not as they were. -/
theorem step_withFetchWord {s : State} {nbits w : Nat} {t : Txn} {i : Instr} (ht : txnOfTable nbits w = some t)
    (hd : decode t = .ok i) : step (s.withFetchWord nbits w) =
      settleNext s (s.issueActions i (fullQuantum s.cfg))
        (exec i (((s.withFetchWord nbits w).setInputs s.inputs).present (someIssuer i) (zeroRequest t i)
          (s.turn (fullQuantum s.cfg)))) := by
  have hdecode : decode (zeroRequest t i).txn = .ok i := hd
  rw [withFetchWord_eq ht hd, step_input _ _ s.inputs rfl, takeInput_issue _ _ _ i _ hdecode]
  simp only [State.inputActions, hdecode]
  rfl

/-- Settles O8: the placed request stands first among the inputs, at a port with nothing in progress whose side may
issue it. -/
theorem placedWordRunsNext : Obligations.PlacedWordRunsNext := by
  intro s nbits w i h
  obtain ⟨t, ht, hd⟩ := decodeTableWord_eq_some h
  refine ⟨_, step_withFetchWord ht hd, ⟨?_, mayIssue_someIssuer i⟩, ?_⟩ <;> rw [withFetchWord_eq ht hd]
  · simp
  · refine ⟨?_, rfl, rfl, rfl, rfl, rfl, rfl, rfl, rfl, rfl, rfl, rfl, rfl, rfl, ?_⟩
    · simp [zeroRequest]
    · simp

end Sys2Proof.Machine
end

section
/-! Payloads on their way (spec/40_ring_ops.md R130): what is delivered, being copied out and queued of a ring; a
publication adds the producer's payload at the end, a drain takes the oldest payload off the queue, a sink takes it from
the copy-out, and every other action leaves the list as it is. -/

namespace Sys2Proof.Machine

/-! ### The queue -/

section

variable {s t u : State} {g : Ring}

theorem queued_eq (s : State) (g : Ring) :
    queued s g = (framesFrom s g (s.consPos.get g).toNat (availTo s g (s.prodPos.get g))).1 := rfl

/-- Where neither end moves and the queued bytes are kept, the queue is the same. -/
theorem queued_congr (hcfg : t.cfg = s.cfg) (hcons : t.consPos.get g = s.consPos.get g)
    (hprod : t.prodPos.get g = s.prodPos.get g)
    (hbytes : ∀ k, k < availTo s g (s.prodPos.get g) →
      t.byteAt g ((s.consPos.get g).toNat + k) = s.byteAt g ((s.consPos.get g).toNat + k)) :
    queued t g = queued s g := by
  have havail : availTo t g (t.prodPos.get g) = availTo s g (s.prodPos.get g) := by
    simp only [availTo, State.cap, hcfg, hcons, hprod]
  rw [queued_eq t, havail, hcons, framesFrom_congr hbytes]
  rfl

/-- A consumer that moves past the first frame takes its payload off the queue. -/
theorem queued_drains (hs : Safe s) (hcfg : t.cfg = s.cfg)
    (hframe : frameSize (lengthAt s g (s.consPos.get g).toNat) ≤ availTo s g (s.prodPos.get g))
    (hcons : t.consPos.get g =
      advance (s.consPos.get g) (frameSize (lengthAt s g (s.consPos.get g).toNat)) (s.cap g))
    (hprod : t.prodPos.get g = s.prodPos.get g) (hbytes : ∀ k, t.byteAt g k = s.byteAt g k) :
    queued s g = payloadAt s g ((s.consPos.get g).toNat + 2) (lengthAt s g (s.consPos.get g).toNat).toNat ::
      queued t g := by
  have hc := hs.ranged.cap_pos g
  have hw := hs.ranged.cap_le g
  have hcap : t.cap g = s.cap g := by simp only [State.cap, hcfg]
  rw [queued_eq s, framesFrom_frame s g hframe, queued_eq t]
  generalize frameSize (lengthAt s g (s.consPos.get g).toNat) = n at *
  have havail : availTo t g (t.prodPos.get g) = availTo s g (s.prodPos.get g) - n := by
    rw [availTo, hcap, hcons, hprod]
    exact dist_advance_right _ _ _ _ hc hw hframe
  rw [havail, framesFrom_congr (s := s) (t := t) (pos := (s.consPos.get g).toNat + n) fun k _ => ?_]
  rw [hbytes, hcons, advance_toNat _ _ _ hc hw]
  exact byteAt_mod s g (Nat.mod_add_mod ..)

/-- A producer that moves past the frame at its position adds the frame's payload at the end of the queue. -/
theorem queued_publishes {size : Nat} (h : StreamWhole s g) (hs : Safe s) (hcfg : t.cfg = s.cfg)
    (hcons : t.consPos.get g = s.consPos.get g)
    (hprod : t.prodPos.get g = advance (s.prodPos.get g) size (s.cap g))
    (hsize : frameSize (lengthAt s g (s.prodPos.get g).toNat) = size)
    (hroom : dist (s.prodPos.get g) (s.reg.get (pubCons g)) (s.cap g) + size ≤ s.cap g - 1)
    (hbytes : ∀ k, t.byteAt g k = s.byteAt g k) :
    queued t g = queued s g ++
      [payloadAt s g ((s.prodPos.get g).toNat + 2) (lengthAt s g (s.prodPos.get g).toNat).toNat] := by
  have hc := hs.ranged.cap_pos g
  have hqueued := (hs.ordered g).drained_add_queued hc
  have havail : availTo t g (t.prodPos.get g) = availTo s g (s.prodPos.get g) + size := by
    rw [availTo, show t.cap g = s.cap g by simp only [State.cap, hcfg], hcons, hprod]
    exact dist_advance_left _ _ _ _ hc (hs.ranged.cap_le g) (by unfold availTo at hqueued; omega)
  have hframe : framesFrom s g ((s.consPos.get g).toNat + availTo s g (s.prodPos.get g)) size =
      framesFrom s g (s.prodPos.get g).toNat size :=
    framesFrom_congr fun k _ => byteAt_mod s g (by
      rw [Nat.add_mod, availTo, add_dist_mod _ _ _ hc, ← Nat.add_mod])
  have hnone : framesFrom s g ((s.prodPos.get g).toNat + size) (size - size) = ([], 0) := by
    rw [Nat.sub_self]; rfl
  rw [queued_eq t, havail, hcons, framesFrom_congr fun k _ => hbytes _, framesFrom_append s g _ _ h, hframe,
    framesFrom_frame s g hsize.le, hsize, hnone]
  rfl

/-- A frame that lies whole in the ring has behind its header the payload it was made of. -/
theorem payloadAt_of_frame {len : Half} {pos : Nat} {payload : List Byte}
    (h : ((List.range (frameSize len)).map fun i => s.byteAt g (pos + i)) = frameBytes len payload) :
    payloadAt s g (pos + 2) len.toNat = payload := by
  rw [frameSize_eq, List.range_succ_eq_map, List.range_succ_eq_map] at h
  simp only [List.map_cons, List.map_map, frameBytes, List.cons.injEq] at h
  obtain ⟨_, _, hpayload⟩ := h
  rw [← hpayload]
  exact List.map_congr_left fun k _ => congrArg _ (by simp; omega)

/-! ### The copy-out -/

theorem inFlight_eq_nil (h : ∀ ph, (s.port.get (consumer g)).busy = some ph →
    ∀ job pp pos left acc, ph ≠ .copyOut job pp pos left acc) : inFlight s g = [] := by
  unfold inFlight
  split
  next job pp pos left acc hph => exact absurd rfl (h _ hph job pp pos left acc)
  next => rfl

theorem inFlight_idle (h : (s.port.get (consumer g)).busy = none) : inFlight s g = [] :=
  inFlight_eq_nil fun _ hph => nomatch h.symm.trans hph

theorem inFlight_busy {ph : Phase} (h : (s.port.get (consumer g)).busy = some ph)
    (hph : ∀ job pp pos left acc, ph ≠ .copyOut job pp pos left acc) : inFlight s g = [] :=
  inFlight_eq_nil fun ph' hph' => by
    obtain rfl := Option.some.inj (h.symm.trans hph')
    exact hph

/-- A side that holds no bytes copies nothing out. -/
theorem inFlight_of_holdsNoBytes (h : ∀ ph, (s.port.get (consumer g)).busy = some ph → ph.holdsBytes = false) :
    inFlight s g = [] :=
  inFlight_eq_nil fun ph hph job pp pos left acc e => by
    rw [e] at hph
    exact nomatch (h _ hph)

theorem inFlight_copyOut {job : DrainJob} {pp : Word} {pos left : Nat} {acc : List Byte}
    (h : (s.port.get (consumer g)).busy = some (.copyOut job pp pos left acc)) (hg : drainRing job = g) :
    inFlight s g = if job = .plain g then [] else [acc ++ payloadAt s g pos left] := by
  unfold inFlight
  rw [h]
  simp only [hg, true_and]
  split_ifs <;> simp_all

/-- What is left to copy out are live bytes, so it stays while they are kept. -/
theorem inFlight_of_liveKept (h : LiveKept g s t) (hs : Safe s) (hreads : ReadsFaithfully s g) (hcfg : t.cfg = s.cfg)
    (hport : t.port.get (consumer g) = s.port.get (consumer g)) : inFlight t g = inFlight s g := by
  have hc := hs.ranged.cap_pos g
  have hcap : t.cap g = s.cap g := by simp only [State.cap, hcfg]
  unfold inFlight
  rw [hport]
  split
  next job pp pos left acc hph =>
    split
    next hjob =>
      obtain ⟨hleft, hpos⟩ := hreads _ hph hjob.1
      have hlive := (hs.ordered g).drained_add_queued hc
      have hlt := dist_lt (s.consPos.get g) (s.reg.get (pubCons g)) (s.cap g) hc
      have hcons := add_dist_mod (s.consPos.get g) (s.reg.get (pubCons g)) (s.cap g) hc
      rw [payloadAt_congr fun k hk => ?_]
      generalize dist (s.consPos.get g) (s.reg.get (pubCons g)) (s.cap g) = drained at *
      have hindex : (pos + k) % s.cap g = ((s.reg.get (pubCons g)).toNat + (drained - left + k)) % s.cap g := by
        rw [hpos, Nat.mod_add_mod, Nat.add_assoc, ← Nat.mod_add_mod, ← hcons, Nat.mod_add_mod,
          show (s.reg.get (pubCons g)).toNat + drained + (s.cap g - left + k) =
            (s.reg.get (pubCons g)).toNat + (drained - left + k) + s.cap g by omega, Nat.add_mod_right]
      rw [byteAt_mod s g hindex, byteAt_mod t g (hcap ▸ hindex)]
      exact h _ (by omega)
    next => rfl
  next => rfl

/-! ### What was delivered -/

theorem delivered_congr (h : t.events.get (consumer g) = s.events.get (consumer g)) :
    delivered t g = delivered s g := by
  cases g with
  | tx => exact congrArg (List.filterMap _) h
  | rx => exact congrArg (List.filterMap _) h

theorem delivered_emit_errorReport (s : State) (g : Ring) (sd : Side) :
    delivered (s.emit sd .errorReport) g = delivered s g := by
  cases g <;> cases sd <;> simp [delivered, PerSide.set, PerSide.get]

theorem delivered_emit_sinkDevice (s : State) (bytes : List Byte) :
    delivered (s.emit .device (.sinkDevice bytes)) .tx = delivered s .tx ++ [bytes] := by
  simp [delivered, PerSide.set, PerSide.get]

theorem delivered_emit_sinkHost (s : State) (bytes : List Byte) :
    delivered (s.emit .host (.sinkHost bytes)) .rx = delivered s .rx ++ [bytes] := by
  simp [delivered, PerSide.set, PerSide.get]

/-! ### What an action does to the payloads of a ring -/

/-- The producer position and all payloads of ring `g` on their way are the same. -/
structure PayloadsRest (g : Ring) (s t : State) : Prop where
  prod : t.prodPos.get g = s.prodPos.get g
  queue : queued t g = queued s g
  sink : delivered t g = delivered s g
  copying : inFlight t g = inFlight s g

/-- The payloads on their way are the same list, but for the payload at the producer's port behind them where the
producer has moved. -/
def Carries (g : Ring) (s t : State) : Prop :=
  pipeline t g =
    if t.prodPos.get g = s.prodPos.get g then pipeline s g
    else pipeline s g ++ [(t.port.get (producer g)).pbuf]

/-- The oldest payload of ring `g` has left the queue and is presented as a view at the consumer's port. -/
structure HandsOver (g : Ring) (s t : State) : Prop where
  queue : queued s g =
    payloadAt t g (t.port.get (consumer g)).voff.toNat (t.port.get (consumer g)).vlen.toNat :: queued t g
  prod : t.prodPos.get g = s.prodPos.get g
  sink : delivered t g = delivered s g
  before : inFlight s g = []
  after : inFlight t g = []

/-- The consumer of ring `g` has no operation in progress and was answered Ok. -/
def ConsumerEndedOk (g : Ring) (t : State) : Prop :=
  (t.port.get (consumer g)).busy = none ∧ (t.port.get (consumer g)).res = resultWord .ok

theorem PayloadsRest.samePipeline (h : PayloadsRest g s t) : pipeline t g = pipeline s g := by
  rw [pipeline, h.sink, h.copying, h.queue, ← pipeline]

theorem PayloadsRest.trans (h : PayloadsRest g s t) (h' : PayloadsRest g t u) : PayloadsRest g s u :=
  ⟨h'.prod.trans h.prod, h'.queue.trans h.queue, h'.sink.trans h.sink, h'.copying.trans h.copying⟩

/-- A payload handed over after the payloads have rested was there before. -/
theorem HandsOver.afterRest (h' : HandsOver g t u) (h : PayloadsRest g s t) : HandsOver g s u :=
  ⟨h.queue ▸ h'.queue, h'.prod.trans h.prod, h'.sink.trans h.sink, h.copying ▸ h'.before, h'.after⟩

theorem Carries.ofPipeline (hprod : t.prodPos.get g = s.prodPos.get g) (h : pipeline t g = pipeline s g) :
    Carries g s t := by
  rw [Carries, if_pos hprod, h]

theorem PayloadsRest.carries (h : PayloadsRest g s t) : Carries g s t := .ofPipeline h.prod h.samePipeline

/-- Where no position moves, no byte is written and no event emitted, the payloads rest, if the copy-out does. -/
theorem PayloadsRest.ofStore (hcfg : t.cfg = s.cfg) (hprod : t.prodPos = s.prodPos)
    (hcons : t.consPos = s.consPos) (hstore : t.store = s.store) (hevents : t.events = s.events)
    (hinFlight : inFlight t g = inFlight s g) : PayloadsRest g s t :=
  ⟨by rw [hprod], queued_congr hcfg (by rw [hcons]) (by rw [hprod])
    fun _ _ => byteAt_eq_of_reads hcfg (fun _ => by rw [hstore]) _, delivered_congr (by rw [hevents]), hinFlight⟩

/-! ### The next phase -/

/-- After `goOn` the phase in progress is the one named. -/
theorem phase_goOn {sd : Side} {ph : Phase} {P : Phase → Prop} (s : State) (h : P ph) :
    ∀ ph', ((s.goOn sd ph).port.get sd).busy = some ph' → P ph' := by
  intro ph' hph'
  rw [goOn_busy] at hph'
  cases hph'
  exact h

/-- An operation that has ended is in no phase. -/
theorem phase_finish {sd : Side} {r : Result} {P : Phase → Prop} (s : State) :
    ∀ ph, ((s.finish sd r).port.get sd).busy = some ph → P ph :=
  fun _ hph => nomatch (finish_busy ..).symm.trans hph

/-! ### The consumer, in an operation other than DRAIN -/

/-- An action of the consumer of `g` that takes nothing off the queue and after which all it has copied out is
delivered, and the operation DRAIN of `g` is not in progress. -/
structure ConsumerClears (g : Ring) (s t : State) : Prop where
  cons : t.consPos = s.consPos
  sink : delivered t g = delivered s g ++ inFlight s g
  copying : inFlight t g = []
  phase : ∀ ph, (t.port.get (consumer g)).busy = some ph → plainDrain g ph = false

theorem ConsumerClears.goOn {ph : Phase} (hcons : u.consPos = s.consPos)
    (hsink : delivered s g ++ inFlight s g = delivered u g) (hplain : plainDrain g ph = false)
    (hcopy : ∀ job pp pos left acc, ph ≠ .copyOut job pp pos left acc) :
    ConsumerClears g s (u.goOn (consumer g) ph) :=
  ⟨hcons, hsink.symm, inFlight_busy (goOn_busy ..) hcopy, phase_goOn u hplain⟩

theorem ConsumerClears.finish {r : Result} (hcons : u.consPos = s.consPos)
    (hsink : delivered s g ++ inFlight s g = delivered u g) : ConsumerClears g s (u.finish (consumer g) r) :=
  ⟨hcons, hsink.symm, inFlight_idle (finish_busy ..), phase_finish u⟩

theorem ConsumerClears.drainBlocked (job : DrainJob) (cause : BlockCause) (pp : Word)
    (hsink : delivered s g ++ inFlight s g = delivered s g) :
    ConsumerClears g s (drainBlocked (consumer g) job cause pp s) := by
  rcases drainBlocked_cases (consumer g) job cause pp s with e | e | ⟨_, _, e⟩ <;> rw [e]
  · exact .finish rfl hsink
  · exact .goOn rfl hsink rfl nofun
  · exact .goOn rfl hsink rfl nofun

theorem ConsumerClears.serveBits (todo : List IntBit) (hcons : u.consPos = s.consPos)
    (hsink : delivered s g ++ inFlight s g = delivered u g) :
    ConsumerClears g s (serveBits (consumer g) todo u) := by
  rcases serveBits_cases (consumer g) todo u with ⟨_, e⟩ | ⟨_, _, e⟩ | ⟨_, _, e⟩ | ⟨_, _, e⟩ <;> rw [e]
  · exact .finish hcons hsink
  · exact .goOn hcons hsink (by simp [plainDrain]) nofun
  · exact .goOn hcons hsink rfl nofun
  · exact .goOn hcons hsink rfl nofun

/-- The end of a copy-out delivers what it has read. -/
theorem ConsumerClears.actDeliver {job : DrainJob} {pp : Word} {pos : Nat} {acc : List Byte}
    (hbusy : (s.port.get (consumer (drainRing job))).busy = some (.copyOut job pp pos 0 acc)) :
    ConsumerClears (drainRing job) s (actDeliver (consumer (drainRing job)) job pp acc s) := by
  have hread := inFlight_copyOut hbusy rfl
  rw [show payloadAt s (drainRing job) pos 0 = [] from rfl, List.append_nil] at hread
  rcases actDeliver_cases (consumer (drainRing job)) job pp acc s with
    ⟨⟨g', rfl⟩, e⟩ | ⟨c0, k, rfl, _, e⟩ | ⟨c0, k, rfl, _, e⟩ | ⟨todo, k, rfl, e⟩ <;> rw [e]
  · exact .finish rfl (by rw [hread, if_pos (by rfl), List.append_nil])
  · exact .goOn rfl (by rw [hread, if_neg nofun]; exact (delivered_emit_sinkDevice s acc).symm) rfl nofun
  · exact .goOn rfl (by rw [hread, if_neg nofun]; exact (delivered_emit_sinkDevice s acc).symm)
      (by simp [plainDrain]) nofun
  · exact .goOn rfl (by rw [hread, if_neg nofun]; exact (delivered_emit_sinkHost s acc).symm)
      (by simp [plainDrain]) nofun

/-- Outside DRAIN, all actions of the consumer but the read of the high header byte and those of a copy-out with bytes
left to read. -/
theorem act_consumerClears {ph : Phase} (hbusy : (s.port.get (consumer g)).busy = some ph)
    (hrole : phaseOfSide (consumer g) ph = true) (hplain : plainDrain g ph = false)
    (hreads : ∀ job pp pos left acc, ph ≠ .copyOut job pp pos (left + 1) acc)
    (hhigh : ∀ job pp b0, ph ≠ .headerHigh job pp b0) : ConsumerClears g s (act (consumer g) ph s) := by
  have hrest (h : ∀ job pp pos left acc, ph ≠ .copyOut job pp pos left acc) :
      delivered s g ++ inFlight s g = delivered s g := by rw [inFlight_busy hbusy h, List.append_nil]
  cases ph with
  | frameRead g' job len =>
    have hsink := hrest nofun
    rcases actFrameRead_cases (consumer g) g' job len s with ⟨_, e⟩ | ⟨_, e⟩ <;> simp only [act, e]
    · exact .finish rfl hsink
    · exact .goOn rfl hsink rfl nofun
  | frameWrite g' job len cp pos rest =>
    have hsink := hrest nofun
    cases rest with
    | cons b rest => exact .goOn rfl hsink rfl nofun
    | nil =>
      show ConsumerClears g s (actPublish (consumer g) g' job len cp s)
      rcases actPublish_cases (consumer g) g' job len cp s with ⟨e, _⟩ | ⟨e, _⟩ <;> rw [e]
      · exact .finish rfl hsink
      · exact .goOn rfl hsink rfl nofun
  | raiseLast b => exact .finish rfl (hrest nofun)
  | drainRead job =>
    have hsink := hrest nofun
    rcases actDrainRead_cases (consumer g) job s with ⟨_, e⟩ | ⟨_, e⟩ <;> simp only [act, e]
    · exact .drainBlocked _ _ _ hsink
    · exact .goOn rfl hsink hplain nofun
  | headerLow job pp => exact .goOn rfl (hrest nofun) hplain nofun
  | headerHigh job pp b0 => exact absurd rfl (hhigh job pp b0)
  | copyOut job pp pos left acc =>
    cases left with
    | succ left => exact absurd rfl (hreads job pp pos left acc)
    | zero =>
      obtain rfl := consumer_injective (jobOfSide_consumer hrole)
      exact .actDeliver hbusy
  | giveBack job pp =>
    have hsink := hrest nofun
    rcases actGiveBack_cases (consumer g) job pp s with e | ⟨e, _⟩ | ⟨_, _, _, e⟩ <;> simp only [act, e]
    · exact .finish rfl hsink
    · exact .goOn rfl hsink rfl nofun
    · exact .goOn rfl hsink rfl nofun
  | readStatus => exact .serveBits _ rfl (hrest nofun)
  | report todo => exact .goOn rfl ((hrest nofun).trans (delivered_emit_errorReport ..).symm) rfl nofun
  | ackBit todo =>
    cases todo with
    | nil => exact .finish rfl (hrest nofun)
    | cons b rest => exact .serveBits _ rfl (hrest nofun)

/-- An action of the consumer that leaves its position alone leaves the queue alone. -/
theorem queued_consumerAct {ph : Phase} (hs : Safe s) (hbusy : (s.port.get (consumer g)).busy = some ph)
    (hcons : (act (consumer g) ph s).consPos.get g = s.consPos.get g) :
    queued (act (consumer g) ph s) g = queued s g := by
  have hown := act_own s (hs.roles _ ph hbusy)
  have hne := (producer_ne_consumer g).symm
  exact queued_congr (act_frame ..).cfg hcons (hown.prod g hne)
    fun _ _ => byteAt_eq_of_reads (act_frame ..).cfg (hown.mem g hne) _

/-- The read of the high header byte that drains a frame: its payload moves from the queue to the view. -/
theorem queued_headerHigh {job : DrainJob} {pp : Word} {b0 : Byte} {len : Half} (hs : Safe s)
    (hreads : ReadsFaithfully s g) (hbusy : (s.port.get (consumer g)).busy = some (.headerHigh job pp b0))
    (hg : drainRing job = g) (hlen : len = lengthOf b0 (s.byteAt g ((s.consPos.get g).toNat + 1)))
    (hle : frameSize len ≤ availTo s g pp) (hcfg : t.cfg = s.cfg)
    (hcons : t.consPos.get g = advance (s.consPos.get g) (frameSize len) (s.cap g))
    (hprod : t.prodPos.get g = s.prodPos.get g) (hbytes : ∀ k, t.byteAt g k = s.byteAt g k) :
    queued s g = payloadAt t g (advance (s.consPos.get g) 2 (s.cap g)).toNat len.toNat :: queued t g := by
  obtain ⟨rfl, hframe⟩ := hreads.header hs hbusy hg hlen hle
  rw [queued_drains hs hcfg hframe hcons hprod hbytes]
  refine congrArg (· :: _) (payloadAt_congr fun k _ => ?_).symm
  rw [hbytes, advance_toNat _ _ _ (hs.ranged.cap_pos g) (hs.ranged.cap_le g)]
  exact byteAt_mod s g (Nat.mod_add_mod ..)

/-- The copy-out takes the next byte from the view to what is read of it. -/
theorem payloadAt_copies (s : State) (g : Ring) (pos left : Nat) :
    s.byteAt g pos :: payloadAt s g ((pos + 1) % s.cap g) left = payloadAt s g pos (left + 1) := by
  unfold payloadAt
  rw [List.range_succ_eq_map, List.map_cons, List.map_map]
  refine congrArg (s.byteAt g pos :: ·) (List.map_congr_left fun k _ => byteAt_mod s g ?_)
  rw [Nat.mod_add_mod, Nat.add_assoc, Nat.add_comm 1 k]

/-- A payload being copied out that was the oldest of the queue stays at its place. -/
theorem pipeline_drains {payload : List Byte} (hqueue : queued s g = payload :: queued t g) (hs : inFlight s g = [])
    (ht : inFlight t g = [payload]) (hsink : delivered t g = delivered s g) : pipeline t g = pipeline s g := by
  simp [pipeline, hqueue, hs, ht, hsink]

/-- The next byte of a copy-out moves from the ring to what is read. -/
theorem inFlight_copies {job : DrainJob} {pp : Word} {pos left : Nat} {acc : List Byte}
    (hbusy : (s.port.get (consumer g)).busy = some (.copyOut job pp pos (left + 1) acc)) (hg : drainRing job = g) :
    inFlight (s.goOn (consumer g) (.copyOut job pp ((pos + 1) % s.cap g) left (acc ++ [s.byteAt g pos]))) g =
      inFlight s g := by
  rw [inFlight_copyOut (goOn_busy ..) hg, inFlight_copyOut hbusy hg, ← payloadAt_copies, List.append_assoc]
  rfl

/-- Outside DRAIN, an action of the consumer keeps the payloads on their way, and does not lead into DRAIN. -/
theorem consumerAct_pipeline {ph : Phase} (hs : Safe s) (hreads : ReadsFaithfully s g)
    (hbusy : (s.port.get (consumer g)).busy = some ph) (hplain : plainDrain g ph = false) :
    pipeline (act (consumer g) ph s) g = pipeline s g ∧
      ∀ ph', ((act (consumer g) ph s).port.get (consumer g)).busy = some ph' → plainDrain g ph' = false := by
  have hrole := hs.roles _ ph hbusy
  have hqueued := queued_consumerAct hs hbusy
  have hclears (h : ConsumerClears g s (act (consumer g) ph s)) :
      pipeline (act (consumer g) ph s) g = pipeline s g ∧
        ∀ ph', ((act (consumer g) ph s).port.get (consumer g)).busy = some ph' → plainDrain g ph' = false := by
    rw [pipeline, h.sink, h.copying, hqueued (by rw [h.cons]), List.append_nil, ← pipeline]
    exact ⟨rfl, h.phase⟩
  cases ph with
  | headerHigh job pp b0 =>
    obtain rfl := consumer_injective (jobOfSide_consumer hrole)
    have hnone := inFlight_busy hbusy nofun
    have hqueue := queued_headerHigh (t := act (consumer (drainRing job)) (.headerHigh job pp b0) s) hs hreads hbusy
      rfl rfl
    rcases actHeaderHigh_cases (consumer (drainRing job)) job pp b0 s with ⟨_, e⟩ | ⟨hle, ⟨e, _⟩ | ⟨hjob, e⟩⟩
    · refine hclears ?_
      rw [act, e]
      exact .drainBlocked _ _ _ (by rw [hnone, List.append_nil])
    · simp [plainDrain, ← e] at hplain
    · rw [act, e] at hqueue ⊢
      exact ⟨pipeline_drains (hqueue hle rfl (PerRing.get_set_same ..) rfl fun _ => rfl) hnone
        ((inFlight_copyOut (goOn_busy ..) rfl).trans (if_neg hjob)) rfl, phase_goOn _ rfl⟩
  | copyOut job pp pos left acc =>
    obtain rfl := consumer_injective (jobOfSide_consumer hrole)
    cases left with
    | zero => exact hclears (act_consumerClears hbusy hrole hplain nofun nofun)
    | succ left =>
      rw [act, actCopyOut] at hqueued ⊢
      exact ⟨by rw [pipeline, inFlight_copies hbusy rfl, hqueued rfl]; rfl, phase_goOn _ rfl⟩
  | _ => exact hclears (act_consumerClears hbusy hrole hplain nofun nofun)

/-- Outside DRAIN, a consumer that goes on keeps the payloads on their way. -/
theorem consumerRun_carries (hs : Safe s) (h : StreamFaithful s g)
    (hplain : ∀ ph, (s.port.get (consumer g)).busy = some ph → plainDrain g ph = false) (n : Nat) :
    Carries g s (run n (consumer g) s) := by
  have hrun := run_induct
    (fun u => (Safe u ∧ StreamFaithful u g) ∧ pipeline u g = pipeline s g ∧
      ∀ ph, (u.port.get (consumer g)).busy = some ph → plainDrain g ph = false) (consumer g)
    (fun u ph hph ⟨⟨hu, hfaithful⟩, hpipe, hnot⟩ => by
      obtain ⟨_, _, hreads⟩ := (streamFaithful_iff u g).mp hfaithful
      obtain ⟨hpipe', hnot'⟩ := consumerAct_pipeline hu hreads hph (hnot ph hph)
      exact ⟨⟨hu.act hph, hfaithful.act hu hph⟩, hpipe'.trans hpipe, hnot'⟩) n s ⟨⟨hs, h⟩, rfl, hplain⟩
  have hown := (run_own s s n (.refl _ s) (hs.roles (consumer g))).1
  exact .ofPipeline (hown.prod g (producer_ne_consumer g).symm) hrun.2.1

/-! ### The consumer, in DRAIN -/

/-- While DRAIN of ring `g` goes on or ends without a frame nothing moves; if it ends with Ok it hands a payload over. -/
def DrainPasses (g : Ring) (s t : State) : Prop :=
  (PayloadsRest g s t ∧ ¬ ConsumerEndedOk g t ∧
    ∀ ph, (t.port.get (consumer g)).busy = some ph → plainDrain g ph = true) ∨
  (HandsOver g s t ∧ ConsumerEndedOk g t)

theorem inFlight_plainDrain {ph : Phase} (hbusy : (s.port.get (consumer g)).busy = some ph)
    (hplain : plainDrain g ph = true) : inFlight s g = [] :=
  inFlight_busy hbusy fun job pp pos left acc e => by
    rw [e] at hplain
    cases hplain

/-- DRAIN goes on to its next action. -/
theorem DrainPasses.goOn {ph ph' : Phase} (hbusy : (s.port.get (consumer g)).busy = some ph)
    (hplain : plainDrain g ph = true) (hplain' : plainDrain g ph' = true) :
    DrainPasses g s (s.goOn (consumer g) ph') := by
  have hphase := phase_goOn (sd := consumer g) (P := fun ph => plainDrain g ph = true) s hplain'
  refine .inl ⟨.ofStore rfl rfl rfl rfl rfl ?_, fun h => ?_, hphase⟩
  · rw [inFlight_plainDrain (goOn_busy ..) hplain', inFlight_plainDrain hbusy hplain]
  · exact nomatch (goOn_busy ..).symm.trans h.1

/-- DRAIN ends without a frame. -/
theorem DrainPasses.blocked {ph : Phase} (hbusy : (s.port.get (consumer g)).busy = some ph)
    (hplain : plainDrain g ph = true) (cause : BlockCause) :
    DrainPasses g s (s.finish (consumer g) (.wouldBlock cause)) := by
  refine .inl ⟨.ofStore rfl rfl rfl rfl rfl ?_, fun h => ?_, phase_finish s⟩
  · rw [inFlight_idle (finish_busy ..), inFlight_plainDrain hbusy hplain]
  · have hres := h.2
    rw [State.finish_port, PerSide.get_set_same] at hres
    cases cause <;> simp [resultWord] at hres

/-- Each action of DRAIN. -/
theorem plainAct_passes {ph : Phase} (hs : Safe s) (hreads : ReadsFaithfully s g)
    (hbusy : (s.port.get (consumer g)).busy = some ph) (hplain : plainDrain g ph = true) :
    DrainPasses g s (act (consumer g) ph s) := by
  cases ph with
  | drainRead job =>
    obtain rfl := of_decide_eq_true hplain
    rcases actDrainRead_cases (consumer g) (.plain g) s with ⟨_, e⟩ | ⟨_, e⟩ <;> rw [act, e]
    · exact .blocked hbusy hplain _
    · exact .goOn hbusy hplain hplain
  | headerLow job pp => exact .goOn hbusy hplain hplain
  | headerHigh job pp b0 =>
    obtain rfl := of_decide_eq_true hplain
    have hqueue := queued_headerHigh (t := act (consumer g) (.headerHigh (.plain g) pp b0) s) hs hreads hbusy rfl rfl
    rcases actHeaderHigh_cases (consumer g) (.plain g) pp b0 s with ⟨_, e⟩ | ⟨hle, ⟨_, e⟩ | ⟨hjob, _⟩⟩
    · rw [act, e]
      exact .blocked hbusy hplain _
    · rw [act, e] at hqueue ⊢
      refine .inr ⟨⟨?_, rfl, rfl, inFlight_busy hbusy nofun, inFlight_idle (finish_busy ..)⟩, finish_busy .., ?_⟩
      · rw [hqueue hle rfl (PerRing.get_set_same ..) rfl fun _ => rfl]
        simp [drainRing]
      · simp
    · exact absurd rfl hjob
  | _ => cases hplain

theorem DrainPasses.trans (h : PayloadsRest g s t) (h' : DrainPasses g t u) : DrainPasses g s u := by
  rcases h' with ⟨hrest, hgoes⟩ | ⟨hhands, hended⟩
  · exact .inl ⟨h.trans hrest, hgoes⟩
  · exact .inr ⟨hhands.afterRest h, hended⟩

/-- DRAIN goes on, for any number of actions. -/
theorem plainRun_passes {ph : Phase} (hs : Safe s) (h : StreamFaithful s g)
    (hbusy : (s.port.get (consumer g)).busy = some ph) (hplain : plainDrain g ph = true) (n : Nat) :
    DrainPasses g s (run n (consumer g) s) := by
  refine (run_induct (fun u => (Safe u ∧ StreamFaithful u g) ∧ DrainPasses g s u) (consumer g)
    (fun u ph hph ⟨⟨hu, hfaithful⟩, hpass⟩ => ?_) n s ⟨⟨hs, h⟩, .inl ⟨⟨rfl, rfl, rfl, rfl⟩, fun hended => ?_, ?_⟩⟩).2
  · obtain ⟨_, _, hreads⟩ := (streamFaithful_iff u g).mp hfaithful
    refine ⟨⟨hu.act hph, hfaithful.act hu hph⟩, ?_⟩
    rcases hpass with ⟨hrest, _, hphase⟩ | ⟨_, hended⟩
    · exact .trans hrest (plainAct_passes hu hreads hph (hphase ph hph))
    · exact nomatch hph.symm.trans hended.1
  · exact nomatch hbusy.symm.trans hended.1
  · rintro ph' hph'
    obtain rfl := Option.some.inj (hbusy.symm.trans hph')
    exact hplain

/-! ### The producer -/

/-- The producer of `g` has published nothing, and so the payloads on their way are the same; or it has published one
frame, whose payload is at its port, and has nothing left of its operation but a last RAISE. -/
def ProducerCarries (g : Ring) (s t : State) : Prop :=
  (t.prodPos.get g = s.prodPos.get g ∧ pipeline t g = pipeline s g) ∨
  (t.prodPos.get g ≠ s.prodPos.get g ∧ pipeline t g = pipeline s g ++ [(t.port.get (producer g)).pbuf] ∧
    ∀ ph, (t.port.get (producer g)).busy = some ph → ∃ b, ph = .raiseLast b)

theorem ProducerCarries.carries (h : ProducerCarries g s t) : Carries g s t := by
  rcases h with ⟨hprod, hpipe⟩ | ⟨hprod, hpipe, _⟩
  · exact .ofPipeline hprod hpipe
  · rw [Carries, if_neg hprod, hpipe]

/-- After the last byte of its frame the producer publishes, and raises a bit at the most. -/
theorem actPublish_phase (sd : Side) (g : Ring) (job : EnqJob) (len : Half) (cp : Word) (s : State) :
    ∀ ph, ((actPublish sd g job len cp s).port.get sd).busy = some ph → ∃ b, ph = .raiseLast b := by
  rcases actPublish_cases sd g job len cp s with ⟨e, _⟩ | ⟨e, _⟩ <;> rw [e]
  · exact phase_finish _
  · exact phase_goOn _ ⟨_, rfl⟩

/-- A position moved on by less than a whole turn of the ring is another one. -/
theorem advance_ne {p : Word} {n c : Nat} (hc : 0 < c) (hw : c ≤ 2 ^ 32) (hpos : 0 < n) (hn : n < c) :
    advance p n c ≠ p := by
  intro e
  have hdist := dist_advance_left p p n c hc hw (by rw [dist_self p c hc]; omega)
  rw [e, dist_self p c hc] at hdist
  omega

/-- Each action of the producer. -/
theorem producerAct_carries {ph : Phase} (hs : Safe s) (h : StreamFaithful s g)
    (hbusy : (s.port.get (producer g)).busy = some ph) : ProducerCarries g s (act (producer g) ph s) := by
  obtain ⟨hwhole, hwrites, hreads⟩ := (streamFaithful_iff s g).mp h
  have hrole := hs.roles _ ph hbusy
  have hown := act_own s hrole
  have hne := producer_ne_consumer g
  have hcfg := (act_frame (producer g) ph s).cfg
  have hcons := hown.cons g hne
  have hlive := hs.act_liveKept hbusy
  have hsink : delivered (act (producer g) ph s) g = delivered s g := by
    refine delivered_congr ?_
    rw [eq_otherSide hne.symm]
    exact hown.events
  have hcopy := inFlight_of_liveKept hlive hs hreads hcfg (hown.port_of_ne hne.symm)
  have hqueue (hprod : (act (producer g) ph s).prodPos.get g = s.prodPos.get g) :
      queued (act (producer g) ph s) g = queued s g :=
    queued_congr hcfg hcons hprod fun _ hk => hlive.queued (hs.ordered g) (hs.ranged.cap_pos g) hcfg hk
  have hrest (hprod : (act (producer g) ph s).prodPos.get g = s.prodPos.get g) :
      ProducerCarries g s (act (producer g) ph s) :=
    .inl ⟨hprod, PayloadsRest.samePipeline ⟨hprod, hqueue hprod, hsink, hcopy⟩⟩
  cases act_producerMoves (hs.ranged.cap_pos g) hs.payloads hbusy hrole with
  | rests hprod | claims _ hprod | writes _ _ _ _ hprod => exact hrest hprod
  | publishes cp size pos hw _ hprod =>
    have hc := hs.ranged.cap_pos g
    have hroom := (hs.ordered g).live_add_claimed hc
    rw [claimed_eq, hw] at hroom
    obtain ⟨job, len, rest, hbusy', rfl, hnil⟩ := writing_eq_some hw
    obtain rfl := List.eq_nil_of_length_eq_zero hnil.symm
    obtain rfl := Option.some.inj (hbusy.symm.trans hbusy')
    obtain ⟨_, hframe⟩ := hwrites _ hbusy rfl
    have hsize := frameSize_eq len
    have hqueue := queued_publishes hwhole hs hcfg hcons hprod (hwrites.frame_written hw) hroom
      (byteAt_eq_of_reads hcfg fun _ => ?_)
    · rw [lengthAt_of_frame (by simpa using hframe), payloadAt_of_frame (by simpa using hframe)] at hqueue
      refine .inr ⟨?_, ?_, actPublish_phase _ g job len cp s⟩
      · rw [hprod]
        exact advance_ne hc (hs.ranged.cap_le g) (by omega) (by simp at hroom; omega)
      · rw [pipeline, hsink, hcopy, hqueue, (act_frame ..).pbuf, ← List.append_assoc, ← pipeline]
    · rw [act, actFrameWrite]
      rcases actPublish_cases (producer g) g job len cp s with ⟨e, _⟩ | ⟨e, _⟩ <;> rw [e] <;> rfl

/-- A producer that goes on keeps the payloads on their way, and adds the one at its port if it publishes. -/
theorem producerRun_carries (hs : Safe s) (h : StreamFaithful s g) (n : Nat) : Carries g s (run n (producer g) s) := by
  refine (run_induct (fun u => (Safe u ∧ StreamFaithful u g) ∧ ProducerCarries g s u) (producer g)
    (fun u ph hph ⟨⟨hu, hfaithful⟩, hpass⟩ => ?_) n s ⟨⟨hs, h⟩, .inl ⟨rfl, rfl⟩⟩).2.carries
  refine ⟨⟨hu.act hph, hfaithful.act hu hph⟩, ?_⟩
  rcases hpass with ⟨hprod, hpipe⟩ | ⟨hprod, hpipe, hlast⟩
  · have hact := producerAct_carries hu hfaithful hph
    rwa [ProducerCarries, hprod, hpipe] at hact
  · obtain ⟨b, rfl⟩ := hlast ph hph
    rcases producerAct_carries hu hfaithful hph with ⟨hprod', hpipe'⟩ | ⟨hmoved, _⟩
    · refine .inr ⟨hprod' ▸ hprod, ?_, phase_finish _⟩
      rw [hpipe', hpipe, (act_frame ..).pbuf]
    · exact absurd rfl hmoved

/-! ### A turn -/

/-- How payloads pass in a turn from `s` to `t`: where the operation DRAIN of `g` was in progress (`drain`) and ended
with Ok, one is handed over, and else the list of those on their way is carried on. -/
def PayloadsPass (g : Ring) (drain : Prop) (s t : State) : Prop :=
  (drain ∧ ConsumerEndedOk g t → HandsOver g s t) ∧ (¬ (drain ∧ ConsumerEndedOk g t) → Carries g s t)

theorem PayloadsPass.iff {drain drain' : Prop} (h : PayloadsPass g drain s t) (hd : drain ↔ drain') :
    PayloadsPass g drain' s t := propext hd ▸ h

theorem Carries.passes (h : Carries g s t) {drain : Prop} (hdrain : ¬ drain) : PayloadsPass g drain s t :=
  ⟨fun hd => absurd hd.1 hdrain, fun _ => h⟩

theorem DrainPasses.passes (h : DrainPasses g s t) {drain : Prop} (hdrain : drain) : PayloadsPass g drain s t := by
  rcases h with ⟨hrest, hnot, _⟩ | ⟨hhands, hended⟩
  · exact ⟨fun hd => absurd hd.2 hnot, fun _ => hrest.carries⟩
  · exact ⟨fun _ => hhands, fun hd => absurd ⟨hdrain, hended⟩ hd⟩

/-- A side with an operation in progress goes on with it. -/
theorem run_passes {sd : Side} (hs : Safe s) (h : StreamFaithful s g) (n : Nat) :
    PayloadsPass g (sd = consumer g ∧ ∃ ph, (s.port.get (consumer g)).busy = some ph ∧ plainDrain g ph = true) s
      (run n sd s) := by
  rcases producer_or_consumer sd g with rfl | rfl
  · exact (producerRun_carries hs h n).passes fun hd => producer_ne_consumer g hd.1
  · by_cases hdrain : ∃ ph, (s.port.get (consumer g)).busy = some ph ∧ plainDrain g ph = true
    · obtain ⟨ph, hbusy, hplain⟩ := hdrain
      exact (plainRun_passes hs h hbusy hplain n).passes ⟨rfl, ph, hbusy, hplain⟩
    · refine (consumerRun_carries hs h (fun ph hph => ?_) n).passes fun hd => hdrain hd.2
      rw [Bool.eq_false_iff]
      exact fun hplain => hdrain ⟨ph, hph, hplain⟩

/-- A side that is idle before, holds no bytes after, and touches neither positions nor stores nor events lets the
payloads rest. -/
theorem PayloadsRest.ofIdle {sd : Side} (hs : Safe s) (h : StreamFaithful s g) (hidle : (s.port.get sd).busy = none)
    (hown : OwnWritesOnly sd s t) (hcfg : t.cfg = s.cfg) (hprod : t.prodPos = s.prodPos)
    (hcons : t.consPos = s.consPos) (hstore : t.store = s.store) (hevents : t.events = s.events)
    (hrest : ∀ ph, (t.port.get sd).busy = some ph → ph.holdsBytes = false) : PayloadsRest g s t := by
  refine .ofStore hcfg hprod hcons hstore hevents ?_
  by_cases hsd : consumer g = sd
  · subst hsd
    rw [inFlight_idle hidle, inFlight_of_holdsNoBytes hrest]
  · obtain ⟨_, _, hreads⟩ := (streamFaithful_iff s g).mp h
    exact inFlight_of_liveKept (.ofStore hcfg hstore) hs hreads hcfg (hown.port_of_ne hsd)

/-- Payloads that rest before the turn may be counted to it. -/
theorem PayloadsPass.after {drain : Prop} (h : PayloadsRest g s t) (h' : PayloadsPass g drain t u) :
    PayloadsPass g drain s u := by
  refine ⟨fun hd => ?_, fun hd => ?_⟩
  · exact (h'.1 hd).afterRest h
  · have hcarries := h'.2 hd
    rwa [Carries, h.prod, h.samePipeline] at hcarries

/-- Payloads that rest after the turn, at the same ports and bytes, may be counted to it. -/
theorem PayloadsPass.before {drain : Prop} (h : PayloadsPass g drain s t) (h' : PayloadsRest g t u)
    (hport : u.port = t.port) (hbytes : ∀ k, u.byteAt g k = t.byteAt g k) : PayloadsPass g drain s u := by
  refine ⟨fun hd => ?_, fun hd => ?_⟩
  · have hhands := h.1 (by rwa [ConsumerEndedOk, hport] at hd)
    refine ⟨?_, h'.prod.trans hhands.prod, h'.sink.trans hhands.sink, hhands.before, h'.copying.trans hhands.after⟩
    rw [hport, h'.queue, payloadAt_congr fun k _ => hbytes _]
    exact hhands.queue
  · have hcarries := h.2 (by rwa [ConsumerEndedOk, hport] at hd)
    rwa [Carries, h'.prod, h'.samePipeline, hport]

theorem firstAction_plainDrain {i : Instr} {ph : Phase} (h : firstAction s i = some ph) :
    plainDrain g ph = true ↔ i = .drain g := by
  cases i with
  | enqueue | send | generateRx | drain | processTx | dispatch => cases h; simp [plainDrain]
  | _ => cases h

theorem SingleAction.events {i : Instr} (h : SingleAction i s u) : u.events = s.events := by
  cases h <;> rfl

/-- Issuing an instruction that is no raw write. -/
theorem exec_passes {i : Instr} (hs : Safe s) (h : StreamFaithful s g) (hraw : isRaw i = false)
    (ht : exec i s = .next t) : PayloadsPass g (i = .drain g) s t := by
  have hready := exec_ready ht
  have hidle := hready.1
  have hdrop : OwnWritesOnly s.side s s.dropResults := .atPort ..
  cases hph : firstAction s i with
  | none =>
    obtain ⟨u, hu, rfl⟩ := exec_single ht hph
    obtain ⟨hcfg, _, hprod, hcons, _⟩ := hu.protocol hraw
    have hrest : PayloadsRest g s (u.finish s.side .ok) := .ofIdle hs h hidle ((hdrop.trans hu.own).finish _) hcfg hprod
      hcons (hu.store hraw) hu.events (phase_finish u)
    exact hrest.carries.passes (by rintro rfl; cases hph)
  | some ph =>
    obtain ⟨hfit, ⟨hlarge, rfl⟩ | ⟨_, rfl⟩⟩ := exec_several_cases ht hph
    · have hrest : PayloadsRest g s (s.dropResults.finish s.side .frameTooLarge) :=
        .ofIdle hs h hidle (hdrop.finish _) rfl rfl rfl rfl rfl (phase_finish _)
      exact hrest.carries.passes (by rintro rfl; cases hlarge)
    · have hholds := phase_goOn (sd := s.side) (P := fun ph => ph.holdsBytes = false) s.dropResults
        (firstAction_holdsNoBytes hph)
      have hbegins : PayloadsRest g s (s.dropResults.goOn s.side ph) :=
        .ofIdle hs h hidle (hdrop.goOn ph) rfl rfl rfl rfl rfl hholds
      have hfaithful := h.rests hs (hdrop.goOn ph) rfl rfl rfl rfl hholds
      have hrun := run_passes (sd := s.side) (hs.begins hready hph hfit) hfaithful s.quantum
      refine .after hbegins (hrun.iff ⟨fun hd => ?_, ?_⟩)
      · obtain ⟨hside, ph', hbusy, hplain⟩ := hd
        rw [← hside, goOn_busy] at hbusy
        obtain rfl := Option.some.inj hbusy
        exact (firstAction_plainDrain hph).mp hplain
      · rintro rfl
        obtain hside : s.side = consumer g := of_decide_eq_true hready.2
        exact ⟨hside, ph, hside ▸ goOn_busy .., (firstAction_plainDrain hph).mpr rfl⟩

/-! ### Every step -/

/-- The next input issues the operation DRAIN of ring `g`, or goes on with it. -/
def DrainActs (s : State) (g : Ring) : Prop :=
  (∃ rq n rest, s.inputs = .issue (consumer g) rq n :: rest ∧ decode rq.txn = .ok (.drain g)) ∨
  (∃ n rest ph, s.inputs = .resume (consumer g) n :: rest ∧ (s.port.get (consumer g)).busy = some ph ∧
    plainDrain g ph = true)

theorem drainHandsOver_iff (s t : State) (g : Ring) :
    DrainHandsOver s t g ↔ DrainActs s g ∧ ConsumerEndedOk g t := Iff.rfl

theorem drainActs_sync {p : Ptr} {rest : List Input} (h : s.inputs = .sync p :: rest) : ¬ DrainActs s g := by
  simp [DrainActs, h]

theorem drainActs_resume {sd : Side} {n : Nat} {rest : List Input} (h : s.inputs = .resume sd n :: rest) :
    (sd = consumer g ∧ ∃ ph, (s.port.get (consumer g)).busy = some ph ∧ plainDrain g ph = true) ↔ DrainActs s g := by
  simp [DrainActs, h]

theorem drainActs_issue {sd : Side} {rq : Request} {n : Nat} {rest : List Input} {i : Instr}
    (h : s.inputs = .issue sd rq n :: rest) (hd : decode rq.txn = .ok i) (hmay : mayIssue sd i = true) :
    i = .drain g ↔ DrainActs s g := by
  have hside : i = .drain g → sd = consumer g := by
    rintro rfl
    exact of_decide_eq_true hmay
  simpa [DrainActs, h, hd] using hside

theorem PayloadsRest.setInputs (s : State) (g : Ring) (rest : List Input) : PayloadsRest g s (s.setInputs rest) :=
  .ofStore rfl rfl rfl rfl rfl rfl

/-- A request that reaches an idle port lets the payloads rest. -/
theorem PayloadsRest.present {sd : Side} (hs : Safe s) (h : StreamFaithful s g)
    (hidle : (s.port.get sd).busy = none) (rq : Request) (n : Nat) : PayloadsRest g s (s.present sd rq n) :=
  .ofIdle hs h hidle (.atPort ..) rfl rfl rfl rfl rfl fun ph hph => by simp [hidle] at hph

/-- Copies that take other values let the payloads rest. -/
theorem PayloadsRest.setSeen (ht : t = { s with seen := t.seen, waited := t.waited }) :
    PayloadsRest g s t := by
  rw [ht]
  exact .ofStore rfl rfl rfl rfl rfl rfl

/-- Every input that is no raw write, before the due SYNC steps. -/
theorem takeInput_passes {x : Input} {rest : List Input} (hs : Safe s) (h : StreamFaithful s g)
    (hproto : NextKeepsProtocol s) (hin : s.inputs = x :: rest) (hu : takeInput x (s.setInputs rest) = .next u) :
    PayloadsPass g (DrainActs s g) s u := by
  have hs' := safe_setInputs rest hs
  have h' := streamFaithful_setInputs rest h
  refine .after (.setInputs s g rest) ?_
  cases x with
  | sync p =>
    cases hu
    exact (PayloadsRest.setSeen rfl).carries.passes (drainActs_sync hin)
  | resume sd n =>
    cases hu
    exact (run_passes hs' h' _).iff (drainActs_resume (s := s) hin)
  | issue sd rq n =>
    obtain ⟨i, hd, he⟩ := takeInput_issue_next hu
    have hidle : ((s.setInputs rest).port.get sd).busy = none := by simpa using (exec_ready he).1
    exact .after (.present hs' h' hidle rq _) ((exec_passes (hs'.present hidle rq _) (h'.present hs' hidle rq _)
      (hproto sd rq n rest i hin hd) he).iff (drainActs_issue hin hd (exec_ready he).2))

end

/-- Settles O56: the side an input makes act passes the payloads on, DRAIN of the ring by handing one over, and a SYNC,
an input's own or a due one, lets them rest. -/
theorem framesArriveInOrderUnchanged : Obligations.FramesArriveInOrderUnchanged := by
  intro s t g hs h hproto ht
  rw [drainHandsOver_iff]
  suffices hpass : PayloadsPass g (DrainActs s g) s t from
    ⟨fun hd => ⟨(hpass.1 hd).queue, (hpass.1 hd).prod, (hpass.1 hd).sink, (hpass.1 hd).before, (hpass.1 hd).after⟩,
      hpass.2⟩
  rcases step_cases s t ht with ⟨hnil, rfl⟩ | ⟨x, rest, u, hin, hu, rfl⟩
  · exact (PayloadsRest.setSeen rfl).carries.passes (by simp [DrainActs, hnil])
  · exact (takeInput_passes hs (h g) hproto hin hu).before (.setSeen (settle_eq s _ u)) (State.settle_port ..)
      fun _ => State.settle_byteAt ..

end Sys2Proof.Machine
end

section
/-! ENQUEUE and SEND (spec/40_ring_ops.md R120, R121, R126, R127, R131) with no other agent in between: too large a
frame, too little space, or the whole frame stored and published; and what of the consumer's side they do not read. -/

namespace Sys2Proof.Machine

open Host (Outcome)

/-! ### What an operation answers -/

/-- An operation that ends presents its result at the issuing port. -/
theorem answered_finish {s u : State} (r : Result) : Answered s (u.finish s.side r) r := by
  simp [Answered]

/-- An operation that has only presented a result has changed nothing else. -/
theorem finish_unchangedBut (s : State) (r : Result) : UnchangedBut [] s (s.dropResults.finish s.side r) :=
  .ofFrame (finish_frame ..) fun p _ => by
    cases p with
    | mem => exact fun _ => rfl
    | _ => rfl

/-! ### The three outcomes -/

section

variable {s : State} {g : Ring} {len : Half}

/-- SEND is ENQUEUE on the TX ring. -/
theorem exec_enqueue_or_send {i : Instr} (s : State) (h : i = .enqueue g len ∨ (g = .tx ∧ i = .send len)) :
    exec i s = exec (.enqueue g len) s := by
  rcases h with rfl | ⟨rfl, rfl⟩
  · rfl
  · exact (pseudoOperationsAreTheSame s).1 len

theorem enqueue_tooLarge (hready : Ready (.enqueue g len) s) (hpay : (s.port.get s.side).pbuf.length = len.toNat)
    (hlarge : s.cap g < frameSize len) :
    exec (.enqueue g len) s = .next (s.dropResults.finish s.side .frameTooLarge) := by
  rw [exec_several hready rfl]
  simp [Instr.payloadFits, frameTooLargeFor, hpay, ← frameSize_eq, hlarge]

/-- The space test failed, the operation ends with InsufficientSpace. -/
theorem enqueue_noSpace (hready : Ready (.enqueue g len) s) (hpay : (s.port.get s.side).pbuf.length = len.toNat)
    (hfits : frameSize len ≤ s.cap g)
    (hspace : freeSpace (s.prodPos.get g) (s.seen.get (pubCons g)) (s.cap g) < frameSize len) (hq : 1 ≤ s.quantum) :
    exec (.enqueue g len) s = .next (s.dropResults.finish s.side .insufficientSpace) := by
  obtain ⟨n, hn⟩ : ∃ n, s.quantum = n + 1 := ⟨s.quantum - 1, by omega⟩
  have hside : s.side = producer g := of_decide_eq_true hready.2
  have hread : act s.side (.frameRead g .plain len) (s.dropResults.goOn s.side (.frameRead g .plain len)) =
      s.dropResults.finish s.side .insufficientSpace := by
    have hcp := ptrRead_producer s g
    rw [← hside] at hcp
    rcases actFrameRead_cases s.side g .plain len (s.dropResults.goOn s.side (.frameRead g .plain len)) with
      ⟨_, e⟩ | ⟨hfree, _⟩
    · rw [act, e, goOn_finish]
    · simp only [State.goOn_ptrRead, State.dropResults_ptrRead, hcp] at hfree
      exact absurd hfree (Nat.not_le.mpr hspace)
  rw [enqueue_begins hready hpay hfits, hn, run_goOn, hread, run_finish]

/-- The producer of `g` moves past `size` bytes and publishes its position. -/
def State.publish (s : State) (g : Ring) (size : Nat) : State :=
  (s.setProd g (advance (s.prodPos.get g) size (s.cap g))).setReg (pubProd g)
    (advance (s.prodPos.get g) size (s.cap g))

/-- The state in which a frame lies at the producer position, which has moved past it and is published. -/
def State.withFrame (s : State) (g : Ring) (bytes : List Byte) : State :=
  (s.setBytes g ((s.prodPos.get g).toNat % s.cap g) bytes).publish g bytes.length

theorem actPublish_plain (sd : Side) (g : Ring) (len : Half) (cp : Word) (s : State) (ph : Phase) :
    actPublish sd g .plain len cp (s.goOn sd ph) = (s.publish g (frameSize len)).finish sd .ok :=
  goOn_finish (s.publish g (frameSize len)) sd ph .ok

/-- The space test passed, the operation stores its frame, publishes it and ends with Ok. -/
theorem enqueue_ok (hready : Ready (.enqueue g len) s) (hpay : (s.port.get s.side).pbuf.length = len.toNat)
    (hfree : frameSize len ≤ freeSpace (s.prodPos.get g) (s.seen.get (pubCons g)) (s.cap g))
    (hq : len.toNat + 4 ≤ s.quantum) :
    exec (.enqueue g len) s =
      .next ((s.dropResults.withFrame g (frameBytes len (s.port.get s.side).pbuf)).finish s.side .ok) := by
  have hfits : frameSize len ≤ s.cap g := hfree.trans (by unfold freeSpace; omega)
  have hlen : (frameBytes len (s.port.get s.side).pbuf).length = frameSize len := by
    rw [frameBytes_length, hpay, frameSize_eq]
  have hsize := frameSize_eq len
  obtain ⟨n, hn⟩ : ∃ n, s.quantum = frameSize len + (n + 1) + 1 := ⟨s.quantum - (frameSize len + 2), by omega⟩
  have hread := act_frameRead_fits (job := .plain) s.dropResults (.frameRead g .plain len)
    (of_decide_eq_true hready.2) hfree
  rw [dropResults_pbuf] at hread
  obtain ⟨pos', hwrite⟩ := run_frameWrite (frameBytes len (s.port.get s.side).pbuf) (frameSize len + (n + 1)) s.side g
    .plain len (s.seen.get (pubCons g)) ((s.prodPos.get g).toNat % s.cap g) s.dropResults (by omega)
  rw [hlen, Nat.add_sub_cancel_left, run_goOn, act, actFrameWrite, actPublish_plain, run_finish] at hwrite
  rw [enqueue_begins hready hpay hfits, hn, run_goOn, hread, State.withFrame, hlen]
  exact congrArg Outcome.next hwrite

/-! ### What a published frame leaves -/

theorem withFrame_frame (s : State) (sd : Side) (g : Ring) (bytes : List Byte) :
    ActionFrame sd s (s.withFrame g bytes) :=
  (setBytes_frame ..).trans ((setProd_frame ..).trans (setReg_frame ..))

theorem withFrame_prod (s : State) (g : Ring) (bytes : List Byte) :
    (s.withFrame g bytes).prodPos.get g = advance (s.prodPos.get g) bytes.length (s.cap g) := by
  unfold State.withFrame
  rw [setBytes_store_only]
  exact PerRing.get_set_same ..

theorem withFrame_reg (s : State) (g : Ring) (bytes : List Byte) :
    (s.withFrame g bytes).reg.get (pubProd g) = (s.withFrame g bytes).prodPos.get g := by
  rw [withFrame_prod]
  unfold State.withFrame
  rw [setBytes_store_only]
  exact PerPtr.get_set_same ..

/-- The frame lies at the producer position, around the end. -/
theorem withFrame_read (s : State) (g : Ring) (bytes : List Byte) (hw : (s.store.get g).wf)
    (hlen : bytes.length ≤ s.cap g) (k : Nat) (hk : k < bytes.length) :
    ((s.withFrame g bytes).store.get g).read (((s.prodPos.get g).toNat + k) % s.cap g) = bytes[k] := by
  have hread := setBytes_byteAt s g ((s.prodPos.get g).toNat % s.cap g) bytes k hw hlen hk
  rw [State.byteAt, setBytes_cap, Nat.mod_add_mod] at hread
  exact hread

theorem withFrame_read_other (s : State) (g : Ring) (bytes : List Byte) (j : Nat)
    (hj : ∀ k, k < bytes.length → j ≠ ((s.prodPos.get g).toNat + k) % s.cap g) :
    ((s.withFrame g bytes).store.get g).read j = (s.store.get g).read j :=
  setBytes_read_other s g g _ bytes j (.inr fun k hk => by
    rw [Nat.mod_add_mod]
    exact hj k hk)

/-- Of the whole state the store of the ring, the producer position and its register alone are others. -/
theorem withFrame_unchangedBut (s : State) (g : Ring) (bytes : List Byte) (r : Result) :
    UnchangedBut [.mem g, .prod g, .reg (pubProd g)] s ((s.dropResults.withFrame g bytes).finish s.side r) := by
  refine .ofFrame ((withFrame_frame ..).trans (finish_frame ..)) fun p hp => ?_
  cases p with
  | mem g' => exact fun i => setBytes_read_other _ g g' _ bytes i (.inl fun e => hp (by simp [e]))
  | prod g' =>
    have hne : g' ≠ g := fun e => hp (by simp [e])
    unfold State.withFrame
    rw [setBytes_store_only]
    exact PerRing.get_set_other _ _ _ _ hne
  | reg p =>
    have hne : p ≠ pubProd g := fun e => hp (by simp [e])
    unfold State.withFrame
    rw [setBytes_store_only]
    exact PerPtr.get_set_other _ _ _ _ hne
  | _ =>
    unfold State.withFrame
    rw [setBytes_store_only]
    rfl

end

/-- Settles O35: the test of the length, the test of the space, and the frame stored and published. -/
theorem enqueueFollowsItsSteps : Obligations.EnqueueFollowsItsSteps := by
  intro g len i s hi hidle hside hcfg hwf hpay hq
  have hready : Ready (.enqueue g len) s := ⟨hidle, decide_eq_true hside⟩
  have hc := cap_pos hcfg g
  have hsize := frameSize_eq len
  rw [exec_enqueue_or_send s hi]
  by_cases hlarge : s.cap g < len.toNat + 2
  · exact ⟨_, enqueue_tooLarge hready hpay hlarge, by
      rw [if_pos hlarge]; exact ⟨answered_finish _, finish_unchangedBut ..⟩⟩
  · by_cases hspace : s.cap g - 1 - dist (s.prodPos.get g) (s.seen.get (pubCons g)) (s.cap g) < len.toNat + 2
    · exact ⟨_, enqueue_noSpace hready hpay (Nat.not_lt.mp hlarge) hspace (by omega), by
        rw [if_neg hlarge, if_pos hspace]; exact ⟨answered_finish _, finish_unchangedBut ..⟩⟩
    · refine ⟨_, enqueue_ok hready hpay (Nat.not_lt.mp hspace) hq, ?_⟩
      rw [if_neg hlarge, if_neg hspace]
      have hlen : (frameBytes len (s.port.get s.side).pbuf).length = len.toNat + 2 := by
        rw [frameBytes_length, hpay]
      have hread := withFrame_read s.dropResults g (frameBytes len (s.port.get s.side).pbuf) hwf
        (by rw [hlen]; exact Nat.not_lt.mp hlarge)
      refine ⟨answered_finish _, hread 0 (by omega), hread 1 (by omega), fun k hk => ?_, fun j hj => ?_, ?_, ?_,
        withFrame_unchangedBut ..⟩
      · rw [Nat.add_assoc, Nat.add_comm 2 k]
        exact hread (k + 2) (by omega)
      · exact withFrame_read_other s.dropResults g _ j fun k hk => hj k (by omega)
      · show ((s.dropResults.withFrame g _).prodPos.get g).toNat = _
        rw [withFrame_prod, hlen]
        exact advance_toNat _ _ _ hc (cap_bounds hcfg g).2
      · exact withFrame_reg ..

/-- Settles O38: the space test compares the size of the frame with the free space, and what is enqueued adds to what
is occupied. -/
theorem exactFitSucceedsOneByteMoreFails : Obligations.ExactFitSucceedsOneByteMoreFails := by
  intro g len s hidle hside hcfg hpay hq
  have hready : Ready (.enqueue g len) s := ⟨hidle, decide_eq_true hside⟩
  have hc : 0 < s.cap g := cap_pos hcfg g
  have hsize := frameSize_eq len
  refine ⟨fun hfit => ?_, fun hmore => ?_, fun t ht => ?_⟩
  · refine ⟨_, enqueue_ok hready hpay hfit.le hq, answered_finish _, ?_⟩
    have hunchanged := withFrame_unchangedBut s g (frameBytes len (s.port.get s.side).pbuf) .ok
    have hseen := hunchanged.same (.seen (pubCons g)) (by simp)
    have hlen : (frameBytes len (s.port.get s.side).pbuf).length = frameSize len := by
      rw [frameBytes_length, hpay, hsize]
    have hroom := (le_freeSpace _ _ _ _ hc).mp hfit.le
    have hlt := dist_lt (s.prodPos.get g) (s.seen.get (pubCons g)) (s.cap g) hc
    have hadvance := dist_advance_left (s.prodPos.get g) (s.seen.get (pubCons g)) (frameSize len) (s.cap g) hc
      (cap_bounds hcfg g).2 (by omega)
    unfold freeSpace at hfit
    rw [hseen, State.cap, hunchanged.cfg]
    show dist ((s.dropResults.withFrame g _).prodPos.get g) _ (s.cap g) = s.cap g - 1
    rw [withFrame_prod, hlen]
    exact hadvance.trans (by omega)
  · have hlt := freeSpace_lt (s.prodPos.get g) (s.seen.get (pubCons g)) (s.cap g) hc
    exact ⟨_, enqueue_noSpace hready hpay (by omega) (by omega) (by omega), answered_finish _, finish_unchangedBut ..⟩
  · have hcap : t.cap g = s.cap g := by rw [State.cap, exec_cfg ht]; rfl
    have hlt := dist_lt (t.prodPos.get g) (t.seen.get (pubCons g)) (t.cap g) (by omega)
    omega

/-! ### What ENQUEUE does not read -/

/-- The same state with other values on the consumer's side of ring `g` and in the latch. -/
def State.withConsumerSide (s : State) (g : Ring) (c p st en : Word) : State :=
  { s with consPos := s.consPos.set g c, reg := s.reg.set (pubCons g) p, intStatus := st, intEnable := en }

/-- The phases of ENQUEUE on ring `g`. -/
def Phase.enqueues (g : Ring) : Phase → Prop
  | .frameRead g' job _ => g' = g ∧ job = .plain
  | .frameWrite g' job _ _ _ _ => g' = g ∧ job = .plain
  | _ => False

section

variable {g : Ring} {c p st en : Word}

theorem PerPtr.set_comm {α : Type} (f : PerPtr α) (q q' : Ptr) (x y : α) (h : q ≠ q') :
    (f.set q x).set q' y = (f.set q' y).set q x := by
  refine PerPtr.ext_get fun r => ?_
  simp only [PerPtr.get_set]
  split_ifs <;> simp_all

theorem publish_withConsumerSide (s : State) (size : Nat) :
    (s.withConsumerSide g c p st en).publish g size = (s.publish g size).withConsumerSide g c p st en := by
  have hcomm := PerPtr.set_comm s.reg (pubCons g) (pubProd g) p (advance (s.prodPos.get g) size (s.cap g))
    (pubProd_ne_pubCons g g).symm
  simp only [State.publish, State.withConsumerSide, State.setReg, State.setProd]
  exact congrArg (fun reg => State.mk _ _ _ _ reg _ _ _ _ _ _ _ _ _ _) hcomm

theorem ite_withConsumerSide (q : Prop) [Decidable q] (s t : State) :
    (if q then s else t).withConsumerSide g c p st en =
      if q then s.withConsumerSide g c p st en else t.withConsumerSide g c p st en :=
  apply_ite (State.withConsumerSide · g c p st en) q s t

/-- An action of ENQUEUE does what it does whatever stands on the consumer's side. -/
theorem act_withConsumerSide {ph : Phase} (s : State) (h : ph.enqueues g) :
    act (producer g) ph (s.withConsumerSide g c p st en) = (act (producer g) ph s).withConsumerSide g c p st en := by
  cases ph with
  | frameRead g' job len =>
    obtain ⟨rfl, rfl⟩ := h
    have hcp : (s.withConsumerSide g' c p st en).ptrRead (producer g') (pubCons g') =
        s.ptrRead (producer g') (pubCons g') := by
      rw [ptrRead_producer, ptrRead_producer]
      rfl
    simp only [act, actFrameRead, hcp, ite_withConsumerSide]
    rfl
  | frameWrite g' job len cp pos rest =>
    obtain ⟨rfl, rfl⟩ := h
    cases rest with
    | cons b rest => rfl
    | nil => exact congrArg (State.finish · _ _) (publish_withConsumerSide s (frameSize len))
  | _ => cases h

/-- After an action of ENQUEUE the next one is of ENQUEUE. -/
theorem act_enqueues {ph : Phase} (sd : Side) (s : State) (h : ph.enqueues g) :
    ∀ ph', ((act sd ph s).port.get sd).busy = some ph' → ph'.enqueues g := by
  cases ph with
  | frameRead g' job len =>
    rcases actFrameRead_cases sd g' job len s with ⟨_, e⟩ | ⟨_, e⟩ <;> rw [act, e]
    · exact phase_finish s
    · exact phase_goOn s h
  | frameWrite g' job len cp pos rest =>
    obtain ⟨rfl, rfl⟩ := h
    cases rest with
    | cons b rest => exact phase_goOn _ ⟨rfl, rfl⟩
    | nil => exact phase_finish _
  | _ => cases h

theorem run_withConsumerSide (n : Nat) (s : State)
    (h : ∀ ph, (s.port.get (producer g)).busy = some ph → ph.enqueues g) :
    run n (producer g) (s.withConsumerSide g c p st en) = (run n (producer g) s).withConsumerSide g c p st en := by
  induction n generalizing s with
  | zero => rfl
  | succ n ih =>
    cases hb : (s.port.get (producer g)).busy with
    | none => rw [run_idle _ _ _ hb, run_idle _ _ (s.withConsumerSide g c p st en) hb]
    | some ph =>
      rw [run_busy n _ s ph hb, run_busy n _ (s.withConsumerSide g c p st en) ph hb,
        act_withConsumerSide s (h ph hb), ih _ (act_enqueues _ s (h ph hb))]

end

/-- Settles O39: the tests before the first action look at the port and the capacity, and every action of ENQUEUE at the
producer's side and the copy. -/
theorem enqueueIgnoresTheConsumerSide : Obligations.EnqueueIgnoresTheConsumerSide := by
  intro g len s t c p st en h
  have hready := exec_ready h
  have hside : s.side = producer g := of_decide_eq_true hready.2
  obtain ⟨hfit, hcases⟩ := exec_several_cases h rfl
  have hfit' : ¬ (Instr.enqueue g len).payloadFits (s.port.get s.side).pbuf = false := by simp [hfit]
  have hwhole : exec (.enqueue g len) (s.withConsumerSide g c p st en) = _ := exec_several hready rfl
  rcases hcases with ⟨hlarge, rfl⟩ | ⟨hsmall, rfl⟩
  · exact hwhole.trans ((if_neg hfit').trans (if_pos hlarge))
  · refine hwhole.trans ((if_neg hfit').trans ((if_neg (ne_true_of_eq_false hsmall)).trans ?_))
    have hrun := run_withConsumerSide (c := c) (p := p) (st := st) (en := en) s.quantum
      (s.dropResults.goOn (producer g) (.frameRead g .plain len)) (phase_goOn _ ⟨rfl, rfl⟩)
    rw [← hside] at hrun
    exact congrArg Outcome.next hrun

end Sys2Proof.Machine
end

section
/-! DRAIN and COMMIT (spec/40_ring_ops.md R123, R125, R129) with no other agent in between, the free space a stale copy
shows (R121), and the round trip through a ring (R130; spec/30_encoding.md R93). -/

namespace Sys2Proof.Machine

/-! ### DRAIN -/

section

variable {s : State} {g : Ring}

theorem drain_begins (hready : Ready (.drain g) s) :
    exec (.drain g) s = .next (run s.quantum s.side (s.dropResults.goOn s.side (.drainRead (.plain g)))) :=
  accept_ready _ _ _ hready.1 hready.2

/-- The consumer reads its copy of the producer pointer, and waits for a header or goes on to it. -/
theorem act_drainRead_plain (s : State) (ph : Phase) :
    act (consumer g) (.drainRead (.plain g)) (s.goOn (consumer g) ph) =
      if availTo s g (s.seen.get (pubProd g)) < 2 then s.finish (consumer g) (.wouldBlock .header)
      else s.goOn (consumer g) (.headerLow (.plain g) (s.seen.get (pubProd g))) := by
  have hpp := ptrRead_consumer (s.goOn (consumer g) ph) g
  simp only [act, actDrainRead, drainRing, hpp, drainBlocked, goOn_finish, goOn_goOn]
  rfl

/-- A presented view does not depend on the phase the operation was in. -/
theorem goOn_setView_finish (s : State) (sd : Side) (ph : Phase) (off : Word) (len : Half) (r : Result) :
    ((s.goOn sd ph).setView sd off len).finish sd r = (s.setView sd off len).finish sd r := by
  simp [State.goOn, State.setView, State.finish, State.setPort]

/-- The length found, the consumer waits for the rest of the frame, or presents the payload and moves past it. -/
theorem act_headerHigh_plain (s : State) (ph : Phase) (pp : Word) :
    act (consumer g) (.headerHigh (.plain g) pp (s.byteAt g (s.consPos.get g).toNat)) (s.goOn (consumer g) ph) =
      if availTo s g pp < frameSize (lengthAt s g (s.consPos.get g).toNat) then
        s.finish (consumer g) (.wouldBlock .partialFrame)
      else ((s.setCons g
        (advance (s.consPos.get g) (frameSize (lengthAt s g (s.consPos.get g).toNat)) (s.cap g))).setView (consumer g)
        (advance (s.consPos.get g) 2 (s.cap g)) (lengthAt s g (s.consPos.get g).toNat)).finish (consumer g) .ok := by
  rw [← goOn_finish s (consumer g) ph, ← goOn_setView_finish _ (consumer g) ph]
  rfl

/-- The state in which DRAIN of ring `g` has ended. -/
def State.afterDrain (s : State) (g : Ring) : State :=
  if availTo s g (s.seen.get (pubProd g)) < 2 then s.finish (consumer g) (.wouldBlock .header)
  else if availTo s g (s.seen.get (pubProd g)) < frameSize (lengthAt s g (s.consPos.get g).toNat) then
    s.finish (consumer g) (.wouldBlock .partialFrame)
  else ((s.setCons g
    (advance (s.consPos.get g) (frameSize (lengthAt s g (s.consPos.get g).toNat)) (s.cap g))).setView (consumer g)
    (advance (s.consPos.get g) 2 (s.cap g)) (lengthAt s g (s.consPos.get g).toNat)).finish (consumer g) .ok

/-- The three actions of DRAIN. -/
theorem run_drain (n : Nat) (s : State) (g : Ring) :
    run (n + 3) (consumer g) (s.goOn (consumer g) (.drainRead (.plain g))) = s.afterDrain g := by
  have hlow (pp : Word) : act (consumer g) (.headerLow (.plain g) pp) (s.goOn (consumer g) (.headerLow (.plain g) pp)) =
      s.goOn (consumer g) (.headerHigh (.plain g) pp (s.byteAt g (s.consPos.get g).toNat)) := goOn_goOn ..
  unfold State.afterDrain
  rw [run_goOn, act_drainRead_plain]
  split_ifs with hheader hframe
  · exact run_finish ..
  · rw [run_goOn, hlow, run_goOn, act_headerHigh_plain, if_pos hframe, run_finish]
  · rw [run_goOn, hlow, run_goOn, act_headerHigh_plain, if_neg hframe, run_finish]

theorem exec_drain (hready : Ready (.drain g) s) (hq : 3 ≤ s.quantum) :
    exec (.drain g) s = .next (s.dropResults.afterDrain g) := by
  obtain ⟨n, hn⟩ : ∃ n, s.quantum = n + 3 := ⟨s.quantum - 3, by omega⟩
  obtain hside : s.side = consumer g := of_decide_eq_true hready.2
  rw [drain_begins hready, hn, hside, run_drain]

/-- The length in a header as a number. -/
theorem lengthAt_toNat (s : State) (g : Ring) (pos : Nat) :
    (lengthAt s g pos).toNat = (s.byteAt g pos).toNat + 256 * (s.byteAt g (pos + 1)).toNat := by
  rw [lengthAt, lengthOf, append_toNat]
  omega

end

/-- Settles O40: the pointer read, the two header bytes, and the frame presented as a view. -/
theorem drainFollowsItsSteps : Obligations.DrainFollowsItsSteps := by
  intro g s hidle hside hcfg hq avail b0 b1 len
  have hready : Ready (.drain g) s := ⟨hidle, decide_eq_true hside⟩
  have hlen : (lengthAt s g (s.consPos.get g).toNat).toNat = len := lengthAt_toNat ..
  have hsize : frameSize (lengthAt s g (s.consPos.get g).toNat) = len + 2 := by rw [frameSize_eq, hlen]
  have hafter : s.dropResults.afterDrain g =
      if avail < 2 then s.dropResults.finish s.side (.wouldBlock .header)
      else if avail < len + 2 then s.dropResults.finish s.side (.wouldBlock .partialFrame)
      else ((s.dropResults.setCons g (advance (s.consPos.get g) (len + 2) (s.cap g))).setView s.side
        (advance (s.consPos.get g) 2 (s.cap g)) (lengthAt s g (s.consPos.get g).toNat)).finish s.side .ok := by
    rw [hside, ← hsize]
    rfl
  refine ⟨_, exec_drain hready hq, ?_⟩
  rw [hafter]
  split_ifs with hheader hframe
  · exact ⟨answered_finish _, finish_unchangedBut ..⟩
  · exact ⟨answered_finish _, finish_unchangedBut ..⟩
  · have hadvance (n : Nat) := advance_toNat (s.consPos.get g) n (s.cap g) (cap_pos hcfg g) (cap_bounds hcfg g).2
    refine ⟨answered_finish _, ?_, ?_, ?_, .ofFrame
      (((setCons_frame ..).trans (setView_frame ..)).trans (finish_frame ..)) fun p hp => ?_⟩
    · simpa using hadvance 2
    · simpa using hlen
    · simpa [Nat.add_assoc] using hadvance (len + 2)
    · cases p with
      | cons g' => exact PerRing.get_set_other _ _ _ _ fun e => hp (by simp [e])
      | mem => exact fun _ => rfl
      | _ => rfl

/-! ### COMMIT -/

/-- Settles O41: one action stores the consumer's position in its pointer register. -/
theorem commitPublishesThePosition : Obligations.CommitPublishesThePosition := by
  intro g s hidle hside
  have hready : Ready (.commit g) s := ⟨hidle, decide_eq_true hside⟩
  refine ⟨(commitCons g s.dropResults).finish s.side .ok,
    accept_ready _ s (fun s => complete (commitCons g s)) hready.1 hready.2, answered_finish _,
    commitCons_reg s.dropResults g, ?_, by cases g <;> rfl⟩
  refine .ofFrame ((setReg_frame ..).trans (finish_frame ..)) fun p hp => ?_
  cases p with
  | reg p => exact PerPtr.get_set_other _ _ _ _ fun e => hp (by simp [e])
  | mem => exact fun _ => rfl
  | _ => rfl

/-! ### The free space a stale copy shows -/

/-- Of two consumer positions below the producer position, the later one leaves more space free. -/
theorem freeSpace_le_of_beyond {s : State} {g : Ring} {x y : Word} (hc : 0 < s.cap g) (hxy : beyond s g x ≤ beyond s g y)
    (hy : beyond s g y ≤ beyond s g (s.prodPos.get g)) :
    freeSpace (s.prodPos.get g) x (s.cap g) ≤ freeSpace (s.prodPos.get g) y (s.cap g) := by
  have hx := dist_between hc (hxy.trans hy)
  have hy := dist_between hc hy
  unfold beyond at hxy
  unfold freeSpace
  omega

/-- Settles O53: the copy lies before the register, the register before the consumer, and the consumer before the
producer. -/
theorem stalePointerUnderstatesSpace : Obligations.StalePointerUnderstatesSpace := by
  intro s g h
  have hc := h.ranged.cap_pos g
  have ho := h.ordered g
  have hcons : beyond s g (s.consPos.get g) ≤ beyond s g (s.prodPos.get g) :=
    ho.cons_seenProd.trans (ho.seenProd_copy.trans ho.copy_prod)
  exact ⟨freeSpace_le_of_beyond hc ho.seenCons_regCons (ho.regCons_cons.trans hcons),
    freeSpace_le_of_beyond hc ho.regCons_cons hcons⟩

/-! ### The round trip -/

/-- Ring `g` holds one frame, with the payload given, from the consumer position to the producer position. -/
structure HoldsFrame (s : State) (g : Ring) (len : Half) (payload : List Byte) : Prop where
  header : lengthAt s g (s.consPos.get g).toNat = len
  view : payloadAt s g ((s.consPos.get g).toNat + 2) len.toNat = payload
  prod : s.prodPos.get g = advance (s.consPos.get g) (frameSize len) (s.cap g)

section

variable {s : State} {g : Ring} {len : Half} {payload : List Byte}

/-- A frame published into an empty ring is what the ring holds. -/
theorem withFrame_holdsFrame (hw : (s.store.get g).wf) (hempty : s.prodPos.get g = s.consPos.get g)
    (hpay : payload.length = len.toNat) (hfits : frameSize len ≤ s.cap g) :
    HoldsFrame (s.withFrame g (frameBytes len payload)) g len payload := by
  have hlen : (frameBytes len payload).length = frameSize len := by rw [frameBytes_length, hpay, frameSize_eq]
  have hcap : (s.withFrame g (frameBytes len payload)).cap g = s.cap g := setBytes_cap ..
  have hcons : (s.withFrame g (frameBytes len payload)).consPos.get g = s.consPos.get g := by
    unfold State.withFrame
    rw [setBytes_store_only]
    rfl
  have hframe : ((List.range (frameSize len)).map fun k =>
      (s.withFrame g (frameBytes len payload)).byteAt g ((s.consPos.get g).toNat + k)) = frameBytes len payload := by
    refine List.ext_getElem (by simp [hlen]) fun k _ hk => ?_
    rw [List.getElem_map, List.getElem_range, State.byteAt, hcap, ← hempty]
    exact withFrame_read s g _ hw (hlen ▸ hfits) k hk
  refine ⟨?_, ?_, ?_⟩
  · rw [hcons, lengthAt_of_frame hframe]
  · rw [hcons, payloadAt_of_frame hframe]
  · rw [withFrame_prod, hempty, hcons, hcap, hlen]

/-- DRAIN presents the frame a ring holds, once its copy of the producer pointer shows it. -/
theorem afterDrain_of_holdsFrame (h : HoldsFrame s g len payload) (hc : 0 < s.cap g) (hcw : s.cap g ≤ 2 ^ 32)
    (hfits : frameSize len < s.cap g) (hseen : s.seen.get (pubProd g) = s.prodPos.get g) :
    s.afterDrain g = ((s.setCons g (s.prodPos.get g)).setView (consumer g) (advance (s.consPos.get g) 2 (s.cap g))
      len).finish (consumer g) .ok := by
  have havail : availTo s g (s.seen.get (pubProd g)) = frameSize len := by
    rw [availTo, hseen, h.prod, dist_advance_left _ _ _ _ hc hcw (by rw [dist_self _ _ hc]; omega), dist_self _ _ hc]
    omega
  have hsize := two_le_frameSize len
  rw [State.afterDrain, havail, h.header, if_neg (by omega), if_neg (by omega), ← h.prod]

/-- The step in which ENQUEUE puts a frame into an empty ring. -/
theorem step_enqueue_into_empty {rq : Request} {q : Nat} {rest : List Input} (hr : Ranged s)
    (hu : s.cfg.syncLatency = none) (hempty : s.prodPos.get g = s.consPos.get g)
    (hfree : frameSize len ≤ freeSpace (s.prodPos.get g) (s.seen.get (pubCons g)) (s.cap g))
    (hidle : ∀ sd, (s.port.get sd).busy = none) (hin : s.inputs = .issue (producer g) rq q :: rest)
    (hd : decode rq.txn = .ok (.enqueue g len)) (hpay : rq.pbuf.length = len.toNat) (hq : len.toNat + 4 ≤ q) :
    ∃ t, step s = .next t ∧ HoldsFrame t g len rq.pbuf ∧ t.reg.get (pubProd g) = t.prodPos.get g ∧
      t.cfg = s.cfg ∧ t.inputs = rest ∧ (t.port.get (consumer g)).busy = none := by
  let s' := (s.setInputs rest).present (producer g) rq q
  have hpay' : (s'.port.get s'.side).pbuf = rq.pbuf := by simp [s']
  have hexec := enqueue_ok (s := s') (g := g) ⟨by simp [s', hidle], decide_eq_true rfl⟩ (hpay' ▸ hpay) hfree hq
  rw [hpay'] at hexec
  have hframe := exec_frame hexec
  have hport := hframe.otherPort
  rw [show otherSide s'.side = consumer g from (eq_otherSide (producer_ne_consumer g).symm).symm] at hport
  obtain ⟨hheader, hview, hprod⟩ := withFrame_holdsFrame (s := s'.dropResults) (hr.canonical g) hempty hpay
    (hfree.trans (freeSpace_lt _ _ _ (hr.cap_pos g)).le)
  refine ⟨_, ((unboundedLatencyAddsNothing s hu).2.2 _ _ _ _ _ hin hd).trans hexec, ⟨hheader, hview, hprod⟩,
    withFrame_reg .., hframe.cfg, hframe.inputs, ?_⟩
  rw [hport]
  simp [s', hidle, (producer_ne_consumer g).symm]

/-- The step in which DRAIN takes the frame a ring holds. -/
theorem step_drain_of_holdsFrame {rq : Request} {q : Nat} {rest : List Input} (h : HoldsFrame s g len payload)
    (hcfg : s.cfg.valid = true) (hu : s.cfg.syncLatency = none) (hfits : frameSize len < s.cap g)
    (hseen : s.seen.get (pubProd g) = s.prodPos.get g) (hidle : (s.port.get (consumer g)).busy = none)
    (hin : s.inputs = .issue (consumer g) rq q :: rest) (hd : decode rq.txn = .ok (.drain g)) (hq : 3 ≤ q) :
    ∃ t, step s = .next t ∧ (t.port.get (consumer g)).busy = none ∧
      (t.port.get (consumer g)).res = resultWord .ok ∧ (t.port.get (consumer g)).vlen = len ∧
      payloadAt t g (t.port.get (consumer g)).voff.toNat len.toNat = payload ∧
      t.consPos.get g = t.prodPos.get g := by
  have hc : 0 < s.cap g := cap_pos hcfg g
  have hcw : s.cap g ≤ 2 ^ 32 := (cap_bounds hcfg g).2
  let s' := (s.setInputs rest).present (consumer g) rq q
  have hexec := exec_drain (s := s') (g := g) ⟨by simp [s', hidle], decide_eq_true rfl⟩ hq
  have hholds : HoldsFrame s'.dropResults g len payload := ⟨h.header, h.view, h.prod⟩
  rw [afterDrain_of_holdsFrame hholds hc hcw hfits hseen] at hexec
  refine ⟨_, ((unboundedLatencyAddsNothing s hu).2.2 _ _ _ _ _ hin hd).trans hexec, by simp, by simp, by simp, ?_,
    by simp⟩
  refine (payloadAt_congr fun k _ => byteAt_mod s g ?_).trans h.view
  simp only [State.finish_port, State.setView_port, PerSide.get_set_same]
  have hoff := advance_toNat (s.consPos.get g) 2 (s.cap g) hc hcw
  exact (congrArg (fun off => (off + k) % s.cap g) hoff).trans (Nat.mod_add_mod ..)

end

/-- Settles O57: ENQUEUE stores the frame, the SYNC lets the consumer see it, and DRAIN finds its length and payload. -/
theorem enqueueSyncDrainRoundTrip : Obligations.EnqueueSyncDrainRoundTrip := by
  intro s g len p rq rq' q q' hr hu hidle hprod hcons hseen hfit hpay hq hq' hd hd' hin
  have hc := hr.cap_pos g
  have hsize := frameSize_eq len
  have hfits : frameSize len < s.cap g := by omega
  have hfree : frameSize len ≤ freeSpace (s.prodPos.get g) (s.seen.get (pubCons g)) (s.cap g) := by
    rwa [hprod, hseen, freeSpace, dist_self _ _ hc]
  obtain ⟨t₁, hstep₁, ⟨hheader, hview, hend⟩, hpublished, hcfg, hin₁, hidle₁⟩ :=
    step_enqueue_into_empty hr hu (hprod.trans hcons.symm) hfree hidle hin hd hpay hq
  have hu₁ : t₁.cfg.syncLatency = none := hcfg ▸ hu
  let t₂ := (t₁.setInputs [.issue (consumer g) rq' q']).syncPtr (pubProd g)
  have hholds : HoldsFrame t₂ g len rq.pbuf := ⟨hheader, hview, hend⟩
  have hseen₂ : t₂.seen.get (pubProd g) = t₂.prodPos.get g := (PerPtr.get_set_same ..).trans hpublished
  obtain ⟨t₃, hstep₃, hdrained⟩ := step_drain_of_holdsFrame hholds (hcfg ▸ hr.cfg) hu₁
    (hfits.trans_eq (congrArg (Config.cap · g) hcfg).symm) hseen₂ hidle₁ rfl hd' hq'
  exact ⟨t₁, t₂, t₃, hstep₁, (unboundedLatencyAddsNothing t₁ hu₁).1 _ _ hin₁, hstep₃, hdrained⟩

end Sys2Proof.Machine
end

section
/-! Published pointers (spec/41_pointer_ops.md R140 to R142; spec/44_port_access.md R184, R185): the write of an owner
stores one register, a read changes nothing, and a copy moves by SYNC alone. -/

namespace Sys2Proof.Machine

/-! ### Writing a pointer register -/

/-- REG_WR of a pointer register is PTR_WRITE, whose meaning an idle owner reaches. -/
theorem exec_pointerWrite {i : Instr} {p : Ptr} {s : State} (hi : i = .ptrWrite p ∨ i = regWrite (.ptr p))
    (hidle : (s.port.get s.side).busy = none) (howner : s.side = owner p) : exec i s = writePointer p s.dropResults := by
  have hwrite : exec (.ptrWrite p) s = writePointer p s.dropResults :=
    accept_ready _ _ _ hidle (decide_eq_true howner)
  rcases hi with rfl | rfl
  · exact hwrite
  · rw [← ((pseudoOperationsAreTheSame s).2.2 p).1, hwrite]

/-- An operation that has stored a pointer register has changed that register alone. -/
theorem setReg_finish_unchangedBut (s : State) (p : Ptr) (v : Word) (r : Result) :
    UnchangedBut [.reg p] s ((s.dropResults.setReg p v).finish s.side r) := by
  refine .ofFrame ((setReg_frame ..).trans (finish_frame ..)) fun q hq => ?_
  cases q with
  | reg p' => exact PerPtr.get_set_other _ _ _ _ fun e => hq (by simp [e])
  | mem => exact fun _ => rfl
  | _ => rfl

/-- Settles O27: a value below the capacity is stored in the one register, and any other refused. -/
theorem pointerWriteStoresWhole : Obligations.PointerWriteStoresWhole := by
  intro p i s hi hidle howner
  have hcases := writePointer_cases p s.dropResults
  rw [← exec_pointerWrite hi hidle howner, State.dropResults_side, dropResults_wdata, State.dropResults_cap] at hcases
  refine ⟨fun hlt => ?_, fun hle => ?_, by cases p <;> rfl⟩
  · obtain ⟨_, hexec⟩ := hcases.resolve_right fun h => absurd hlt (Nat.not_lt.mpr h.1)
    exact ⟨_, hexec, answered_finish _, PerPtr.get_set_same .., setReg_finish_unchangedBut ..⟩
  · exact (hcases.resolve_left fun h => absurd h.1 (Nat.not_lt.mpr hle)).2

/-! ### Reading a pointer register -/

/-- REG_RD of a pointer register is PTR_READ, whose meaning either side reaches at an idle port. -/
theorem exec_pointerRead {i : Instr} {p : Ptr} {s : State} (hi : i = .ptrRead p ∨ i = regRead (.ptr p))
    (hidle : (s.port.get s.side).busy = none) :
    exec i s = .next ((s.dropResults.setRdata s.side (s.ptrRead s.side p)).finish s.side .ok) := by
  have hread : exec (.ptrRead p) s = .next ((s.dropResults.setRdata s.side (s.ptrRead s.side p)).finish s.side .ok) :=
    accept_ready _ _ _ hidle rfl
  rcases hi with rfl | rfl
  · exact hread
  · rw [← ((pseudoOperationsAreTheSame s).2.2 p).2, hread]

/-- An operation that has only read a word into RDATA has changed nothing but its results. -/
theorem setRdata_finish_unchangedBut (s : State) (v : Word) (r : Result) :
    UnchangedBut [] s ((s.dropResults.setRdata s.side v).finish s.side r) :=
  .ofFrame ((setRdata_frame ..).trans (finish_frame ..)) fun p _ => by
    cases p with
    | mem => exact fun _ => rfl
    | _ => rfl

/-- Settles O28: RDATA takes what `State.ptrRead` answers the side, the register for its owner, else the copy. -/
theorem pointerReadBySide : Obligations.PointerReadBySide := by
  intro p i s hi hidle
  have hrdata : (((s.dropResults.setRdata s.side (s.ptrRead s.side p)).finish s.side .ok).port.get s.side).rdata =
      s.ptrRead s.side p := by simp
  refine ⟨_, exec_pointerRead hi hidle, answered_finish _, fun howner => ?_, fun hreader => ?_,
    setRdata_finish_unchangedBut .., by cases p <;> rfl⟩
  · exact hrdata.trans (if_pos howner)
  · exact hrdata.trans (if_neg hreader)

/-! ### The reader-side copies -/

/-- An input other than the SYNC of `p` leaves the copy of `p`. -/
theorem takeInput_seen_of_ne_sync {x : Input} {p : Ptr} {s t : State} (h : takeInput x s = .next t)
    (hx : x ≠ .sync p) : t.seen.get p = s.seen.get p := by
  cases x with
  | sync q =>
    cases h
    exact PerPtr.get_set_other _ _ _ _ fun e => hx (by rw [e])
  | resume sd n =>
    cases h
    rw [(run_frame ..).seen]
  | issue sd rq n =>
    obtain ⟨i, _, he⟩ := takeInput_issue_next h
    rw [(exec_frame he).seen]
    rfl

/-- With SYNC_LATENCY unbounded a step whose input is not the SYNC of `p` leaves the copy of `p`. -/
theorem step_seen_unbounded {s t : State} {p : Ptr} (hu : s.cfg.syncLatency = none) (h : step s = .next t)
    (hx : ∀ rest, s.inputs ≠ .sync p :: rest) : t.seen.get p = s.seen.get p := by
  rcases step_cases s t h with ⟨_, rfl⟩ | ⟨x, rest, u, hin, ht, rfl⟩
  · rfl
  · rw [settle_unbounded s _ u hu]
    exact takeInput_seen_of_ne_sync (s := s.setInputs rest) ht fun e => hx rest (by rw [hin, e])

/-- A SYNC is performed whatever else is due after it. -/
theorem step_sync {s : State} {p : Ptr} {rest : List Input} (h : s.inputs = .sync p :: rest) :
    step s = .next (s.settle 1 ((s.setInputs rest).syncPtr p)) := by
  rw [step_input s _ rest h]
  rfl

/-- Settles O29: a SYNC gives the copy the value of its register, which a SYNC that is due does not change again; the
other inputs write no copy. -/
theorem onlySyncMovesTheCopy : Obligations.OnlySyncMovesTheCopy := by
  refine ⟨fun s p rest hin => ?_, fun s t p h hx => ⟨fun hu => step_seen_unbounded hu h hx, step_seen_cases h p⟩⟩
  have hcopied : ((s.setInputs rest).syncPtr p).seen.get p = s.reg.get p := PerPtr.get_set_same ..
  have hstep := step_sync hin
  refine ⟨_, hstep, ?_, fun hu p' hne => step_seen_unbounded hu hstep fun rest' e => hne ?_, fun p' => ?_,
    settle_eq ..⟩
  · rcases s.settle_seen_cases 1 ((s.setInputs rest).syncPtr p) p with e | e
    · exact e.trans hcopied
    · exact e
  · rw [hin] at e
    cases e
    rfl
  · have hreg : (s.settle 1 ((s.setInputs rest).syncPtr p)).reg = s.reg := State.settle_reg ..
    exact hreg ▸ step_seen_cases hstep p'

end Sys2Proof.Machine
end

section
/-! RAISE and ACK (spec/42_latch_ops.md R150, R151), and what a status bit can be set or cleared by: no operation raises
ERROR by itself (R157). -/

namespace Sys2Proof.Machine

open Host (Outcome)

/-! ### The latch words bit by bit -/

theorem bitMask_getLsbD (b : IntBit) (k : Nat) : (bitMask b).getLsbD k = decide (k = (bitIndex b).toNat) := by
  have hmask : bitMask b = BitVec.twoPow 32 (bitIndex b).toNat := by cases b <;> rfl
  have hlt : (bitIndex b).toNat < 32 := by cases b <;> decide
  simp [hmask, BitVec.getLsbD_twoPow, hlt, eq_comm]

theorem bitMask_and_intMask (b : IntBit) : bitMask b &&& intMask = bitMask b := by cases b <;> rfl

theorem bitIndex_lt (b : IntBit) : (bitIndex b).toNat < 3 := by cases b <;> decide

theorem bitIndex_inj {b b' : IntBit} : (bitIndex b).toNat = (bitIndex b').toNat ↔ b = b' := by
  cases b <;> cases b' <;> decide

theorem setStatus_getLsbD (status v : Word) (k : Nat) :
    (setStatus status v).getLsbD k = (status.getLsbD k || (decide (k < 3) && v.getLsbD k)) := by
  rw [setStatus, BitVec.getLsbD_or, BitVec.getLsbD_and, intMask_getLsbD, Bool.and_comm]

theorem setStatus_bitMask_getLsbD (status : Word) (b : IntBit) (k : Nat) :
    (setStatus status (bitMask b)).getLsbD k = (status.getLsbD k || decide (k = (bitIndex b).toNat)) := by
  rw [setStatus, bitMask_and_intMask, BitVec.getLsbD_or, bitMask_getLsbD]

theorem clearStatus_getLsbD_le {status v : Word} {k : Nat} (h : (clearStatus status v).getLsbD k = true) :
    status.getLsbD k = true := by
  rw [clearStatus, BitVec.getLsbD_and, Bool.and_eq_true] at h
  exact h.1

theorem clearStatus_bitMask_getLsbD (status : Word) (b : IntBit) {k : Nat} (hk : k < 32) :
    (clearStatus status (bitMask b)).getLsbD k = (status.getLsbD k && !decide (k = (bitIndex b).toNat)) := by
  rw [clearStatus, bitMask_and_intMask, BitVec.getLsbD_and, BitVec.getLsbD_not, bitMask_getLsbD, decide_eq_true hk,
    Bool.true_and]

/-! ### RAISE and ACK -/

/-- An operation that has written INT_STATUS has changed nothing else. -/
theorem setIntStatus_finish_unchangedBut (s : State) (v : Word) (r : Result) :
    UnchangedBut [.status] s ((s.dropResults.setIntStatus v).finish s.side r) := by
  refine .ofFrame ((setIntStatus_frame ..).trans (finish_frame ..)) fun p hp => ?_
  cases p with
  | status => exact absurd (List.mem_singleton.mpr rfl) hp
  | mem => exact fun _ => rfl
  | _ => rfl

/-- Settles O17: either side may issue RAISE, whose one action ORs the bit into the status word. -/
theorem raiseSetsItsBitOnly : Obligations.RaiseSetsItsBitOnly := by
  intro b s hidle
  have hexec : exec (.raiseInt b) s = .next ((s.dropResults.raiseBit b).finish s.side .ok) :=
    accept_ready _ s (fun s => complete (s.raiseBit b)) hidle rfl
  exact ⟨_, hexec, answered_finish _, fun k _ => setStatus_bitMask_getLsbD s.intStatus b k, rfl,
    setIntStatus_finish_unchangedBut .., by cases b <;> rfl⟩

/-- Settles O18: the host may issue ACK, whose one action clears the bit in the status word. -/
theorem ackClearsItsBitOnly : Obligations.AckClearsItsBitOnly := by
  intro b s hidle hside
  have hexec : exec (.ack b) s = .next ((s.dropResults.clearBit b).finish s.side .ok) :=
    accept_ready _ s (fun s => complete (s.clearBit b)) hidle (decide_eq_true hside)
  exact ⟨_, hexec, answered_finish _, fun k hk => clearStatus_bitMask_getLsbD s.intStatus b hk,
    setIntStatus_finish_unchangedBut .., by cases b <;> rfl⟩

/-! ### What an action does to the status word -/

theorem drainBlocked_intStatus (sd : Side) (job : DrainJob) (cause : BlockCause) (pp : Word) (s : State) :
    (drainBlocked sd job cause pp s).intStatus = s.intStatus := by
  rcases drainBlocked_cases sd job cause pp s with e | e | ⟨_, _, e⟩ <;> rw [e] <;> rfl

theorem serveBits_intStatus (sd : Side) (todo : List IntBit) (s : State) :
    (serveBits sd todo s).intStatus = s.intStatus := by
  rcases serveBits_cases sd todo s with ⟨_, e⟩ | ⟨_, _, e⟩ | ⟨_, _, e⟩ | ⟨_, _, e⟩ <;> rw [e] <;> rfl

/-- The status word is written by the RAISE that ends an operation and by the ACK of a bit just served, and by no other
action. -/
theorem act_intStatus_cases (sd : Side) (ph : Phase) (s : State) :
    (∃ b, ph = .raiseLast b ∧ (act sd ph s).intStatus = setStatus s.intStatus (bitMask b)) ∨
    (∃ b rest, ph = .ackBit (b :: rest) ∧ (act sd ph s).intStatus = clearStatus s.intStatus (bitMask b)) ∨
    (act sd ph s).intStatus = s.intStatus := by
  cases ph with
  | raiseLast b => exact .inl ⟨b, rfl, rfl⟩
  | ackBit todo =>
    cases todo with
    | nil => exact .inr (.inr rfl)
    | cons b rest => exact .inr (.inl ⟨b, rest, rfl, serveBits_intStatus sd rest (s.clearBit b)⟩)
  | frameRead g job len =>
    rcases actFrameRead_cases sd g job len s with ⟨_, e⟩ | ⟨_, e⟩ <;> exact .inr (.inr (by rw [act, e]; rfl))
  | frameWrite g job len cp pos rest =>
    cases rest with
    | cons b rest => exact .inr (.inr rfl)
    | nil =>
      rcases actPublish_cases sd g job len cp s with ⟨e, _⟩ | ⟨e, _⟩ <;>
        exact .inr (.inr (by rw [act, actFrameWrite, e]; rfl))
  | drainRead job =>
    rcases actDrainRead_cases sd job s with ⟨_, e⟩ | ⟨_, e⟩ <;> refine .inr (.inr ?_) <;> rw [act, e]
    · exact drainBlocked_intStatus ..
    · rfl
  | headerHigh job pp b0 =>
    rcases actHeaderHigh_cases sd job pp b0 s with ⟨_, e⟩ | ⟨_, ⟨_, e⟩ | ⟨_, e⟩⟩ <;> refine .inr (.inr ?_) <;> rw [act, e]
    · exact drainBlocked_intStatus ..
    · rfl
    · rfl
  | copyOut job pp pos left acc =>
    cases left with
    | succ n => exact .inr (.inr rfl)
    | zero =>
      rcases actDeliver_cases sd job pp acc s with ⟨_, e⟩ | ⟨_, _, _, _, e⟩ | ⟨_, _, _, _, e⟩ | ⟨_, _, _, e⟩ <;>
        exact .inr (.inr (by rw [act, actCopyOut, e]; rfl))
  | giveBack job pp =>
    rcases actGiveBack_cases sd job pp s with e | ⟨e, _⟩ | ⟨_, _, _, e⟩ <;> exact .inr (.inr (by rw [act, e]; rfl))
  | readStatus => exact .inr (.inr (serveBits_intStatus ..))
  | headerLow | report => exact .inr (.inr rfl)

/-! ### What sets ERROR -/

/-- All an instruction of one action can do to the status word. -/
theorem exec_single_intStatus {i : Instr} {s t : State} (h : exec i s = .next t) (hph : firstAction s i = none) :
    (∃ b, i = .raiseInt b ∧ t.intStatus = setStatus s.intStatus (bitMask b)) ∨
    (i = .regWrIntStatus ∧ t.intStatus = setStatus s.intStatus (s.port.get s.side).wdata) ∨
    (∃ v, t.intStatus = clearStatus s.intStatus v) ∨ t.intStatus = s.intStatus := by
  unfold exec at h
  cases i with
  | enqueue | drain | dispatch | send | processTx | generateRx => cases hph
  | raiseInt b =>
    obtain ⟨_, _, h⟩ := accept_next _ _ _ _ h
    cases h
    exact .inl ⟨b, rfl, rfl⟩
  | regWrIntStatus =>
    obtain ⟨_, _, h⟩ := accept_next _ _ _ _ h
    cases h
    exact .inr (.inl ⟨rfl, congrArg (setStatus s.intStatus) (dropResults_wdata s s.side)⟩)
  | ack | regWrIntClear =>
    obtain ⟨_, _, h⟩ := accept_next _ _ _ _ h
    cases h
    exact .inr (.inr (.inl ⟨_, rfl⟩))
  | ptrWrite | regWrTxTailPtr | regWrRxHeadPtr | regWrHostTxHeadPub | regWrHostRxTailPub =>
    obtain ⟨_, _, h⟩ := accept_next _ _ _ _ h
    rcases writePointer_cases _ s.dropResults with ⟨_, e⟩ | ⟨_, e⟩ <;> rw [e] at h <;> cases h
    exact .inr (.inr (.inr rfl))
  | memRd | memWr =>
    obtain ⟨_, _, h⟩ := accept_next _ _ _ _ h
    split at h <;> cases h
    exact .inr (.inr (.inr rfl))
  | _ =>
    obtain ⟨_, _, h⟩ := accept_next _ _ _ _ h
    cases h
    exact .inr (.inr (.inr rfl))

/-- ERROR is set in `t` only if it was in `s`. -/
def KeepsErrorClear (s t : State) : Prop := t.intStatus.getLsbD 2 = true → s.intStatus.getLsbD 2 = true

theorem KeepsErrorClear.raised {s t : State} {b : IntBit} (hb : b ≠ .error)
    (h : t.intStatus = setStatus s.intStatus (bitMask b)) : KeepsErrorClear s t := by
  intro hset
  have hother : 2 ≠ (bitIndex b).toNat := fun e => hb (bitIndex_inj.mp e.symm)
  rwa [h, setStatus_bitMask_getLsbD, decide_eq_false hother, Bool.or_false] at hset

theorem KeepsErrorClear.cleared {s t : State} {v : Word} (h : t.intStatus = clearStatus s.intStatus v) :
    KeepsErrorClear s t := fun hset => clearStatus_getLsbD_le (h ▸ hset)

/-- No action of an operation that its side may issue sets ERROR: an operation ends with a RAISE of another bit. -/
theorem act_keepsErrorClear {sd : Side} {ph : Phase} (s : State) (h : phaseOfSide sd ph = true) :
    KeepsErrorClear s (act sd ph s) := by
  rcases act_intStatus_cases sd ph s with ⟨b, rfl, e⟩ | ⟨b, rest, rfl, e⟩ | e
  · obtain ⟨_, hb⟩ := Bool.and_eq_true_iff.mp h
    exact .raised (of_decide_eq_true hb) e
  · exact .cleared e
  · exact fun hset => e ▸ hset

theorem run_keepsErrorClear {sd : Side} (s : State) (n : Nat) (h : RoleKept sd s) : KeepsErrorClear s (run n sd s) :=
  (run_induct (fun t => KeepsErrorClear s t ∧ RoleKept sd t) sd
    (fun t ph hph ht => ⟨fun hset => ht.1 (act_keepsErrorClear t (ht.2 ph hph) hset), act_role t (ht.2 ph hph)⟩) n s
    ⟨id, h⟩).1

/-- Nor does any instruction but RAISE ERROR and a write to INT_STATUS with a 1 in bit 2. -/
theorem exec_keepsErrorClear {i : Instr} {s t : State} (h : exec i s = .next t) (hraise : i ≠ .raiseInt .error)
    (hwrite : i = .regWrIntStatus → (s.port.get s.side).wdata.getLsbD 2 = false) : KeepsErrorClear s t := by
  cases hph : firstAction s i with
  | none =>
    rcases exec_single_intStatus h hph with ⟨b, rfl, e⟩ | ⟨rfl, e⟩ | ⟨v, e⟩ | e
    · exact .raised (fun hb => hraise (hb ▸ rfl)) e
    · intro hset
      rwa [e, setStatus_getLsbD, hwrite rfl, Bool.and_false, Bool.or_false] at hset
    · exact .cleared e
    · exact fun hset => e ▸ hset
  | some ph =>
    obtain ⟨_, ⟨_, rfl⟩ | ⟨_, rfl⟩⟩ := exec_several_cases h hph
    · exact id
    · exact run_keepsErrorClear (s.dropResults.goOn s.side ph) _ (.goOn _ (firstAction_role (exec_ready h).2 hph))

/-- Settles O26: by the input taken; a SYNC that is due writes no status bit. -/
theorem onlyExplicitRaiseSetsError : Obligations.OnlyExplicitRaiseSetsError := by
  intro s t hroles h hnot
  rcases step_cases s t h with ⟨_, rfl⟩ | ⟨x, rest, u, hin, hu, rfl⟩
  · exact id
  · rw [State.settle_intStatus]
    show KeepsErrorClear (s.setInputs rest) u
    cases x with
    | sync p => cases hu; exact id
    | resume sd n => cases hu; exact run_keepsErrorClear _ _ (hroles sd)
    | issue sd rq n =>
      obtain ⟨i, hd, he⟩ := takeInput_issue_next hu
      obtain ⟨hraise, hwrite⟩ := hnot sd rq n rest i hin hd
      have hkept := exec_keepsErrorClear he hraise fun hi => by
        rw [State.present_port, State.present_side, PerSide.get_set_same]
        exact hwrite hi
      exact hkept

end Sys2Proof.Machine
end

section
/-! DISPATCH however it is interleaved (spec/42_latch_ops.md R152 to R154): the bits it has still to serve, which are
those of its snapshot alone, and the enable mask, which it does not read. -/

namespace Sys2Proof.Machine

open Host (Outcome)

/-! ### The bits still to serve -/

/-- The bits of its snapshot that a DISPATCH past it has not yet acknowledged, where the drain is part of one. -/
def DrainJob.todo : DrainJob → Option (List IntBit)
  | .dispatch todo _ => some todo
  | _ => none

/-- The bits of its snapshot that a DISPATCH past it has not yet acknowledged, where the phase is one of DISPATCH. -/
def Phase.todo : Phase → Option (List IntBit)
  | .ackBit todo | .report todo => some todo
  | .drainRead job | .headerLow job _ | .headerHigh job _ _ | .copyOut job _ _ _ _ | .giveBack job _ => job.todo
  | _ => none

section

variable {s : State} {sd : Side} {ph : Phase} {todo : List IntBit}

theorem todo_dispatch {job : DrainJob} (h : job.todo = some todo) : ∃ k, job = .dispatch todo k := by
  cases job with
  | dispatch todo' k => cases h; exact ⟨k, rfl⟩
  | _ => cases h

/-- The operation in progress at the port of `sd`, if there is one, is a DISPATCH with none but bits of `todo` to
serve. -/
def ServesOnly (sd : Side) (todo : List IntBit) (s : State) : Prop :=
  ∀ ph, (s.port.get sd).busy = some ph → ∃ todo', ph.todo = some todo' ∧ todo' ⊆ todo

theorem ServesOnly.goOn {ph : Phase} (s : State) (h : ph.todo = some todo) : ServesOnly sd todo (s.goOn sd ph) :=
  phase_goOn s ⟨todo, h, List.Subset.refl todo⟩

theorem ServesOnly.drainBlocked (k : Nat) (cause : BlockCause) (pp : Word) (s : State) :
    ServesOnly sd todo (drainBlocked sd (.dispatch todo k) cause pp s) := by
  rcases drainBlocked_cases sd (.dispatch todo k) cause pp s with e | e | ⟨_, hjob, e⟩ <;> rw [e]
  · exact phase_finish s
  · exact .goOn s rfl
  · cases hjob
    exact .goOn s rfl

theorem ServesOnly.serveBits (sd : Side) (todo : List IntBit) (s : State) :
    ServesOnly sd todo (serveBits sd todo s) := by
  rcases serveBits_cases sd todo s with ⟨_, e⟩ | ⟨_, _, e⟩ | ⟨_, _, e⟩ | ⟨_, _, e⟩ <;> rw [e]
  · exact phase_finish s
  · exact .goOn s rfl
  · exact .goOn s rfl
  · exact .goOn s rfl

/-- No action of a DISPATCH past its snapshot adds a bit to serve. -/
theorem act_servesOnly (s : State) (h : ph.todo = some todo) : ServesOnly sd todo (act sd ph s) := by
  cases ph with
  | ackBit todo' =>
    cases h
    cases todo with
    | nil => exact phase_finish s
    | cons b rest =>
      intro ph' hph'
      obtain ⟨todo', htodo, hsub⟩ := ServesOnly.serveBits sd rest (s.clearBit b) ph' hph'
      exact ⟨todo', htodo, List.subset_cons_of_subset b hsub⟩
  | report todo' => cases h; exact .goOn _ rfl
  | drainRead job =>
    obtain ⟨k, rfl⟩ := todo_dispatch h
    rcases actDrainRead_cases sd (.dispatch todo k) s with ⟨_, e⟩ | ⟨_, e⟩ <;> rw [act, e]
    · exact .drainBlocked k _ _ s
    · exact .goOn s rfl
  | headerLow job pp => exact .goOn s h
  | headerHigh job pp b0 =>
    obtain ⟨k, rfl⟩ := todo_dispatch h
    rcases actHeaderHigh_cases sd (.dispatch todo k) pp b0 s with ⟨_, e⟩ | ⟨_, ⟨hjob, _⟩ | ⟨_, e⟩⟩
    · rw [act, e]; exact .drainBlocked k _ _ s
    · cases hjob
    · rw [act, e]; exact .goOn _ rfl
  | copyOut job pp pos left acc =>
    obtain ⟨k, rfl⟩ := todo_dispatch h
    cases left with
    | zero => exact .goOn _ rfl
    | succ n => exact .goOn s rfl
  | giveBack job pp =>
    obtain ⟨k, rfl⟩ := todo_dispatch h
    exact .goOn _ rfl
  | _ => cases h

/-- A bit that is set and not among those to serve is not cleared. -/
theorem act_keepsBit {b : IntBit} (s : State) (h : ph.todo = some todo) (hb : b ∉ todo)
    (hset : s.intStatus.getLsbD (bitIndex b).toNat = true) :
    (act sd ph s).intStatus.getLsbD (bitIndex b).toNat = true := by
  rcases act_intStatus_cases sd ph s with ⟨b', rfl, _⟩ | ⟨b', rest, rfl, e⟩ | e
  · cases h
  · cases h
    have hother : (bitIndex b).toNat ≠ (bitIndex b').toNat :=
      fun e => hb (bitIndex_inj.mp e ▸ List.mem_cons_self)
    rw [e, clearStatus_bitMask_getLsbD _ _ ((bitIndex_lt b).trans (by decide)), hset, decide_eq_false hother]
    rfl
  · rw [e, hset]

theorem run_keepsBit {b : IntBit} (n : Nat) (h : ServesOnly sd todo s) (hb : b ∉ todo)
    (hset : s.intStatus.getLsbD (bitIndex b).toNat = true) :
    (run n sd s).intStatus.getLsbD (bitIndex b).toNat = true := by
  refine (run_induct (fun t => t.intStatus.getLsbD (bitIndex b).toNat = true ∧ ServesOnly sd todo t) sd
    (fun t ph hph ht => ?_) n s ⟨hset, h⟩).1
  obtain ⟨hbit, hserves⟩ := ht
  obtain ⟨todo', htodo, hsub⟩ := hserves ph hph
  refine ⟨act_keepsBit t htodo (fun hmem => hb (hsub hmem)) hbit, fun ph' hph' => ?_⟩
  obtain ⟨todo'', htodo', hsub'⟩ := act_servesOnly t htodo ph' hph'
  exact ⟨todo'', htodo', fun x hx => hsub (hsub' hx)⟩

end

/-- Settles O24: past the snapshot the bits to serve are what is left of it, and only these are acknowledged. -/
theorem laterRaiseOutlivesDispatch : Obligations.LaterRaiseOutlivesDispatch := by
  intro s n ph todo b hbusy hph hb hset
  have htodo : ph.todo = some todo := by
    rcases hph with rfl | rfl | ⟨_, rfl⟩ | ⟨_, _, rfl⟩ | ⟨_, _, _, rfl⟩ | ⟨_, _, _, _, _, rfl⟩ | ⟨_, _, rfl⟩ <;> rfl
  refine run_keepsBit n (fun ph' hph' => ?_) hb hset
  rw [hbusy] at hph'
  cases hph'
  exact ⟨todo, htodo, List.Subset.refl todo⟩

/-! ### The enable mask -/

/-- The phases of DISPATCH: the read of its snapshot, and those past it. -/
def Phase.ofDispatch (ph : Phase) : Prop := ph = .readStatus ∨ ∃ todo, ph.todo = some todo

section

variable {v : Word}

theorem ite_setIntEnable (c : Prop) [Decidable c] (s t : State) :
    (if c then s else t).setIntEnable v = if c then s.setIntEnable v else t.setIntEnable v :=
  apply_ite (State.setIntEnable · v) c s t

theorem serveBits_setIntEnable (sd : Side) (todo : List IntBit) (s : State) :
    serveBits sd todo (s.setIntEnable v) = (serveBits sd todo s).setIntEnable v := by
  cases todo with
  | nil => rfl
  | cons b rest => cases b <;> rfl

theorem drainBlocked_setIntEnable (sd : Side) (todo : List IntBit) (k : Nat) (cause : BlockCause) (pp : Word)
    (s : State) : drainBlocked sd (.dispatch todo k) cause pp (s.setIntEnable v) =
      (drainBlocked sd (.dispatch todo k) cause pp s).setIntEnable v := by
  simp only [drainBlocked, ite_setIntEnable]
  rfl

/-- An action of DISPATCH does what it does under any mask. -/
theorem act_setIntEnable {ph : Phase} (sd : Side) (s : State) (h : ph.ofDispatch) :
    act sd ph (s.setIntEnable v) = (act sd ph s).setIntEnable v := by
  rcases h with rfl | ⟨todo, h⟩
  · exact serveBits_setIntEnable ..
  · cases ph with
    | ackBit todo' =>
      cases todo' with
      | nil => rfl
      | cons b rest => exact serveBits_setIntEnable sd rest (s.clearBit b)
    | drainRead job =>
      obtain ⟨k, rfl⟩ := todo_dispatch h
      simp only [act, actDrainRead, drainBlocked_setIntEnable, ite_setIntEnable]
      rfl
    | headerHigh job pp b0 =>
      obtain ⟨k, rfl⟩ := todo_dispatch h
      simp only [act, actHeaderHigh, drainBlocked_setIntEnable, ite_setIntEnable]
      rfl
    | copyOut job pp pos left acc =>
      obtain ⟨k, rfl⟩ := todo_dispatch h
      cases left <;> rfl
    | giveBack job pp =>
      obtain ⟨k, rfl⟩ := todo_dispatch h
      rfl
    | report | headerLow => rfl
    | _ => cases h

/-- After an action of DISPATCH the next one is of DISPATCH. -/
theorem act_ofDispatch {ph : Phase} (sd : Side) (s : State) (h : ph.ofDispatch) :
    ∀ ph', ((act sd ph s).port.get sd).busy = some ph' → ph'.ofDispatch := by
  intro ph' hph'
  rcases h with rfl | ⟨todo, h⟩
  · obtain ⟨todo, htodo, _⟩ := ServesOnly.serveBits sd (pendingBits s.intStatus) s ph' hph'
    exact .inr ⟨todo, htodo⟩
  · obtain ⟨todo', htodo, _⟩ := act_servesOnly s h ph' hph'
    exact .inr ⟨todo', htodo⟩

theorem run_setIntEnable (n : Nat) (sd : Side) (s : State)
    (h : ∀ ph, (s.port.get sd).busy = some ph → ph.ofDispatch) :
    run n sd (s.setIntEnable v) = (run n sd s).setIntEnable v := by
  induction n generalizing s with
  | zero => rfl
  | succ n ih =>
    cases hb : (s.port.get sd).busy with
    | none => rw [run_idle _ _ _ hb, run_idle _ _ (s.setIntEnable v) hb]
    | some ph =>
      rw [run_busy n sd s ph hb, run_busy n sd (s.setIntEnable v) ph hb, act_setIntEnable sd s (h ph hb),
        ih _ (act_ofDispatch sd s (h ph hb))]

end

/-- DISPATCH at an idle port of the host begins with the read of INT_STATUS. -/
theorem dispatch_begins {s : State} (hready : Ready .dispatch s) :
    exec .dispatch s = .next (run s.quantum s.side (s.dropResults.goOn s.side .readStatus)) :=
  accept_ready _ _ _ hready.1 hready.2

/-- Settles O25: every action of DISPATCH commutes with a change of the mask. -/
theorem dispatchIgnoresTheMask : Obligations.DispatchIgnoresTheMask := by
  intro s t v h
  have hready := exec_ready h
  rw [dispatch_begins hready] at h
  cases h
  have hrun := run_setIntEnable (v := v) s.quantum s.side (s.dropResults.goOn s.side .readStatus)
    (phase_goOn _ (.inl rfl))
  exact (dispatch_begins (s := s.setIntEnable v) hready).trans (congrArg Outcome.next hrun)

end Sys2Proof.Machine
end

section
/-! Drain loops with no other agent in between (spec/43_agent_ops.md R162, R168, R171): one drain inside an operation, the
frames a loop takes, and how many actions it needs for them. -/

namespace Sys2Proof.Machine

/-! ### Where a run comes to -/

/-- At most `m` actions of side `sd` lead from `s` to `t`. -/
def LeadsTo (m : Nat) (sd : Side) (s t : State) : Prop := ∃ k, k ≤ m ∧ run k sd s = t

section

variable {m m' : Nat} {sd : Side} {s t u : State}

theorem LeadsTo.refl (sd : Side) (s : State) : LeadsTo 0 sd s s := ⟨0, Nat.le_refl 0, rfl⟩

theorem LeadsTo.trans (h : LeadsTo m sd s t) (h' : LeadsTo m' sd t u) : LeadsTo (m + m') sd s u := by
  obtain ⟨k, hk, rfl⟩ := h
  obtain ⟨k', hk', rfl⟩ := h'
  exact ⟨k + k', Nat.add_le_add hk hk', run_add k k' sd s⟩

theorem LeadsTo.mono (h : LeadsTo m sd s t) (hm : m ≤ m') : LeadsTo m' sd s t := by
  obtain ⟨k, hk, e⟩ := h
  exact ⟨k, hk.trans hm, e⟩

theorem LeadsTo.action {ph : Phase} (h : act sd ph (s.goOn sd ph) = t) : LeadsTo 1 sd (s.goOn sd ph) t :=
  ⟨1, Nat.le_refl 1, (run_goOn 0 sd s ph).trans h⟩

/-- A turn that is long enough runs to the end of the operation. -/
theorem LeadsTo.run_eq {r : Result} {n : Nat} (h : LeadsTo m sd s (u.finish sd r)) (hn : m ≤ n) :
    run n sd s = u.finish sd r := by
  obtain ⟨k, hk, e⟩ := h
  rw [← Nat.add_sub_of_le (hk.trans hn), run_add, e, run_finish]

end

/-! ### The phase left behind -/

section

variable (sd : Side) (ph : Phase) (s : State)

theorem goOn_drainBlocked (job : DrainJob) (cause : BlockCause) (pp : Word) :
    drainBlocked sd job cause pp (s.goOn sd ph) = drainBlocked sd job cause pp s := by
  cases job with
  | plain g => exact goOn_finish ..
  | process | dispatch => simp only [drainBlocked, goOn_finish, goOn_goOn]

theorem goOn_emit_goOn (ph' : Phase) (e : Event) : ((s.goOn sd ph).emit sd e).goOn sd ph' = (s.emit sd e).goOn sd ph' :=
  goOn_goOn (s.emit sd e) sd ph ph'

theorem goOn_actDeliver (job : DrainJob) (pp : Word) (bytes : List Byte) :
    actDeliver sd job pp bytes (s.goOn sd ph) = actDeliver sd job pp bytes s := by
  cases job with
  | plain g => exact goOn_finish ..
  | process | dispatch => simp only [actDeliver, State.goOn_cfg, goOn_emit_goOn]

theorem goOn_serveBits (todo : List IntBit) : serveBits sd todo (s.goOn sd ph) = serveBits sd todo s := by
  cases todo with
  | nil => exact goOn_finish ..
  | cons b rest => cases b <;> exact goOn_goOn ..

end

/-! ### One drain inside an operation -/

/-- The length in the header that the consumer of `g` reads next. -/
def nextLength (s : State) (g : Ring) : Half := lengthAt s g (s.consPos.get g).toNat

/-- The payload behind that header. -/
def nextPayload (s : State) (g : Ring) : List Byte :=
  payloadAt s g ((s.consPos.get g).toNat + 2) (nextLength s g).toNat

/-- The consumer of `g` has moved past that frame. -/
def State.pastFrame (s : State) (g : Ring) : State :=
  s.setCons g (advance (s.consPos.get g) (frameSize (nextLength s g)) (s.cap g))

section

variable {s : State} {g : Ring} {job : DrainJob} {pp : Word}

theorem advance_cap_toNat (hcfg : s.cfg.valid = true) (g : Ring) (p : Word) (n : Nat) :
    (advance p n (s.cap g)).toNat = (p.toNat + n) % s.cap g :=
  advance_toNat p n (s.cap g) (cap_pos hcfg g) (cap_bounds hcfg g).2

theorem act_drainRead (ph : Phase) (hg : drainRing job = g) (hpp : s.seen.get (pubProd g) = pp) :
    act (consumer g) (.drainRead job) (s.goOn (consumer g) ph) =
      if availTo s g pp < 2 then drainBlocked (consumer g) job .header pp s
      else s.goOn (consumer g) (.headerLow job pp) := by
  subst hg
  have hread := ptrRead_consumer (s.goOn (consumer (drainRing job)) ph) (drainRing job)
  rw [State.goOn_seen, hpp] at hread
  simp only [act, actDrainRead, hread, goOn_drainBlocked, goOn_goOn]
  rfl

theorem act_headerLow (s : State) (ph : Phase) (pp : Word) (hg : drainRing job = g) :
    act (consumer g) (.headerLow job pp) (s.goOn (consumer g) ph) =
      s.goOn (consumer g) (.headerHigh job pp (s.byteAt g (s.consPos.get g).toNat)) := by
  subst hg
  exact goOn_goOn ..

theorem act_headerHigh (s : State) (ph : Phase) (pp : Word) (hg : drainRing job = g) (hjob : job ≠ .plain g) :
    act (consumer g) (.headerHigh job pp (s.byteAt g (s.consPos.get g).toNat)) (s.goOn (consumer g) ph) =
      if availTo s g pp < frameSize (nextLength s g) then drainBlocked (consumer g) job .partialFrame pp s
      else (s.pastFrame g).goOn (consumer g)
        (.copyOut job pp (advance (s.consPos.get g) 2 (s.cap g)).toNat (nextLength s g).toNat []) := by
  subst hg
  rw [← goOn_drainBlocked (consumer (drainRing job)) ph s, ← goOn_goOn (s.pastFrame _) (consumer (drainRing job)) ph]
  cases job with
  | plain g => exact absurd rfl hjob
  | process | dispatch => rfl

/-- Where no whole frame is visible the drain gets WouldBlock, after the pointer read or after the header. -/
theorem leadsTo_blocked (hg : drainRing job = g) (hjob : job ≠ .plain g) (hpp : s.seen.get (pubProd g) = pp)
    (h : availTo s g pp < frameSize (nextLength s g)) :
    LeadsTo 3 (consumer g) (s.goOn (consumer g) (.drainRead job))
      (drainBlocked (consumer g) job (blockCause s g pp) pp s) := by
  have hread := LeadsTo.action (act_drainRead (.drainRead job) hg hpp)
  unfold blockCause
  split_ifs at hread ⊢ with hheader
  · exact hread.mono (by decide)
  · have hhigh := LeadsTo.action (act_headerHigh s _ pp hg hjob)
    rw [if_pos h] at hhigh
    exact (hread.trans (.action (act_headerLow s _ _ hg))).trans hhigh

/-- The bytes of a view are copied out, then delivered. -/
theorem leadsTo_copied (s : State) (sd : Side) (job : DrainJob) (pp : Word) (pos left : Nat) :
    LeadsTo (left + 1) sd (s.goOn sd (.copyOut job pp pos left []))
      (actDeliver sd job pp (payloadAt s (drainRing job) pos left) s) := by
  obtain ⟨pos', hcopy⟩ := run_copyOut left left sd job pp pos [] s (Nat.le_refl left)
  rw [Nat.sub_self, List.nil_append] at hcopy
  have hread : LeadsTo left sd (s.goOn sd (.copyOut job pp pos left [])) _ := ⟨left, Nat.le_refl left, hcopy⟩
  exact hread.trans (.action (goOn_actDeliver ..))

/-- Where a whole frame is visible the drain moves past it, and the frame's payload is delivered. -/
theorem leadsTo_delivered (hg : drainRing job = g) (hjob : job ≠ .plain g) (hpp : s.seen.get (pubProd g) = pp)
    (hcfg : s.cfg.valid = true) (h : frameSize (nextLength s g) ≤ availTo s g pp) :
    LeadsTo (frameSize (nextLength s g) + 2) (consumer g) (s.goOn (consumer g) (.drainRead job))
      (actDeliver (consumer g) job pp (nextPayload s g) (s.pastFrame g)) := by
  have hsize := frameSize_eq (nextLength s g)
  have hread := LeadsTo.action (act_drainRead (.drainRead job) hg hpp)
  rw [if_neg (by omega)] at hread
  have hhigh := LeadsTo.action (act_headerHigh s (.headerHigh job pp _) pp hg hjob)
  rw [if_neg (Nat.not_lt.mpr h)] at hhigh
  have hcopy := leadsTo_copied (s.pastFrame g) (consumer g) job pp (advance (s.consPos.get g) 2 (s.cap g)).toNat
    (nextLength s g).toNat
  have hpayload : payloadAt (s.pastFrame g) g (advance (s.consPos.get g) 2 (s.cap g)).toNat (nextLength s g).toNat =
      nextPayload s g :=
    payloadAt_congr fun k _ => byteAt_mod s g (by rw [advance_cap_toNat hcfg, Nat.mod_add_mod])
  rw [hg, hpayload] at hcopy
  exact (((hread.trans (.action (act_headerLow s _ _ hg))).trans hhigh).trans hcopy).mono (by omega)

end

/-! ### The frames a drain loop takes -/

section

variable {s t : State} {g : Ring} {pp : Word}

theorem framesTo_congr (hcfg : t.cfg = s.cfg) (hcons : t.consPos.get g = s.consPos.get g)
    (hbytes : ∀ k, t.byteAt g k = s.byteAt g k) : framesTo t g pp = framesTo s g pp := by
  rw [framesTo_eq, framesTo_eq, availTo, availTo, State.cap, State.cap, hcfg, hcons]
  exact framesFrom_congr fun k _ => hbytes _

theorem framesTo_of_blocked (h : availTo s g pp < frameSize (nextLength s g)) : framesTo s g pp = ([], 0) :=
  (framesFrom_cases s g _ _).resolve_right (Nat.not_le.mpr h)

theorem availTo_pastFrame (hcfg : s.cfg.valid = true) (h : frameSize (nextLength s g) ≤ availTo s g pp) :
    availTo (s.pastFrame g) g pp = availTo s g pp - frameSize (nextLength s g) := by
  have hcons : (s.pastFrame g).consPos.get g = _ := PerRing.get_set_same ..
  rw [availTo, hcons]
  exact dist_advance_right _ _ _ _ (cap_pos hcfg g) (cap_bounds hcfg g).2 h

/-- The first whole frame, then those behind it. -/
theorem framesTo_of_frame (hcfg : s.cfg.valid = true) (h : frameSize (nextLength s g) ≤ availTo s g pp) :
    framesTo s g pp = (nextPayload s g :: (framesTo (s.pastFrame g) g pp).1,
      frameSize (nextLength s g) + (framesTo (s.pastFrame g) g pp).2) := by
  have hrest : framesTo (s.pastFrame g) g pp =
      framesFrom s g ((s.consPos.get g).toNat + frameSize (nextLength s g))
        (availTo s g pp - frameSize (nextLength s g)) := by
    rw [framesTo_eq, availTo_pastFrame hcfg h]
    refine framesFrom_congr fun k _ => byteAt_mod s g ?_
    rw [State.pastFrame, State.setCons_consPos, PerRing.get_set_same, advance_cap_toNat hcfg, Nat.mod_add_mod]
  rw [hrest]
  exact framesFrom_frame s g h

/-- Frames of no payload take no byte. -/
theorem framesTo_eq_none (h : (framesTo s g pp).1 = []) : framesTo s g pp = ([], 0) :=
  (framesFrom_cases s g _ _).resolve_right fun hframe => by
    rw [framesTo_eq, framesFrom_frame s g hframe] at h
    cases h

end

/-! ### A drain loop -/

/-- The event by which a payload of ring `g` leaves the block (spec/43_agent_ops.md R164, R168). -/
def sinkEvent : Ring → List Byte → Event
  | .tx => .sinkDevice
  | .rx => .sinkHost

/-- The consumer of `g` has drained the frames, payloads and size in bytes, and delivered them in order. -/
def State.forward (s : State) (g : Ring) (frames : List (List Byte) × Nat) : State :=
  { s with
    consPos := if frames.1 = [] then s.consPos
      else s.consPos.set g (advance (s.consPos.get g) frames.2 (s.cap g))
    events := s.events.set (consumer g) (s.events.get (consumer g) ++ frames.1.map (sinkEvent g)) }

/-- The drains `job 0`, `job 1`, … of one operation on ring `g`: after a delivery the next one begins
(spec/43_agent_ops.md R162, R168). -/
structure DrainLoop (g : Ring) (cfg : Config) (job : Nat → DrainJob) : Prop where
  ring : ∀ k, drainRing (job k) = g
  notPlain : ∀ k, job k ≠ .plain g
  next : ∀ k pp bytes (s : State), s.cfg = cfg → actDeliver (consumer g) (job k) pp bytes s =
    (s.emit (consumer g) (sinkEvent g bytes)).goOn (consumer g) (.drainRead (job (k + 1)))

section

variable {s : State} {g : Ring} {pp : Word}

theorem PerSide.set_get {α : Type} (f : PerSide α) (sd : Side) : f.set sd (f.get sd) = f := by cases sd <;> rfl

theorem forward_none (s : State) (g : Ring) : s.forward g ([], 0) = s := by
  simp only [State.forward, List.map_nil, List.append_nil, PerSide.set_get, if_true]

theorem advance_advance (p : Word) (m n c : Nat) (hc : 0 < c) (hw : c ≤ 2 ^ 32) :
    advance (advance p m c) n c = advance p (m + n) c := by
  apply BitVec.eq_of_toNat_eq
  rw [advance_toNat _ _ _ hc hw, advance_toNat _ _ _ hc hw, advance_toNat _ _ _ hc hw, Nat.mod_add_mod, Nat.add_assoc]

/-- One frame forwarded, then the others. -/
theorem forward_cons (hcfg : s.cfg.valid = true) {frames : List (List Byte) × Nat}
    (hframes : frames.1 = [] → frames.2 = 0) :
    ((s.pastFrame g).emit (consumer g) (sinkEvent g (nextPayload s g))).forward g frames =
      s.forward g (nextPayload s g :: frames.1, frameSize (nextLength s g) + frames.2) := by
  have hcons : (if frames.1 = [] then (s.pastFrame g).consPos
      else (s.pastFrame g).consPos.set g (advance ((s.pastFrame g).consPos.get g) frames.2 (s.cap g))) =
      s.consPos.set g (advance (s.consPos.get g) (frameSize (nextLength s g) + frames.2) (s.cap g)) := by
    rw [State.pastFrame, State.setCons_consPos, PerRing.get_set_same, PerRing.set_set]
    split_ifs with h
    · rw [hframes h, Nat.add_zero]
    · exact congrArg (s.consPos.set g) (advance_advance _ _ _ _ (cap_pos hcfg g) (cap_bounds hcfg g).2)
  have hevents : ((s.pastFrame g).emit (consumer g) (sinkEvent g (nextPayload s g))).events.set (consumer g)
      (((s.pastFrame g).emit (consumer g) (sinkEvent g (nextPayload s g))).events.get (consumer g) ++
        frames.1.map (sinkEvent g)) = s.events.set (consumer g)
      (s.events.get (consumer g) ++ (nextPayload s g :: frames.1).map (sinkEvent g)) := by
    simp [State.pastFrame]
  exact congrArg₂ (fun cons events => { s with consPos := cons, events := events }) hcons hevents

/-- A drain loop takes every whole frame its consumer can see, then gets WouldBlock; each frame takes at most two
actions for each of its bytes. -/
theorem leadsTo_drained {job : Nat → DrainJob} (hloop : DrainLoop g s.cfg job) (hcfg : s.cfg.valid = true)
    (hpp : s.seen.get (pubProd g) = pp) (k : Nat) :
    LeadsTo (2 * availTo s g pp + 3) (consumer g) (s.goOn (consumer g) (.drainRead (job k)))
      (drainBlocked (consumer g) (job (k + (framesTo s g pp).1.length)) (blockCause (s.forward g (framesTo s g pp)) g pp)
        pp (s.forward g (framesTo s g pp))) := by
  induction havail : availTo s g pp using Nat.strong_induction_on generalizing s k with
  | _ avail ih =>
    rcases Nat.lt_or_ge (availTo s g pp) (frameSize (nextLength s g)) with hnone | hframe
    · rw [framesTo_of_blocked hnone, forward_none]
      exact (leadsTo_blocked (hloop.ring k) (hloop.notPlain k) hpp hnone).mono (Nat.le_add_left ..)
    · have hsize := two_le_frameSize (nextLength s g)
      have hfirst := leadsTo_delivered (hloop.ring k) (hloop.notPlain k) hpp hcfg hframe
      rw [hloop.next k pp _ (s.pastFrame g) rfl] at hfirst
      have hbehind := availTo_pastFrame hcfg hframe
      have hrest := ih (availTo (s.pastFrame g) g pp) (by omega)
        (s := (s.pastFrame g).emit (consumer g) (sinkEvent g (nextPayload s g))) hloop hcfg hpp (k + 1) rfl
      rw [framesTo_congr (t := (s.pastFrame g).emit ..) (s := s.pastFrame g) rfl rfl fun _ => rfl,
        forward_cons hcfg fun h => congrArg Prod.snd (framesTo_eq_none h), ← framesTo_of_frame hcfg hframe] at hrest
      have hcount : k + 1 + (framesTo (s.pastFrame g) g pp).1.length = k + (framesTo s g pp).1.length := by
        rw [framesTo_of_frame hcfg hframe, List.length_cons]
        omega
      rw [hcount] at hrest
      exact (hfirst.trans hrest).mono (by omega)

end

end Sys2Proof.Machine
end

section
/-! The handlers of DISPATCH, their ACKs, and the walk over the bits of the snapshot (spec/42_latch_ops.md R152, R155,
R156; spec/43_agent_ops.md R168, R169), with no other agent in between. -/

namespace Sys2Proof.Machine

open Host (Outcome)

/-! ### The handlers -/

/-- The RX_READY handler has forwarded the frames and, if there was one, published the consumer's position
(spec/43_agent_ops.md R168). -/
def State.rxHandled (s : State) (frames : List (List Byte) × Nat) : State :=
  if frames.1 = [] then s else commitCons .rx (s.forward .rx frames)

/-- The handler of a bit (spec/42_latch_ops.md R155). -/
def State.handled (s : State) : IntBit → State
  | .rxReady => s.rxHandled (framesTo s .rx (s.seen.get .rxHead))
  | .txSpace => s
  | .error => s.emit .host .errorReport

/-- A bit that is 1 in the snapshot is handled, then acknowledged (spec/42_latch_ops.md R152 step 2). -/
def State.served (snapshot : Word) (s : State) (b : IntBit) : State :=
  if bitIsSet snapshot b then (s.handled b).clearBit b else s

/-- As many actions as the handler of a bit and its ACK can take, with an RX ring of `c` bytes. -/
def serviceTime (c : Nat) : IntBit → Nat
  | .rxReady => 2 * c + 3
  | .txSpace | .error => 2

section

variable {s : State}

theorem dispatch_drainLoop (todo : List IntBit) (cfg : Config) : DrainLoop .rx cfg (.dispatch todo) where
  ring _ := rfl
  notPlain _ := nofun
  next _ _ _ _ _ := rfl

section

variable (s : State) (ph : Phase) (todo : List IntBit)

theorem act_readStatus :
    act .host .readStatus (s.goOn .host ph) = serveBits .host (pendingBits s.intStatus) s := goOn_serveBits ..

theorem act_report :
    act .host (.report todo) (s.goOn .host ph) = (s.emit .host .errorReport).goOn .host (.ackBit todo) :=
  goOn_emit_goOn ..

theorem act_ackBit (b : IntBit) :
    act .host (.ackBit (b :: todo)) (s.goOn .host ph) = serveBits .host todo (s.clearBit b) :=
  goOn_serveBits .host ph (s.clearBit b) todo

theorem act_giveBack_dispatch (k : Nat) (pp : Word) :
    act .host (.giveBack (.dispatch todo k) pp) (s.goOn .host ph) = (commitCons .rx s).goOn .host (.ackBit todo) :=
  goOn_goOn (commitCons .rx s) .host ph (.ackBit todo)

end

/-- The drain loop of the RX_READY handler, then its COMMIT where a frame was drained. -/
theorem leadsTo_rxHandled (hcfg : s.cfg.valid = true) (todo : List IntBit) :
    LeadsTo (2 * availTo s .rx (s.seen.get .rxHead) + 4) .host (s.goOn .host (.drainRead (.dispatch todo 0)))
      ((s.rxHandled (framesTo s .rx (s.seen.get .rxHead))).goOn .host (.ackBit todo)) := by
  have hloop := leadsTo_drained (g := .rx) (pp := s.seen.get .rxHead) (dispatch_drainLoop todo s.cfg) hcfg rfl 0
  rw [Nat.zero_add, drainBlocked] at hloop
  unfold State.rxHandled
  by_cases hnone : (framesTo s .rx (s.seen.get .rxHead)).1 = []
  · rw [if_pos (List.length_eq_zero_iff.mpr hnone), framesTo_eq_none hnone, forward_none] at hloop
    rw [if_pos hnone]
    exact hloop.mono (Nat.le_succ _)
  · rw [if_neg fun h => hnone (List.length_eq_zero_iff.mp h)] at hloop
    rw [if_neg hnone]
    exact hloop.trans (.action (act_giveBack_dispatch ..))

/-- One bit of the walk. -/
theorem leadsTo_next (hcfg : s.cfg.valid = true) (b : IntBit) (rest : List IntBit) :
    LeadsTo (serviceTime (s.cap .rx) b) .host (serveBits .host (b :: rest) s)
      (serveBits .host rest ((s.handled b).clearBit b)) := by
  have hack : LeadsTo 1 .host ((s.handled b).goOn .host (.ackBit (b :: rest))) _ := .action (act_ackBit ..)
  cases b with
  | rxReady =>
    have havail : availTo s .rx (s.seen.get .rxHead) < s.cap .rx := dist_lt _ _ _ (cap_pos hcfg .rx)
    exact ((leadsTo_rxHandled hcfg _).trans hack).mono (by rw [serviceTime]; omega)
  | txSpace => exact hack.mono (Nat.le_succ 1)
  | error => exact (LeadsTo.action (act_report ..)).trans hack

theorem served_cfg (snapshot : Word) (s : State) (b : IntBit) : (s.served snapshot b).cfg = s.cfg := by
  unfold State.served State.handled State.rxHandled
  cases b <;> split_ifs <;> rfl

/-- The walk over the bits of `bits` that are 1 in the snapshot. -/
theorem leadsTo_served (snapshot : Word) (bits : List IntBit) (hcfg : s.cfg.valid = true) :
    LeadsTo (bits.map (serviceTime (s.cap .rx))).sum .host (serveBits .host (bits.filter (bitIsSet snapshot)) s)
      ((bits.foldl (State.served snapshot) s).finish .host .ok) := by
  induction bits generalizing s with
  | nil => exact .refl ..
  | cons b bits ih =>
    have hsame := served_cfg snapshot s b
    have hrest := ih (s := s.served snapshot b) (hsame ▸ hcfg)
    rw [State.cap, hsame] at hrest
    rw [List.map_cons, List.sum_cons, List.foldl_cons]
    by_cases hset : bitIsSet snapshot b
    · rw [List.filter_cons_of_pos hset]
      rw [State.served, if_pos hset] at hrest ⊢
      exact (leadsTo_next hcfg b _).trans hrest
    · rw [List.filter_cons_of_neg hset]
      rw [State.served, if_neg hset] at hrest ⊢
      exact hrest.mono (Nat.le_add_left ..)

end

/-! ### The whole DISPATCH -/

/-- The state in which DISPATCH has served the bits that are set. -/
def State.dispatched (s : State) : State := [IntBit.rxReady, .txSpace, .error].foldl (State.served s.intStatus) s

theorem exec_dispatch {s : State} (hready : Ready .dispatch s) (hcfg : s.cfg.valid = true)
    (hq : fullQuantum s.cfg ≤ s.quantum) : exec .dispatch s = .next (s.dropResults.dispatched.finish s.side .ok) := by
  have hside : s.side = .host := of_decide_eq_true hready.2
  have hwalk := (LeadsTo.action (act_readStatus s.dropResults .readStatus)).trans
    (leadsTo_served s.intStatus [.rxReady, .txSpace, .error] hcfg)
  have htime : 1 + ([IntBit.rxReady, .txSpace, .error].map (serviceTime (s.cap .rx))).sum ≤ fullQuantum s.cfg := by
    simp only [List.map, List.sum_cons, List.sum_nil, serviceTime, fullQuantum, State.cap, Config.cap]
    omega
  rw [dispatch_begins hready, hside]
  exact congrArg Outcome.next (hwalk.run_eq (htime.trans hq))

/-! ### What DISPATCH leaves -/

/-- The frames that the RX_READY handler finds, none where RX_READY is not set. -/
def rxFrames (s : State) : List (List Byte) × Nat :=
  if bitIsSet s.intStatus .rxReady then framesTo s .rx (s.seen.get .rxHead) else ([], 0)

/-- What the ERROR handler reports, nothing where ERROR is not set (spec/42_latch_ops.md R156). -/
def errorReports (s : State) : List Event := if bitIsSet s.intStatus .error then [.errorReport] else []

/-- The host has emitted the reports. -/
def State.reported (s : State) (reports : List Event) : State :=
  { s with events := s.events.set .host (s.events.get .host ++ reports) }

section

variable (s : State)

theorem bitIsSet_eq (status : Word) (b : IntBit) : bitIsSet status b = status.getLsbD (bitIndex b).toNat := by
  rw [Bool.eq_iff_iff, bitIsSet, decide_eq_true_iff, word_ne_zero_iff]
  simp only [BitVec.getLsbD_and, bitMask_getLsbD, Bool.and_eq_true, decide_eq_true_eq, exists_eq_right]

theorem handled_intStatus (b : IntBit) : (s.handled b).intStatus = s.intStatus := by
  unfold State.handled State.rxHandled
  cases b <;> split_ifs <;> rfl

theorem served_getLsbD (snapshot : Word) (b : IntBit) {k : Nat} (hk : k < 32) :
    (s.served snapshot b).intStatus.getLsbD k =
      (s.intStatus.getLsbD k && !(snapshot.getLsbD (bitIndex b).toNat && decide (k = (bitIndex b).toNat))) := by
  rw [← bitIsSet_eq, State.served]
  cases bitIsSet snapshot b with
  | false => simp
  | true =>
    rw [if_pos rfl, State.clearBit_intStatus, clearStatus_bitMask_getLsbD _ _ hk, handled_intStatus, Bool.true_and]

theorem dispatched_getLsbD {k : Nat} (hk : k < 32) :
    s.dispatched.intStatus.getLsbD k = (s.intStatus.getLsbD k && decide (3 ≤ k)) := by
  simp only [State.dispatched, List.foldl, served_getLsbD _ _ _ hk, bitIndex]
  obtain rfl | rfl | rfl | h : k = 0 ∨ k = 1 ∨ k = 2 ∨ 3 ≤ k := by omega
  · simp
  · simp
  · simp
  · simp [h, show k ≠ 0 by omega, show k ≠ 1 by omega, show k ≠ 2 by omega]

theorem served_rxReady : s.served s.intStatus .rxReady =
    (s.rxHandled (rxFrames s)).setIntStatus (s.served s.intStatus .rxReady).intStatus := by
  unfold State.served rxFrames
  split_ifs <;> rfl

theorem served_txSpace (snapshot : Word) :
    s.served snapshot .txSpace = s.setIntStatus (s.served snapshot .txSpace).intStatus := by
  unfold State.served
  split_ifs <;> rfl

theorem served_error (snapshot : Word) : s.served snapshot .error =
    (s.reported (if bitIsSet snapshot .error then [.errorReport] else [])).setIntStatus
      (s.served snapshot .error).intStatus := by
  unfold State.served State.reported
  split_ifs
  · rfl
  · rw [List.append_nil, PerSide.set_get]
    rfl

/-- The RX_READY handler and the ERROR handler, each where its bit is set, and the status word. -/
theorem dispatched_eq : s.dispatched =
    ((s.rxHandled (rxFrames s)).reported (errorReports s)).setIntStatus s.dispatched.intStatus := by
  simp only [State.dispatched, List.foldl]
  rw [served_error, served_txSpace, served_rxReady]
  rfl

/-- All the RX_READY handler can do. -/
theorem rxHandled_cases (frames : List (List Byte) × Nat) :
    (frames.1 = [] ∧ s.rxHandled frames = s) ∨
    (frames.1 ≠ [] ∧ s.rxHandled frames =
      { s with
        consPos := s.consPos.set .rx (advance (s.consPos.get .rx) frames.2 (s.cap .rx))
        reg := s.reg.set .rxTailPub (advance (s.consPos.get .rx) frames.2 (s.cap .rx))
        events := s.events.set .host (s.events.host ++ frames.1.map .sinkHost) }) := by
  by_cases h : frames.1 = []
  · exact .inl ⟨h, if_pos h⟩
  · refine .inr ⟨h, ?_⟩
    rw [State.rxHandled, if_neg h, State.forward, if_neg h]
    rfl

theorem rxHandled_frame (frames : List (List Byte) × Nat) : ActionFrame .host s (s.rxHandled frames) := by
  rcases rxHandled_cases s frames with ⟨_, e⟩ | ⟨_, e⟩ <;> rw [e]
  · exact .refl .host s
  · constructor <;> rfl

theorem rxHandled_same (frames : List (List Byte) × Nat) (p : Part)
    (hp : p ∉ [Part.cons .rx, .reg .rxTailPub, .events .host]) : samePart s (s.rxHandled frames) p := by
  rcases rxHandled_cases s frames with ⟨_, e⟩ | ⟨_, e⟩ <;> rw [e]
  · cases p with
    | mem => exact fun _ => rfl
    | _ => rfl
  · cases p with
    | cons g => exact PerRing.get_set_other _ _ _ _ fun e => hp (by simp [e])
    | reg p => exact PerPtr.get_set_other _ _ _ _ fun e => hp (by simp [e])
    | events sd => exact PerSide.get_set_other _ _ _ _ fun e => hp (by simp [e])
    | mem => exact fun _ => rfl
    | _ => rfl

theorem rxHandled_events (frames : List (List Byte) × Nat) :
    (s.rxHandled frames).events.get .host = s.events.get .host ++ frames.1.map .sinkHost := by
  rcases rxHandled_cases s frames with ⟨h, e⟩ | ⟨_, e⟩ <;> rw [e]
  · rw [h, List.map_nil, List.append_nil]
  · rfl

theorem reported_frame (reports : List Event) : ActionFrame .host s (s.reported reports) := by constructor <;> rfl

end

/-- Of the whole state the consumer's end of the RX ring, the host's events and the status word alone are others. -/
theorem handlers_unchangedBut {s : State} (hside : s.side = .host) (frames : List (List Byte) × Nat)
    (reports : List Event) (v : Word) (r : Result) :
    UnchangedBut [.cons .rx, .reg .rxTailPub, .events .host, .status] s
      ((((s.dropResults.rxHandled frames).reported reports).setIntStatus v).finish s.side r) := by
  refine .ofFrame ?_ fun p hp => ?_
  · rw [hside]
    exact (((rxHandled_frame ..).trans (reported_frame ..)).trans (setIntStatus_frame ..)).trans (finish_frame ..)
  · have hsame := rxHandled_same s.dropResults frames p fun h =>
      hp (show p ∈ [_, _, _] ++ [Part.status] from List.mem_append_left _ h)
    cases p with
    | status => exact absurd (by simp) hp
    | events sd => exact (PerSide.get_set_other _ _ _ _ fun e => hp (by simp [e])).trans hsame
    | _ => exact hsame

/-- Settles O23: the run comes to the state in which each set bit is handled and acknowledged; the drain loop of the
RX_READY handler takes the whole frames that the host can see. -/
theorem dispatchServesEverySetBit : Obligations.DispatchServesEverySetBit := by
  intro s hidle hside hcfg hq frames
  have hframes : rxFrames s.dropResults = frames := by
    rw [rxFrames, bitIsSet_eq, framesTo_congr (t := s.dropResults) (s := s) rfl rfl fun _ => rfl]
    rfl
  have hreports : errorReports s.dropResults = if s.intStatus.getLsbD 2 then [.errorReport] else [] := by
    rw [errorReports, bitIsSet_eq]
    rfl
  have hevents := rxHandled_events s.dropResults frames
  refine ⟨_, exec_dispatch ⟨hidle, decide_eq_true hside⟩ hcfg hq, answered_finish _,
    fun k hk => dispatched_getLsbD s.dropResults hk, ?_⟩
  rw [dispatched_eq, hframes, hreports]
  refine ⟨congrArg (· ++ _) hevents, fun hnone => ?_, fun hsome => ?_, handlers_unchangedBut hside ..⟩
  · have hrests : s.dropResults.rxHandled frames = s.dropResults := if_pos hnone
    rw [hrests]
    exact ⟨rfl, rfl⟩
  · obtain ⟨_, e⟩ := (rxHandled_cases s.dropResults frames).resolve_left fun h => hsome h.1
    rw [e]
    exact ⟨advance_cap_toNat hcfg .rx (s.consPos.get .rx) frames.2, rfl⟩

end Sys2Proof.Machine
end

section
/-! Batches of a drain loop (spec/43_agent_ops.md R171): each frame a loop drains takes two bytes at the least off the
ring, and a loop gives back what it has drained only at its end, so in any interleaving the frames of a batch lie among
the bytes drained and not given back. -/

namespace Sys2Proof.Machine

/-! ### The batch of one ring -/

/-- The frames of the batch on ring `g` are among the bytes drained and not yet given back (R171). -/
def BatchWithin (s : State) (g : Ring) : Prop :=
  2 * batchCount g (s.port.get (consumer g)).busy ≤ dist (s.consPos.get g) (s.reg.get (pubCons g)) (s.cap g)

theorem batchesBounded_iff (s : State) : BatchesBounded s ↔ ∀ g, BatchWithin s g := Iff.rfl

/-- All an action of the consumer of `g` can do to its batch: count no frame more and leave the consumer's end of the
ring alone, count one frame more and drain two bytes at the least of those it knows of, or end the batch. -/
inductive BatchMoves (g : Ring) (s t : State) : Prop
  | rests (hcons : t.consPos.get g = s.consPos.get g) (hreg : t.reg.get (pubCons g) = s.reg.get (pubCons g))
      (hcount : batchCount g (t.port.get (consumer g)).busy ≤ batchCount g (s.port.get (consumer g)).busy)
  | drains (n : Nat) (htwo : 2 ≤ n) (hle : n ≤ availTo s g (seenProd s g))
      (hcons : t.consPos.get g = advance (s.consPos.get g) n (s.cap g))
      (hreg : t.reg.get (pubCons g) = s.reg.get (pubCons g))
      (hcount : batchCount g (t.port.get (consumer g)).busy ≤ batchCount g (s.port.get (consumer g)).busy + 1)
  | ends (hcount : batchCount g (t.port.get (consumer g)).busy = 0)

section

variable {s t u : State} {g : Ring} {sd : Side}

theorem BatchWithin.ofNone (h : batchCount g (s.port.get (consumer g)).busy = 0) : BatchWithin s g := by
  rw [BatchWithin, h]
  exact Nat.zero_le _

/-- A consumer whose operation has ended has no batch. -/
theorem BatchWithin.ofFinish {r : Result} (hsd : sd = consumer g) : BatchWithin (s.finish sd r) g :=
  .ofNone (by rw [hsd, finish_busy]; rfl)

/-- The bytes drained and not given back are fewer than the ring has. -/
theorem BatchWithin.count_le (h : BatchWithin s g) (hc : 0 < s.cap g) :
    batchCount g (s.port.get (consumer g)).busy ≤ (s.cap g - 1) / 2 := by
  have hlt := dist_lt (s.consPos.get g) (s.reg.get (pubCons g)) (s.cap g) hc
  unfold BatchWithin at h
  omega

/-- Bytes the consumer knows of, once drained, add to those not given back. -/
theorem RingOrdered.drained_advance (h : RingOrdered s g) (hr : Ranged s) {n : Nat}
    (hn : n ≤ availTo s g (seenProd s g)) :
    dist (advance (s.consPos.get g) n (s.cap g)) (s.reg.get (pubCons g)) (s.cap g) =
      dist (s.consPos.get g) (s.reg.get (pubCons g)) (s.cap g) + n := by
  have hc := hr.cap_pos g
  have hqueued := h.avail_le hc
  have hlive := h.drained_add_queued hc
  have hlt := dist_lt (s.prodPos.get g) (s.reg.get (pubCons g)) (s.cap g) hc
  exact dist_advance_left _ _ _ _ hc (hr.cap_le g) (by omega)

theorem BatchWithin.moves (h : BatchWithin s g) (hs : Safe s) (hcfg : t.cfg = s.cfg) (hm : BatchMoves g s t) :
    BatchWithin t g := by
  have hcap : t.cap g = s.cap g := by simp only [State.cap, hcfg]
  cases hm with
  | ends hcount => exact .ofNone hcount
  | rests hcons hreg hcount =>
    unfold BatchWithin at h ⊢
    rw [hcap, hcons, hreg]
    omega
  | drains n htwo hle hcons hreg hcount =>
    have hdrained := (hs.ordered g).drained_advance hs.ranged hle
    unfold BatchWithin at h ⊢
    rw [hcap, hcons, hreg, hdrained]
    omega

/-! ### What an action of the consumer does -/

theorem BatchMoves.finish {r : Result} : BatchMoves g s (u.finish (consumer g) r) :=
  .ends (by rw [finish_busy]; rfl)

/-- A phase that belongs to no batch, or to one that has drained nothing. -/
theorem BatchMoves.goOnEmpty {ph : Phase} (h : batchCount g (some ph) = 0) :
    BatchMoves g s (u.goOn (consumer g) ph) :=
  .ends (by rw [goOn_busy]; exact h)

theorem BatchMoves.goOn {ph ph' : Phase} (hbusy : (s.port.get (consumer g)).busy = some ph)
    (hcons : u.consPos = s.consPos) (hreg : u.reg = s.reg)
    (hcount : batchCount g (some ph') ≤ batchCount g (some ph)) : BatchMoves g s (u.goOn (consumer g) ph') :=
  .rests (congrArg (PerRing.get · g) hcons) (congrArg (PerPtr.get · (pubCons g)) hreg)
    (by rw [goOn_busy, hbusy]; exact hcount)

theorem BatchMoves.serveBits (todo : List IntBit) : BatchMoves g s (serveBits (consumer g) todo u) := by
  rcases serveBits_cases (consumer g) todo u with ⟨_, e⟩ | ⟨_, _, e⟩ | ⟨_, _, e⟩ | ⟨_, _, e⟩ <;> rw [e]
  · exact .finish
  · exact .goOnEmpty (ite_self _)
  · exact .goOnEmpty rfl
  · exact .goOnEmpty rfl

/-- A drain that got WouldBlock leaves the frames counted so far to the COMMIT. -/
theorem BatchMoves.drainBlocked {ph : Phase} (job : DrainJob) (cause : BlockCause) (pp : Word)
    (hbusy : (s.port.get (consumer g)).busy = some ph)
    (hcount : batchCount g (some (.giveBack job pp)) = batchCount g (some ph)) :
    BatchMoves g s (drainBlocked (consumer g) job cause pp s) := by
  rcases drainBlocked_cases (consumer g) job cause pp s with e | e | ⟨_, _, e⟩ <;> rw [e]
  · exact .finish
  · exact .goOn hbusy rfl rfl hcount.le
  · exact .goOnEmpty rfl

/-- A payload copied out is counted by the operation around the drain. -/
theorem BatchMoves.actDeliver {job : DrainJob} {pp : Word} {pos : Nat} {acc : List Byte}
    (hbusy : (s.port.get (consumer g)).busy = some (.copyOut job pp pos 0 acc)) :
    BatchMoves g s (actDeliver (consumer g) job pp acc s) := by
  rcases actDeliver_cases (consumer g) job pp acc s with
    ⟨_, e⟩ | ⟨_, _, rfl, _, e⟩ | ⟨_, _, rfl, _, e⟩ | ⟨_, _, rfl, e⟩ <;> rw [e]
  · exact .finish
  · exact .goOn hbusy rfl rfl (Nat.le_refl _)
  · exact .goOn hbusy rfl rfl (Nat.le_refl _)
  · exact .goOn hbusy rfl rfl (Nat.le_refl _)

/-- Each action of the side that consumes ring `g`. The read of the high header byte counts one frame more, and the
COMMIT ends the batch. -/
theorem act_batchMoves {ph : Phase} (hbusy : (s.port.get (consumer g)).busy = some ph)
    (hrole : phaseOfSide (consumer g) ph = true) : BatchMoves g s (act (consumer g) ph s) := by
  cases ph with
  | frameRead g' job len =>
    rcases actFrameRead_cases (consumer g) g' job len s with ⟨_, e⟩ | ⟨_, e⟩ <;> simp only [act, e]
    · exact .finish
    · exact .goOnEmpty rfl
  | frameWrite g' job len cp pos rest =>
    cases rest with
    | cons b rest => exact .goOnEmpty rfl
    | nil =>
      show BatchMoves g s (actPublish (consumer g) g' job len cp s)
      rcases actPublish_cases (consumer g) g' job len cp s with ⟨e, _⟩ | ⟨e, _⟩ <;> rw [e]
      · exact .finish
      · exact .goOnEmpty rfl
  | raiseLast b => exact .finish
  | drainRead job =>
    rcases actDrainRead_cases (consumer g) job s with ⟨_, e⟩ | ⟨_, e⟩ <;> simp only [act, e]
    · exact .drainBlocked _ _ _ hbusy rfl
    · exact .goOn hbusy rfl rfl (Nat.le_refl _)
  | headerLow job pp => exact .goOn hbusy rfl rfl (Nat.le_refl _)
  | headerHigh job pp b0 =>
    obtain rfl := consumer_injective (jobOfSide_consumer hrole)
    have hpp : pp = seenProd s (drainRing job) := by simp [seenProd_busy hbusy, drainSnapshot]
    rcases actHeaderHigh_cases (consumer (drainRing job)) job pp b0 s with ⟨_, e⟩ | ⟨hle, ⟨_, e⟩ | ⟨_, e⟩⟩ <;>
      simp only [act, e]
    · exact .drainBlocked _ _ _ hbusy rfl
    · exact .finish
    · exact .drains _ (two_le_frameSize _) (hpp ▸ hle) (PerRing.get_set_same ..) rfl
        (by rw [goOn_busy, hbusy]; simp [batchCount])
  | copyOut job pp pos left acc =>
    cases left with
    | zero => exact .actDeliver hbusy
    | succ n => exact .goOn hbusy rfl rfl (Nat.le_refl _)
  | giveBack job pp =>
    rcases actGiveBack_cases (consumer g) job pp s with e | ⟨e, _⟩ | ⟨_, _, _, e⟩ <;> simp only [act, e]
    · exact .finish
    · exact .goOnEmpty rfl
    · exact .goOnEmpty rfl
  | readStatus => exact .serveBits _
  | report todo => exact .goOnEmpty rfl
  | ackBit todo =>
    cases todo with
    | nil => exact .finish
    | cons b rest => exact .serveBits _

/-! ### Every step -/

/-- What a side does leaves the batch on a ring it does not consume alone. -/
theorem BatchWithin.own (h : BatchWithin s g) (hown : OwnWritesOnly sd s t) (hcfg : t.cfg = s.cfg)
    (hconsumer : sd = consumer g → BatchWithin t g) : BatchWithin t g := by
  by_cases hsd : sd = consumer g
  · exact hconsumer hsd
  · rw [BatchWithin, State.cap, hcfg, hown.port_of_ne (Ne.symm hsd), hown.cons g hsd,
      hown.reg _ (by rwa [owner_pubCons])]
    exact h

theorem BatchWithin.act {ph : Phase} (h : BatchWithin s g) (hs : Safe s) (hbusy : (s.port.get sd).busy = some ph) :
    BatchWithin (Machine.act sd ph s) g := by
  have hrole := hs.roles sd ph hbusy
  refine h.own (act_own s hrole) (act_frame sd ph s).cfg ?_
  rintro rfl
  exact h.moves hs (act_frame ..).cfg (act_batchMoves hbusy hrole)

/-- While a side goes on with its operation, the batch stays within what it has drained. -/
theorem BatchWithin.run (h : BatchWithin s g) (hs : Safe s) (n : Nat) : BatchWithin (Machine.run n sd s) g :=
  (run_induct (fun u => Safe u ∧ BatchWithin u g) sd (fun _ _ hph hu => ⟨hu.1.act hph, hu.2.act hu.1 hph⟩) n s
    ⟨hs, h⟩).2

theorem firstAction_batchCount {i : Instr} {ph : Phase} (h : firstAction s i = some ph) (g : Ring) :
    batchCount g (some ph) = 0 := by
  cases i with
  | enqueue | send | generateRx | dispatch => cases h; rfl
  | drain | processTx => cases h; exact ite_self _
  | _ => cases h

/-- An issued operation begins with an empty batch. -/
theorem BatchWithin.exec {i : Instr} (h : BatchWithin s g) (hs : Safe s) (ht : Machine.exec i s = .next t) :
    BatchWithin t g := by
  refine h.own (exec_own ht) (exec_cfg ht) fun hsd => ?_
  cases hph : firstAction s i with
  | none =>
    obtain ⟨u, _, rfl⟩ := exec_single ht hph
    exact .ofFinish hsd
  | some ph =>
    obtain ⟨hfit, ⟨_, rfl⟩ | ⟨_, rfl⟩⟩ := exec_several_cases ht hph
    · exact .ofFinish hsd
    · refine BatchWithin.run (.ofNone ?_) (hs.begins (exec_ready ht) hph hfit) _
      rw [hsd, goOn_busy]
      exact firstAction_batchCount hph g

theorem BatchWithin.present (h : BatchWithin s g) (hidle : (s.port.get sd).busy = none) (rq : Request) (n : Nat) :
    BatchWithin (s.present sd rq n) g :=
  h.own (.atPort ..) rfl fun hsd => .ofNone (by subst hsd; simp [hidle, batchCount])

/-- The reader-side copies have no part in a batch. -/
theorem BatchWithin.setSeen (h : BatchWithin s g) (ht : t = { s with seen := t.seen, waited := t.waited }) :
    BatchWithin t g := by
  rw [ht]
  exact h

end

/-- Settles O54: the side an input makes act counts a frame of its batch only with the bytes it drains, the other side
moves neither end of what is not given back, and a SYNC, an input's own or a due one, changes no batch. -/
theorem drainLoopsAreBounded : Obligations.DrainLoopsAreBounded := by
  intro s t hs h hproto ht
  have hsafe : Safe t := protocolStepsKeepSafe s t hs hproto ht
  suffices hbatch : ∀ g, BatchWithin t g from
    ⟨(batchesBounded_iff t).mpr hbatch, fun g => (hbatch g).count_le (hsafe.ranged.cap_pos g)⟩
  intro g
  rcases step_cases s t ht with ⟨_, rfl⟩ | ⟨x, rest, u, hin, hu, rfl⟩
  · exact h g
  · have hs' := safe_setInputs rest hs
    have h' : BatchWithin (s.setInputs rest) g := h g
    suffices hu' : BatchWithin u g from hu'.setSeen (settle_eq s _ u)
    cases x with
    | sync p => cases hu; exact h'.setSeen rfl
    | resume sd n => cases hu; exact h'.run hs' _
    | issue sd rq n =>
      obtain ⟨i, _, he⟩ := takeInput_issue_next hu
      have hidle : ((s.setInputs rest).port.get sd).busy = none := by simpa using (exec_ready he).1
      exact (h'.present hidle rq _).exec (hs'.present hidle rq _) he

end Sys2Proof.Machine
end

section
/-! GENERATE_RX (spec/43_agent_ops.md R165, R166) with no other agent in between: too little space, or the frame stored
and published as ENQUEUE does it; and the RAISE at a crossing of a watermark, which ends PROCESS_TX too (R161, R163). -/

namespace Sys2Proof.Machine

open Host (Outcome)

/-! ### The RAISE at a crossing -/

/-- The bit is raised where the quantity crosses its watermark within the call (90_conflicts.md C4). -/
def State.raiseAtCrossing (s : State) (b : IntBit) (before wm after : Nat) : State :=
  if crosses before wm after then s.raiseBit b else s

theorem crosses_iff {before wm after : Nat} : crosses before wm after = true ↔ before < wm ∧ wm ≤ after := by
  simp [crosses]

section

variable (s : State) (sd : Side) (b : IntBit) (before wm after : Nat)

/-- Of the whole state the status word alone is another. -/
theorem raiseAtCrossing_eq : s.raiseAtCrossing b before wm after =
    s.setIntStatus (if before < wm ∧ wm ≤ after then s.intStatus ||| bitMask b else s.intStatus) := by
  unfold State.raiseAtCrossing
  by_cases h : crosses before wm after
  · rw [if_pos h, if_pos (crosses_iff.mp h), State.raiseBit, setStatus, bitMask_and_intMask]
  · rw [if_neg h, if_neg (crosses_iff.not.mp h)]
    rfl

theorem act_raiseLast (ph : Phase) : act sd (.raiseLast b) (s.goOn sd ph) = (s.raiseBit b).finish sd .ok :=
  goOn_finish (s.raiseBit b) sd ph .ok

/-- The operation ends with the RAISE where there is a crossing, and else at once. -/
theorem leadsTo_raised :
    LeadsTo 1 sd (if crosses before wm after then s.goOn sd (.raiseLast b) else s.finish sd .ok)
      ((s.raiseAtCrossing b before wm after).finish sd .ok) := by
  unfold State.raiseAtCrossing
  split_ifs
  · exact .action (act_raiseLast ..)
  · exact (LeadsTo.refl ..).mono (Nat.zero_le 1)

end

/-- The status word is all that a RAISE adds to what an operation has changed. -/
theorem UnchangedBut.setIntStatus {parts : List Part} {s u : State} {r : Result}
    (h : UnchangedBut parts s (u.finish s.side r)) (v : Word) :
    UnchangedBut (parts ++ [.status]) s ((u.setIntStatus v).finish s.side r) := by
  refine ⟨fun p hp => ?_, h.cfg, h.inputs, h.side, h.quantum, h.waited, h.otherPort, h.operands⟩
  have hsame := h.same p fun hmem => hp (List.mem_append_left _ hmem)
  cases p with
  | status => exact absurd (by simp) hp
  | _ => exact hsame

/-! ### The frame -/

section

variable {s : State} {sd : Side} {g : Ring} {job : EnqJob} {len : Half}

/-- The space test failed, the producer stores nothing. -/
theorem act_frameRead_noSpace (s : State) (ph : Phase) (hsd : sd = producer g)
    (hspace : freeSpace (s.prodPos.get g) (s.seen.get (pubCons g)) (s.cap g) < frameSize len) :
    act sd (.frameRead g job len) (s.goOn sd ph) = s.finish sd .insufficientSpace := by
  subst hsd
  have hcp := ptrRead_producer (s.goOn (producer g) ph) g
  rcases actFrameRead_cases (producer g) g job len (s.goOn (producer g) ph) with ⟨_, e⟩ | ⟨hfree, _⟩
  · rw [act, e, goOn_finish]
  · rw [hcp] at hfree
    exact absurd hspace (Nat.not_lt.mpr hfree)

theorem setBytes_prodPos (s : State) (g : Ring) (pos : Nat) (bytes : List Byte) :
    (s.setBytes g pos bytes).prodPos = s.prodPos := by
  rw [setBytes_store_only]

/-- The space test passed, the bytes of the frame are stored, and the publication is next. -/
theorem leadsTo_stored (s : State) (hsd : sd = producer g)
    (hpay : (s.port.get sd).pbuf.length = len.toNat)
    (hfree : frameSize len ≤ freeSpace (s.prodPos.get g) (s.seen.get (pubCons g)) (s.cap g)) :
    ∃ pos', LeadsTo (frameSize len + 1) sd (s.goOn sd (.frameRead g job len))
      ((s.setBytes g ((s.prodPos.get g).toNat % s.cap g) (frameBytes len (s.port.get sd).pbuf)).goOn sd
        (.frameWrite g job len (s.seen.get (pubCons g)) pos' [])) := by
  have hlen : (frameBytes len (s.port.get sd).pbuf).length = frameSize len := by
    rw [frameBytes_length, hpay, frameSize_eq]
  obtain ⟨pos', hwrite⟩ := run_frameWrite (frameBytes len (s.port.get sd).pbuf) (frameSize len) sd g job len
    (s.seen.get (pubCons g)) ((s.prodPos.get g).toNat % s.cap g) s hlen.le
  rw [hlen, Nat.sub_self, run_zero] at hwrite
  have hread := LeadsTo.action (act_frameRead_fits (job := job) s (.frameRead g job len) hsd hfree)
  exact ⟨pos', (hread.trans ⟨_, Nat.le_refl _, hwrite⟩).mono (by omega)⟩

/-- The publication of GENERATE_RX goes on to the watermark test. -/
theorem act_publish_generate (s : State) (ph : Phase) (cp : Word) (pos : Nat) :
    act sd (.frameWrite g .generate len cp pos []) (s.goOn sd ph) =
      if crosses (dist (s.prodPos.get g) cp (s.cap g)) s.cfg.rxHighWatermark
          (dist (advance (s.prodPos.get g) (frameSize len) (s.cap g)) cp (s.cap g)) then
        (s.publish g (frameSize len)).goOn sd (.raiseLast .rxReady)
      else (s.publish g (frameSize len)).finish sd .ok := by
  rw [← goOn_goOn (s.publish g (frameSize len)) sd ph, ← goOn_finish (s.publish g (frameSize len)) sd ph]
  rfl

/-- The publication of GENERATE_RX, then the RAISE where the occupancy crosses its watermark (R165 step 5, R166). -/
theorem leadsTo_published (s : State) (sd : Side) (g : Ring) (len : Half) (cp : Word) (pos : Nat) :
    LeadsTo 2 sd (s.goOn sd (.frameWrite g .generate len cp pos []))
      (((s.publish g (frameSize len)).raiseAtCrossing .rxReady (dist (s.prodPos.get g) cp (s.cap g))
        s.cfg.rxHighWatermark (dist (advance (s.prodPos.get g) (frameSize len) (s.cap g)) cp (s.cap g))).finish
        sd .ok) :=
  (LeadsTo.action (act_publish_generate s _ cp pos)).trans (leadsTo_raised ..)

end

/-! ### GENERATE_RX -/

/-- `before`, the occupancy of the RX ring measured against the copy of the consumer pointer (R165 step 2, R166). -/
def rxOccupancy (s : State) : Nat := dist (s.prodPos.get .rx) (s.seen.get .rxTailPub) (s.cap .rx)

/-- The state in which the device has put a frame on the RX ring, published it and told the host at a crossing. -/
def State.generated (s : State) (bytes : List Byte) : State :=
  (s.withFrame .rx bytes).raiseAtCrossing .rxReady (rxOccupancy s) s.cfg.rxHighWatermark
    (rxOccupancy s + bytes.length)

section

variable {s : State} {len : Half}

/-- The frame stored and published, and the status word. -/
theorem generated_eq (s : State) (bytes : List Byte) : s.generated bytes =
    (s.withFrame .rx bytes).setIntStatus (if rxOccupancy s < s.cfg.rxHighWatermark ∧
      s.cfg.rxHighWatermark ≤ rxOccupancy s + bytes.length then s.intStatus ||| 0x1 else s.intStatus) := by
  rw [State.generated, raiseAtCrossing_eq, State.withFrame, setBytes_store_only]
  rfl

theorem generateRx_begins (hready : Ready (.generateRx len) s) (hpay : (s.port.get s.side).pbuf.length = len.toNat) :
    exec (.generateRx len) s =
      .next (run s.quantum s.side (s.dropResults.goOn s.side (.frameRead .rx .generate len))) := by
  rw [exec_several hready rfl]
  simp [Instr.payloadFits, frameTooLargeFor, hpay, perform]

theorem generateRx_noSpace (hready : Ready (.generateRx len) s) (hpay : (s.port.get s.side).pbuf.length = len.toNat)
    (hspace : freeSpace (s.prodPos.get .rx) (s.seen.get .rxTailPub) (s.cap .rx) < frameSize len)
    (hq : 1 ≤ s.quantum) :
    exec (.generateRx len) s = .next (s.dropResults.finish s.side .insufficientSpace) := by
  have hside : s.side = producer .rx := of_decide_eq_true hready.2
  rw [generateRx_begins hready hpay]
  exact congrArg Outcome.next ((LeadsTo.action (act_frameRead_noSpace s.dropResults _ hside hspace)).run_eq hq)

/-- The frame stored, its publication and the RAISE at a crossing are the last two actions. -/
theorem leadsTo_generated (hcfg : s.cfg.valid = true) (hpay : (s.port.get .device).pbuf.length = len.toNat)
    (hfree : frameSize len ≤ freeSpace (s.prodPos.get .rx) (s.seen.get .rxTailPub) (s.cap .rx)) :
    LeadsTo (frameSize len + 3) .device (s.goOn .device (.frameRead .rx .generate len))
      ((s.generated (frameBytes len (s.port.get .device).pbuf)).finish .device .ok) := by
  have hc : 0 < s.cap .rx := cap_pos hcfg .rx
  have hlen : (frameBytes len (s.port.get .device).pbuf).length = frameSize len := by
    rw [frameBytes_length, hpay, frameSize_eq]
  have hroom : rxOccupancy s + frameSize len ≤ s.cap .rx - 1 := (le_freeSpace _ _ _ _ hc).mp hfree
  have hafter : dist (advance (s.prodPos.get .rx) (frameSize len) (s.cap .rx)) (s.seen.get .rxTailPub) (s.cap .rx) =
      rxOccupancy s + frameSize len :=
    dist_advance_left _ _ _ _ hc (cap_bounds hcfg .rx).2 (by unfold rxOccupancy at hroom; omega)
  obtain ⟨pos', hstored⟩ := leadsTo_stored (g := .rx) (job := .generate) s rfl hpay hfree
  have hended := hstored.trans (leadsTo_published ..)
  rw [setBytes_cap, setBytes_prodPos, (setBytes_frame _ .device ..).cfg] at hended
  rw [State.generated, State.withFrame, hlen, ← hafter]
  exact hended

/-- The space test passed, the operation stores its frame, publishes it, and tells the host at a crossing. -/
theorem generateRx_ok (hready : Ready (.generateRx len) s) (hcfg : s.cfg.valid = true)
    (hpay : (s.port.get s.side).pbuf.length = len.toNat)
    (hfree : frameSize len ≤ freeSpace (s.prodPos.get .rx) (s.seen.get .rxTailPub) (s.cap .rx))
    (hq : len.toNat + 5 ≤ s.quantum) :
    exec (.generateRx len) s =
      .next ((s.dropResults.generated (frameBytes len (s.port.get s.side).pbuf)).finish s.side .ok) := by
  have hside : s.side = .device := of_decide_eq_true hready.2
  have hsize := frameSize_eq len
  rw [generateRx_begins hready hpay]
  rw [hside] at hpay ⊢
  have hwhole := leadsTo_generated (s := s.dropResults) hcfg (by rwa [dropResults_pbuf]) hfree
  rw [dropResults_pbuf] at hwhole
  exact congrArg Outcome.next (hwhole.run_eq (by omega))

end

/-- Settles O42: the test of the space, and the frame stored and published, with the RAISE where the occupancy crosses
its watermark. -/
theorem generateRxFollowsItsSteps : Obligations.GenerateRxFollowsItsSteps := by
  intro len s hidle hside hcfg hwf hpay hq before
  have hready : Ready (.generateRx len) s := ⟨hidle, decide_eq_true hside⟩
  by_cases hspace : s.cap .rx - 1 - before < len.toNat + 2
  · refine ⟨_, generateRx_noSpace hready hpay hspace (by omega), ?_⟩
    rw [if_pos hspace]
    exact ⟨answered_finish _, finish_unchangedBut ..⟩
  · refine ⟨_, generateRx_ok hready hcfg hpay (Nat.not_lt.mp hspace) hq, ?_⟩
    rw [if_neg hspace]
    have hlen : (frameBytes len (s.port.get s.side).pbuf).length = len.toNat + 2 := by rw [frameBytes_length, hpay]
    have hread := withFrame_read s.dropResults .rx (frameBytes len (s.port.get s.side).pbuf) hwf
      (by rw [hlen, State.dropResults_cap]; omega)
    rw [generated_eq, hlen]
    refine ⟨answered_finish _, hread 0 (by omega), hread 1 (by omega), fun k hk => ?_, fun j hj => ?_, ?_,
      withFrame_reg s.dropResults .rx _, rfl, (withFrame_unchangedBut ..).setIntStatus _⟩
    · rw [Nat.add_assoc _ 2 k, Nat.add_comm 2 k]
      exact hread (k + 2) (by omega)
    · exact withFrame_read_other s.dropResults .rx _ j fun k hk => hj k (by omega)
    · show ((s.dropResults.withFrame .rx _).prodPos.get .rx).toNat = _
      rw [withFrame_prod, hlen]
      exact advance_cap_toNat hcfg .rx (s.prodPos.get .rx) (len.toNat + 2)

end Sys2Proof.Machine
end

section
/-! PROCESS_TX (spec/43_agent_ops.md R161 to R164) with no other agent in between, in both drain modes: what has been
drained and delivered is given back by one publication, and TX_SPACE is raised where the free space crosses its
watermark; with no whole frame visible nothing changes. -/

namespace Sys2Proof.Machine

open Host (Outcome)

/-! ### Frames forwarded and given back -/

section

variable {s : State} {g : Ring} {frames : List (List Byte) × Nat}

/-- The consumer's position, its pointer register and its events, after one publication for all frames. -/
theorem commitCons_forward (hsome : frames.1 ≠ []) : commitCons g (s.forward g frames) =
    { s with
      consPos := s.consPos.set g (advance (s.consPos.get g) frames.2 (s.cap g))
      reg := s.reg.set (pubCons g) (advance (s.consPos.get g) frames.2 (s.cap g))
      events := s.events.set (consumer g) (s.events.get (consumer g) ++ frames.1.map (sinkEvent g)) } := by
  rw [State.forward, if_neg hsome, commitCons, State.setReg, PerRing.get_set_same]

theorem commitCons_forward_frame (s : State) (g : Ring) (frames : List (List Byte) × Nat) :
    ActionFrame (consumer g) s (commitCons g (s.forward g frames)) := by
  cases g <;> constructor <;> rfl

/-- Of the whole state the consumer's end of the ring and its events alone are others. -/
theorem commitCons_forward_unchangedBut (hside : s.side = consumer g) (hsome : frames.1 ≠ []) (r : Result) :
    UnchangedBut [.cons g, .reg (pubCons g), .events (consumer g)] s
      ((commitCons g (s.dropResults.forward g frames)).finish s.side r) := by
  refine .ofFrame (hside ▸ (commitCons_forward_frame ..).trans (finish_frame ..)) fun p hp => ?_
  rw [commitCons_forward hsome]
  cases p with
  | cons g' => exact PerRing.get_set_other _ _ _ _ fun e => hp (by simp [e])
  | reg p => exact PerPtr.get_set_other _ _ _ _ fun e => hp (by simp [e])
  | events sd => exact PerSide.get_set_other _ _ _ _ fun e => hp (by simp [e])
  | mem => exact fun _ => rfl
  | _ => rfl

/-- One frame forwarded. -/
theorem forward_one (hcfg : s.cfg.valid = true) :
    (s.pastFrame g).emit (consumer g) (sinkEvent g (nextPayload s g)) =
      s.forward g ([nextPayload s g], frameSize (nextLength s g)) := by
  rw [← forward_none ((s.pastFrame g).emit ..) g, forward_cons hcfg fun _ => rfl]
  rfl

/-- The whole frames among some bytes take no more than those bytes. -/
theorem framesFrom_le (s : State) (g : Ring) (pos avail : Nat) : (framesFrom s g pos avail).2 ≤ avail := by
  induction avail using Nat.strong_induction_on generalizing pos with
  | _ avail ih =>
    rcases framesFrom_cases s g pos avail with hnone | hframe
    · rw [hnone]
      exact Nat.zero_le _
    · have hsize := two_le_frameSize (lengthAt s g pos)
      have hrest := ih (avail - frameSize (lengthAt s g pos)) (by omega) (pos + frameSize (lengthAt s g pos))
      rw [framesFrom_frame s g hframe]
      show frameSize (lengthAt s g pos) + _ ≤ avail
      omega

/-- Where there is no frame to take, the first one is not whole. -/
theorem lt_frameSize_of_framesTo {pp : Word} (hcfg : s.cfg.valid = true) (h : (framesTo s g pp).1 = []) :
    availTo s g pp < frameSize (nextLength s g) := by
  by_contra hframe
  rw [framesTo_of_frame hcfg (Nat.not_lt.mp hframe)] at h
  cases h

end

/-! ### What PROCESS_TX leaves -/

/-- The free space of the TX ring when `n` bytes are given back, measured against the producer position read (R163). -/
def txFree (s : State) (n : Nat) : Nat := s.cap .tx - 1 - (availTo s .tx (s.seen.get .txHeadPub) - n)

/-- The state in which the device has drained the frames into its sink, given them back, and told the host at a
crossing. -/
def State.processed (s : State) (frames : List (List Byte) × Nat) : State :=
  (commitCons .tx (s.forward .tx frames)).raiseAtCrossing .txSpace (txFree s 0) s.cfg.txLowWatermark
    (txFree s frames.2)

/-- How PROCESS_TX answers Ok with these frames drained: what is claimed of the state it leaves. -/
structure Processed (s t : State) (frames : List (List Byte) × Nat) : Prop where
  answer : Answered s t .ok
  events : t.events.device = s.events.device ++ frames.1.map Event.sinkDevice
  cons : (t.consPos.get .tx).toNat = ((s.consPos.get .tx).toNat + frames.2) % s.cap .tx
  reg : t.reg.get .txTail = t.consPos.get .tx
  status : t.intStatus = if txFree s 0 < s.cfg.txLowWatermark ∧ s.cfg.txLowWatermark ≤ txFree s frames.2
    then s.intStatus ||| 0x2 else s.intStatus
  unchanged : UnchangedBut [.cons .tx, .reg .txTail, .events .device, .status] s t

section

variable {s : State} {frames : List (List Byte) × Nat}

theorem processed_ok (hside : s.side = .device) (hcfg : s.cfg.valid = true) (hsome : frames.1 ≠ []) :
    Processed s ((s.dropResults.processed frames).finish s.side .ok) frames := by
  have hunchanged := (commitCons_forward_unchangedBut (g := .tx) hside hsome .ok).setIntStatus
    (s.dropResults.processed frames).intStatus
  rw [State.processed, raiseAtCrossing_eq, commitCons_forward hsome] at hunchanged ⊢
  exact ⟨answered_finish _, rfl, advance_cap_toNat hcfg .tx (s.consPos.get .tx) frames.2, rfl, rfl, hunchanged⟩

/-- The COMMIT inside PROCESS_TX, then the RAISE where the free space crosses its watermark (R161 steps 4, 5). -/
theorem leadsTo_givenBack (s : State) (c0 pp : Word) (k : Nat) :
    LeadsTo 2 .device (s.goOn .device (.giveBack (.process c0 k) pp))
      (((commitCons .tx s).raiseAtCrossing .txSpace (freeSpace pp c0 (s.cap .tx)) s.cfg.txLowWatermark
        (freeSpace pp (s.consPos.get .tx) (s.cap .tx))).finish .device .ok) := by
  refine (LeadsTo.action ?_).trans (leadsTo_raised ..)
  rw [← goOn_goOn (commitCons .tx s) .device (.giveBack (.process c0 k) pp),
    ← goOn_finish (commitCons .tx s) .device (.giveBack (.process c0 k) pp)]
  rfl

/-- The last two actions where frames were drained. -/
theorem leadsTo_processed (hcfg : s.cfg.valid = true) (hsome : frames.1 ≠ [])
    (hle : frames.2 ≤ availTo s .tx (s.seen.get .txHeadPub)) (k : Nat) :
    LeadsTo 2 .device
      ((s.forward .tx frames).goOn .device (.giveBack (.process (s.consPos.get .tx) k) (s.seen.get .txHeadPub)))
      ((s.processed frames).finish .device .ok) := by
  have hcons : (s.forward .tx frames).consPos.get .tx = advance (s.consPos.get .tx) frames.2 (s.cap .tx) := by
    simp only [State.forward, if_neg hsome, PerRing.get_set_same]
  have hafter : freeSpace (s.seen.get .txHeadPub) ((s.forward .tx frames).consPos.get .tx) (s.cap .tx) =
      txFree s frames.2 := by
    rw [hcons]
    exact congrArg (s.cap .tx - 1 - ·)
      (dist_advance_right _ _ _ _ (cap_pos hcfg .tx) (cap_bounds hcfg .tx).2 hle)
  have hended := leadsTo_givenBack (s.forward .tx frames) (s.consPos.get .tx) (s.seen.get .txHeadPub) k
  rw [show (s.forward .tx frames).cap .tx = s.cap .tx from rfl, hafter] at hended
  exact hended

/-! ### The operation -/

theorem processTx_begins (hready : Ready .processTx s) : exec .processTx s =
    .next (run s.quantum s.side (s.dropResults.goOn s.side (.drainRead (.process (s.consPos.get .tx) 0)))) :=
  accept_ready _ _ _ hready.1 hready.2

/-- A full quantum is long enough for two actions for each byte of the TX ring, and a few more. -/
theorem processTx_ends {m : Nat} {u : State} {r : Result} (hready : Ready .processTx s)
    (hq : fullQuantum s.cfg ≤ s.quantum) (hm : m ≤ 2 * s.cap .tx + 8)
    (hrun : LeadsTo m .device (s.dropResults.goOn .device (.drainRead (.process (s.consPos.get .tx) 0)))
      (u.finish .device r)) : exec .processTx s = .next (u.finish s.side r) := by
  have hside : s.side = .device := of_decide_eq_true hready.2
  have htime : 2 * s.cap .tx + 8 ≤ fullQuantum s.cfg := by
    simp only [fullQuantum, State.cap, Config.cap]
    omega
  rw [processTx_begins hready, hside]
  exact congrArg Outcome.next (hrun.run_eq (hm.trans (htime.trans hq)))

/-- With no whole frame visible PROCESS_TX gets WouldBlock, in either mode. -/
theorem processTx_blocked (hready : Ready .processTx s) (hq : fullQuantum s.cfg ≤ s.quantum)
    (hnone : availTo s .tx (s.seen.get .txHeadPub) < frameSize (nextLength s .tx)) :
    exec .processTx s =
      .next (s.dropResults.finish s.side (.wouldBlock (blockCause s .tx (s.seen.get .txHeadPub)))) :=
  processTx_ends hready hq (by omega) (leadsTo_blocked (g := .tx) (s := s.dropResults) rfl nofun rfl hnone)

/-- In mode `one` the COMMIT follows the first payload. -/
theorem actDeliver_one (c0 pp : Word) (bytes : List Byte) (s : State) (hmode : s.cfg.txDrainMode = .one) :
    actDeliver (consumer .tx) (.process c0 0) pp bytes s =
      (s.emit (consumer .tx) (sinkEvent .tx bytes)).goOn (consumer .tx) (.giveBack (.process c0 1) pp) := by
  simp only [actDeliver, hmode]
  rfl

/-- In mode `one` a whole frame that is visible is drained and given back. -/
theorem processTx_one (hready : Ready .processTx s) (hcfg : s.cfg.valid = true) (hmode : s.cfg.txDrainMode = .one)
    (hq : fullQuantum s.cfg ≤ s.quantum)
    (hframe : frameSize (nextLength s .tx) ≤ availTo s .tx (s.seen.get .txHeadPub)) :
    exec .processTx s =
      .next ((s.dropResults.processed ([nextPayload s .tx], frameSize (nextLength s .tx))).finish s.side .ok) := by
  have hlt : availTo s .tx (s.seen.get .txHeadPub) < s.cap .tx := dist_lt _ _ _ (cap_pos hcfg .tx)
  have hdrained := leadsTo_delivered (g := .tx) (s := s.dropResults) (job := .process (s.consPos.get .tx) 0)
    rfl nofun rfl hcfg hframe
  rw [actDeliver_one _ _ _ (s.dropResults.pastFrame .tx) hmode, forward_one (s := s.dropResults) hcfg] at hdrained
  exact processTx_ends hready hq (m := frameSize (nextLength s .tx) + 2 + 2) (by omega)
    (hdrained.trans (leadsTo_processed (s := s.dropResults) hcfg (List.cons_ne_nil _ _) hframe 1))

theorem process_drainLoop {cfg : Config} (hmode : cfg.txDrainMode = .exhaust) (c0 : Word) :
    DrainLoop .tx cfg (.process c0) where
  ring _ := rfl
  notPlain _ := nofun
  next _ _ _ _ hcfg := by
    subst hcfg
    simp only [actDeliver, hmode]
    rfl

/-- In mode `exhaust` every whole frame that is visible is drained, and all are given back at once. -/
theorem processTx_exhaust (hready : Ready .processTx s) (hcfg : s.cfg.valid = true)
    (hmode : s.cfg.txDrainMode = .exhaust) (hq : fullQuantum s.cfg ≤ s.quantum)
    (hsome : (framesTo s .tx (s.seen.get .txHeadPub)).1 ≠ []) :
    exec .processTx s =
      .next ((s.dropResults.processed (framesTo s .tx (s.seen.get .txHeadPub))).finish s.side .ok) := by
  have hlt : availTo s .tx (s.seen.get .txHeadPub) < s.cap .tx := dist_lt _ _ _ (cap_pos hcfg .tx)
  have hloop := leadsTo_drained (g := .tx) (s := s.dropResults)
    (process_drainLoop (cfg := s.cfg) hmode (s.consPos.get .tx)) hcfg rfl 0
  have hframes : framesTo s.dropResults .tx (s.dropResults.seen.get (pubProd .tx)) =
      framesTo s .tx (s.seen.get .txHeadPub) := framesTo_congr rfl rfl fun _ => rfl
  rw [hframes, drainBlocked, Nat.zero_add, if_neg fun h => hsome (List.length_eq_zero_iff.mp h)] at hloop
  exact processTx_ends hready hq (m := 2 * availTo s .tx (s.seen.get .txHeadPub) + 3 + 2) (by omega)
    (hloop.trans (leadsTo_processed (s := s.dropResults) hcfg hsome (framesFrom_le ..) _))

end

/-- Settles O43: the drain gets WouldBlock, or the first frame is drained into the sink and given back. -/
theorem processTxDrainsOneFrame : Obligations.ProcessTxDrainsOneFrame := by
  intro s hidle hside hcfg hmode hq avail len before after
  have hready : Ready .processTx s := ⟨hidle, decide_eq_true hside⟩
  rcases Nat.lt_or_ge avail (len + 2) with hnone | hframe
  · refine ⟨_, processTx_blocked hready hq hnone, ?_⟩
    by_cases hheader : avail < 2
    · have hcause : blockCause s .tx (s.seen.get .txHeadPub) = .header := if_pos hheader
      rw [if_pos hheader, hcause]
      exact ⟨answered_finish _, finish_unchangedBut ..⟩
    · have hcause : blockCause s .tx (s.seen.get .txHeadPub) = .partialFrame := if_neg hheader
      rw [if_neg hheader, if_pos hnone, hcause]
      exact ⟨answered_finish _, finish_unchangedBut ..⟩
  · refine ⟨_, processTx_one hready hcfg hmode hq hframe, ?_⟩
    have h := processed_ok (frames := ([nextPayload s .tx], len + 2)) hside hcfg nofun
    rw [if_neg (by omega), if_neg (Nat.not_lt.mpr hframe)]
    exact ⟨h.answer, h.events, h.cons, h.reg, h.status, h.unchanged⟩

/-- Settles O44: the drain loop takes the whole frames that the device can see; with none the drain gets WouldBlock. -/
theorem processTxDrainsToExhaustion : Obligations.ProcessTxDrainsToExhaustion := by
  intro s hidle hside hcfg hmode hq avail frames before after
  have hready : Ready .processTx s := ⟨hidle, decide_eq_true hside⟩
  by_cases hnone : frames.1 = []
  · refine ⟨_, processTx_blocked hready hq (lt_frameSize_of_framesTo hcfg hnone), ?_⟩
    rw [if_pos hnone]
    exact ⟨answered_finish _, finish_unchangedBut ..⟩
  · refine ⟨_, processTx_exhaust hready hcfg hmode hq hnone, ?_⟩
    have h := processed_ok hside hcfg hnone
    rw [if_neg hnone]
    exact ⟨h.answer, h.events, h.cons, h.reg, h.status, h.unchanged⟩

end Sys2Proof.Machine
end

section
/-! Port accesses (spec/44_port_access.md R181, R182, R186 to R189): the reads and writes of the three latch registers,
and the byte a memory transaction reads or stores. -/

namespace Sys2Proof.Machine

/-! ### Writing INT_STATUS and INT_CLEAR -/

theorem setStatus_comm (status v w : Word) :
    setStatus (setStatus status v) w = setStatus (setStatus status w) v := by
  unfold setStatus
  rw [BitVec.or_assoc, BitVec.or_comm (v &&& intMask), ← BitVec.or_assoc]

theorem clearStatus_getLsbD (status v : Word) {k : Nat} (hk : k < 32) :
    (clearStatus status v).getLsbD k = (status.getLsbD k && !(decide (k < 3) && v.getLsbD k)) := by
  rw [clearStatus, BitVec.getLsbD_and, BitVec.getLsbD_not, BitVec.getLsbD_and, intMask_getLsbD, decide_eq_true hk,
    Bool.true_and, Bool.and_comm (v.getLsbD k)]

section

variable {s : State} (hidle : (s.port.get s.side).busy = none)

include hidle

theorem exec_regWrIntStatus : exec .regWrIntStatus s =
    .next ((s.dropResults.setIntStatus (setStatus s.intStatus (s.port.get s.side).wdata)).finish s.side .ok) := by
  rw [show exec .regWrIntStatus s = execRegWrIntStatus s from rfl, execRegWrIntStatus, accept_ready _ _ _ hidle rfl]
  simp [complete]

theorem exec_regWrIntClear (hside : s.side = .host) : exec .regWrIntClear s =
    .next ((s.dropResults.setIntStatus (clearStatus s.intStatus (s.port.get s.side).wdata)).finish s.side .ok) := by
  rw [show exec .regWrIntClear s = execRegWrIntClear s from rfl, execRegWrIntClear,
    accept_ready .regWrIntClear _ _ hidle (decide_eq_true hside)]
  simp [complete]

end

/-- Settles O19: either side may write INT_STATUS, and an OR with one word commutes with an OR with another. -/
theorem statusWriteOrs : Obligations.StatusWriteOrs := fun s hidle =>
  ⟨_, exec_regWrIntStatus hidle, answered_finish _, fun k _ => setStatus_getLsbD s.intStatus _ k,
    setIntStatus_finish_unchangedBut .., setStatus_comm s.intStatus,
    fun b hv => ((pseudoOperationsAreTheSame s).2.1 b hv).1⟩

/-- Settles O20: the host may write INT_CLEAR, which masks the written bits out of the status word and holds nothing
itself: the port is idle again, and a read of it presents 0. -/
theorem clearWriteClears : Obligations.ClearWriteClears := by
  intro s hidle hside
  have hanswered := answered_finish (s := s)
    (u := s.dropResults.setIntStatus (clearStatus s.intStatus (s.port.get s.side).wdata)) .ok
  exact ⟨_, exec_regWrIntClear hidle hside, hanswered, fun k hk => clearStatus_getLsbD s.intStatus _ hk,
    setIntStatus_finish_unchangedBut .., ⟨_, exec_regRdIntClear _ hanswered.1, by simp⟩,
    fun b hv => ((pseudoOperationsAreTheSame s).2.1 b hv).2⟩

/-! ### Writing INT_ENABLE -/

theorem enableValue_getLsbD (v : Word) (k : Nat) : (enableValue v).getLsbD k = (decide (k < 3) && v.getLsbD k) := by
  rw [enableValue, BitVec.getLsbD_and, intMask_getLsbD, Bool.and_comm]

/-- The bits that INT_ENABLE does not implement have no part in `irq`. -/
theorem and_enableValue_and_intMask (status v : Word) :
    status &&& enableValue v &&& intMask = status &&& v &&& intMask := by
  rw [enableValue, BitVec.and_assoc, BitVec.and_assoc v, BitVec.and_self, ← BitVec.and_assoc]

theorem exec_regWrIntEnable {s : State} (hidle : (s.port.get s.side).busy = none) (hside : s.side = .host) :
    exec .regWrIntEnable s =
      .next ((s.dropResults.setIntEnable (enableValue (s.port.get s.side).wdata)).finish s.side .ok) := by
  rw [show exec .regWrIntEnable s = execRegWrIntEnable s from rfl, execRegWrIntEnable,
    accept_ready .regWrIntEnable _ _ hidle (decide_eq_true hside)]
  simp [complete]

/-- An operation that has written INT_ENABLE has changed nothing else. -/
theorem setIntEnable_finish_unchangedBut (s : State) (v : Word) (r : Result) :
    UnchangedBut [.enable] s ((s.dropResults.setIntEnable v).finish s.side r) := by
  have h := finish_unchangedBut s r
  refine ⟨fun p hp => ?_, h.cfg, h.inputs, h.side, h.quantum, h.waited, h.otherPort, h.operands⟩
  cases p with
  | enable => exact absurd (List.mem_singleton.mpr rfl) hp
  | mem => exact fun _ => rfl
  | _ => rfl

/-- Settles O21: the host may write INT_ENABLE, and `irq` is computed from the new mask and the old
status word. -/
theorem enableWriteStores : Obligations.EnableWriteStores := by
  intro s hidle hside
  have hirq : ((s.dropResults.setIntEnable (enableValue (s.port.get s.side).wdata)).finish s.side .ok).irq =
      decide (s.intStatus &&& (s.port.get s.side).wdata &&& intMask ≠ 0) := by
    rw [← and_enableValue_and_intMask]
    rfl
  exact ⟨_, exec_regWrIntEnable hidle hside, answered_finish _, fun k _ => enableValue_getLsbD _ k, hirq,
    setIntEnable_finish_unchangedBut ..⟩

/-! ### Reading a latch register -/

section

variable {s : State} (hidle : (s.port.get s.side).busy = none)

include hidle

theorem exec_regRdIntStatus : exec .regRdIntStatus s =
    .next ((s.dropResults.setRdata s.side (s.intStatus &&& intMask)).finish s.side .ok) :=
  accept_ready _ s (fun s => readLatch (s.intStatus &&& intMask) s) hidle rfl

theorem exec_regRdIntEnable : exec .regRdIntEnable s =
    .next ((s.dropResults.setRdata s.side (s.intEnable &&& intMask)).finish s.side .ok) :=
  accept_ready _ s (fun s => readLatch (s.intEnable &&& intMask) s) hidle rfl

end

@[simp] theorem setRdata_finish_rdata (s : State) (sd : Side) (v : Word) (r : Result) :
    (((s.setRdata sd v).finish sd r).port.get sd).rdata = v := by simp

/-- Settles O22: each of the three reads presents its word in RDATA and does nothing else. -/
theorem latchReadsReturnTheBits : Obligations.LatchReadsReturnTheBits := by
  intro s hidle
  refine ⟨⟨_, exec_regRdIntStatus hidle, answered_finish _, fun k _ => ?_, setRdata_finish_unchangedBut ..⟩,
    ⟨_, exec_regRdIntEnable hidle, answered_finish _, fun k _ => ?_, setRdata_finish_unchangedBut ..⟩,
    ⟨_, exec_regRdIntClear s hidle, answered_finish _, setRdata_finish_rdata .., setRdata_finish_unchangedBut ..⟩⟩
  · rw [setRdata_finish_rdata]
    exact enableValue_getLsbD s.intStatus k
  · rw [setRdata_finish_rdata]
    exact enableValue_getLsbD s.intEnable k

/-! ### Memory transactions -/

section

variable {s : State} {g : Ring} (idx : Word) (hidle : (s.port.get s.side).busy = none)

include hidle

/-- MEM_RD tests the index and reads the byte there. -/
theorem exec_memRd (hside : s.side = consumer g) : exec (.memRd g idx) s =
    if idx.toNat < s.cap g then
      .next ((s.dropResults.setRbyte s.side (s.byteAt g idx.toNat)).finish s.side .ok)
    else .refused .badIndex :=
  accept_ready _ s (fun s => if idx.toNat < s.cap g then complete (s.setRbyte s.side (s.byteAt g idx.toNat))
    else .refused .badIndex) hidle (decide_eq_true hside)

/-- MEM_WR tests the index and stores WBYTE there. -/
theorem exec_memWr (hside : s.side = producer g) : exec (.memWr g idx) s =
    if idx.toNat < s.cap g then
      .next ((s.dropResults.setByte g idx.toNat (s.port.get s.side).wbyte).finish s.side .ok)
    else .refused .badIndex := by
  rw [show exec (.memWr g idx) s = execMemWr g idx s from rfl, execMemWr,
    accept_ready (.memWr g idx) _ _ hidle (decide_eq_true hside)]
  simp [complete]

end

/-- An operation that has only read a byte into RBYTE has changed nothing but its results. -/
theorem setRbyte_finish_unchangedBut (s : State) (b : Byte) (r : Result) :
    UnchangedBut [] s ((s.dropResults.setRbyte s.side b).finish s.side r) :=
  .ofFrame ((setRbyte_frame ..).trans (finish_frame ..)) fun p _ => by
    cases p with
    | mem => exact fun _ => rfl
    | _ => rfl

/-- An operation that has stored a byte has changed that store alone. -/
theorem setByte_finish_unchangedBut (s : State) (g : Ring) (i : Nat) (b : Byte) (r : Result) :
    UnchangedBut [.mem g] s ((s.dropResults.setByte g i b).finish s.side r) := by
  refine .ofFrame ((setByte_frame ..).trans (finish_frame ..)) fun p hp => ?_
  cases p with
  | mem g' => exact fun j => s.dropResults.setByte_read_other g g' i j b (.inl fun e => hp (by simp [e]))
  | _ => rfl

/-- Settles O32: an index of the store is its own remainder, so the byte read is the one at the index. -/
theorem memReadReturnsTheByte : Obligations.MemReadReturnsTheByte := by
  intro g idx s hidle hside
  refine ⟨fun hlt => ⟨_, (exec_memRd idx hidle hside).trans (if_pos hlt), answered_finish _, ?_,
    setRbyte_finish_unchangedBut ..⟩, fun hle => (exec_memRd idx hidle hside).trans (if_neg (Nat.not_lt.mpr hle))⟩
  simp [State.byteAt, Nat.mod_eq_of_lt hlt]

/-- Settles O33: one write of a canonical store, at an index that is its own remainder. -/
theorem memWriteStoresTheByte : Obligations.MemWriteStoresTheByte := by
  intro g idx s hidle hside hwf
  refine ⟨fun hlt => ⟨_, (exec_memWr idx hidle hside).trans (if_pos hlt), answered_finish _, ?_, fun j hj => ?_,
    setByte_finish_unchangedBut ..⟩, fun hle => (exec_memWr idx hidle hside).trans (if_neg (Nat.not_lt.mpr hle))⟩
  · simp [Nat.mod_eq_of_lt hlt, Memory.read_write_same _ _ _ hwf]
  · exact s.dropResults.setByte_read_other g g _ j _ (.inr (by rwa [State.dropResults_cap, Nat.mod_eq_of_lt hlt]))

end Sys2Proof.Machine
end

section
/-! The smallest and the largest use of a ring: a ring fresh from reset, which holds nothing (spec/70_reset_and_hazards.md
R231), and the frame that would fill the store, which never fits (R247; spec/40_ring_ops.md R122; spec/60_exceptions.md
R211). -/

namespace Sys2Proof.Machine

open Host (Outcome)

/-! ### A drain that finds no header -/

/-- The first action of DRAIN, the pointer read, ends it where fewer than two bytes are visible. -/
theorem drain_noHeader {s : State} {g : Ring} (hready : Ready (.drain g) s)
    (havail : availTo s g (s.seen.get (pubProd g)) < 2) (hq : 1 ≤ s.quantum) :
    exec (.drain g) s = .next (s.dropResults.finish s.side (.wouldBlock .header)) := by
  have hside : s.side = consumer g := of_decide_eq_true hready.2
  have hread : act (consumer g) (.drainRead (.plain g)) (s.dropResults.goOn (consumer g) (.drainRead (.plain g))) =
      s.dropResults.finish (consumer g) (.wouldBlock .header) :=
    (act_drainRead_plain s.dropResults _).trans (if_pos havail)
  rw [drain_begins hready, hside]
  exact congrArg Outcome.next ((LeadsTo.action hread).run_eq hq)

/-- Settles O2: every position and pointer is 0, so nothing lies in a ring, and DRAIN ends with its first action. -/
theorem freshRingsAreEmpty : Obligations.FreshRingsAreEmpty := by
  intro c hc g q
  have hused : dist ((State.resetWith c).prodPos.get g) ((State.resetWith c).seen.get (pubCons g)) (c.cap g) = 0 := by
    rw [resetWith_prodPos, resetWith_seen]
    exact dist_self _ _ (cap_pos hc g)
  have hidle : ((State.resetWith c).port.get (consumer g)).busy = none := by rw [resetWith_port]; rfl
  have havail : availTo (State.resetWith c) g ((State.resetWith c).seen.get (pubProd g)) = 0 := by
    rw [resetWith_seen, ← resetWith_prodPos c g]
    exact resetWith_empty hc g
  have hready : Ready (.drain g) { State.resetWith c with side := consumer g, quantum := q + 1 } :=
    ⟨hidle, decide_eq_true rfl⟩
  have hblocked := drain_noHeader hready (havail.trans_lt Nat.two_pos) (Nat.succ_pos q)
  exact ⟨hused, by rw [freeSpace, hused, Nat.sub_zero], havail, resetWith_prodPos c g,
    ⟨_, hblocked, answered_finish _⟩, rfl, rfl, resetWith_irq c, rfl, rfl⟩

/-! ### The largest frame -/

/-- No other result has the word of Ok. -/
theorem eq_ok_of_resultWord {r : Result} (h : resultWord r = resultWord .ok) : r = .ok := by
  cases r with
  | ok => rfl
  | frameTooLarge | insufficientSpace => exact absurd h (by decide)
  | wouldBlock cause => cases cause <;> exact absurd h (by decide)

/-- An operation that has ended answers the result it presented. -/
theorem eq_ok_of_answered {s u : State} {r : Result} (h : Answered s (u.finish s.side r) .ok) : r = .ok :=
  eq_ok_of_resultWord ((answered_finish r).2.symm.trans h.2)

/-- An ENQUEUE that answers Ok found the space for its frame below the copy of the consumer pointer. -/
theorem fits_of_enqueue_ok {s t : State} {g : Ring} {len : Half} (h : exec (.enqueue g len) s = .next t)
    (hok : Answered s t .ok) (hq : 1 ≤ s.quantum) :
    frameSize len ≤ freeSpace (s.prodPos.get g) (s.seen.get (pubCons g)) (s.cap g) := by
  have hready := exec_ready h
  have hpay : (s.port.get s.side).pbuf.length = len.toNat := of_decide_eq_true (exec_several_cases h rfl).1
  have hother {r : Result} (hend : exec (.enqueue g len) s = .next (s.dropResults.finish s.side r)) : r = .ok := by
    cases h.symm.trans hend
    exact eq_ok_of_answered hok
  by_contra hspace
  rcases Nat.lt_or_ge (s.cap g) (frameSize len) with hlarge | hfits
  · cases hother (enqueue_tooLarge hready hpay hlarge)
  · cases hother (enqueue_noSpace hready hpay hfits (Nat.not_le.mp hspace) hq)

/-- Where all but the one slot of R22 is free, the two positions are the same. -/
theorem eq_of_le_freeSpace {a b : Word} {c : Nat} (ha : a.toNat < c) (hb : b.toNat < c)
    (h : c - 1 ≤ freeSpace a b c) : a = b := by
  have hroom := (le_freeSpace a b (c - 1) c (by omega)).mp h
  exact (dist_eq_zero a b c ha hb).mp (by omega)

/-- In a safe state a copy that shows a whole empty ring is right: nothing lies in the ring, and nothing drained is
still to be given back. -/
theorem Safe.empty_of_freeSpace {s : State} (h : Safe s) (g : Ring)
    (hfree : s.cap g - 1 ≤ freeSpace (s.prodPos.get g) (s.seen.get (pubCons g)) (s.cap g)) :
    s.prodPos.get g = s.consPos.get g ∧ s.reg.get (pubCons g) = s.consPos.get g := by
  obtain ⟨hcopy, hreg⟩ := stalePointerUnderstatesSpace s g h
  have hpub : (s.reg.get (pubCons g)).toNat < s.cap g := by simpa using h.ranged.reg (pubCons g)
  have hempty := eq_of_le_freeSpace (h.ranged.prod g) (h.ranged.cons g) (hfree.trans (hcopy.trans hreg))
  have hgiven := eq_of_le_freeSpace (h.ranged.prod g) hpub (hfree.trans hcopy)
  exact ⟨hempty, hgiven.symm.trans hempty⟩

/-- Settles O37: no free space is as large as the store, and only an empty ring leaves all of it but one slot. -/
theorem fullStoreFrameNeverFits : Obligations.FullStoreFrameNeverFits := by
  intro g len s hidle hside hcfg hpay hq
  have hsize := frameSize_eq len
  have hlt : freeSpace (s.prodPos.get g) (s.seen.get (pubCons g)) (s.cap g) < s.cap g :=
    freeSpace_lt _ _ _ (cap_pos hcfg g)
  refine ⟨fun hfull => ?_, fun hsafe t ht hok => ?_, fun hrx hfull => ?_⟩
  · have hready : Ready (.enqueue g len) s := ⟨hidle, decide_eq_true hside⟩
    exact ⟨_, enqueue_noSpace hready hpay hfull.le (hfull ▸ hlt) hq, answered_finish _, finish_unchangedBut ..⟩
  · have hfits := fits_of_enqueue_ok ht hok hq
    exact ⟨by omega, fun hlargest => hsafe.empty_of_freeSpace g (by omega)⟩
  · subst hrx
    have hready : Ready (.generateRx len) s := ⟨hidle, decide_eq_true hside⟩
    exact ⟨_, generateRx_noSpace hready hpay (hlt.trans_le hfull) hq, answered_finish _, finish_unchangedBut ..⟩

end Sys2Proof.Machine
end
